-- ==== Sys2Proof/Word.lean ====
section
/-! DEFINITION. The words of the ring and the small finite ranges that the manual numbers. -/

namespace Sys2Proof

/-- A 16-bit word of a slot: bit 15 is the most significant (02, Slot Formats). -/
abbrev Word := BitVec 16

/-- A word as it travels: two 9-bit characters, high byte first, each its eight data bits and then its
parity bit (01 section 1.1). Bit 17 is the first bit sent: that a character's most significant bit goes first is not stated (DESIGN
CHOICE, log entry 27). -/
abbrev RingWord := BitVec 18

/-- One slot as received or sent: 32 words (01 section 1.1). -/
abbrev Slot := Vector RingWord 32

/-- One of the eight channels, 0..7. -/
abbrev Channel := Fin 8

/-- A 6-bit node address; 63 means none. -/
abbrev NodeAddress := BitVec 6

/-- A point number 0..227 (03 section 3.2). -/
abbrev PointNumber := Fin 228

end Sys2Proof
end

