-- ==== Sys2Proof/Syntax.lean ====
section
/-! DEFINITION. The commands of the block: one constructor per row of spec/opcode_table.json, in the table's order. -/

namespace Sys2Proof

/-- The whole time that power-on reset is in effect: the bits received meanwhile, oldest first, and the straps when it ends, where bit i
of `straps` is the level of NADDRi (R1, R195; log entry 26). -/
structure ResetPeriod where
  bits   : List Bool
  straps : NodeAddress
deriving DecidableEq, Repr

/-- A command. A slot operand is the slot as received, the bits of it that
passed before the receiver locked among them (log entry 6). An `order` operand is the order in which the separate events of several
channels inside one row are taken (R38, R135, R137; log entry 5): channels it does not name follow in ascending order.
A request row has no operand of its own: its arguments are those captured with the request at the head of the request queue
(R181, R182). -/
inductive Instr where
  /-- POWER_ON_RESET (R1, R195). -/
  | powerOnReset (period : ResetPeriod)
  /-- SYNC_FOUND (R3): the bits received in SEARCH, oldest first, and the bit position of the word 0 found. -/
  | syncFound (position : Fin 576) (bits : List Bool)
  /-- CONFIRM_SYNC (R4): words 1 to 31 of the slot found, then the 18 bits where the next word 0 must stand. -/
  | confirmSync (rest : Vector RingWord 31) (sync : RingWord)
  /-- MISSED_SLOT (R5). -/
  | missedSlot (slot : Slot) (order : List Channel)
  /-- DAMAGED_SLOT (R7). -/
  | damagedSlot (slot : Slot)
  /-- SLOT_FORWARDED (R8). -/
  | slotForwarded (slot : Slot)
  /-- SAMPLE_SLOT_TURN (R9). -/
  | sampleSlotTurn (slot : Slot) (order : List Channel)
  /-- REQUEST_CONSUMED (R10). -/
  | requestConsumed (slot : Slot)
  /-- SLOT_STRIPPED (R12). -/
  | slotStripped (slot : Slot)
  /-- EMPTY_SLOT_TURN (R15). -/
  | emptySlotTurn (slot : Slot)
  /-- STALE_TIMER_EXPIRY (R134). -/
  | staleTimerExpiry (channel : Channel)
  /-- CONTACTOR_TIMER_EXPIRY (R95). -/
  | contactorTimerExpiry (channel : Channel)
  /-- HALL_STOP_ASSERTED (R137): the asserted sample that makes the debounced state asserted (R136). -/
  | hallStopAsserted (order : List Channel)
  /-- HALL_STOP_RELEASED (R138): the released sample that makes the debounced state released (R136). -/
  | hallStopReleased
  | unknownRequest
  | identify
  | readDeviceStatus
  | setDeviceConfig
  | clearDeviceFlags
  | resetDevice
  | setHallBudget
  | writeChannelConfig
  | readChannelConfig
  | readChannel
  | start
  /-- PROGRAM_CHECK_COMPLETION (R67). -/
  | programCheckCompletion
  | hold
  | resume
  | skipStep
  | stop
  | clearTrip
  | writeStepPart0
  | writeStepPart1
  | readStep
  | freeSteps
  | writeRoute
  | removeRoute
  | readRoutes
  | writeLimits
  | readLimits
  | readTrip
  | readCounters
  | readHistory
  | clearCounters
  | clearCauses
  /-- HSTOP_N_SAMPLE (R136): the millisecond's sample of HSTOP_N, `asserted` when the pin is low. -/
  | hstopNSample (asserted : Bool) (order : List Channel)
deriving DecidableEq, Repr

end Sys2Proof
end

