-- ==== Sys2Proof/Decode.lean ====
section
/-! DEFINITION. Words to commands: spec/opcode_table.json gives bits for none of its rows (98_reader.md: no row with fixed bits or
fields), so no word spells a command. Requests arrive as slots, and 02's layouts are in Sys2Proof/Machine/Slots.lean, Ring.lean and
Operands.lean. -/

namespace Sys2Proof

/-- The command that a word of the table's bits spells: none, for every word (log entry 21). -/
def decodeTableWord (_nbits _w : Nat) : Option Instr := none

end Sys2Proof
end

