-- ==== Sys2Proof/Config.lean ====
section
/-! DEFINITION. What the part fixes: capacities, identity codes and bounds, and the one free value the spec leaves. -/

namespace Sys2Proof.Config

/-- Capacity of the Route Map (R27). -/
def routeCapacity : Nat := 2048

/-- Step records (R46). -/
def stepRecords : Nat := 512

/-- Capacity of the event queue (R178). -/
def eventCapacity : Nat := 32

/-- Capacity of the request queue (R181). -/
def requestCapacity : Nat := 4

/-- Capacity of the reply queue (R184). -/
def replyCapacity : Nat := 4

/-- Cycle records a channel keeps (R170). -/
def historyCapacity : Nat := 16

/-- Depth of the loop stack (R70). -/
def loopDepth : Nat := 4

/-- LOOP records one evaluation may pass (R69). -/
def traversalBound : Nat := 16

/-- Grant list and wait list entries (R147, R148). -/
def arbiterEntries : Nat := 8

/-- Greatest hall cap, in W (R145). -/
def capBound : Nat := 4000000

/-- IDENTIFY's vendor code, part code and revision (R188). -/
def vendorCode : Nat := 0x0B1D
def partCode : Nat := 2408
def revision : Nat := 3

/-- Scans one arbiter action can take, the last of which grants nothing. DEDUCED from R159: a scan that grants raises the counts
of granted channels at priorities 3, 2, 1, 0 in dictionary order, and at most 495 such counts sum to at most eight. -/
def scanBound : Nat := 496

/-- The bounds of the step accumulators (R107, R108). -/
def chargeBound : Int := 2 ^ 47 - 1
def energyBound : Int := 2 ^ 59 - 1

/-- The bounds of 32-bit and 48-bit saturating counters (09 section 9.1). -/
def counterMax32 : Nat := 2 ^ 32 - 1
def counterMax48 : Nat := 2 ^ 48 - 1

/-- The greatest magnitude an event's signed 32-bit value is capped at (R166, R168). -/
def valueCap : Nat := 2147483647

/-- FREE VALUE (log entry 20). The trip record's and the event's value of a PROGRAM_CONDITION trip is "the quantity's value" (R58, R72) in
a signed 32-bit field (R141, R177); where that quantity (STEP_TIME or CYCLE_COUNT above 2,147,483,647) does not fit, the spec does not
say what the field holds. -/
opaque unfitValue : Int → BitVec 32

end Sys2Proof.Config
end

