-- ==== Sys2Proof/Machine/State.lean ====
section
/-! DEFINITION. The state of the CQ2408 as plain data, every piece the spec gives it (INVENTORY.md, State), its stops, and the
state after power-on reset (R195). -/

namespace Sys2Proof.Machine

/-! ## Enumerations (02 section 2.6) -/

/-- The receiver's states (01 section 1.2). -/
inductive ReceiverMode where
  | search | confirm | locked
deriving DecidableEq, Repr

/-- The channel states (05 section 5.3). -/
inductive Status where
  | idle | connecting | waitBudget | running | displaced | holding | disconnecting | tripped
deriving DecidableEq, Repr

/-- How the channel's last run ended (R101). -/
inductive RunOutcome where
  | none | completed | stopped | tripped | reset
deriving DecidableEq, Repr

inductive StartMode where
  | fresh | continue
deriving DecidableEq, Repr

/-- The rounding modes of R111. -/
inductive RoundingMode where
  | nearestEven | towardZero | upward | downward
deriving DecidableEq, Repr

/-- The five kinds of sample step (R47). -/
inductive SampleKind where
  | chargeCC | dischargeCC | chargeCP | dischargeCP | rest
deriving DecidableEq, Repr

/-- The termination quantities (R52). -/
inductive Quantity where
  | stepTime | stepCharge | stepEnergy | packVoltage | packCurrent | cellMax | cellMin | cellSpread | tempMax
  | cycleCount | retention
deriving DecidableEq, Repr

inductive Comparison where
  | ge | gt | le | lt | eq | ne
deriving DecidableEq, Repr

/-- What a firing predicate does; GOTO holds its target (R51). -/
inductive PredicateOutcome where
  | next | goto (target : Nat) | finish | hold | fault
deriving DecidableEq, Repr

/-- A setpoint's mode (02 section 2.5). -/
inductive SetpointMode where
  | off | charge | discharge
deriving DecidableEq, Repr

/-- A setpoint's contactor command (02 section 2.5). -/
inductive Contactor where
  | open | close
deriving DecidableEq, Repr

/-- The two classes the Output Arbiter alternates between (R14). -/
inductive OutputClass where
  | a | b
deriving DecidableEq, Repr

/-- The outcome codes of replies (R186). -/
inductive ReplyCode where
  | ok | wrongState | inUse | owned | range | duplicate | tableFull | notFound | incomplete | programFault | hallStopped
  | notSafe | linkDown | unknownRequest
deriving DecidableEq, Repr

/-- The 27 causes (02 section 2.6). -/
inductive Cause where
  | converterFault | limit | stalePoint | anchorTimeout | linkLoss | hallStop | connectTimeout | disconnectTimeout
  | contactorDropped | programFault | programCondition
  | linkLost | hallStopAsserted | linkLocked | hallStopReleased | requestOverrun
  | displaced | holdTaken | granted
  | stepEnd | cycleEnd | programEnd
  | gap | arithInvalid | saturated | budgetLimited | readingInvalid
deriving DecidableEq, Repr

/-! ## Ring Port -/

/-- The receiver (01 section 1.2). `lastBits` are the last bits received, oldest first, at most 18 (R3). -/
structure Receiver where
  mode      : ReceiverMode
  framing   : Option Nat
  position  : Nat
  missCount : Nat
  lastBits  : List Bool
deriving DecidableEq, Repr

/-- What left downstream at the latest ring event: nothing yet, repeated bits, repeated words or one slot (R1, R8). -/
inductive RingOutput where
  | silent
  | bits (bits : List Bool)
  | words (words : List RingWord)
  | slot (slot : Slot)
deriving DecidableEq, Repr

/-- One route: key (source, reading index), target (channel, point) (R27). -/
structure Route where
  source  : Nat
  index   : Nat
  channel : Channel
  point   : PointNumber
deriving DecidableEq, Repr

/-- One point of a channel's point table (03 section 3.2). -/
structure Point where
  value   : Int
  age     : Nat
  updated : Bool
deriving DecidableEq, Repr

/-! ## Step programs -/

/-- A termination predicate (R51). -/
structure Predicate where
  quantity    : Quantity
  comparison  : Comparison
  threshold   : Int
  persistence : Nat
  outcome     : PredicateOutcome
deriving DecidableEq, Repr

/-- The optional parts of a sample step (R47); the same shape holds a channel's effective parameters (R49). -/
structure Parts where
  level        : Option Nat
  clamp        : Option Nat
  budget       : Option Nat
  terminations : Option (List Predicate)
deriving DecidableEq, Repr

/-- What a record holds by its kind (R47, R48). -/
inductive StepBody where
  | sample (kind : SampleKind) (next : Nat) (parts : Parts)
  | loop (target next count : Nat) (cycleFlag : Bool) (predicates : List Predicate)
  | finish
deriving DecidableEq, Repr

/-- A step record; no owner is FREE (R46). -/
structure StepRecord where
  owner : Option Channel
  body  : StepBody
deriving DecidableEq, Repr

/-- The staged write of R61: the head with its first predicate, and the termination count still to be met. -/
structure StagedWrite where
  index : Nat
  owner : Channel
  body  : StepBody
  count : Nat
deriving DecidableEq, Repr

/-- An entry of a loop stack (R70). -/
structure LoopEntry where
  index     : Nat
  remaining : Nat
deriving DecidableEq, Repr

/-! ## Channels -/

/-- The channel configuration record (05 section 5.1). NONE is an absent value. -/
structure ChannelConfig where
  converterAddress : Option Nat
  converterOutput  : Fin 4
  cellCount        : Nat
  temperatureCount : Nat
  currentMaximum   : Nat
  rounding         : RoundingMode
  priority         : Fin 4
  reportLevel      : Fin 4
  entryStep        : Option Nat
  staleTime        : Nat
  contactorTime    : Nat
  confirmCount     : Nat
  maxPointAge      : Nat
  maxInterval      : Nat
deriving DecidableEq, Repr

/-- A setpoint (R102). -/
structure Setpoint where
  address   : Option Nat
  output    : Fin 4
  mode      : SetpointMode
  magnitude : Nat
  clamp     : Nat
  contactor : Contactor
  refresh   : Nat
deriving DecidableEq, Repr

/-- An outbox entry: a setpoint and its urgent mark (R104). -/
structure OutboxEntry where
  setpoint : Setpoint
  urgent   : Bool
deriving DecidableEq, Repr

/-- A running one-shot timer: the ms time it was started or reloaded at and its length (R95, R133, R196). -/
structure Timer where
  startedAt : BitVec 32
  length    : Nat
deriving DecidableEq, Repr

/-- A present limit entry (R124). -/
structure LimitEntry where
  threshold   : Int
  persistence : Nat
deriving DecidableEq, Repr

/-- A present trip record (R141). -/
structure TripRecord where
  cause       : Cause
  detail      : Nat
  value       : Option Int
  threshold   : Option Int
  stepIndex   : Option Nat
  cycleNumber : Nat
  timeMs      : BitVec 32
  stateAtTrip : Status
deriving DecidableEq, Repr

/-- The lifetime counters and their saturated marks (09 section 9.1). -/
structure Lifetime where
  chargeIn           : Nat
  chargeOut          : Nat
  energyIn           : Nat
  energyOut          : Nat
  chargeInSaturated  : Bool
  chargeOutSaturated : Bool
  energyInSaturated  : Bool
  energyOutSaturated : Bool
deriving DecidableEq, Repr

/-- The five current-cycle totals (09 section 9.1). -/
structure CycleTotals where
  chargeIn   : Nat
  chargeOut  : Nat
  energyIn   : Nat
  energyOut  : Nat
  runSeconds : Nat
deriving DecidableEq, Repr

/-- A cycle record (R170). -/
structure CycleRecord where
  number    : Nat
  totals    : CycleTotals
  retention : Option Nat
deriving DecidableEq, Repr

/-- Everything the part keeps for one channel, block by block. -/
structure ChannelState where
  config          : ChannelConfig
  points          : Vector Point 228
  lastStamp       : Option (BitVec 32)
  invalidReported : Bool
  status          : Status
  runOutcome      : RunOutcome
  holdPending     : Bool
  skipPending     : Bool
  openConfirmed   : Bool
  closeCount      : Nat
  openCount       : Nat
  currentStep     : Option Nat
  effective       : Parts
  persistence     : Vector Nat 4
  loopStack       : List LoopEntry
  traversalCount  : Nat
  qs              : Int
  es              : Int
  timeFine        : Nat
  timeCoarse      : Nat
  budgetLimited   : Bool
  chargeSaturated : Bool
  energySaturated : Bool
  lastMagnitude   : Nat
  contactorTimer  : Option Timer
  outbox          : Option OutboxEntry
  refreshCount    : Nat
  lastSetpoint    : Option Setpoint
  limits          : Vector (Option LimitEntry) 9
  limitsLoaded    : Bool
  limitCounters   : Vector Nat 9
  staleTimer      : Option Timer
  tripRecord      : Option TripRecord
  lifetime        : Lifetime
  cycle           : CycleTotals
  cycleCount      : Nat
  reference       : Option Nat
  lastClosedOut   : Option Nat
  history         : List CycleRecord
  causes          : List Cause
deriving DecidableEq, Repr

/-! ## Shared blocks -/

/-- An entry of the grant list (R147). -/
structure Grant where
  channel : Channel
  watts   : Int
deriving DecidableEq, Repr

/-- An entry of the wait list (R148). -/
structure WaitEntry where
  channel  : Channel
  request  : Int
  priority : Fin 4
deriving DecidableEq, Repr

/-- An event; no channel is DEVICE (R177). -/
structure Event where
  cls         : Nat
  cause       : Cause
  channel     : Option Channel
  timeMs      : BitVec 32
  stepIndex   : Option Nat
  cycleNumber : Option Nat
  valueA      : Option Int
  valueB      : Option Int
  detail      : Nat
deriving DecidableEq, Repr

/-- An entry of the request queue (R181). -/
structure Request where
  source : NodeAddress
  tag    : Word
  kind   : Nat
  args   : List Word
deriving DecidableEq, Repr

/-- The four device flags (R185). -/
structure DeviceFlags where
  requestOverrun : Bool
  eventOverflow  : Bool
  anyTripped     : Bool
  hallStop       : Bool
deriving DecidableEq, Repr

/-- A reply record (R184); the results are held as the words R23 packs them in (log entry 19). -/
structure Reply where
  destination : NodeAddress
  kind        : Nat
  tag         : Word
  outcome     : ReplyCode
  flags       : DeviceFlags
  results     : List Word
deriving DecidableEq, Repr

/-- The program check in flight (R65, R68): the START's channel and mode, the visited set and the list still to visit. -/
structure Walk where
  channel : Channel
  mode    : StartMode
  visited : List Nat
  toVisit : List Nat
deriving DecidableEq, Repr

/-- The whole part. Channel states and step records are reached through `State.chan` and `State.record`. -/
structure State where
  pending            : List Instr
  receiver           : Receiver
  nodeAddress        : NodeAddress
  lastSetpointChannel : Channel
  lastClass          : OutputClass
  ringOut            : RingOutput
  routes             : List Route
  channels           : Vector ChannelState 8
  steps              : Vector StepRecord 512
  staged             : Option StagedWrite
  hallStop           : Bool
  previousSample     : Bool
  msTime             : BitVec 32
  importCap          : Nat
  exportCap          : Nat
  grants             : List Grant
  waits              : List WaitEntry
  eventQueue         : List Event
  deviceCauses       : List Cause
  requestQueue       : List Request
  replyQueue         : List Reply
  walk               : Option Walk
  eventDestination   : Nat
  deviceReportLevel  : Fin 4
  requestOverrun     : Bool
  eventOverflow      : Bool
deriving DecidableEq, Repr

/-! ## Stops -/

/-- Faults of the model. Safe: raised only in a state that no run from reset reaches. -/
inductive Fault where
  /-- Raised by PROGRAM_CHECK_COMPLETION when a walk is in flight and the request queue is empty: R11 keeps the START being
  executed in the queue, so no run reaches it. Safe: the model stops. -/
  | walkWithoutRequest
deriving DecidableEq, Repr

/-- Refusals of the model. Each is safe: the command names an event that the operands and the state do not make, so the part does
nothing under that name. -/
inductive Refusal where
  /-- A row of the table with no meaning yet; raised by `exec` alone. Safe. -/
  | notModelled (mnemonic : String)
  /-- Raised by the slot commands in LOCKED, the slot that locks included (R4), when R5, R7 or R8 gives the slot to another row of the
  table. Safe. -/
  | otherSlotEvent
  /-- Raised by SYNC_FOUND outside SEARCH, or with bits left over after the match, and by CONFIRM_SYNC outside CONFIRM: no such event of
  the receiver occurs there (R3, R4). Safe. -/
  | otherReceiverEvent
  /-- Raised by a request command when the request at the head of the request queue is not one of its kind (R182). Safe. -/
  | notAtHead
  /-- Raised by PROGRAM_CHECK_COMPLETION when no program check is in flight (R68). Safe. -/
  | noWalk
  /-- Raised by HALL_STOP_ASSERTED and HALL_STOP_RELEASED when the sample they name does not change the debounced state (R136). Safe. -/
  | noDebouncedChange
deriving DecidableEq, Repr

/-! ## Power-on values (R195) -/

/-- A point at power-on (R32). -/
def Point.initial : Point := { value := 0, age := 255, updated := false }

/-- No part present (R49). -/
def Parts.absent : Parts := { level := none, clamp := none, budget := none, terminations := none }

/-- A record at power-on and after FREE_STEPS (R46). -/
def StepRecord.free : StepRecord := { owner := none, body := .finish }

/-- The power-on configuration record (05 section 5.1). -/
def ChannelConfig.initial : ChannelConfig :=
  { converterAddress := none, converterOutput := 0, cellCount := 0, temperatureCount := 0, currentMaximum := 0,
    rounding := .nearestEven, priority := 0, reportLevel := 1, entryStep := none, staleTime := 500, contactorTime := 1000,
    confirmCount := 3, maxPointAge := 4, maxInterval := 2000 }

def Lifetime.zero : Lifetime :=
  { chargeIn := 0, chargeOut := 0, energyIn := 0, energyOut := 0, chargeInSaturated := false, chargeOutSaturated := false,
    energyInSaturated := false, energyOutSaturated := false }

def CycleTotals.zero : CycleTotals := { chargeIn := 0, chargeOut := 0, energyIn := 0, energyOut := 0, runSeconds := 0 }

/-- A channel at power-on (R32, R75, R78, R124, R133, R141, R164, R174). -/
def ChannelState.initial : ChannelState :=
  { config := .initial, points := Vector.replicate 228 Point.initial, lastStamp := none, invalidReported := false,
    status := .idle, runOutcome := .none, holdPending := false, skipPending := false, openConfirmed := false, closeCount := 0,
    openCount := 0, currentStep := none, effective := .absent, persistence := Vector.replicate 4 0, loopStack := [],
    traversalCount := 0, qs := 0, es := 0, timeFine := 0, timeCoarse := 0, budgetLimited := false, chargeSaturated := false,
    energySaturated := false, lastMagnitude := 0, contactorTimer := none, outbox := none, refreshCount := 0, lastSetpoint := none,
    limits := Vector.replicate 9 none, limitsLoaded := false, limitCounters := Vector.replicate 9 0, staleTimer := none,
    tripRecord := none, lifetime := .zero, cycle := .zero, cycleCount := 0, reference := none, lastClosedOut := none,
    history := [], causes := [] }

/-- The receiver at power-on: SEARCH, miss count 0, no framing (R6). -/
def Receiver.initial : Receiver :=
  { mode := .search, framing := none, position := 0, missCount := 0, lastBits := [] }

/-- The part right after power-on reset (R195), with straps that read 0 (DESIGN CHOICE, log entry 1). -/
def State.reset : State :=
  { pending := [], receiver := .initial, nodeAddress := 0, lastSetpointChannel := 7, lastClass := .b, ringOut := .silent,
    routes := [], channels := Vector.replicate 8 .initial, steps := Vector.replicate 512 .free, staged := none,
    hallStop := false, previousSample := false, msTime := 0, importCap := 0, exportCap := 0, grants := [], waits := [],
    eventQueue := [], deviceCauses := [], requestQueue := [], replyQueue := [], walk := none, eventDestination := 0,
    deviceReportLevel := 1, requestOverrun := false, eventOverflow := false }

end Sys2Proof.Machine
end

