-- ==== Sys2Proof/Machine/Encodings.lean ====
section
/-! DEFINITION. The codes of 02 section 2.6, each enumeration in the order listed there. -/

namespace Sys2Proof.Machine

def ReceiverMode.code : ReceiverMode → Nat
  | .search => 0 | .confirm => 1 | .locked => 2

def Status.code : Status → Nat
  | .idle => 0 | .connecting => 1 | .waitBudget => 2 | .running => 3 | .displaced => 4 | .holding => 5
  | .disconnecting => 6 | .tripped => 7

def RunOutcome.code : RunOutcome → Nat
  | .none => 0 | .completed => 1 | .stopped => 2 | .tripped => 3 | .reset => 4

def ReplyCode.code : ReplyCode → Nat
  | .ok => 0 | .wrongState => 1 | .inUse => 2 | .owned => 3 | .range => 4 | .duplicate => 5 | .tableFull => 6
  | .notFound => 7 | .incomplete => 8 | .programFault => 9 | .hallStopped => 10 | .notSafe => 11 | .linkDown => 12
  | .unknownRequest => 13

def RoundingMode.code : RoundingMode → Nat
  | .nearestEven => 0 | .towardZero => 1 | .upward => 2 | .downward => 3

def RoundingMode.ofCode : Nat → Option RoundingMode
  | 0 => some .nearestEven | 1 => some .towardZero | 2 => some .upward | 3 => some .downward | _ => none

def StartMode.ofCode : Nat → Option StartMode
  | 0 => some .fresh | 1 => some .continue | _ => none

/-- The step kind codes of the five sample kinds; LOOP is 5 and END 6. -/
def SampleKind.code : SampleKind → Nat
  | .chargeCC => 0 | .dischargeCC => 1 | .chargeCP => 2 | .dischargeCP => 3 | .rest => 4

def SampleKind.ofCode : Nat → Option SampleKind
  | 0 => some .chargeCC | 1 => some .dischargeCC | 2 => some .chargeCP | 3 => some .dischargeCP | 4 => some .rest | _ => none

def loopKindCode : Nat := 5
def endKindCode : Nat := 6

def StepBody.kindCode : StepBody → Nat
  | .sample kind _ _ => kind.code
  | .loop _ _ _ _ _ => loopKindCode
  | .finish => endKindCode

/-- The step owner code: the channel, or 8 for FREE. -/
def ownerCode : Option Channel → Nat
  | some c => c.val
  | none => 8

def Quantity.code : Quantity → Nat
  | .stepTime => 0 | .stepCharge => 1 | .stepEnergy => 2 | .packVoltage => 3 | .packCurrent => 4 | .cellMax => 5
  | .cellMin => 6 | .cellSpread => 7 | .tempMax => 8 | .cycleCount => 9 | .retention => 10

def Quantity.ofCode : Nat → Option Quantity
  | 0 => some .stepTime | 1 => some .stepCharge | 2 => some .stepEnergy | 3 => some .packVoltage | 4 => some .packCurrent
  | 5 => some .cellMax | 6 => some .cellMin | 7 => some .cellSpread | 8 => some .tempMax | 9 => some .cycleCount
  | 10 => some .retention | _ => none

def Comparison.code : Comparison → Nat
  | .ge => 0 | .gt => 1 | .le => 2 | .lt => 3 | .eq => 4 | .ne => 5

def Comparison.ofCode : Nat → Option Comparison
  | 0 => some .ge | 1 => some .gt | 2 => some .le | 3 => some .lt | 4 => some .eq | 5 => some .ne | _ => none

def PredicateOutcome.code : PredicateOutcome → Nat
  | .next => 0 | .goto _ => 1 | .finish => 2 | .hold => 3 | .fault => 4

/-- The target word of a predicate; 0 where the outcome holds none (log entry 14). -/
def PredicateOutcome.targetWord : PredicateOutcome → Nat
  | .goto target => target
  | _ => 0

def SetpointMode.code : SetpointMode → Nat
  | .off => 0 | .charge => 1 | .discharge => 2

def Contactor.code : Contactor → Nat
  | .open => 0 | .close => 1

/-- A converter address on the ring: 63 for NONE. -/
def addressCode (a : Option Nat) : Nat := a.getD 63

/-- A step index or entry step on the ring: 0xFFFF for NONE. -/
def stepCode (i : Option Nat) : Nat := i.getD 0xFFFF

/-- The cause codes. -/
def Cause.code : Cause → Nat
  | .converterFault => 0x01 | .limit => 0x02 | .stalePoint => 0x03 | .anchorTimeout => 0x04 | .linkLoss => 0x05
  | .hallStop => 0x06 | .connectTimeout => 0x07 | .disconnectTimeout => 0x08 | .contactorDropped => 0x09
  | .programFault => 0x0A | .programCondition => 0x0B
  | .linkLost => 0x10 | .hallStopAsserted => 0x11 | .linkLocked => 0x12 | .hallStopReleased => 0x13 | .requestOverrun => 0x14
  | .displaced => 0x20 | .holdTaken => 0x21 | .granted => 0x22
  | .stepEnd => 0x28 | .cycleEnd => 0x29 | .programEnd => 0x2A
  | .gap => 0x30 | .arithInvalid => 0x31 | .saturated => 0x32 | .budgetLimited => 0x33 | .readingInvalid => 0x34

/-- Every cause, in ascending code order. -/
def allCauses : List Cause :=
  [.converterFault, .limit, .stalePoint, .anchorTimeout, .linkLoss, .hallStop, .connectTimeout, .disconnectTimeout,
   .contactorDropped, .programFault, .programCondition,
   .linkLost, .hallStopAsserted, .linkLocked, .hallStopReleased, .requestOverrun,
   .displaced, .holdTaken, .granted, .stepEnd, .cycleEnd, .programEnd,
   .gap, .arithInvalid, .saturated, .budgetLimited, .readingInvalid]

def Cause.ofCode (n : Nat) : Option Cause := allCauses.find? (fun c => c.code == n)

/-- The event class of a cause (R176). -/
def Cause.cls : Cause → Nat
  | .converterFault => 3 | .limit => 3 | .stalePoint => 3 | .anchorTimeout => 3 | .linkLoss => 3 | .hallStop => 3
  | .connectTimeout => 3 | .disconnectTimeout => 3 | .contactorDropped => 3 | .programFault => 3 | .programCondition => 3
  | .linkLost => 3 | .hallStopAsserted => 3
  | .displaced => 2 | .holdTaken => 2 | .granted => 2
  | .stepEnd => 1 | .cycleEnd => 1 | .programEnd => 1 | .linkLocked => 1 | .hallStopReleased => 1
  | .gap => 0 | .arithInvalid => 0 | .saturated => 0 | .budgetLimited => 0 | .readingInvalid => 0 | .requestOverrun => 0

/-- The causes that belong to the device (02 section 2.6). -/
def Cause.ofDevice : Cause → Bool
  | .linkLost | .hallStopAsserted | .linkLocked | .hallStopReleased | .requestOverrun => true
  | _ => false

end Sys2Proof.Machine
end

