-- ==== Sys2Proof/Machine/Flags.lean ====
section
/-! DEFINITION. Flags: the cause flags of channels and device (R174, R175), the device flags of every reply (R185) and the trip
line (R144). -/

namespace Sys2Proof.Machine

/-- The cause flags with one set; the flags are held in ascending code order, each at most once. -/
def withCause (cause : Cause) (flags : List Cause) : List Cause :=
  allCauses.filter (fun d => d == cause || flags.contains d)

/-- The cause flags without those named (R175). -/
def withoutCauses (named flags : List Cause) : List Cause := flags.filter (fun d => !named.contains d)

/-- The named causes whose flags are set, in ascending code order, each once (R175). -/
def namedAndSet (named flags : List Cause) : List Cause :=
  allCauses.filter (fun d => named.contains d && flags.contains d)

/-- The set flags' codes in ascending code order (R88, R189). -/
def causeCodes (flags : List Cause) : List Nat := (allCauses.filter flags.contains).map Cause.code

/-- At least one channel is TRIPPED. -/
def State.anyTripped (s : State) : Bool := s.channels.toList.any (fun ch => ch.status == .tripped)

/-- TRIP_N is driven low (R144). -/
def State.tripLineLow (s : State) : Bool := s.anyTripped

/-- The four device flags as they stand (R185). -/
def State.deviceFlags (s : State) : DeviceFlags :=
  { requestOverrun := s.requestOverrun, eventOverflow := s.eventOverflow, anyTripped := s.anyTripped, hallStop := s.hallStop }

end Sys2Proof.Machine
end

