-- ==== Sys2Proof/Machine/Ops.lean ====
section
/-! DEFINITION. The named operations every meaning is written over: reaching a channel and a step record, raising a cause and
queueing its event (R174 to R179), timers (R95, R133, R196) and replies (R184). The block has no exception entry. -/

namespace Sys2Proof.Machine

/-! ## Reaching the state -/

/-- The state of one channel. -/
def State.chan (s : State) (c : Channel) : ChannelState := s.channels.get c

/-- Changes one channel's state and nothing else. -/
def State.modChan (s : State) (c : Channel) (f : ChannelState → ChannelState) : State :=
  { s with channels := s.channels.set c.val (f (s.chan c)) c.isLt }

/-- Every channel, ascending. -/
def allChannels : List Channel := List.finRange 8

/-- The step record at an index; an index outside the store finds a FREE record (log entry 17). -/
def State.record (s : State) (i : Nat) : StepRecord := s.steps[i]?.getD .free

/-- Replaces the step record at an index of the store. -/
def State.setRecord (s : State) (i : Nat) (r : StepRecord) : State :=
  { s with steps := s.steps.setIfInBounds i r }

/-- A channel is IDLE or TRIPPED: the states in which its tables may be written (R28, R60, R76). -/
def ChannelState.atRest (ch : ChannelState) : Bool := ch.status == .idle || ch.status == .tripped

/-- The order in which separate events of several channels inside one row are taken: those named by the command's operand first,
then the rest ascending (log entry 5). -/
def inOrder (order chosen : List Channel) : List Channel :=
  (order.filter chosen.contains).dedup ++ chosen.filter (fun c => !order.contains c)

/-! ## Events (R176 to R179) -/

/-- The fields a raising rule may give its event; those it does not give are absent, the detail 0 (R177). -/
structure EventFields where
  stepIndex   : Option Nat := none
  cycleNumber : Option Nat := none
  valueA      : Option Int := none
  valueB      : Option Int := none
  detail      : Nat := 0

/-- Inserts an event ahead of every entry of lower class and behind the others (R178). -/
def insertEvent (e : Event) : List Event → List Event
  | [] => [e]
  | d :: rest => if d.cls < e.cls then e :: d :: rest else d :: insertEvent e rest

/-- Offers an event to the queue, with the policy of a full queue (R178, R179). -/
def offerEvent (e : Event) (s : State) : State :=
  if s.eventQueue.length < Config.eventCapacity then
    { s with eventQueue := insertEvent e s.eventQueue }
  else
    match s.eventQueue.getLast? with
    | some last =>
      if last.cls < e.cls then
        { s with eventQueue := insertEvent e s.eventQueue.dropLast, eventOverflow := true }
      else { s with eventOverflow := true }
    | none => { s with eventOverflow := true }

/-- The event record of a cause, formed at the moment it is raised (R177). -/
def formEvent (cause : Cause) (channel : Option Channel) (f : EventFields) (s : State) : Event :=
  { cls := cause.cls, cause := cause, channel := channel, timeMs := s.msTime, stepIndex := f.stepIndex,
    cycleNumber := f.cycleNumber, valueA := f.valueA, valueB := f.valueB, detail := f.detail }

/-- Raises a channel cause: its flag is set, then it becomes an event when its class is at or above the channel's report level
(R174, R176). -/
def raiseChannel (c : Channel) (cause : Cause) (f : EventFields) (s : State) : State :=
  let s := s.modChan c (fun ch => { ch with causes := withCause cause ch.causes })
  if (s.chan c).config.reportLevel.val ≤ cause.cls then offerEvent (formEvent cause (some c) f s) s else s

/-- Raises a device cause, tested against the device report level (R174, R176). A device event has no optional field. -/
def raiseDevice (cause : Cause) (s : State) : State :=
  let s := { s with deviceCauses := withCause cause s.deviceCauses }
  if s.deviceReportLevel.val ≤ cause.cls then offerEvent (formEvent cause none {} s) s else s

/-! ## Timers (R196) -/

/-- Starts a timer at the present ms time. -/
def State.timer (s : State) (length : Nat) : Timer := { startedAt := s.msTime, length := length }

/-- Milliseconds since a timer was started, a difference modulo 2^32 (R196). -/
def Timer.elapsed (t : Timer) (now : BitVec 32) : Nat := (now - t.startedAt).toNat

/-- The configured time has passed since the timer was started or reloaded (R95, R134). -/
def Timer.expired (t : Timer) (now : BitVec 32) : Bool := t.length ≤ t.elapsed now

/-! ## Replies (R182, R184) -/

/-- What a request's execution answers. -/
structure Answer where
  outcome : ReplyCode
  results : List Word

/-- A refusal carries zero in every result word unless its rule gives it results (R24). -/
def Answer.refuse (code : ReplyCode) : Answer := { outcome := code, results := [] }

/-- An accepted request with its results. -/
def Answer.done (results : List Word) : Answer := { outcome := .ok, results := results }

/-- Appends the reply to a request, with the device flags as they stand (R184, R185). -/
def produceReply (r : Request) (a : Answer) (s : State) : State :=
  { s with replyQueue := s.replyQueue ++
      [{ destination := r.source, kind := r.kind, tag := r.tag, outcome := a.outcome, flags := s.deviceFlags,
         results := a.results }] }

/-- Ends a request's execution: the reply is placed, then the entry leaves the request queue (R181, R184). -/
def finishRequest (r : Request) (a : Answer) (s : State) : State :=
  let s := produceReply r a s
  { s with requestQueue := s.requestQueue.tail }

/-- The Request Engine may take the head: room for its reply, and no program check in flight (R182). -/
def State.engineReady (s : State) : Bool :=
  decide (s.replyQueue.length < Config.replyCapacity) && s.walk.isNone

/-- Takes the head of the request queue for execution when it is one of the row's kind (R182): while the engine is not ready it
waits, unchanged; `body` answers with the reply's contents, or with none for a START whose walk begins (R183). -/
def serve (mine : Request → Bool) (body : List Word → State → Option Answer × State) (s : State) :
    Host.Outcome State Fault Refusal :=
  match s.requestQueue with
  | [] => .refused .notAtHead
  | r :: _ =>
    if mine r then
      if s.engineReady then
        match body r.args s with
        | (some a, s') => .next (finishRequest r a s')
        | (none, s') => .next s'
      else .next s
    else .refused .notAtHead

/-- Serves a request kind whose execution is whole in one step. -/
def serveWhole (kind : Nat) (body : List Word → State → Answer × State) (s : State) :
    Host.Outcome State Fault Refusal :=
  serve (fun r => r.kind == kind) (fun args s => let (a, s') := body args s; (some a, s')) s

end Sys2Proof.Machine
end

