-- ==== Sys2Proof/Machine/Slots.lean ====
section
/-! DEFINITION. The slot layouts of 02: parity, the frame's fields, damage marking, and writing a frame (R2, R7, R20 to R26). -/

namespace Sys2Proof.Machine

/-! ## Characters and parity -/

/-- The parity bit of a character: a character with correct parity holds an odd number of ones (R2). -/
def parityBit (b : BitVec 8) : Bool :=
  !(b.getLsbD 0 ^^ b.getLsbD 1 ^^ b.getLsbD 2 ^^ b.getLsbD 3 ^^ b.getLsbD 4 ^^ b.getLsbD 5 ^^ b.getLsbD 6 ^^ b.getLsbD 7)

/-- The two data bytes of a word as it travels. -/
def highByte (w : RingWord) : BitVec 8 := w.extractLsb' 10 8
def lowByte (w : RingWord) : BitVec 8 := w.extractLsb' 1 8

/-- The 16 data bits of a word. -/
def dataOf (w : RingWord) : Word := highByte w ++ lowByte w

/-- Both characters of the word have correct parity (R2). -/
def parityGood (w : RingWord) : Bool :=
  w.getLsbD 9 == parityBit (highByte w) && w.getLsbD 0 == parityBit (lowByte w)

/-- A data word with correct parity in both characters. -/
def ringWord (w : Word) : RingWord :=
  let hi : BitVec 8 := w.extractLsb' 8 8
  let lo : BitVec 8 := w.extractLsb' 0 8
  (hi ++ BitVec.ofBool (parityBit hi)) ++ (lo ++ BitVec.ofBool (parityBit lo))

/-- The sync word 0x5CA3 and the 18-bit sync pattern: 0x5C, parity 1, 0xA3, parity 1 (01 section 1.2). -/
def syncWord : Word := 0x5CA3
def syncPattern : RingWord := ringWord syncWord

/-- The bits of a word in the order in which they travel: the high character first (02), and inside a character the most significant bit
first, then its parity bit. The order inside a character is not stated (DESIGN CHOICE, log entry 27). -/
def ringBits (w : RingWord) : List Bool := (List.range 18).map (fun i => w.getLsbD (17 - i))

/-! ## The frame's fields (R20) -/

/-- The data of word `i` of a slot. -/
def slotWord (slot : Slot) (i : Nat) : Word := (slot[i]?.map dataOf).getD 0

/-- Word 0 stands as the sync pattern; a wrong parity bit there is a mismatch (R2, R5). -/
def syncGood (slot : Slot) : Bool := slot.get 0 == syncPattern

def slotKindCode (slot : Slot) : Nat := ((slotWord slot 1).extractLsb' 12 4).toNat
def damagedFlag (slot : Slot) : Bool := (slotWord slot 1).getLsbD 11
def slotSource (slot : Slot) : NodeAddress := (slotWord slot 2).extractLsb' 8 6
def slotDestination (slot : Slot) : NodeAddress := (slotWord slot 2).extractLsb' 0 6

/-- Damaged: a parity error in any of words 1 to 31, or the damaged flag already set (R7). -/
def slotDamaged (slot : Slot) : Bool :=
  (slot.toList.drop 1).any (fun w => !parityGood w) || damagedFlag slot

/-- The damage marking of R7: the damaged flag set and both header characters' parity recomputed; the other words as received. -/
def markDamaged (slot : Slot) : Slot := slot.set 1 (ringWord (slotWord slot 1 ||| 0x0800))

/-- The slot kinds with a code (02 section 2.1). -/
def kindEmpty : Nat := 0
def kindSample : Nat := 1
def kindSetpoint : Nat := 2
def kindRequest : Nat := 3
def kindReply : Nat := 4
def kindEvent : Nat := 5

/-! ## Writing frames -/

/-- A slot with the given data words from word 0 on, zero filler after them, and correct parity everywhere (R21). -/
def slotOfWords (ws : List Word) : Slot := Vector.ofFn (fun i : Fin 32 => ringWord (ws.getD i.val 0))

/-- The frame the part writes: sync word, kind with a clear damaged flag, addresses, contents (R20). -/
def frame (kind : Nat) (source destination : NodeAddress) (contents : List Word) : Slot :=
  slotOfWords (syncWord :: BitVec.ofNat 16 (kind * 4096) ::
    BitVec.ofNat 16 (source.toNat * 256 + destination.toNat) :: contents)

/-- The EMPTY form a consumed or stripped slot is turned into: source 63, destination 63, contents 0 (R21). -/
def freedSlot : Slot := frame kindEmpty 63 63 []

/-! ## Packing result words (R23) -/

/-- One word holding an unsigned quantity of up to 16 bits, a code or a count. -/
def pack16 (n : Nat) : List Word := [BitVec.ofNat 16 n]

/-- One word holding a flag. -/
def packFlag (b : Bool) : List Word := [if b then 1 else 0]

/-- An unsigned 32-bit quantity, high word first. -/
def pack32 (n : Nat) : List Word := [BitVec.ofNat 16 (n / 65536), BitVec.ofNat 16 n]

/-- An unsigned 48-bit quantity, high word first. -/
def pack48 (n : Nat) : List Word := BitVec.ofNat 16 (n / 4294967296) :: pack32 n

/-- A signed 32-bit quantity, two's complement, high word first. -/
def packS32 (i : Int) : List Word := pack32 (BitVec.ofInt 32 i).toNat

/-- A signed quantity of up to 16 bits, two's complement. -/
def packS16 (i : Int) : List Word := [BitVec.ofInt 16 i]

/-- An optional field: a presence word, then the field's words, which are zero when it is absent (R23, R24). -/
def packOption {α : Type} (width : Nat) (pack : α → List Word) : Option α → List Word
  | none => 0 :: List.replicate width 0
  | some a => 1 :: pack a

/-- A list of varying length: a count word, then the elements in list order. -/
def packList {α : Type} (pack : α → List Word) (xs : List α) : List Word :=
  pack16 xs.length ++ xs.flatMap pack

end Sys2Proof.Machine
end

