-- ==== Sys2Proof/Machine/Points.lean ====
section
/-! DEFINITION. The Route Map and the Point Tables: route lookup, valid and invalid readings, ages, and the quantities derived from
the points (R27, R32 to R37, R43, R44). -/

namespace Sys2Proof.Machine

/-! ## Point kinds (03 section 3.2) -/

def cellPoints : Nat := 192
def packCurrentPoint : PointNumber := 224
def packVoltagePoint : PointNumber := 225
def feedbackPoint : PointNumber := 226
def converterStatusPoint : PointNumber := 227

inductive PointKind where
  | cellVoltage | temperature | packCurrent | packVoltage | feedback | converterStatus
deriving DecidableEq, Repr

def pointKind (p : PointNumber) : PointKind :=
  if p.val < 192 then .cellVoltage
  else if p.val < 224 then .temperature
  else if p.val = 224 then .packCurrent
  else if p.val = 225 then .packVoltage
  else if p.val = 226 then .feedback
  else .converterStatus

/-- The 16 bits of a reading as its point's kind reads them. -/
def readingValue (k : PointKind) (w : Word) : Int :=
  match k with
  | .temperature | .packCurrent => w.toInt
  | .cellVoltage | .packVoltage | .feedback | .converterStatus => (w.toNat : Int)

/-- The valid range of a kind. -/
def valueInRange (k : PointKind) (v : Int) : Bool :=
  match k with
  | .cellVoltage | .converterStatus => decide (0 ≤ v ∧ v ≤ 65535)
  | .temperature => decide (-400 ≤ v ∧ v ≤ 1500)
  | .packCurrent => decide (-30000 ≤ v ∧ v ≤ 30000)
  | .packVoltage => decide (0 ≤ v ∧ v ≤ 60000)
  | .feedback => decide (0 ≤ v ∧ v ≤ 1)

/-! ## The Route Map -/

/-- The place of a key in key order: ascending source, then ascending reading index (R27). -/
def routeKey (source index : Nat) : Nat := source * 256 + index

def Route.key (r : Route) : Nat := routeKey r.source r.index

/-- The route with a key, if any (R35). -/
def findRoute (routes : List Route) (source index : Nat) : Option Route :=
  routes.find? (fun r => r.key == routeKey source index)

/-- Inserts a route at its place in key order, replacing a route with the same key (R28). -/
def putRoute (r : Route) : List Route → List Route
  | [] => [r]
  | q :: rest =>
    if r.key < q.key then r :: q :: rest
    else if r.key = q.key then r :: rest
    else q :: putRoute r rest

/-- Deletes the route with a key (R29). -/
def dropRoute (source index : Nat) (routes : List Route) : List Route :=
  routes.filter (fun r => r.key != routeKey source index)

/-- The channel has a route to point 224 (R27). -/
def hasAnchorRoute (routes : List Route) (c : Channel) : Bool :=
  routes.any (fun r => r.channel == c && r.point == packCurrentPoint)

/-! ## Points -/

/-- The point of a channel with a number. -/
def ChannelState.point (ch : ChannelState) (p : PointNumber) : Point := ch.points.get p

/-- The configured points: cells, temperatures, then 225, 226 and 227 (R33). -/
def isConfigured (cfg : ChannelConfig) (p : PointNumber) : Bool :=
  decide (p.val < min cfg.cellCount 192) ||
    (decide (192 ≤ p.val) && decide (p.val < 192 + min cfg.temperatureCount 32)) ||
    decide (225 ≤ p.val)

/-- The configured points in ascending number. -/
def configuredPoints (cfg : ChannelConfig) : List PointNumber :=
  (List.finRange 228).filter (isConfigured cfg)

/-- A valid reading replaces the value, sets the age to 0 and sets the updated mark (R36). -/
def setPoint (p : PointNumber) (v : Int) (ch : ChannelState) : ChannelState :=
  { ch with points := ch.points.set p.val { value := v, age := 0, updated := true } p.isLt }

/-- The ages at the close of an evaluation, and the updated marks cleared (R34). -/
def moveAge (cfg : ChannelConfig) (p : PointNumber) (pt : Point) : Point :=
  if pt.updated then { pt with updated := false }
  else if isConfigured cfg p then { pt with age := min (pt.age + 1) 255 }
  else pt

def moveAges (ch : ChannelState) : ChannelState :=
  { ch with points := Vector.ofFn (fun p : PointNumber => moveAge ch.config p (ch.point p)) }

/-- What START and device reset do to a point table: ages 255, updated and invalid-reported marks clear, no last stamp, values kept
(R32). -/
def forgetPoints (ch : ChannelState) : ChannelState :=
  { ch with
    points := ch.points.map (fun pt => { pt with age := 255, updated := false })
    lastStamp := none
    invalidReported := false }

/-! ## Applying readings (R35 to R37) -/

/-- A reading as handed over by the Ring Port (R22). -/
structure Reading where
  index : Nat
  valid : Bool
  value : Word
deriving DecidableEq, Repr

/-- A routed reading is valid (R36). -/
def readingValid (p : PointNumber) (rd : Reading) : Bool :=
  rd.valid && valueInRange (pointKind p) (readingValue (pointKind p) rd.value)

/-- An invalid routed reading raises READING_INVALID once between two evaluations (R37). -/
def reportInvalid (c : Channel) (p : PointNumber) (rd : Reading) (s : State) : State :=
  if (s.chan c).invalidReported then s
  else
    let s := raiseChannel c .readingInvalid
      { detail := p.val, valueA := if rd.valid then some (readingValue (pointKind p) rd.value) else none } s
    s.modChan c (fun ch => { ch with invalidReported := true })

/-- One reading of a slot from a source (R35). -/
def applyReading (source : NodeAddress) (s : State) (rd : Reading) : State :=
  match findRoute s.routes source.toNat rd.index with
  | none => s
  | some r =>
    if readingValid r.point rd then
      s.modChan r.channel (setPoint r.point (readingValue (pointKind r.point) rd.value))
    else reportInvalid r.channel r.point rd s

/-- The channels whose point 224 receives a valid reading from these readings: each has one anchor (R38). -/
def anchored (routes : List Route) (source : NodeAddress) (readings : List Reading) : List Channel :=
  allChannels.filter (fun c => readings.any (fun rd =>
    match findRoute routes source.toNat rd.index with
    | none => false
    | some r => r.channel == c && r.point == packCurrentPoint && readingValid r.point rd))

/-! ## Derived quantities (R43, R44, R105) -/

/-- The values of the configured points in a range that have been received since START. -/
def countedValues (ch : ChannelState) (first count : Nat) : List Int :=
  (List.range count).filterMap (fun i =>
    match ch.points[first + i]? with
    | some pt => if pt.age < 255 then some pt.value else none
    | none => none)

def greatest : List Int → Option Int
  | [] => none
  | v :: rest => some (rest.foldl max v)

def least : List Int → Option Int
  | [] => none
  | v :: rest => some (rest.foldl min v)

/-- The counted cells' values (R43). -/
def countedCells (ch : ChannelState) : List Int := countedValues ch 0 (min ch.config.cellCount 192)

/-- The counted temperatures' values (R44). -/
def countedTemperatures (ch : ChannelState) : List Int := countedValues ch 192 (min ch.config.temperatureCount 32)

def cellMaximum (ch : ChannelState) : Option Int := greatest (countedCells ch)
def cellMinimum (ch : ChannelState) : Option Int := least (countedCells ch)

def cellSpread (ch : ChannelState) : Option Int :=
  match cellMaximum ch, cellMinimum ch with
  | some hi, some lo => some (hi - lo)
  | _, _ => none

def temperatureMaximum (ch : ChannelState) : Option Int := greatest (countedTemperatures ch)
def temperatureMinimum (ch : ChannelState) : Option Int := least (countedTemperatures ch)

/-- The pack voltage of point 225 while it has been received since START (R52, R127). -/
def packVoltageSeen (ch : ChannelState) : Option Int :=
  if (ch.point packVoltagePoint).age < 255 then some (ch.point packVoltagePoint).value else none

/-- V: the pack voltage when its age is at most the maximum point age (R105). -/
def packVoltage (ch : ChannelState) : Option Int :=
  if (ch.point packVoltagePoint).age ≤ ch.config.maxPointAge then some (ch.point packVoltagePoint).value else none

/-- Every configured point has an age of at most the maximum point age (R92). -/
def allFresh (ch : ChannelState) : Bool :=
  (configuredPoints ch.config).all (fun p => decide ((ch.point p).age ≤ ch.config.maxPointAge))

/-- The lowest-numbered configured point above the maximum point age (R132). -/
def stalePoint (ch : ChannelState) : Option PointNumber :=
  (configuredPoints ch.config).find? (fun p => decide (ch.config.maxPointAge < (ch.point p).age))

end Sys2Proof.Machine
end

