-- ==== Sys2Proof/Machine/Integrator.lean ====
section
/-! DEFINITION. The Integrator: the step accumulators and step time (R105 to R110), rounding and reported totals (R111, R112),
retention (R122), and the counters a step end folds into and a cycle close moves (R165 to R170). -/

namespace Sys2Proof.Machine

/-! ## Rounding (R111) -/

/-- The rounding function of R111 on an exact quotient with a positive divisor. -/
def roundQuotient (mode : RoundingMode) (numerator divisor : Int) : Int :=
  let q := numerator.tdiv divisor
  let r := numerator.tmod divisor
  if r = 0 then q
  else
    match mode with
    | .towardZero => q
    | .upward => if 0 < numerator then q + 1 else q
    | .downward => if 0 < numerator then q else q - 1
    | .nearestEven =>
      let away := if 0 < numerator then q + 1 else q - 1
      let twice := 2 * r.natAbs
      if twice < divisor.natAbs then q
      else if divisor.natAbs < twice then away
      else if q % 2 = 0 then q else away

/-- The inexact mark of a rounding (R111). -/
def inexact (numerator divisor : Int) : Bool := numerator.tmod divisor != 0

def chargeDivisor : Int := 3600000
def energyDivisor : Int := 360000000

/-- The reported step charge in mAh and energy in mWh (R112). -/
def reportedCharge (ch : ChannelState) : Int := roundQuotient ch.config.rounding ch.qs chargeDivisor
def reportedEnergy (ch : ChannelState) : Int := roundQuotient ch.config.rounding ch.es energyDivisor

/-! ## Stage 1 (R105 to R110) -/

/-- A sum that stops at its bound, either side (R107, R108). -/
def saturate (bound sum : Int) : Int := max (-bound) (min bound sum)

/-- The side of the bound a sum passed: +1, -1, or none when it is exact (R109). -/
def passedBound (bound sum : Int) : Option Int :=
  if bound < sum then some 1 else if sum < -bound then some (-1) else none

/-- Adds an interval's charge to Qs; the first saturation of the step sets the mark and raises SATURATED (R107, R109). -/
def addCharge (c : Channel) (q : Int) (s : State) : State :=
  let ch := s.chan c
  let sum := ch.qs + q
  let s := s.modChan c (fun ch => { ch with qs := saturate Config.chargeBound sum })
  match passedBound Config.chargeBound sum with
  | none => s
  | some side =>
    if ch.chargeSaturated then s
    else
      let s := s.modChan c (fun ch => { ch with chargeSaturated := true })
      raiseChannel c .saturated
        { detail := 1, valueA := some side, stepIndex := ch.currentStep, cycleNumber := some ch.cycleCount } s

/-- Adds an interval's energy to Es, as `addCharge` (R108, R109). -/
def addEnergy (c : Channel) (e : Int) (s : State) : State :=
  let ch := s.chan c
  let sum := ch.es + e
  let s := s.modChan c (fun ch => { ch with es := saturate Config.energyBound sum })
  match passedBound Config.energyBound sum with
  | none => s
  | some side =>
    if ch.energySaturated then s
    else
      let s := s.modChan c (fun ch => { ch with energySaturated := true })
      raiseChannel c .saturated
        { detail := 2, valueA := some side, stepIndex := ch.currentStep, cycleNumber := some ch.cycleCount } s

/-- Advances the step time; the coarse part saturates and a carry found there is discarded (R110). -/
def advanceTime (dt : Nat) (ch : ChannelState) : ChannelState :=
  let fine := ch.timeFine + dt
  if fine < 10000 then { ch with timeFine := fine }
  else { ch with timeFine := fine - 10000, timeCoarse := min (ch.timeCoarse + 1) Config.counterMax32 }

/-- Stage 1 in RUNNING: charge, energy and step time of the interval; an absent V integrates no energy and raises ARITH_INVALID
(R105 to R110). That the charge's cause is raised before the energy's is the model's choice (DESIGN CHOICE, log entry 15). -/
def integrate (c : Channel) (dt : Nat) (current : Int) (s : State) : State :=
  let ch := s.chan c
  let s := addCharge c (current * dt) s
  let s :=
    match packVoltage ch with
    | some v => addEnergy c (v * current * dt) s
    | none =>
      raiseChannel c .arithInvalid
        { detail := 17, stepIndex := ch.currentStep, valueA := some ((ch.point packVoltagePoint).age : Int) } s
  s.modChan c (advanceTime dt)

/-! ## Retention (R122) -/

/-- The retention of a charge-out against the reference capacity: permille, rounded down, at most 65535 (R122). -/
def retentionOf (chargeOut : Nat) : Option Nat → Option Nat
  | none => none
  | some reference => some (min (chargeOut * 1000 / reference) 65535)

/-- The RETENTION quantity: the last closed charge-out against the reference, as both stand (R122). -/
def retentionNow (ch : ChannelState) : Option Nat :=
  match ch.lastClosedOut with
  | none => none
  | some out => retentionOf out ch.reference

/-! ## The fold (R165 to R167) -/

/-- The positive and the negative part of a reported total: what it counts in and what it counts out (R165). -/
def countedIn (total : Int) : Nat := total.toNat
def countedOut (total : Int) : Nat := (-total).toNat

/-- A saturating counter after adding an amount. -/
def addCapped (bound counter amount : Nat) : Nat := min (counter + amount) bound

/-- The part of an amount that did not fit (R166). -/
def lost (bound counter amount : Nat) : Nat := counter + amount - bound

/-- The lifetime counters after a fold, with the marks of those that lost units (R166). -/
def foldLifetime (rq re : Int) (l : Lifetime) : Lifetime :=
  { chargeIn := addCapped Config.counterMax32 l.chargeIn (countedIn rq)
    chargeOut := addCapped Config.counterMax32 l.chargeOut (countedOut rq)
    energyIn := addCapped Config.counterMax48 l.energyIn (countedIn re)
    energyOut := addCapped Config.counterMax48 l.energyOut (countedOut re)
    chargeInSaturated := l.chargeInSaturated || lost Config.counterMax32 l.chargeIn (countedIn rq) != 0
    chargeOutSaturated := l.chargeOutSaturated || lost Config.counterMax32 l.chargeOut (countedOut rq) != 0
    energyInSaturated := l.energyInSaturated || lost Config.counterMax48 l.energyIn (countedIn re) != 0
    energyOutSaturated := l.energyOutSaturated || lost Config.counterMax48 l.energyOut (countedOut re) != 0 }

/-- The SATURATED details of the lifetime counters that lose units in a fold while their mark is clear, each with the amount that did
not fit, in the order charge, energy (R165, R166). -/
def lifetimeLosses (rq re : Int) (l : Lifetime) : List (Nat × Nat) :=
  [(3, l.chargeInSaturated, lost Config.counterMax32 l.chargeIn (countedIn rq)),
   (4, l.chargeOutSaturated, lost Config.counterMax32 l.chargeOut (countedOut rq)),
   (5, l.energyInSaturated, lost Config.counterMax48 l.energyIn (countedIn re)),
   (6, l.energyOutSaturated, lost Config.counterMax48 l.energyOut (countedOut re))].filterMap
    (fun (detail, marked, amount) => if marked || amount == 0 then none else some (detail, amount))

/-- The current-cycle totals after a fold (R165, R167). -/
def foldCycle (rq re : Int) (seconds : Nat) (t : CycleTotals) : CycleTotals :=
  { chargeIn := addCapped Config.counterMax32 t.chargeIn (countedIn rq)
    chargeOut := addCapped Config.counterMax32 t.chargeOut (countedOut rq)
    energyIn := addCapped Config.counterMax32 t.energyIn (countedIn re)
    energyOut := addCapped Config.counterMax32 t.energyOut (countedOut re)
    runSeconds := addCapped Config.counterMax32 t.runSeconds seconds }

/-- Some cycle total loses units in a fold (R167). -/
def cycleLoses (rq re : Int) (seconds : Nat) (t : CycleTotals) : Bool :=
  lost Config.counterMax32 t.chargeIn (countedIn rq) != 0 ||
  lost Config.counterMax32 t.chargeOut (countedOut rq) != 0 ||
  lost Config.counterMax32 t.energyIn (countedIn re) != 0 ||
  lost Config.counterMax32 t.energyOut (countedOut re) != 0 ||
  lost Config.counterMax32 t.runSeconds seconds != 0

/-- The counters of a channel after a fold, without its causes: the fold of a device reset (R165, R192). -/
def foldCounters (rq re : Int) (seconds : Nat) (ch : ChannelState) : ChannelState :=
  { ch with lifetime := foldLifetime rq re ch.lifetime, cycle := foldCycle rq re seconds ch.cycle }

/-- The fold of a step end, with the SATURATED causes it raises (R165 to R167). -/
def foldStep (c : Channel) (stepIndex : Option Nat) (rq re : Int) (seconds : Nat) (s : State) : State :=
  let ch := s.chan c
  let s := s.modChan c (foldCounters rq re seconds)
  let s := (lifetimeLosses rq re ch.lifetime).foldl (fun s (detail, amount) =>
    raiseChannel c .saturated
      { detail := detail, valueA := some ((min amount Config.valueCap : Nat) : Int), stepIndex := stepIndex,
        cycleNumber := some ch.cycleCount } s) s
  if cycleLoses rq re seconds ch.cycle then
    raiseChannel c .saturated
      { detail := 7, valueA := some rq, stepIndex := stepIndex, cycleNumber := some ch.cycleCount } s
  else s

/-! ## The cycle close (R168 to R170) -/

/-- A push into the cycle history: a full history loses its oldest record first (R170). -/
def pushHistory (r : CycleRecord) (h : List CycleRecord) : List CycleRecord :=
  (if h.length < Config.historyCapacity then h else h.drop (h.length + 1 - Config.historyCapacity)) ++ [r]

/-- Steps 1 to 6 of a cycle close (R168). -/
def closeCounters (ch : ChannelState) : ChannelState :=
  { ch with
    history := pushHistory
      { number := ch.cycleCount, totals := ch.cycle, retention := retentionOf ch.cycle.chargeOut ch.reference } ch.history
    lastClosedOut := some ch.cycle.chargeOut
    reference :=
      match ch.reference with
      | none => if 0 < ch.cycle.chargeOut then some ch.cycle.chargeOut else none
      | some f => some f
    cycleCount := min (ch.cycleCount + 1) Config.counterMax32
    cycle := CycleTotals.zero }

/-- A cycle close at a flagged LOOP record (R168); a count that stands at its maximum raises SATURATED, detail 8 (R167). -/
def closeCycle (c : Channel) (loopIndex : Nat) (s : State) : State :=
  let ch := s.chan c
  let s := s.modChan c closeCounters
  let s :=
    if ch.cycleCount < Config.counterMax32 then s
    else raiseChannel c .saturated { detail := 8, stepIndex := some loopIndex } s
  raiseChannel c .cycleEnd
    { stepIndex := some loopIndex
      cycleNumber := some ch.cycleCount
      valueA := some ((min ch.cycle.chargeOut Config.valueCap : Nat) : Int)
      valueB := (retentionOf ch.cycle.chargeOut ch.reference).map Int.ofNat } s

/-! ## Step totals -/

/-- What every step begin zeroes (R99). -/
def zeroStepTotals (ch : ChannelState) : ChannelState :=
  { ch with
    qs := 0, es := 0, timeFine := 0, timeCoarse := 0
    persistence := Vector.replicate 4 0
    budgetLimited := false, chargeSaturated := false, energySaturated := false, lastMagnitude := 0 }

end Sys2Proof.Machine
end

