-- ==== Sys2Proof/Machine/Setpoints.lean ====
section
/-! DEFINITION. Setpoint magnitude, production and the outbox (R102 to R104, R114 to R121). -/

namespace Sys2Proof.Machine

/-- The direction of a kind of step: a charging step asks for positive power, a discharging one for negative, REST for none (R50). -/
def SampleKind.mode : SampleKind → SetpointMode
  | .chargeCC | .chargeCP => .charge
  | .dischargeCC | .dischargeCP => .discharge
  | .rest => .off

/-- The kind of the channel's current step, read from the Step Store. -/
def currentKind (s : State) (c : Channel) : Option SampleKind :=
  match (s.chan c).currentStep with
  | none => none
  | some i =>
    match (s.record i).body with
    | .sample kind _ _ => some kind
    | .loop _ _ _ _ _ => none
    | .finish => none

/-- The kind of the CC or CP step the channel is RUNNING, none in every other case (R114). -/
def driveKind (s : State) (c : Channel) : Option SampleKind :=
  if (s.chan c).status = .running then (currentKind s c).filter (fun k => k.mode != .off) else none

/-- The setpoint mode by state (R102, R114). -/
def setpointMode (s : State) (c : Channel) : SetpointMode :=
  match driveKind s c with
  | some kind => kind.mode
  | none => .off

/-- The contactor command by state (R102). -/
def contactorCommand : Status → Contactor
  | .idle | .disconnecting | .tripped => .open
  | .connecting | .waitBudget | .running | .displaced | .holding => .close

/-- V when it can turn a power into a current: present and at least 100 (R116, R118). -/
def usableVoltage (ch : ChannelState) : Option Nat :=
  match packVoltage ch with
  | some v => if 100 ≤ v then some v.toNat else none
  | none => none

/-- The raw value of a step whose magnitude can be computed: the level of a CC step (R115), or the level turned into a current by the
channel's rounding mode for a CP step with a usable voltage (R116); none where R117 holds the magnitude. -/
def rawMagnitude (kind : SampleKind) (ch : ChannelState) : Option Nat :=
  let level := ch.effective.level.getD 0
  match kind with
  | .chargeCC | .dischargeCC => some level
  | .chargeCP | .dischargeCP =>
    (usableVoltage ch).map (fun v => (roundQuotient ch.config.rounding (level * 10000) v).toNat)
  | .rest => some 0

/-- The budget limit, when the voltage gives one: always truncated (R118). -/
def budgetCurrent (ch : ChannelState) : Option Nat :=
  (usableVoltage ch).map (fun v => ch.effective.budget.getD 0 * 10000 / v)

/-- The least of the raw value, the budget limit and the current maximum (R118, R119). -/
def limitedMagnitude (ch : ChannelState) (raw : Nat) : Nat :=
  min raw (min ((budgetCurrent ch).getD ch.config.currentMaximum) ch.config.currentMaximum)

/-- The budget, not the level or the current maximum, sets the magnitude (R120). -/
def budgetLimits (ch : ChannelState) (raw : Nat) : Option Nat :=
  match budgetCurrent ch with
  | some bud => if bud < raw ∧ bud ≤ ch.config.currentMaximum then some bud else none
  | none => none

/-- The magnitude of a CHARGE or DISCHARGE setpoint at its production, with the causes it raises (R114 to R120). -/
def computeMagnitude (c : Channel) (kind : SampleKind) (s : State) : Nat × State :=
  let ch := s.chan c
  match rawMagnitude kind ch with
  | none =>
    (ch.lastMagnitude,
      raiseChannel c .arithInvalid
        { detail := 16, stepIndex := ch.currentStep, valueA := packVoltage ch, valueB := some (ch.lastMagnitude : Int) } s)
  | some raw =>
    (limitedMagnitude ch raw,
      match budgetLimits ch raw with
      | none => s
      | some bud =>
        if ch.budgetLimited then s
        else
          let s := s.modChan c (fun ch => { ch with budgetLimited := true })
          raiseChannel c .budgetLimited
            { stepIndex := ch.currentStep, valueA := some ((min raw 30000 : Nat) : Int), valueB := some (bud : Int) } s)

/-- The outbox after a production: the new setpoint, urgent if either it or the one it replaces was (R104). -/
def putOutbox (old : Option OutboxEntry) (sp : Setpoint) (urgent : Bool) : OutboxEntry :=
  { setpoint := sp, urgent := urgent || (old.map OutboxEntry.urgent).getD false }

/-- The setpoint a channel's state gives, with a magnitude and the next refresh count (R102). -/
def formSetpoint (ch : ChannelState) (mode : SetpointMode) (magnitude : Nat) : Setpoint :=
  { address := ch.config.converterAddress, output := ch.config.converterOutput, mode := mode, magnitude := magnitude,
    clamp := ch.effective.clamp.getD 0, contactor := contactorCommand ch.status, refresh := (ch.refreshCount + 1) % 256 }

/-- Places a formed setpoint: last setpoint, refresh count, last magnitude (R121), outbox. -/
def placeSetpoint (mode : SetpointMode) (magnitude : Nat) (urgent : Bool) (ch : ChannelState) : ChannelState :=
  let sp := formSetpoint ch mode magnitude
  { ch with
    refreshCount := sp.refresh
    lastSetpoint := some sp
    lastMagnitude := if mode = .off then ch.lastMagnitude else magnitude
    outbox := some (putOutbox ch.outbox sp urgent) }

/-- Produces a setpoint of a channel (R102 to R104, R114). -/
def produceSetpoint (c : Channel) (urgent : Bool) (s : State) : State :=
  match driveKind s c with
  | none => s.modChan c (placeSetpoint .off 0 urgent)
  | some kind =>
    let computed := computeMagnitude c kind s
    computed.2.modChan c (placeSetpoint kind.mode computed.1 urgent)

end Sys2Proof.Machine
end

