-- ==== Sys2Proof/Machine/Arbiter.lean ====
section
/-! DEFINITION. The Power Budget Arbiter: net and caps (R145), shedding (R155, R156), the scan with displacement (R157 to R160) and
the actions (R149 to R154), each taken whole. -/

namespace Sys2Proof.Machine

/-! ## Net and caps (R145) -/

/-- The net N: the sum of the grants in the grant list. -/
def State.net (s : State) : Int := (s.grants.map Grant.watts).sum

/-- A net lies within [-X, M]. -/
def State.inCaps (s : State) (n : Int) : Bool := decide (-(s.exportCap : Int) ≤ n) && decide (n ≤ (s.importCap : Int))

def State.priorityOf (s : State) (c : Channel) : Fin 4 := (s.chan c).config.priority

/-- The grant a channel holds, 0 when none (R151). -/
def State.grantOf (s : State) (c : Channel) : Int :=
  match s.grants.find? (fun g => g.channel == c) with
  | some g => g.watts
  | none => 0

def State.waiting (s : State) (c : Channel) : Bool := s.waits.any (fun w => w.channel == c)

def State.dropGrant (s : State) (c : Channel) : State := { s with grants := s.grants.filter (fun g => g.channel != c) }

def State.dropWait (s : State) (c : Channel) : State := { s with waits := s.waits.filter (fun w => w.channel != c) }

/-- Joins the wait list at the end of its priority band (R148). -/
def insertWait (e : WaitEntry) : List WaitEntry → List WaitEntry
  | [] => [e]
  | w :: rest => if w.priority < e.priority then e :: w :: rest else w :: insertWait e rest

def State.joinWait (s : State) (c : Channel) (request : Int) : State :=
  { s with waits := insertWait { channel := c, request := request, priority := s.priorityOf c } s.waits }

/-! ## Taking a grant away (R155, R156, R158) -/

/-- The order in which grants are taken: lowest priority first, and within one priority the most recent first. -/
def takeOrder (s : State) (eligible : Grant → Bool) : List Grant :=
  (List.finRange 4).flatMap (fun p =>
    (s.grants.filter (fun g => eligible g && s.priorityOf g.channel == p)).reverse)

/-- What a hold does to the channel: HOLDING, hold-pending clear, HOLD_TAKEN, an urgent OFF/CLOSE setpoint (R83, R97, R100). The fields of
a HOLD_TAKEN that shedding or displacement raises are the model's choice (R156, R161; DESIGN CHOICE, log entry 29). -/
def enterHolding (c : Channel) (s : State) : State :=
  let s := s.modChan c (fun ch => { ch with status := .holding, holdPending := false })
  let s := raiseChannel c .holdTaken { stepIndex := (s.chan c).currentStep } s
  produceSetpoint c true s

/-- A grant taken by shedding or displacement: DISPLACED is raised, and the channel enters DISPLACED and the wait list, or HOLDING
when hold-pending is set (R100, R156, R161). -/
def takeGrant (g : Grant) (detail : Nat) (s : State) : State :=
  let c := g.channel
  let ch := s.chan c
  let s := s.dropGrant c
  let s := s.modChan c (fun ch => { ch with skipPending := false })
  let raised := raiseChannel c .displaced
    { stepIndex := ch.currentStep, cycleNumber := some ch.cycleCount, valueA := some g.watts, valueB := some s.net,
      detail := detail }
  if ch.holdPending then enterHolding c (raised s)
  else
    let s := (s.joinWait c g.watts).modChan c (fun ch => { ch with status := .displaced })
    produceSetpoint c true (raised s)

/-- Shedding, at most `fuel` grants: while the net lies outside the caps it takes one grant of the side that is over (R155). -/
def shedAtMost : Nat → State → State
  | 0, s => s
  | fuel + 1, s =>
    if s.inCaps s.net then s
    else
      match takeOrder s (fun g => if (s.importCap : Int) < s.net then decide (0 < g.watts) else decide (g.watts < 0)) with
      | [] => s
      | g :: _ => shedAtMost fuel (takeGrant g 8 s)

/-- Shedding takes grants until the net lies within the caps; each takes one entry, so the entries bound it (R155). -/
def shed (s : State) : State := shedAtMost s.grants.length s

/-! ## Granting (R160) -/

/-- Grants a waiting entry: it joins the tail of the grant list, the channel enters RUNNING and raises GRANTED, and it produces a
setpoint at once unless `silent` names it, the channel whose own stage 3 or 4 began the action (R100, R160, R161). -/
def grantEntry (silent : Option Channel) (w : WaitEntry) (s : State) : State :=
  let c := w.channel
  let s : State := { s.dropWait c with grants := s.grants ++ [({ channel := c, watts := w.request } : Grant)] }
  let s := s.modChan c (fun ch => { ch with status := .running })
  let ch := s.chan c
  let s := raiseChannel c .granted
    { stepIndex := ch.currentStep, cycleNumber := some ch.cycleCount, valueA := some w.request, valueB := some s.net } s
  if silent = some c then s else produceSetpoint c false s

/-! ## The scan (R157 to R159) -/

/-- The shortest prefix of the candidates whose taking lets the request fit (R158): `taken` are those already in it, oldest last. -/
def shortestTake (s : State) (request : Int) : List Grant → List Grant → Option (List Grant)
  | _, [] => none
  | taken, g :: rest =>
    let taken := taken ++ [g]
    if s.inCaps (s.net - (taken.map Grant.watts).sum + request) then some taken
    else shortestTake s request taken rest

/-- The grants that a waiting entry may displace: same sign, strictly lower priority, in taking order (R158). -/
def displaceable (s : State) (w : WaitEntry) : List Grant :=
  takeOrder s (fun g => decide (0 < g.watts) == decide (0 < w.request) && decide (s.priorityOf g.channel < w.priority))

/-- What a scan carries along its walk: the channels displaced in it, the failed pairs (sign positive, priority), and whether it
granted (R157, R159). -/
structure ScanMemo where
  displaced : List Channel
  failed    : List (Bool × Fin 4)
  granted   : Bool

/-- An earlier entry of the same sign with priority at or above this entry's failed in this scan (R157). -/
def blocked (memo : ScanMemo) (w : WaitEntry) : Bool :=
  memo.failed.any (fun (sign, p) => sign == decide (0 < w.request) && decide (w.priority ≤ p))

/-- One entry of a scan's walk (R157, R158). -/
def scanEntry (silent : Option Channel) (w : WaitEntry) (memo : ScanMemo) (s : State) : ScanMemo × State :=
  if memo.displaced.contains w.channel then (memo, s)
  else if blocked memo w then (memo, s)
  else if s.inCaps (s.net + w.request) then ({ memo with granted := true }, grantEntry silent w s)
  else
    match shortestTake s w.request [] (displaceable s w) with
    | some taken =>
      ({ memo with granted := true, displaced := memo.displaced ++ taken.map Grant.channel },
        grantEntry silent w (taken.foldl (fun s g => takeGrant g w.channel.val s) s))
    | none => ({ memo with failed := (decide (0 < w.request), w.priority) :: memo.failed }, s)

/-- The walk over the entries the wait list held when the scan began. An entry that joins during the scan was displaced in it and is
passed over (R157), so the walk need not visit it. -/
def scanWalk (silent : Option Channel) : List WaitEntry → ScanMemo → State → ScanMemo × State
  | [], memo, s => (memo, s)
  | w :: rest, memo, s =>
    let (memo, s) := scanEntry silent w memo s
    scanWalk silent rest memo s

/-- Scans until one grants nothing (R159), at most `fuel` of them. They fall inside one command, so no slot's turn comes between a
displacement's setpoint and that of a grant later in the action, of the two cases R159 names (DESIGN CHOICE, log entry 28). -/
def scanAtMost (silent : Option Channel) : Nat → State → State
  | 0, s => s
  | fuel + 1, s =>
    let (memo, s) := scanWalk silent s.waits { displaced := [], failed := [], granted := false } s
    if memo.granted then scanAtMost silent fuel s else s

/-- The scans that end an action (R159; log entry 18 for the bound). -/
def scan (silent : Option Channel) (s : State) : State := scanAtMost silent Config.scanBound s

/-! ## Actions (R149 to R154) -/

/-- A request action for a nonzero request: the entry joins the wait list, its channel waiting, and a scan runs (R150). -/
def requestAction (c : Channel) (request : Int) (silent : Option Channel) (s : State) : State :=
  let s := (s.joinWait c request).modChan c (fun ch => { ch with status := .waitBudget })
  scan silent s

/-- The grant list after an in-place regrant (R151). -/
def regrantInPlace (c : Channel) (old new : Int) (grants : List Grant) : List Grant :=
  if old = 0 then (if new = 0 then grants else grants ++ [{ channel := c, watts := new }])
  else if new = 0 then grants.filter (fun g => g.channel != c)
  else grants.map (fun g => if g.channel = c then { g with watts := new } else g)

/-- A regrant action, begun at stage 4 of the channel's own evaluation (R151, R152). -/
def regrantAction (c : Channel) (new : Int) (s : State) : State :=
  let old := s.grantOf c
  let before := s.net
  if s.inCaps (before - old + new) then
    let s := { s with grants := regrantInPlace c old new s.grants }
    if s.net.natAbs < before.natAbs then scan (some c) s else s
  else
    let s := shed (s.dropGrant c)
    let s :=
      if new = 0 then s
      else (s.joinWait c new).modChan c (fun ch => { ch with status := .waitBudget })
    scan (some c) s

/-- A release or a removal, whichever the channel's entry makes; a channel in neither list makes no action (R149, R153, R154). -/
def settlePower (c : Channel) (s : State) : State :=
  if s.grantOf c ≠ 0 then scan none (shed (s.dropGrant c))
  else if s.waiting c then scan none (s.dropWait c)
  else s

/-- A cap-change action; the second result is the number of grants shed (R146). -/
def capChange (importCap exportCap : Nat) (s : State) : State × Nat :=
  let s := { s with importCap := importCap, exportCap := exportCap }
  let s' := shed s
  (scan none s', s.grants.length - s'.grants.length)

end Sys2Proof.Machine
end

