-- ==== Sys2Proof/Machine/Steps.lean ====
section
/-! DEFINITION. Step end and step begin (R98, R99), trip handling (R139 to R141), termination predicates (R51 to R58) and the moves
through a program: LOOP records, the loop stack and the program's end (R69 to R74, R101). -/

namespace Sys2Proof.Machine

/-! ## Step end (R98) -/

/-- STEP_END details other than a list position (02 section 2.6). -/
def detailSkipped : Nat := 4
def detailStopped : Nat := 5
def detailTripped : Nat := 6
def detailProgramEnd : Nat := 7

/-- Ends the current step, if one is current: the fold, STEP_END, no current step (R98). The grant is not touched. -/
def endStep (c : Channel) (detail : Nat) (s : State) : State :=
  let ch := s.chan c
  match ch.currentStep with
  | none => s
  | some i =>
    let rq := reportedCharge ch
    let re := reportedEnergy ch
    let s := foldStep c (some i) rq re ch.timeCoarse s
    let s := raiseChannel c .stepEnd
      { stepIndex := some i, cycleNumber := some ch.cycleCount, valueA := some rq, valueB := some re, detail := detail } s
    s.modChan c (fun ch => { ch with currentStep := none })

/-! ## Trip handling (R139, R140) -/

/-- What a tripping rule gives its trip (07 section 7.6). -/
structure Trip where
  cause     : Cause
  detail    : Nat := 0
  value     : Option Int := none
  threshold : Option Int := none
  stepIndex : Option Nat := none

/-- Steps 3 and 4 of R139: pendings clear, TRIPPED, counts and limit counters 0, timers stopped. -/
def enterTripped (ch : ChannelState) : ChannelState :=
  { ch with
    holdPending := false, skipPending := false
    status := .tripped, runOutcome := .tripped, openConfirmed := false, closeCount := 0, openCount := 0
    contactorTimer := none, staleTimer := none, limitCounters := Vector.replicate 9 0 }

/-- A trip of a channel (R139); one that reaches IDLE or TRIPPED is not recorded and changes nothing (R140). -/
def trip (c : Channel) (t : Trip) (s : State) : State :=
  let ch := s.chan c
  if ch.atRest then s
  else
    let s := endStep c detailTripped s
    let s := settlePower c s
    let s := s.modChan c enterTripped
    let s := produceSetpoint c true s
    let s := s.modChan c (fun now => { now with
      tripRecord := some
        { cause := t.cause, detail := t.detail, value := t.value, threshold := t.threshold, stepIndex := t.stepIndex,
          cycleNumber := ch.cycleCount, timeMs := s.msTime, stateAtTrip := ch.status } })
    raiseChannel c t.cause
      { stepIndex := t.stepIndex, cycleNumber := some ch.cycleCount, valueA := t.value, valueB := t.threshold,
        detail := t.detail } s

/-- PROGRAM_FAULT trip details (02 section 2.6). -/
def detailLoopDepth : Nat := 1
def detailLoopChain : Nat := 2

/-! ## Step begin (R49, R50, R99) -/

/-- The parts a record carries; LOOP and END records carry none. -/
def StepBody.parts : StepBody → Parts
  | .sample _ _ parts => parts
  | .loop _ _ _ _ _ => .absent
  | .finish => .absent

/-- The present parts replace the effective values and the absent ones leave them as they stood (R49). -/
def Parts.overlay (old new : Parts) : Parts :=
  { level := new.level.or old.level, clamp := new.clamp.or old.clamp, budget := new.budget.or old.budget,
    terminations := new.terminations.or old.terminations }

/-- Steps 1 to 4 of a step begin (R99). -/
def takeUpStep (c : Channel) (i : Nat) (s : State) : State :=
  s.modChan c (fun ch => zeroStepTotals
    { ch with currentStep := some i, effective := ch.effective.overlay (s.record i).body.parts })

/-- The current step's request: the effective budget with the sign of the kind, 0 for REST (R50, R84, R99). -/
def stepRequest (s : State) (c : Channel) : Int :=
  let budget : Int := ((s.chan c).effective.budget.getD 0 : Nat)
  match currentKind s c with
  | none => 0
  | some kind =>
    match kind.mode with
    | .charge => budget
    | .discharge => -budget
    | .off => 0

/-- The urgent OFF/CLOSE setpoint of a channel that its own action left in WAIT_BUDGET (R99, R160). -/
def waitingSetpoint (c : Channel) (s : State) : State :=
  if (s.chan c).status = .waitBudget then produceSetpoint c true s else s

/-- The entry step begins at contactor confirmation: a request action, or none for a request of 0 (R92, R99, R150). -/
def beginEntryStep (c : Channel) (i : Nat) (s : State) : State :=
  let s := takeUpStep c i s
  if stepRequest s c = 0 then s.modChan c (fun ch => { ch with status := .running })
  else waitingSetpoint c (requestAction c (stepRequest s c) (some c) s)

/-- A step begins after a step end: a regrant action (R99, R151). -/
def beginNextStep (c : Channel) (i : Nat) (s : State) : State :=
  let s := takeUpStep c i s
  waitingSetpoint c (regrantAction c (stepRequest s c) s)

/-! ## The program's end (R74, R101) -/

/-- DISCONNECTING with contactor counts 0 and the contactor timer started (R86, R101). -/
def enterDisconnecting (c : Channel) (outcome : RunOutcome) (s : State) : State :=
  s.modChan c (fun ch => { ch with
    status := .disconnecting, runOutcome := outcome, closeCount := 0, openCount := 0
    contactorTimer := some (s.timer ch.config.contactorTime) })

/-- The program ends; `i` is the END record, the ended step or the LOOP record that ended it (R74, R101). -/
def endProgram (c : Channel) (i : Nat) (s : State) : State :=
  let s := enterDisconnecting c .completed s
  let s := raiseChannel c .programEnd { stepIndex := some i, cycleNumber := some (s.chan c).cycleCount } s
  let s := settlePower c s
  produceSetpoint c true s

/-! ## Termination predicates (R51 to R54) -/

/-- A quantity at the moment its predicate is evaluated; none when it is invalid (R52). -/
def quantityValue (ch : ChannelState) (current : Int) : Quantity → Option Int
  | .stepTime => some ch.timeCoarse
  | .stepCharge => some (reportedCharge ch)
  | .stepEnergy => some (reportedEnergy ch)
  | .packVoltage => packVoltageSeen ch
  | .packCurrent => some current
  | .cellMax => cellMaximum ch
  | .cellMin => cellMinimum ch
  | .cellSpread => cellSpread ch
  | .tempMax => temperatureMaximum ch
  | .cycleCount => some ch.cycleCount
  | .retention => (retentionNow ch).map Int.ofNat

/-- The comparison of a quantity with a threshold, as exact integers (R51). -/
def Comparison.holds (cmp : Comparison) (quantity threshold : Int) : Bool :=
  match cmp with
  | .ge => decide (threshold ≤ quantity)
  | .gt => decide (threshold < quantity)
  | .le => decide (quantity ≤ threshold)
  | .lt => decide (quantity < threshold)
  | .eq => decide (quantity = threshold)
  | .ne => decide (quantity ≠ threshold)

/-- A firing predicate: its list position, itself, and the quantity's value. -/
structure Fired where
  position  : Nat
  predicate : Predicate
  value     : Int

/-- ARITH_INVALID of a predicate whose quantity is invalid (R54). -/
def raiseInvalidQuantity (c : Channel) (position : Nat) (q : Quantity) (stepIndex : Option Nat) (s : State) : State :=
  raiseChannel c .arithInvalid { detail := position, valueA := some (q.code : Int), stepIndex := stepIndex } s

def setCounter (c : Channel) (position count : Nat) (s : State) : State :=
  s.modChan c (fun ch => { ch with persistence := ch.persistence.setIfInBounds position count })

/-- Evaluates the effective list from a position on, with its persistence counters, up to the first that fires (R53, R54). -/
def judgeStep (c : Channel) (current : Int) : List Predicate → Nat → State → Option Fired × State
  | [], _, s => (none, s)
  | p :: rest, k, s =>
    let ch := s.chan c
    match quantityValue ch current p.quantity with
    | none =>
      judgeStep c current rest (k + 1) (raiseInvalidQuantity c k p.quantity ch.currentStep (setCounter c k 0 s))
    | some v =>
      if p.comparison.holds v p.threshold then
        let count := ch.persistence[k]?.getD 0 + 1
        let s := setCounter c k count s
        if p.persistence ≤ count then (some { position := k, predicate := p, value := v }, s)
        else judgeStep c current rest (k + 1) s
      else judgeStep c current rest (k + 1) (setCounter c k 0 s)

/-- Evaluates a LOOP record's own predicates once, up to the first that fires; they hold no counters (R71). -/
def judgeLoop (c : Channel) (current : Int) (loopIndex : Nat) : List Predicate → Nat → State → Option Fired × State
  | [], _, s => (none, s)
  | p :: rest, k, s =>
    match quantityValue (s.chan c) current p.quantity with
    | none => judgeLoop c current loopIndex rest (k + 1) (raiseInvalidQuantity c k p.quantity (some loopIndex) s)
    | some v =>
      if p.comparison.holds v p.threshold then (some { position := k, predicate := p, value := v }, s)
      else judgeLoop c current loopIndex rest (k + 1) s

/-- A quantity in a signed 32-bit field: itself where it fits, a free value where it does not (log entry 20). -/
def fieldValue (v : Int) : Int :=
  if -2147483648 ≤ v ∧ v ≤ 2147483647 then v else (Config.unfitValue v).toInt

/-- The PROGRAM_CONDITION trip of a firing FAULT predicate (R58, R72). -/
def conditionTrip (f : Fired) (stepIndex : Option Nat) : Trip :=
  { cause := .programCondition, detail := f.position, value := some (fieldValue f.value),
    threshold := some f.predicate.threshold, stepIndex := stepIndex }

/-! ## LOOP records and moves (R69 to R73) -/

/-- Counts a loop against the stack, newest entry first: the record to move to and the stack after it; none when a push finds four
entries, LOOP_DEPTH (R73). -/
def countLoop (i target next count : Nat) (stack : List LoopEntry) : Option (Nat × List LoopEntry) :=
  match stack.dropWhile (fun e => e.index != i) with
  | e :: rest =>
    if 1 < e.remaining then some (target, { e with remaining := e.remaining - 1 } :: rest) else some (next, rest)
  | [] =>
    if count ≤ 1 then some (next, stack)
    else if stack.length < Config.loopDepth then some (target, { index := i, remaining := count - 1 } :: stack)
    else none

/-- The traversal trips: LOOP_CHAIN and LOOP_DEPTH (R69, R73). -/
def traversalTrip (detail i : Nat) : Trip := { cause := .programFault, detail := detail, stepIndex := some i }

/-- Moves the channel to a record; `fuel` is how many more LOOP records this evaluation may pass (R69 to R74). -/
def moveTo (c : Channel) (current : Int) : Nat → Nat → State → State
  | 0, i, s =>
    match (s.record i).body with
    | .sample _ _ _ => beginNextStep c i s
    | .finish => endProgram c i s
    | .loop _ _ _ _ _ => trip c (traversalTrip detailLoopChain i) s
  | fuel + 1, i, s =>
    match (s.record i).body with
    | .sample _ _ _ => beginNextStep c i s
    | .finish => endProgram c i s
    | .loop target next count cycleFlag predicates =>
      let s := s.modChan c (fun ch => { ch with traversalCount := ch.traversalCount + 1 })
      let s := if cycleFlag then closeCycle c i s else s
      match judgeLoop c current i predicates 0 s with
      | (some f, s) =>
        match f.predicate.outcome with
        | .next => moveTo c current fuel next s
        | .goto there => moveTo c current fuel there s
        | .finish => endProgram c i s
        | .hold => moveTo c current fuel next (s.modChan c (fun ch => { ch with holdPending := true }))
        | .fault => trip c (conditionTrip f (some i)) s
      | (none, s) =>
        match countLoop i target next count (s.chan c).loopStack with
        | some (there, stack) => moveTo c current fuel there (s.modChan c (fun ch => { ch with loopStack := stack }))
        | none => trip c (traversalTrip detailLoopDepth i) s

/-- A move within the present evaluation (R69). -/
def move (c : Channel) (current : Int) (i : Nat) (s : State) : State :=
  moveTo c current (Config.traversalBound - (s.chan c).traversalCount) i s

/-- The next link of a record; an END record, which no step is, leads to itself (log entry 17). -/
def nextLink (s : State) (i : Nat) : Nat :=
  match (s.record i).body with
  | .sample _ next _ => next
  | .loop _ next _ _ _ => next
  | .finish => i

/-- The outcome of a firing predicate of the effective list of step `i` (R55 to R58). -/
def takeOutcome (c : Channel) (current : Int) (i : Nat) (f : Fired) (s : State) : State :=
  match f.predicate.outcome with
  | .next => move c current (nextLink s i) (endStep c f.position s)
  | .goto target => move c current target (endStep c f.position s)
  | .finish => endProgram c i (endStep c detailProgramEnd s)
  | .hold =>
    move c current (nextLink s i) (endStep c f.position (s.modChan c (fun ch => { ch with holdPending := true })))
  | .fault => trip c (conditionTrip f (some i)) s

end Sys2Proof.Machine
end

