-- ==== Sys2Proof/Machine/Monitor.lean ====
section
/-! DEFINITION. The Limit Monitor: the checks of stage 2 (R127 to R132), the stale timer (R133, R134), the contactor timer (R95), link
loss (R135), and the hall stop with its millisecond sample (R136 to R138). -/

namespace Sys2Proof.Machine

/-! ## The limit set (07 section 7.1) -/

/-- The quantity an entry compares; none when it is invalid (R127). -/
def limitQuantity (ch : ChannelState) (current : Int) (id : Fin 9) : Option Int :=
  match id.val with
  | 0 | 1 => packVoltageSeen ch
  | 2 => cellMaximum ch
  | 3 => cellMinimum ch
  | 4 => temperatureMaximum ch
  | 5 => some current.natAbs
  | 6 => cellSpread ch
  | 7 => temperatureMinimum ch
  | _ => some current.natAbs

/-- Low limits: PACK_V_LOW, CELL_V_LOW, TEMP_LOW. -/
def isLowLimit (id : Fin 9) : Bool := id.val == 1 || id.val == 3 || id.val == 7

/-- A quantity equal to its threshold complies (07 section 7.1). -/
def violates (id : Fin 9) (quantity threshold : Int) : Bool :=
  if isLowLimit id then decide (quantity < threshold) else decide (threshold < quantity)

/-- The id of RESIDUAL_CURRENT, checked only while the setpoint mode is OFF (R130). -/
def residualCurrent : Fin 9 := 8

def setLimitCounter (c : Channel) (id : Fin 9) (count : Nat) (s : State) : State :=
  s.modChan c (fun ch => { ch with limitCounters := ch.limitCounters.set id.val count id.isLt })

/-- A limit that trips: its id, the quantity and the threshold. -/
structure LimitHit where
  id        : Fin 9
  value     : Int
  threshold : Int

/-- Checks the entries named, in order, up to the first whose counter reaches its persistence (R129, R130). -/
def checkLimits (c : Channel) (current : Int) (off : Bool) : List (Fin 9) → State → Option LimitHit × State
  | [], s => (none, s)
  | id :: rest, s =>
    let ch := s.chan c
    match ch.limits.get id with
    | none => checkLimits c current off rest s
    | some entry =>
      if id = residualCurrent && !off then checkLimits c current off rest (setLimitCounter c id 0 s)
      else
        match limitQuantity ch current id with
        | none => checkLimits c current off rest (setLimitCounter c id 0 s)
        | some v =>
          if violates id v entry.threshold then
            let count := ch.limitCounters.get id + 1
            let s := setLimitCounter c id count s
            if entry.persistence ≤ count then (some { id := id, value := v, threshold := entry.threshold }, s)
            else checkLimits c current off rest s
          else checkLimits c current off rest (setLimitCounter c id 0 s)

/-- The converter's fault code: point 227 received since START and not 0 (R128). -/
def converterFault (ch : ChannelState) : Option Nat :=
  let pt := ch.point converterStatusPoint
  if pt.age < 255 ∧ pt.value ≠ 0 then some pt.value.toNat else none

/-- Stage 2 in its states: converter status, the limit set in table order, then staleness except in CONNECTING (R90, R128 to
R132). -/
def checkStage (c : Channel) (current : Int) (s : State) : State :=
  let ch := s.chan c
  match converterFault ch with
  | some code => trip c { cause := .converterFault, detail := code, stepIndex := ch.currentStep } s
  | none =>
    match checkLimits c current (setpointMode s c == .off) (List.finRange 9) s with
    | (some hit, s) =>
      trip c { cause := .limit, detail := hit.id.val, value := some hit.value, threshold := some hit.threshold,
               stepIndex := ch.currentStep } s
    | (none, s) =>
      if ch.status = .connecting then s
      else
        match stalePoint ch with
        | some p =>
          trip c { cause := .stalePoint, detail := p.val, value := some ((ch.point p).age : Int),
                   threshold := some (ch.config.maxPointAge : Int), stepIndex := ch.currentStep } s
        | none => s

/-! ## Timers (R95, R133, R134) -/

/-- An accepted anchor reloads a running stale timer and leaves a stopped one stopped (R133). -/
def reloadStale (now : BitVec 32) (ch : ChannelState) : ChannelState :=
  { ch with staleTimer := ch.staleTimer.map (fun _ => { startedAt := now, length := ch.config.staleTime }) }

/-- The stale timer's expiry: nothing happens while it is stopped or its time has not passed (R134). -/
def staleExpiry (c : Channel) (s : State) : State :=
  let ch := s.chan c
  match ch.staleTimer with
  | none => s
  | some t =>
    if t.expired s.msTime then
      trip c { cause := .anchorTimeout, threshold := some (ch.config.staleTime : Int), stepIndex := ch.currentStep } s
    else s

/-- The contactor timer's expiry: CONNECT_TIMEOUT in CONNECTING, DISCONNECT_TIMEOUT in DISCONNECTING; nothing happens while it is
stopped or its time has not passed (R95). -/
def contactorExpiry (c : Channel) (s : State) : State :=
  let ch := s.chan c
  match ch.contactorTimer with
  | none => s
  | some t =>
    if t.expired s.msTime then
      match ch.status with
      | .connecting =>
        trip c { cause := .connectTimeout, value := some (ch.closeCount : Int),
                 threshold := some (ch.config.confirmCount : Int) } s
      | .disconnecting =>
        trip c { cause := .disconnectTimeout, value := some (ch.openCount : Int),
                 threshold := some (ch.config.confirmCount : Int) } s
      | _ => s
    else s

/-! ## Link loss and the hall stop (R135 to R138) -/

/-- Trips one channel with a hall-wide cause; IDLE and TRIPPED channels are not touched (R135, R137). -/
def tripFor (cause : Cause) (s : State) (c : Channel) : State :=
  trip c { cause := cause, stepIndex := (s.chan c).currentStep } s

/-- Trips every channel that is neither IDLE nor TRIPPED at this moment, in the order taken (R135, R137). -/
def tripAll (cause : Cause) (order : List Channel) (s : State) : State :=
  (inOrder order allChannels).foldl (tripFor cause) s

/-- The debounced state becomes asserted (R137). -/
def assertHallStop (order : List Channel) (s : State) : State :=
  let s := raiseDevice .hallStopAsserted { s with hallStop := true }
  tripAll .hallStop order s

/-- The debounced state becomes released (R138). -/
def releaseHallStop (s : State) : State := raiseDevice .hallStopReleased { s with hallStop := false }

/-- A millisecond: ms time rises by 1, wrapping (R196). -/
def State.tick (s : State) : State := { s with msTime := s.msTime + 1 }

/-- The millisecond's sample of HSTOP_N (R136): two equal samples against the debounced state change it at the second. That ms time rises
before the sample of its millisecond is the model's choice (R136, R196; DESIGN CHOICE, log entry 11). -/
def sampleHallStop (asserted : Bool) (order : List Channel) (s : State) : State :=
  let s := s.tick
  let previous := s.previousSample
  let s := { s with previousSample := asserted }
  if !s.hallStop && asserted && previous then assertHallStop order s
  else if s.hallStop && !asserted && !previous then releaseHallStop s
  else s

end Sys2Proof.Machine
end

