-- ==== Sys2Proof/Machine/Evaluation.lean ====
section
/-! DEFINITION. The interval (R38 to R42) and the anchor evaluation: its six stages and its close (R89 to R97). -/

namespace Sys2Proof.Machine

/-! ## Stage 3: the contactor (R91 to R94) -/

/-- Fresh feedback: a valid reading of point 226 since the last close (R91). -/
def freshFeedback (ch : ChannelState) : Option Bool :=
  let pt := ch.point feedbackPoint
  if pt.updated then some (pt.value == 1) else none

/-- The close and open counts after a feedback (R91). -/
def moveContactorCounts (ch : ChannelState) : ChannelState :=
  match freshFeedback ch with
  | some true => { ch with closeCount := min (ch.closeCount + 1) 8, openCount := 0 }
  | some false => { ch with openCount := min (ch.openCount + 1) 8, closeCount := 0 }
  | none => ch

/-- CONNECTING: the entry step begins when the contactor is confirmed closed and every configured point is fresh (R92). -/
def confirmClosed (c : Channel) (s : State) : State :=
  let ch := s.chan c
  if ch.config.confirmCount ≤ ch.closeCount ∧ allFresh ch = true then
    match ch.config.entryStep with
    | some i => beginEntryStep c i (s.modChan c (fun ch => { ch with contactorTimer := none }))
    | none => s
  else s

/-- DISCONNECTING: the contactor confirmed open takes the channel to IDLE and stops both timers (R93, R133). -/
def confirmOpen (ch : ChannelState) : ChannelState :=
  if ch.config.confirmCount ≤ ch.openCount then
    { ch with status := .idle, contactorTimer := none, staleTimer := none }
  else ch

/-- TRIPPED: open-confirmed is set at the confirm count and cleared by a fresh closed reading (R93). -/
def confirmTripped (ch : ChannelState) : ChannelState :=
  if freshFeedback ch = some true then { ch with openConfirmed := false }
  else if ch.config.confirmCount ≤ ch.openCount then { ch with openConfirmed := true }
  else ch

/-- The dropped check (R94). -/
def checkDropped (c : Channel) (s : State) : State :=
  let ch := s.chan c
  if ch.config.confirmCount ≤ ch.openCount then
    trip c { cause := .contactorDropped, value := some (ch.openCount : Int), threshold := some (ch.config.confirmCount : Int),
             stepIndex := ch.currentStep } s
  else s

/-- Stage 3 in every state but IDLE (R91). -/
def contactorStage (c : Channel) (s : State) : State :=
  let s := s.modChan c moveContactorCounts
  match (s.chan c).status with
  | .idle => s
  | .connecting => confirmClosed c s
  | .disconnecting => s.modChan c confirmOpen
  | .tripped => s.modChan c confirmTripped
  | .waitBudget => checkDropped c s
  | .running => checkDropped c s
  | .displaced => checkDropped c s
  | .holding => checkDropped c s

/-! ## Stages 4 and 5 (R96, R97) -/

/-- Stage 4 in RUNNING: terminations, then a pending skip (R53, R96). -/
def terminationStage (c : Channel) (current : Int) (s : State) : State :=
  let ch := s.chan c
  match ch.currentStep with
  | none => s
  | some i =>
    match judgeStep c current (ch.effective.terminations.getD []) 0 s with
    | (some f, s) => takeOutcome c current i f (s.modChan c (fun ch => { ch with skipPending := false }))
    | (none, s) =>
      if ch.skipPending then
        let s := s.modChan c (fun ch => { ch with skipPending := false })
        move c current (nextLink s i) (endStep c detailSkipped s)
      else s

/-- Stage 5: a pending hold is taken in RUNNING or WAIT_BUDGET, and discarded in any other state (R97). That the release or removal runs
before HOLDING and HOLD_TAKEN is the model's choice between R97 and R153, R154 (DESIGN CHOICE, log entry 16). -/
def holdStage (c : Channel) (s : State) : State :=
  let ch := s.chan c
  if ch.holdPending then
    if ch.status = .running ∨ ch.status = .waitBudget then enterHolding c (settlePower c s)
    else s.modChan c (fun ch => { ch with holdPending := false })
  else s

/-! ## The evaluation (R89) -/

/-- The close: ages move, the invalid-reported mark is cleared, the traversal count returns to 0 (R89). -/
def closeEvaluation (ch : ChannelState) : ChannelState :=
  { moveAges ch with invalidReported := false, traversalCount := 0 }

/-- Stages 4 to 6, after a stage 3 that neither tripped nor reached IDLE. An entry step begun at stage 3 is not evaluated at stage 4
(R92). -/
def laterStages (c : Channel) (current : Int) (began : Bool) (s : State) : State :=
  let s := if (s.chan c).status = .running ∧ began = false then terminationStage c current s else s
  if (s.chan c).status = .tripped then s
  else produceSetpoint c false (holdStage c s)

/-- Stages 1 to 6 of a channel that is neither IDLE nor TRIPPED; a trip at stage 2, 3 or 4 passes over the later stages (R89). -/
def activeStages (c : Channel) (dt : Nat) (current : Int) (s : State) : State :=
  let s := if (s.chan c).status = .running then integrate c dt current s else s
  let s := checkStage c current s
  if (s.chan c).status = .tripped then s
  else
    let began := decide ((s.chan c).status = .connecting)
    let s := contactorStage c s
    if (s.chan c).atRest then s
    else laterStages c current began s

/-- An anchor evaluation of a channel that is not IDLE (R89); in TRIPPED only stages 3 and 6 act (R143). -/
def evaluate (c : Channel) (dt : Nat) (current : Int) (s : State) : State :=
  let s :=
    if (s.chan c).status = .tripped then produceSetpoint c false (contactorStage c s)
    else activeStages c dt current s
  s.modChan c closeEvaluation

/-! ## The interval (R38 to R42) -/

/-- Accepts an anchor: the slot's stamp becomes the last stamp and the stale timer is reloaded (R39, R41, R42). -/
def acceptAnchor (c : Channel) (stamp : BitVec 32) (s : State) : State :=
  s.modChan c (fun ch => reloadStale s.msTime { ch with lastStamp := some stamp })

/-- A channel's anchor from a slot with a stamp: its interval, then its evaluation (R38 to R42; log entry 30). -/
def anchorEvent (stamp : BitVec 32) (s : State) (c : Channel) : State :=
  let ch := s.chan c
  let current := (ch.point packCurrentPoint).value
  if ch.status = .idle then s
  else
    match ch.lastStamp with
    | none => evaluate c 0 current (acceptAnchor c stamp s)
    | some last =>
      let raw := stamp - last
      if raw = 0 then s
      else if ch.config.maxInterval < raw.toNat then
        let s := raiseChannel c .gap { valueA := some raw.toInt, valueB := some (ch.config.maxInterval : Int) } s
        evaluate c ch.config.maxInterval current (acceptAnchor c stamp s)
      else evaluate c raw.toNat current (acceptAnchor c stamp s)

/-- A sample slot's readings are applied, every one of them before any interval is computed or anchor evaluated; then each anchored
channel's anchor is taken, in the order given, its interval and its evaluation back to back (R9, R35, R38; log entries 5 and 30). -/
def applySample (source : NodeAddress) (stamp : BitVec 32) (readings : List Reading) (order : List Channel) (s : State) :
    State :=
  let chosen := anchored s.routes source readings
  let s := readings.foldl (applyReading source) s
  (inOrder order chosen).foldl (anchorEvent stamp) s

end Sys2Proof.Machine
end

