-- ==== Sys2Proof/Machine/Operands.lean ====
section
/-! DEFINITION. The operands of requests: the packing convention of R23 over the captured argument words. Word 0 here is word 5 of the
slot. A reader that answers none found an out-of-range value, which refuses the request with RANGE. -/

namespace Sys2Proof.Machine

/-! ## Plain fields -/

def argWord (args : List Word) (i : Nat) : Word := args.getD i 0

/-- An unsigned quantity of up to 16 bits. -/
def argNat (args : List Word) (i : Nat) : Nat := (argWord args i).toNat

/-- A signed quantity of up to 16 bits. -/
def argS16 (args : List Word) (i : Nat) : Int := (argWord args i).toInt

/-- An unsigned 32-bit quantity, high word first. -/
def arg32 (args : List Word) (i : Nat) : Nat := argNat args i * 65536 + argNat args (i + 1)

/-- A signed 32-bit quantity. -/
def argS32 (args : List Word) (i : Nat) : Int := (BitVec.ofNat 32 (arg32 args i)).toInt

/-- A value within a range. -/
def within (lo hi n : Nat) : Option Nat := if lo ≤ n ∧ n ≤ hi then some n else none

def argIn (lo hi : Nat) (args : List Word) (i : Nat) : Option Nat := within lo hi (argNat args i)

/-- A channel, 0..7. -/
def argChannel (args : List Word) (i : Nat) : Option Channel :=
  if h : argNat args i < 8 then some ⟨argNat args i, h⟩ else none

/-- A field of range 0..3. -/
def argFour (args : List Word) (i : Nat) : Option (Fin 4) :=
  if h : argNat args i < 4 then some ⟨argNat args i, h⟩ else none

/-- A point, 0..227. -/
def argPoint (args : List Word) (i : Nat) : Option PointNumber :=
  if h : argNat args i < 228 then some ⟨argNat args i, h⟩ else none

/-- A flag or presence word, 0 or 1. -/
def argFlag (args : List Word) (i : Nat) : Option Bool :=
  match argNat args i with
  | 0 => some false
  | 1 => some true
  | _ => none

/-- An optional field: the presence word at `i`, then `field` read only when present (R23). -/
def argOptional {α : Type} (args : List Word) (i : Nat) (field : Option α) : Option (Option α) :=
  match argFlag args i with
  | some true => field.map some
  | some false => some none
  | none => none

/-- A converter address: 0..62, or 63 for NONE. -/
def argAddress (args : List Word) (i : Nat) : Option (Option Nat) :=
  if argNat args i = 63 then some none else (argIn 0 62 args i).map some

/-- An entry step: 0..511, or 0xFFFF for NONE. -/
def argEntryStep (args : List Word) (i : Nat) : Option (Option Nat) :=
  if argNat args i = 0xFFFF then some none else (argIn 0 511 args i).map some

/-! ## Answers -/

/-- Refuses with RANGE when a reader found an out-of-range value, or goes on with what it read. -/
def inRangeOr {α : Type} (field : Option α) (s : State) (body : α → Answer × State) : Answer × State :=
  match field with
  | none => (Answer.refuse .range, s)
  | some a => body a

/-! ## Predicates and records (R51, R59) -/

/-- A predicate's outcome; the target word is read only for GOTO (R59), and as a link it is not checked here (R47; log entry 13). -/
def readOutcome (code target : Nat) : Option PredicateOutcome :=
  match code with
  | 0 => some .next
  | 1 => some (.goto target)
  | 2 => some .finish
  | 3 => some .hold
  | 4 => some .fault
  | _ => none

/-- A predicate of seven words at `i`. -/
def readPredicate (args : List Word) (i : Nat) : Option Predicate := do
  let quantity ← Quantity.ofCode (argNat args i)
  let comparison ← Comparison.ofCode (argNat args (i + 1))
  let persistence ← argIn 1 15 args (i + 4)
  let outcome ← readOutcome (argNat args (i + 5)) (argNat args (i + 6))
  return { quantity := quantity, comparison := comparison, threshold := argS32 args (i + 2), persistence := persistence,
           outcome := outcome }

/-- A run of predicates from word `i`. -/
def readPredicates (args : List Word) : Nat → Nat → Option (List Predicate)
  | 0, _ => some []
  | n + 1, i => do
    let p ← readPredicate args i
    let rest ← readPredicates args n (i + 7)
    return p :: rest

/-- The first-predicate list at `i`: its count is 1 when the termination count is 1 or more, else 0 (R59). -/
def readFirst (args : List Word) (i n : Nat) : Option (List Predicate) := do
  let _ ← within (min n 1) (min n 1) (argNat args i)
  readPredicates args (min n 1) (i + 1)

/-- The level's range by the kind of the record (R47). -/
def levelBound : SampleKind → Nat
  | .chargeCC | .dischargeCC => 30000
  | .chargeCP | .dischargeCP | .rest => 200000

/-- A sample step's fields of WRITE_STEP part 0, and its termination count (R59). Links are not checked when the record is written
(R47): a link above 511 is found by the program check (R66; log entry 13). -/
def readSampleHead (kind : SampleKind) (args : List Word) : Option (StepBody × Nat) := do
  let level ← argOptional args 5 (within 0 (levelBound kind) (arg32 args 6))
  let clamp ← argOptional args 8 (argIn 0 60000 args 9)
  let budget ← argOptional args 10 (within 0 200000 (arg32 args 11))
  let present ← argFlag args 13
  let n ← argIn 0 (if present then 4 else 0) args 14
  let first ← readFirst args 15 n
  return (.sample kind (argNat args 4)
    { level := level, clamp := clamp, budget := budget, terminations := if present then some first else none }, n)

/-- A LOOP record's fields of WRITE_STEP part 0, and its termination count (R59); its links are not checked (log entry 13). -/
def readLoopHead (args : List Word) : Option (StepBody × Nat) := do
  let count ← argIn 1 65535 args 6
  let cycleFlag ← argFlag args 7
  let n ← argIn 0 4 args 8
  let first ← readFirst args 9 n
  return (.loop (argNat args 5) (argNat args 4) count cycleFlag first, n)

/-- The record's head by its kind (R59). -/
def readBody (args : List Word) : Option (StepBody × Nat) :=
  match SampleKind.ofCode (argNat args 3) with
  | some kind => readSampleHead kind args
  | none =>
    if argNat args 3 = loopKindCode then readLoopHead args
    else if argNat args 3 = endKindCode then some (.finish, 0)
    else none

/-- WRITE_STEP part 0's arguments: step index, owner, body with its first predicate, termination count (R59). -/
def readStepHead (args : List Word) : Option StagedWrite := do
  let index ← argIn 0 511 args 0
  let owner ← argChannel args 1
  let _ ← argIn 0 0 args 2
  let (body, n) ← readBody args
  return { index := index, owner := owner, body := body, count := n }

/-- WRITE_STEP part 1's arguments: step index, owner, a list of 1..3 predicates (R62). -/
def readStepRest (args : List Word) : Option (Nat × Channel × List Predicate) := do
  let index ← argIn 0 511 args 0
  let owner ← argChannel args 1
  let _ ← argIn 1 1 args 2
  let n ← argIn 1 3 args 3
  let predicates ← readPredicates args n 4
  return (index, owner, predicates)

/-- A record's predicates, and the record with more behind them (R62). -/
def StepBody.predicates : StepBody → List Predicate
  | .sample _ _ parts => parts.terminations.getD []
  | .loop _ _ _ _ predicates => predicates
  | .finish => []

def StepBody.addPredicates (more : List Predicate) : StepBody → StepBody
  | .sample kind next parts => .sample kind next { parts with terminations := parts.terminations.map (· ++ more) }
  | .loop target next count cycleFlag predicates => .loop target next count cycleFlag (predicates ++ more)
  | .finish => .finish

/-! ## Packing records back (R63) -/

def packPredicate (p : Predicate) : List Word :=
  pack16 p.quantity.code ++ pack16 p.comparison.code ++ packS32 p.threshold ++ pack16 p.persistence ++
    pack16 p.outcome.code ++ pack16 p.outcome.targetWord

/-- READ_STEP part 0 after owner and kind: the fields WRITE_STEP part 0 carries after the kind. -/
def packBody : StepBody → List Word
  | .sample _ next parts =>
    pack16 next ++ packOption 2 pack32 parts.level ++ packOption 1 pack16 parts.clamp ++ packOption 2 pack32 parts.budget ++
      packFlag parts.terminations.isSome ++ pack16 (parts.terminations.getD []).length ++
      packList packPredicate ((parts.terminations.getD []).take 1)
  | .loop target next count cycleFlag predicates =>
    pack16 next ++ pack16 target ++ pack16 count ++ packFlag cycleFlag ++ pack16 predicates.length ++
      packList packPredicate (predicates.take 1)
  | .finish => []

/-- READ_STEP part 0: owner, kind, fields. -/
def packRecord (r : StepRecord) : List Word :=
  pack16 (ownerCode r.owner) ++ pack16 r.body.kindCode ++ packBody r.body

end Sys2Proof.Machine
end

