-- ==== Sys2Proof/Machine/Channels.lean ====
section
/-! DEFINITION. The channel requests of 05_channel_sequencer.md, with the program check of START (R65 to R68, R75 to R88). -/

namespace Sys2Proof.Machine

/-- The first argument of every channel request: a channel, else RANGE (05 section 5.4). -/
def onChannel (args : List Word) (s : State) (body : Channel → Answer × State) : Answer × State :=
  inRangeOr (argChannel args 0) s body

/-- OK with no results. -/
def okWith (s : State) : Answer × State := (Answer.done [], s)

def refuseWith (code : ReplyCode) (s : State) : Answer × State := (Answer.refuse code, s)

/-! ## Configuration (R76, R77) -/

/-- The fourteen fields of WRITE_CHANNEL_CONFIG, from argument word 1 on (R76). -/
def readConfig (args : List Word) : Option ChannelConfig := do
  let address ← argAddress args 1
  let output ← argFour args 2
  let cells ← argIn 0 192 args 3
  let temperatures ← argIn 0 32 args 4
  let currentMaximum ← argIn 0 30000 args 5
  let rounding ← RoundingMode.ofCode (argNat args 6)
  let priority ← argFour args 7
  let reportLevel ← argFour args 8
  let entryStep ← argEntryStep args 9
  let staleTime ← argIn 10 10000 args 10
  let contactorTime ← argIn 50 5000 args 11
  let confirmCount ← argIn 1 8 args 12
  let maxPointAge ← argIn 1 254 args 13
  let maxInterval ← argIn 1 10000 args 14
  return { converterAddress := address, converterOutput := output, cellCount := cells, temperatureCount := temperatures,
           currentMaximum := currentMaximum, rounding := rounding, priority := priority, reportLevel := reportLevel,
           entryStep := entryStep, staleTime := staleTime, contactorTime := contactorTime, confirmCount := confirmCount,
           maxPointAge := maxPointAge, maxInterval := maxInterval }

def packConfig (g : ChannelConfig) : List Word :=
  [addressCode g.converterAddress, g.converterOutput.val, g.cellCount, g.temperatureCount, g.currentMaximum, g.rounding.code,
   g.priority.val, g.reportLevel.val, stepCode g.entryStep, g.staleTime, g.contactorTime, g.confirmCount, g.maxPointAge,
   g.maxInterval].flatMap pack16

def writeChannelConfig (args : List Word) (s : State) : Answer × State :=
  onChannel args s fun c =>
    inRangeOr (readConfig args) s fun config =>
      if (s.chan c).atRest then okWith (s.modChan c (fun ch => { ch with config := config }))
      else refuseWith .inUse s

def execWriteChannelConfig (s : State) : Host.Outcome State Fault Refusal := serveWhole 0x10 writeChannelConfig s

def execReadChannelConfig (s : State) : Host.Outcome State Fault Refusal :=
  serveWhole 0x11 (fun args s => onChannel args s fun c => (Answer.done (packConfig (s.chan c).config), s)) s

/-! ## READ_CHANNEL (R88) -/

def packLoopEntry (e : LoopEntry) : List Word := pack16 e.index ++ pack16 e.remaining

def packLastSetpoint (sp : Setpoint) : List Word :=
  pack16 sp.mode.code ++ pack16 sp.magnitude ++ pack16 sp.clamp ++ pack16 sp.contactor.code ++ pack16 sp.refresh

/-- The part of a channel's snapshot (R88); the loop stack is listed bottom first. -/
def channelSnapshot (part : Nat) (ch : ChannelState) : List Word :=
  match part with
  | 0 =>
    pack16 ch.status.code ++ pack16 ch.runOutcome.code ++ packFlag ch.holdPending ++ packFlag ch.skipPending ++
      packFlag ch.openConfirmed ++ packOption 1 pack16 ch.currentStep ++ packS32 (reportedCharge ch) ++
      packS32 (reportedEnergy ch) ++ packFlag (inexact ch.qs chargeDivisor) ++ packFlag (inexact ch.es energyDivisor) ++
      packFlag ch.budgetLimited ++ pack16 ch.timeFine ++ pack32 ch.timeCoarse ++ pack32 ch.cycleCount ++ pack16 ch.closeCount ++
      pack16 ch.openCount
  | 1 =>
    packOption 5 packLastSetpoint ch.lastSetpoint ++ packFlag ch.chargeSaturated ++ packFlag ch.energySaturated ++
      packList packLoopEntry ch.loopStack.reverse
  | _ => packList pack16 (causeCodes ch.causes)

def execReadChannel (s : State) : Host.Outcome State Fault Refusal :=
  serveWhole 0x12 (fun args s =>
    onChannel args s fun c =>
      inRangeOr (argIn 0 2 args 1) s fun part => (Answer.done (channelSnapshot part (s.chan c)), s)) s

/-! ## The program check (R65, R66) -/

/-- The reasons of a PROGRAM_FAULT reply, with their codes (02 section 2.6). -/
inductive CheckReason where
  | badLink | foreignStep | entryIncomplete | badQuantity | loopToSelf | noEnd
deriving DecidableEq, Repr

def CheckReason.code : CheckReason → Nat
  | .badLink => 1 | .foreignStep => 2 | .entryIncomplete => 3 | .badQuantity => 4 | .loopToSelf => 5 | .noEnd => 6

/-- All four parts present: what an entry step must carry (R66). -/
def Parts.complete (p : Parts) : Bool :=
  p.level.isSome && p.clamp.isSome && p.budget.isSome && p.terminations.isSome

/-- A sample step with all four parts. -/
def StepBody.fitsEntry : StepBody → Bool
  | .sample _ _ parts => parts.complete
  | .loop _ _ _ _ _ => false
  | .finish => false

/-- A predicate a LOOP record may hold when it is walked (R48, R66). -/
def Predicate.fitsLoop (p : Predicate) : Bool :=
  (p.quantity == .cycleCount || p.quantity == .retention) && p.persistence == 1

/-- The faults particular to a LOOP record (R66). -/
def StepBody.loopFault (i : Nat) : StepBody → Option CheckReason
  | .loop target _ _ _ predicates =>
    if !predicates.all Predicate.fitsLoop then some .badQuantity
    else if target = i then some .loopToSelf
    else none
  | .sample _ _ _ => none
  | .finish => none

/-- A visit's check of the record at an index, in the order of R66. -/
def visitFault (s : State) (c : Channel) (entry i : Nat) : Option CheckReason :=
  if Config.stepRecords ≤ i then some .badLink
  else
    match (s.record i).owner with
    | none => some .badLink
    | some owner =>
      if owner ≠ c then some .foreignStep
      else if i = entry && !(s.record i).body.fitsEntry then some .entryIncomplete
      else (s.record i).body.loopFault i

/-- The targets of the GOTO outcomes of a record's own predicates, in list order. -/
def gotoTargets (predicates : List Predicate) : List Nat :=
  predicates.filterMap (fun p =>
    match p.outcome with
    | .goto target => some target
    | _ => none)

/-- A record's successors in the order R65 adds them. -/
def StepBody.successors : StepBody → List Nat
  | .sample _ next parts => next :: gotoTargets (parts.terminations.getD [])
  | .loop target next _ _ predicates => target :: next :: gotoTargets predicates
  | .finish => []

/-- Adds the successors that are neither visited nor already in the list, at its end (R65). -/
def addSuccessors (visited : List Nat) : List Nat → List Nat → List Nat
  | toVisit, [] => toVisit
  | toVisit, i :: rest =>
    if visited.contains i || toVisit.contains i then addSuccessors visited toVisit rest
    else addSuccessors visited (toVisit ++ [i]) rest

/-- The end of a walk whose list is empty: some visited record must be an END record (R66). -/
def endCheck (s : State) (entry : Nat) (visited : List Nat) : Option (Nat × CheckReason) :=
  if visited.any (fun i => (s.record i).body == .finish) then none else some (entry, .noEnd)

/-- The walk, at most `fuel` visits; the offending index and reason, or none (R65, R66). -/
def walkAtMost (s : State) (c : Channel) (entry : Nat) : Nat → List Nat → List Nat → Option (Nat × CheckReason)
  | 0, visited, _ => endCheck s entry visited
  | _ + 1, visited, [] => endCheck s entry visited
  | fuel + 1, visited, i :: rest =>
    match visitFault s c entry i with
    | some reason => some (i, reason)
    | none =>
      walkAtMost s c entry fuel (i :: visited) (addSuccessors (i :: visited) rest (s.record i).body.successors)

/-- The whole walk: each index is visited at most once, so 512 visits and the empty list bound it (R65). -/
def programCheck (s : State) (w : Walk) : Option (Nat × CheckReason) :=
  walkAtMost s w.channel ((s.chan w.channel).config.entryStep.getD 0xFFFF) (Config.stepRecords + 1) w.visited w.toVisit

/-! ## START (R81, R82) -/

/-- The first missing item, 1..5 (R81). -/
def missingItem (s : State) (c : Channel) : Option Nat :=
  let ch := s.chan c
  if ch.config.converterAddress = none then some 1
  else if ch.config.cellCount = 0 then some 2
  else if ch.config.entryStep = none then some 3
  else if ch.limitsLoaded = false then some 4
  else if hasAnchorRoute s.routes c = false then some 5
  else none

/-- The walk begins: nothing visited, the entry step to visit (R65). -/
def beginWalk (c : Channel) (mode : StartMode) (s : State) : State :=
  { s with
    walk := some (Walk.mk c mode [] [(s.chan c).config.entryStep.getD 0xFFFF]) }

/-- START when taken: its checks, then the walk begins and no reply is made yet (R81). -/
def startCheck (args : List Word) (s : State) : Option Answer × State :=
  match argChannel args 0, StartMode.ofCode (argNat args 1) with
  | some c, some mode =>
    if (s.chan c).status ≠ .idle then (some (Answer.refuse .wrongState), s)
    else
      match missingItem s c with
      | some item => (some { outcome := .incomplete, results := pack16 item }, s)
      | none =>
        (none, beginWalk c mode s)
  | _, _ => (some (Answer.refuse .range), s)

def execStart (s : State) : Host.Outcome State Fault Refusal := serve (fun r => r.kind == 0x13) startCheck s

/-- What FRESH clears (R82, R164). -/
def freshCounters (ch : ChannelState) : ChannelState :=
  { ch with cycle := CycleTotals.zero, cycleCount := 0, reference := none, lastClosedOut := none, history := [] }

/-- The channel context at a START that ends OK, before its setpoint (R32, R78, R82, R131, R133, R141). -/
def beginContext (now : BitVec 32) (ch : ChannelState) : ChannelState :=
  { zeroStepTotals (forgetPoints ch) with
    status := .connecting, runOutcome := .none, holdPending := false, skipPending := false, openConfirmed := false
    closeCount := 0, openCount := 0, currentStep := none, effective := .absent, loopStack := [], traversalCount := 0
    contactorTimer := some { startedAt := now, length := ch.config.contactorTime }
    staleTimer := some { startedAt := now, length := ch.config.staleTime }
    limitCounters := Vector.replicate 9 0, tripRecord := none }

/-- The run begins (R82). -/
def beginRun (c : Channel) (mode : StartMode) (s : State) : State :=
  let s := s.modChan c (beginContext s.msTime)
  let s :=
    match mode with
    | .fresh => s.modChan c freshCounters
    | .continue => s
  produceSetpoint c true s

/-- The end of a START at its walk's completion (R67, R81, R82). -/
def completeStart (w : Walk) (s : State) : Answer × State :=
  match programCheck s w with
  | some (i, reason) => ({ outcome := .programFault, results := pack16 i ++ pack16 reason.code }, s)
  | none =>
    if s.hallStop then refuseWith .hallStopped s
    else if s.receiver.mode ≠ .locked then refuseWith .linkDown s
    else okWith (beginRun w.channel w.mode s)

def execProgramCheckCompletion (s : State) : Host.Outcome State Fault Refusal :=
  match s.walk with
  | none => .refused .noWalk
  | some w =>
    match s.requestQueue with
    | [] => .fault .walkWithoutRequest
    | r :: _ =>
      let done := completeStart w { s with walk := none }
      .next (finishRequest r done.1 done.2)

/-! ## HOLD, RESUME, SKIP_STEP, STOP, CLEAR_TRIP (R83 to R87) -/

/-- HOLD (R83). That the removal runs before HOLDING and HOLD_TAKEN is the model's choice between R83 and R154 (DESIGN CHOICE, log entry
16). -/
def holdRequest (c : Channel) (s : State) : Answer × State :=
  match (s.chan c).status with
  | .running => okWith (s.modChan c (fun ch => { ch with holdPending := true }))
  | .waitBudget => okWith (enterHolding c (settlePower c s))
  | .displaced => okWith (enterHolding c (settlePower c s))
  | .idle => refuseWith .wrongState s
  | .connecting => refuseWith .wrongState s
  | .holding => refuseWith .wrongState s
  | .disconnecting => refuseWith .wrongState s
  | .tripped => refuseWith .wrongState s

def execHold (s : State) : Host.Outcome State Fault Refusal :=
  serveWhole 0x14 (fun args s => onChannel args s fun c => holdRequest c s) s

/-- A held channel asks for its step's request again (R84, R150). -/
def resumeHeld (c : Channel) (s : State) : State :=
  if stepRequest s c = 0 then s.modChan c (fun ch => { ch with status := .running })
  else requestAction c (stepRequest s c) none s

/-- RESUME (R84). -/
def resumeRequest (c : Channel) (s : State) : Answer × State :=
  if s.hallStop then refuseWith .hallStopped s
  else
    match (s.chan c).status with
    | .holding => okWith (resumeHeld c s)
    | .running =>
      if (s.chan c).holdPending then okWith (s.modChan c (fun ch => { ch with holdPending := false }))
      else refuseWith .wrongState s
    | .idle => refuseWith .wrongState s
    | .connecting => refuseWith .wrongState s
    | .waitBudget => refuseWith .wrongState s
    | .displaced => refuseWith .wrongState s
    | .disconnecting => refuseWith .wrongState s
    | .tripped => refuseWith .wrongState s

def execResume (s : State) : Host.Outcome State Fault Refusal :=
  serveWhole 0x15 (fun args s => onChannel args s fun c => resumeRequest c s) s

/-- SKIP_STEP (R85). -/
def skipRequest (c : Channel) (s : State) : Answer × State :=
  if (s.chan c).status = .running then okWith (s.modChan c (fun ch => { ch with skipPending := true }))
  else refuseWith .wrongState s

def execSkipStep (s : State) : Host.Outcome State Fault Refusal :=
  serveWhole 0x16 (fun args s => onChannel args s fun c => skipRequest c s) s

/-- Steps 1 to 5 of STOP (R86). -/
def stopRun (c : Channel) (s : State) : State :=
  let s := endStep c detailStopped s
  let s := settlePower c s
  let s := s.modChan c (fun ch => { ch with holdPending := false, skipPending := false })
  let s := enterDisconnecting c .stopped s
  produceSetpoint c true s

/-- STOP (R86). -/
def stopRequest (c : Channel) (s : State) : Answer × State :=
  match (s.chan c).status with
  | .idle => okWith s
  | .disconnecting => okWith s
  | .tripped => refuseWith .wrongState s
  | .connecting => okWith (stopRun c s)
  | .waitBudget => okWith (stopRun c s)
  | .running => okWith (stopRun c s)
  | .displaced => okWith (stopRun c s)
  | .holding => okWith (stopRun c s)

def execStop (s : State) : Host.Outcome State Fault Refusal :=
  serveWhole 0x17 (fun args s => onChannel args s fun c => stopRequest c s) s

/-- CLEAR_TRIP (R87); leaving TRIPPED clears the open-confirmed flag (R93). -/
def clearTripRequest (c : Channel) (s : State) : Answer × State :=
  if (s.chan c).status ≠ .tripped then refuseWith .wrongState s
  else if (s.chan c).openConfirmed then
    okWith (s.modChan c (fun ch => { ch with status := .idle, openConfirmed := false }))
  else refuseWith .notSafe s

def execClearTrip (s : State) : Host.Outcome State Fault Refusal :=
  serveWhole 0x18 (fun args s => onChannel args s fun c => clearTripRequest c s) s

end Sys2Proof.Machine
end

