-- ==== Sys2Proof/Machine/Counters.lean ====
section
/-! DEFINITION. The counter and cause requests: READ_COUNTERS, READ_HISTORY, CLEAR_COUNTERS, CLEAR_CAUSES (R171 to R173, R175). -/

namespace Sys2Proof.Machine

/-! ## READ_COUNTERS (R171) -/

def countersPart (part : Nat) (ch : ChannelState) : List Word :=
  match part with
  | 0 =>
    pack32 ch.lifetime.chargeIn ++ pack32 ch.lifetime.chargeOut ++ pack48 ch.lifetime.energyIn ++ pack48 ch.lifetime.energyOut ++
      packFlag ch.lifetime.chargeInSaturated ++ packFlag ch.lifetime.chargeOutSaturated ++
      packFlag ch.lifetime.energyInSaturated ++ packFlag ch.lifetime.energyOutSaturated ++ pack32 ch.cycleCount ++
      packOption 2 pack32 ch.reference ++ packOption 2 pack32 ch.lastClosedOut ++ pack16 ch.history.length
  | _ =>
    pack32 ch.cycle.chargeIn ++ pack32 ch.cycle.chargeOut ++ pack32 ch.cycle.energyIn ++ pack32 ch.cycle.energyOut ++
      pack32 ch.cycle.runSeconds

def execReadCounters (s : State) : Host.Outcome State Fault Refusal :=
  serveWhole 0x38 (fun args s =>
    inRangeOr (argChannel args 0) s fun c =>
      inRangeOr (argIn 0 1 args 1) s fun part => (Answer.done (countersPart part (s.chan c)), s)) s

/-! ## READ_HISTORY (R172) -/

def packCycle (r : CycleRecord) : List Word :=
  pack32 r.totals.chargeIn ++ pack32 r.totals.chargeOut ++ pack32 r.totals.energyIn ++ pack32 r.totals.energyOut ++
    pack32 r.totals.runSeconds ++ packOption 1 pack16 r.retention

/-- The first record's cycle number, 0 when none is returned, then at most two records from the position (R172). -/
def historyFrom (position : Nat) (history : List CycleRecord) : List Word :=
  let found := (history.drop position).take 2
  pack32 ((found.head?.map CycleRecord.number).getD 0) ++ packList packCycle found

def execReadHistory (s : State) : Host.Outcome State Fault Refusal :=
  serveWhole 0x39 (fun args s =>
    inRangeOr (argChannel args 0) s fun c =>
      inRangeOr (argIn 0 15 args 1) s fun position => (Answer.done (historyFrom position (s.chan c).history), s)) s

/-! ## CLEAR_COUNTERS (R173) -/

/-- The selectors LIFETIME 0, HISTORY 1, BOTH 2 (R164). -/
def clearCountersOf (selector : Nat) (ch : ChannelState) : ChannelState :=
  match selector with
  | 0 => { ch with lifetime := Lifetime.zero }
  | 1 => { ch with history := [] }
  | _ => { ch with lifetime := Lifetime.zero, history := [] }

def clearCounters (args : List Word) (s : State) : Answer × State :=
  inRangeOr (argChannel args 0) s fun c =>
    inRangeOr (argIn 0 2 args 1) s fun selector =>
      (Answer.done [], s.modChan c (clearCountersOf selector))

def execClearCounters (s : State) : Host.Outcome State Fault Refusal := serveWhole 0x3A clearCounters s

/-! ## CLEAR_CAUSES (R175) -/

/-- The named causes, from word 2 on; none when a code is not a cause of the target (R175). -/
def readCauses (args : List Word) (device : Bool) : Nat → Nat → Option (List Cause)
  | 0, _ => some []
  | n + 1, i =>
    match Cause.ofCode (argNat args i) with
    | none => none
    | some cause =>
      if cause.ofDevice = device then (readCauses args device n (i + 1)).map (fun rest => cause :: rest) else none

/-- The target: a channel, or none for DEVICE (8). -/
def readTarget (args : List Word) : Option (Option Channel) :=
  if argNat args 0 = 8 then some none else (argChannel args 0).map some

/-- The target's cause flags (R174). -/
def causeFlags (target : Option Channel) (s : State) : List Cause :=
  match target with
  | none => s.deviceCauses
  | some c => (s.chan c).causes

/-- Clears the named flags of the target and lists those that were set (R175). -/
def clearNamed (target : Option Channel) (named : List Cause) (s : State) : Answer × State :=
  (Answer.done (packList pack16 ((namedAndSet named (causeFlags target s)).map Cause.code)),
    match target with
    | none => { s with deviceCauses := withoutCauses named s.deviceCauses }
    | some c => s.modChan c (fun ch => { ch with causes := withoutCauses named ch.causes }))

def clearCauses (args : List Word) (s : State) : Answer × State :=
  inRangeOr (readTarget args) s fun target =>
    inRangeOr (argIn 0 22 args 1) s fun n =>
      inRangeOr (readCauses args target.isNone n 2) s fun named => clearNamed target named s

def execClearCauses (s : State) : Host.Outcome State Fault Refusal := serveWhole 0x3B clearCauses s

end Sys2Proof.Machine
end

