-- ==== Sys2Proof/Machine/Device.lean ====
section
/-! DEFINITION. The requests that act on the device as a whole (10_management_requests.md) and SET_HALL_BUDGET (R146). -/

namespace Sys2Proof.Machine

/-! ## UNKNOWN_REQUEST (R183) -/

/-- The request kinds of the code table of 02 section 2.3. -/
def knownKinds : List Nat :=
  [0x01, 0x02, 0x03, 0x04, 0x05, 0x06, 0x10, 0x11, 0x12, 0x13, 0x14, 0x15, 0x16, 0x17, 0x18, 0x20, 0x21, 0x22, 0x28, 0x29, 0x2A,
   0x30, 0x31, 0x32, 0x38, 0x39, 0x3A, 0x3B]

/-- A request of unknown kind is answered with UNKNOWN_REQUEST and zero results; its arguments are not read. -/
def execUnknownRequest (s : State) : Host.Outcome State Fault Refusal :=
  serve (fun r => !knownKinds.contains r.kind) (fun _ s => (some (Answer.refuse .unknownRequest), s)) s

/-! ## IDENTIFY (R188) -/

def identity (s : State) : List Word :=
  [Config.vendorCode, Config.partCode, Config.revision, s.nodeAddress.toNat, 8, Config.stepRecords, Config.routeCapacity,
   Config.eventCapacity, Config.requestCapacity, Config.replyCapacity, Config.historyCapacity, Config.loopDepth,
   Config.arbiterEntries].flatMap pack16

def execIdentify (s : State) : Host.Outcome State Fault Refusal :=
  serveWhole 0x01 (fun _ s => (Answer.done (identity s), s)) s

/-! ## READ_DEVICE_STATUS (R189) -/

def packGrant (g : Grant) : List Word := pack16 g.channel.val ++ packS32 g.watts

def packWait (w : WaitEntry) : List Word := pack16 w.channel.val ++ packS32 w.request ++ pack16 w.priority.val

def deviceStatus (part : Nat) (s : State) : List Word :=
  match part with
  | 0 =>
    pack16 s.receiver.mode.code ++ packFlag s.hallStop ++ pack16 s.eventDestination ++ pack16 s.deviceReportLevel.val ++
      pack32 s.msTime.toNat ++ allChannels.flatMap (fun c => pack16 (s.chan c).status.code) ++
      packList pack16 (causeCodes s.deviceCauses)
  | 1 => packS32 s.net ++ packList packGrant s.grants
  | 2 => pack32 s.importCap ++ pack32 s.exportCap ++ pack16 s.waits.length ++ packList packWait (s.waits.take 4)
  | _ => pack16 s.waits.length ++ packList packWait ((s.waits.drop 4).take 4)

def execReadDeviceStatus (s : State) : Host.Outcome State Fault Refusal :=
  serveWhole 0x02 (fun args s =>
    inRangeOr (argIn 0 3 args 0) s fun part => (Answer.done (deviceStatus part s), s)) s

/-! ## SET_DEVICE_CONFIG (R187) -/

def setDeviceConfig (args : List Word) (s : State) : Answer × State :=
  inRangeOr (argIn 0 62 args 0) s fun destination =>
    inRangeOr (argFour args 1) s fun level =>
      (Answer.done [], { s with eventDestination := destination, deviceReportLevel := level })

def execSetDeviceConfig (s : State) : Host.Outcome State Fault Refusal := serveWhole 0x03 setDeviceConfig s

/-! ## CLEAR_DEVICE_FLAGS (R190) -/

def clearDeviceFlags (s : State) : Answer × State :=
  (Answer.done (packFlag s.requestOverrun ++ packFlag s.eventOverflow),
    { s with requestOverrun := false, eventOverflow := false })

def execClearDeviceFlags (s : State) : Host.Outcome State Fault Refusal := serveWhole 0x04 (fun _ s => clearDeviceFlags s) s

/-! ## RESET_DEVICE (R191 to R193) -/

/-- What device reset clears in every channel (R32, R79, R124, R133, R141, R174, R192). -/
def clearWork (ch : ChannelState) : ChannelState :=
  { forgetPoints ch with
    holdPending := false, skipPending := false, openConfirmed := false, closeCount := 0, openCount := 0
    currentStep := none, effective := .absent, persistence := Vector.replicate 4 0, traversalCount := 0
    budgetLimited := false, chargeSaturated := false, energySaturated := false, lastMagnitude := 0
    contactorTimer := none, limitCounters := Vector.replicate 9 0, staleTimer := none, tripRecord := none, causes := [] }

/-- A current step ended by device reset is folded and raises nothing (R79, R192). -/
def resetFold (ch : ChannelState) : ChannelState :=
  match ch.currentStep with
  | none => ch
  | some _ => foldCounters (reportedCharge ch) (reportedEnergy ch) ch.timeCoarse ch

/-- Device reset of one channel: one that is not IDLE is taken to IDLE with an urgent OFF/OPEN setpoint (R79, R192). -/
def resetChannel (s : State) (c : Channel) : State :=
  let s :=
    if (s.chan c).status = .idle then s
    else
      let s := s.modChan c (fun ch => { resetFold ch with currentStep := none, status := .idle, runOutcome := .reset })
      produceSetpoint c true s
  s.modChan c clearWork

/-- The shared blocks at device reset (R19, R61, R162, R191, R193). -/
def resetShared (s : State) : State :=
  { s with
    grants := [], waits := [], eventQueue := [], deviceCauses := [], requestOverrun := false, eventOverflow := false
    lastSetpointChannel := 7, lastClass := .b, staged := none, requestQueue := [], replyQueue := [] }

/-- The channels device reset takes to IDLE, ascending (R191). -/
def runningChannels (s : State) : List Channel := allChannels.filter (fun c => (s.chan c).status != .idle)

def deviceReset (s : State) : Answer × State :=
  (Answer.done (packList (fun c : Channel => pack16 c.val) (runningChannels s)),
    resetShared (allChannels.foldl resetChannel s))

def execResetDevice (s : State) : Host.Outcome State Fault Refusal := serveWhole 0x05 (fun _ s => deviceReset s) s

/-! ## SET_HALL_BUDGET (R146) -/

def setHallBudget (args : List Word) (s : State) : Answer × State :=
  inRangeOr (within 0 Config.capBound (arg32 args 0)) s fun importCap =>
    inRangeOr (within 0 Config.capBound (arg32 args 2)) s fun exportCap =>
      let changed := capChange importCap exportCap s
      (Answer.done (packS32 changed.1.net ++ pack16 changed.2), changed.1)

def execSetHallBudget (s : State) : Host.Outcome State Fault Refusal := serveWhole 0x06 setHallBudget s

end Sys2Proof.Machine
end

