-- ==== Sys2Proof/Machine/Pins.lean ====
section
/-! DEFINITION. The rows of time and pins: the two timers' expiries (R95, R134) and the millisecond sample of HSTOP_N with the two changes
it can make (R136 to R138). -/

namespace Sys2Proof.Machine

def execStaleTimerExpiry (c : Channel) (s : State) : Host.Outcome State Fault Refusal := .next (staleExpiry c s)

def execContactorTimerExpiry (c : Channel) (s : State) : Host.Outcome State Fault Refusal := .next (contactorExpiry c s)

/-- The asserted sample that makes the debounced state asserted (R136, R137). -/
def execHallStopAsserted (order : List Channel) (s : State) : Host.Outcome State Fault Refusal :=
  if s.hallStop = false ∧ s.previousSample = true then .next (sampleHallStop true order s)
  else .refused .noDebouncedChange

/-- The released sample that makes the debounced state released (R136, R138). -/
def execHallStopReleased (s : State) : Host.Outcome State Fault Refusal :=
  if s.hallStop = true ∧ s.previousSample = false then .next (sampleHallStop false [] s)
  else .refused .noDebouncedChange

/-- The millisecond's sample, with the change of R136 where it makes one. -/
def execHstopNSample (asserted : Bool) (order : List Channel) (s : State) : Host.Outcome State Fault Refusal :=
  .next (sampleHallStop asserted order s)

end Sys2Proof.Machine
end

