-- ==== Sys2Proof/Machine/Output.lean ====
section
/-! DEFINITION. The Output Arbiter and the slots the part writes (R14 to R18, R24 to R26). -/

namespace Sys2Proof.Machine

/-! ## The slots the part writes -/

def bit (b : Bool) (weight : Nat) : Nat := if b then weight else 0

/-- A setpoint slot to the converter address it carries (R25). -/
def setpointSlot (source : NodeAddress) (sp : Setpoint) : Slot :=
  frame kindSetpoint source (BitVec.ofNat 6 (addressCode sp.address))
    (pack16 (sp.output.val * 256 + sp.mode.code * 16 + sp.contactor.code) ++ pack16 sp.magnitude ++ pack16 sp.clamp ++
      pack16 sp.refresh)

/-- The device flags' bits of a reply's word 3 (02 section 2.4). -/
def flagBits (f : DeviceFlags) : Nat :=
  bit f.requestOverrun 8 + bit f.eventOverflow 4 + bit f.anyTripped 2 + bit f.hallStop 1

/-- A reply slot to the source of the request (R24). -/
def replySlot (source : NodeAddress) (r : Reply) : Slot :=
  frame kindReply source r.destination
    (pack16 (r.kind * 256 + r.outcome.code * 16 + flagBits r.flags) ++ [r.tag] ++ r.results)

/-- The field's words, zero when it is absent (R26). -/
def fieldWords {α : Type} (width : Nat) (pack : α → List Word) : Option α → List Word
  | none => List.replicate width 0
  | some a => pack a

/-- The channel code of an event: 8 for DEVICE (02 section 2.5). -/
def eventChannelCode : Option Channel → Nat
  | some c => c.val
  | none => 8

/-- An event slot to the event destination as it stands (R26). -/
def eventSlot (source : NodeAddress) (destination : Nat) (e : Event) : Slot :=
  frame kindEvent source (BitVec.ofNat 6 destination)
    (pack16 (e.cls * 4096 + eventChannelCode e.channel * 256 + bit e.stepIndex.isSome 8 + bit e.cycleNumber.isSome 4 +
        bit e.valueA.isSome 2 + bit e.valueB.isSome 1) ++
      pack16 e.cause.code ++ pack32 e.timeMs.toNat ++ fieldWords 1 pack16 e.stepIndex ++ fieldWords 2 pack32 e.cycleNumber ++
      fieldWords 2 packS32 e.valueA ++ fieldWords 2 packS32 e.valueB ++ pack16 e.detail)

/-! ## The choice (R16) -/

/-- The channels counting upward from the one after the last setpoint channel, wrapping from 7 to 0. -/
def turnOrder (last : Channel) : List Channel := allChannels.map (fun k => last + 1 + k)

/-- A channel's outbox holds a setpoint with the urgent mark given. -/
def holdsSetpoint (s : State) (urgent : Bool) (c : Channel) : Bool :=
  match (s.chan c).outbox with
  | some entry => entry.urgent == urgent
  | none => false

/-- The first channel in turn whose outbox holds a setpoint with the urgent mark given. -/
def nextSetpoint (s : State) (urgent : Bool) : Option Channel :=
  (turnOrder s.lastSetpointChannel).find? (holdsSetpoint s urgent)

/-- A setpoint whose converter address is NONE is no claimant: it is removed without being sent (R17). -/
def discardUnaddressed (ch : ChannelState) : ChannelState :=
  match ch.outbox with
  | some entry => if entry.setpoint.address = none then { ch with outbox := none } else ch
  | none => ch

/-- Something of class B is pending. -/
def classBPending (s : State) : Bool := !s.replyQueue.isEmpty || !s.eventQueue.isEmpty

/-- Sends a channel's setpoint: its outbox is empty after the turn and it is the last setpoint channel (R16, R17). -/
def sendSetpoint (c : Channel) (s : State) : State :=
  match (s.chan c).outbox with
  | none => s
  | some entry =>
    let s := s.modChan c (fun ch => { ch with outbox := none })
    { s with lastSetpointChannel := c, ringOut := .slot (setpointSlot s.nodeAddress entry.setpoint) }

/-- Serves class A (R16): a non-urgent setpoint in turn. -/
def serveA (c : Channel) (s : State) : State := { sendSetpoint c s with lastClass := .a }

/-- Serves class B (R16): the head of the reply queue, else the head of the event queue. -/
def serveB (s : State) : State :=
  match s.replyQueue with
  | r :: rest => { s with replyQueue := rest, lastClass := .b, ringOut := .slot (replySlot s.nodeAddress r) }
  | [] =>
    match s.eventQueue with
    | e :: rest =>
      { s with eventQueue := rest, lastClass := .b, ringOut := .slot (eventSlot s.nodeAddress s.eventDestination e) }
    | [] => s

/-- The Output Arbiter's choice, over outboxes that hold claimants only (R16); `empty` is what leaves when nothing is pending. -/
def chooseItem (empty : Slot) (s : State) : State :=
  match nextSetpoint s true with
  | some c => sendSetpoint c s
  | none =>
    match nextSetpoint s false with
    | none => if classBPending s then serveB s else { s with ringOut := .slot empty }
    | some c =>
      if classBPending s then
        match s.lastClass with
        | .a => serveB s
        | .b => serveA c s
      else serveA c s

/-- One decision of the Output Arbiter at an EMPTY slot's turn (R15); none is made while the node address is 63 (R13). -/
def decideSlot (empty : Slot) (s : State) : State :=
  if s.nodeAddress = 63 then { s with ringOut := .slot empty }
  else chooseItem empty { s with channels := s.channels.map discardUnaddressed }

end Sys2Proof.Machine
end

