-- ==== Sys2Proof/Machine/Ring.lean ====
section
/-! DEFINITION. The Ring Port's events: power-on reset (R1, R195), the receiver (R3 to R6), and each slot's turn (R7 to R13, R20 to
R23). -/

namespace Sys2Proof.Machine

/-! ## POWER_ON_RESET (R195) -/

/-- The part while reset is in effect: every piece of state at its power-on value, so that no channel is TRIPPED and TRIP_N is released,
and the incoming bits repeated with nothing interpreted (R1, R195). The commands that wait are the surroundings' and stay. -/
def heldInReset (bits : List Bool) (s : State) : State :=
  { State.reset with ringOut := .bits bits, pending := s.pending }

/-- Reset is in effect while the bits are received, and ends with the straps sampled as the node address (R195; log entry 26). -/
def execPowerOnReset (period : ResetPeriod) (s : State) : Host.Outcome State Fault Refusal :=
  .next { heldInReset period.bits s with nodeAddress := period.straps }

/-! ## The receiver (R3 to R5) -/

/-- The last bits received, at most 18, after one more (R3). -/
def shiftIn (last : List Bool) (b : Bool) : List Bool := (last ++ [b]).drop (last.length + 1 - 18)

/-- Searching bits for the sync pattern at every bit position: the bits left after the first match, or the last bits received when
there is none (R3). -/
def searchSync : List Bool → List Bool → Option (List Bool) × List Bool
  | last, [] => (none, last)
  | last, b :: rest =>
    let now := shiftIn last b
    if now = ringBits syncPattern then (some rest, now) else searchSync now rest

/-- SEARCH: the bits are repeated; a match at the last of them fixes the framing and moves to CONFIRM, counted from the start of the word 0
found (R3). Bits with no match leave the receiver searching. -/
def execSyncFound (position : Fin 576) (bits : List Bool) (s : State) : Host.Outcome State Fault Refusal :=
  if s.receiver.mode ≠ .search then .refused .otherReceiverEvent
  else
    match searchSync s.receiver.lastBits bits with
    | (none, last) =>
      .next { s with receiver := { s.receiver with lastBits := last }, ringOut := .bits bits }
    | (some [], last) =>
      .next { s with
        receiver := { s.receiver with mode := .confirm, framing := some position.val, position := 18, lastBits := last }
        ringOut := .bits bits }
    | (some (_ :: _), _) => .refused .otherReceiverEvent

/-- Back to SEARCH: no framing, and the 18 bits compared are the first bits of the new search (R4, R5). -/
def backToSearch (compared : List Bool) (r : Receiver) : Receiver :=
  { r with mode := .search, framing := none, missCount := 0, lastBits := compared }

/-- CONFIRM: the 18 bits one slot after the sync word found lock the receiver or send it back to SEARCH (R4). -/
def execConfirmSync (rest : Vector RingWord 31) (sync : RingWord) (s : State) : Host.Outcome State Fault Refusal :=
  if s.receiver.mode ≠ .confirm then .refused .otherReceiverEvent
  else
    let s := { s with ringOut := .words (rest.toList ++ [sync]) }
    if sync = syncPattern then
      .next (raiseDevice .linkLocked
        { s with receiver := { s.receiver with mode := .locked, missCount := 0, position := 18 } })
    else .next { s with receiver := backToSearch (ringBits sync) s.receiver }

/-- One bit of a slot command received outside a slot's turn, `passed` bits of the command before it. SEARCH compares the last 18 bits at
every position (R3); CONFIRM counts the bits from the start of the sync word found, and at the 18th of the following slot compares them
(R4); once LOCKED the bit is one of the slot whose turn is to come. -/
def hearBit (passed : Nat) (b : Bool) (r : Receiver) : Receiver :=
  let last := shiftIn r.lastBits b
  let position := (r.position + 1) % 576
  match r.mode with
  | .search =>
    if last = ringBits syncPattern then
      { r with mode := .confirm, framing := some ((passed + 559) % 576), position := 18, lastBits := last }
    else { r with lastBits := last }
  | .confirm =>
    if position ≠ 18 then { r with position := position, lastBits := last }
    else if last = ringBits syncPattern then { r with mode := .locked, position := 18, missCount := 0, lastBits := last }
    else backToSearch last { r with position := 18 }
  | .locked => { r with position := position }

/-- The bits of a slot command, one by one; `passed` of its bits are behind. -/
def hearBits : Nat → List Bool → Receiver → Receiver
  | _, [], r => r
  | passed, b :: rest, r => hearBits (passed + 1) rest (hearBit passed b r)

/-- The bits of a slot in the order in which they travel. -/
def slotBits (slot : Slot) : List Bool := slot.toList.flatMap ringBits

/-! ## What a slot's turn is (R5, R7, R8, R13) -/

/-- The rows of the table among which a slot's turn in LOCKED falls. -/
inductive SlotEvent where
  | missed | damaged | forwarded | sample | consumed | stripped | empty
deriving DecidableEq, Repr

/-- The node address takes part in the ring's work: at 63 it consumes and strips nothing (R13). -/
def State.takesPart (s : State) : Bool := s.nodeAddress != 63

/-- The handling table of R8 behind the tests of R5 and R7; unknown kinds 6..15 are forwarded. -/
def slotEvent (s : State) (slot : Slot) : SlotEvent :=
  if !syncGood slot then .missed
  else if slotDamaged slot then .damaged
  else
    match slotKindCode slot with
    | 0 => .empty
    | 1 => .sample
    | 3 => if s.takesPart && slotDestination slot == s.nodeAddress then .consumed else .forwarded
    | 2 | 4 | 5 => if s.takesPart && slotSource slot == s.nodeAddress then .stripped else .forwarded
    | _ => .forwarded

/-- The receiver at the turn of a slot with a good sync word: the miss count returns to 0 (R5). -/
def goodTurn (s : State) : State := { s with receiver := { s.receiver with missCount := 0, position := 0 } }

/-- The slot leaves as given. -/
def forward (slot : Slot) (s : State) : State := { s with ringOut := .slot slot }

/-- The 576 bits of a slot command pass in SEARCH or CONFIRM: they are repeated unchanged and not interpreted, and the receiver hears
them; a sync word that confirms the framing locks it and raises LINK_LOCKED (R3, R4, R15; log entry 6). -/
def passSlot (slot : Slot) (s : State) : State :=
  let heard : State := { forward slot s with receiver := hearBits 0 (slotBits slot) s.receiver }
  if heard.receiver.mode = .locked then raiseDevice .linkLocked heard else heard

/-- The turn of a slot that the part holds whole in LOCKED: it must be the row's event (log entry 7). -/
def takeTurn (event : SlotEvent) (slot : Slot) (effect : State → State) (s : State) : Host.Outcome State Fault Refusal :=
  if slotEvent s slot = event then .next (effect s) else .refused .otherSlotEvent

/-- A slot command. In LOCKED it is its slot's turn. In SEARCH and CONFIRM its bits pass (R3, R4, R15); where its own sync word locked
the receiver, the slot stands whole at its end (position 0) and is the first one interpreted, at its turn (R4; log entry 6). -/
def atTurn (event : SlotEvent) (slot : Slot) (effect : State → State) (s : State) : Host.Outcome State Fault Refusal :=
  if s.receiver.mode = .locked then takeTurn event slot effect s
  else
    let s := passSlot slot s
    if s.receiver.mode = .locked ∧ s.receiver.position = 0 then takeTurn event slot effect s else .next s

/-! ## MISSED_SLOT (R5, R135) -/

/-- Lock is lost: SEARCH, LINK_LOST, and link loss trips the running channels (R5, R135). -/
def loseLock (sync : RingWord) (order : List Channel) (s : State) : State :=
  let s := { s with receiver := backToSearch (ringBits sync) s.receiver }
  tripAll .linkLoss order (raiseDevice .linkLost s)

/-- A missed slot: forwarded as received; the fourth in a row loses lock (R5). -/
def missedTurn (slot : Slot) (order : List Channel) (s : State) : State :=
  let s := forward slot s
  if s.receiver.missCount < 3 then
    { s with receiver := { s.receiver with missCount := s.receiver.missCount + 1, position := 0 } }
  else loseLock (slot.get 0) order s

def execMissedSlot (slot : Slot) (order : List Channel) (s : State) : Host.Outcome State Fault Refusal :=
  atTurn .missed slot (missedTurn slot order) s

/-! ## DAMAGED_SLOT and SLOT_FORWARDED (R7, R8) -/

def execDamagedSlot (slot : Slot) (s : State) : Host.Outcome State Fault Refusal :=
  atTurn .damaged slot (fun s => forward (markDamaged slot) (goodTurn s)) s

def execSlotForwarded (slot : Slot) (s : State) : Host.Outcome State Fault Refusal :=
  atTurn .forwarded slot (fun s => forward slot (goodTurn s)) s

/-! ## SAMPLE_SLOT_TURN (R9, R22) -/

/-- The module stamp, high word first. -/
def sampleStamp (slot : Slot) : BitVec 32 := slotWord slot 3 ++ slotWord slot 4

/-- The readings a sample slot hands over: the first count of them, or none when the count is 0 or above 12 (R22). -/
def sampleReadings (slot : Slot) : List Reading :=
  let count := (slotWord slot 5).toNat
  if count ≤ 12 then
    (List.range count).map (fun k =>
      { index := ((slotWord slot (6 + 2 * k)).extractLsb' 8 8).toNat, valid := (slotWord slot (6 + 2 * k)).getLsbD 0,
        value := slotWord slot (7 + 2 * k) })
  else []

def execSampleSlotTurn (slot : Slot) (order : List Channel) (s : State) : Host.Outcome State Fault Refusal :=
  atTurn .sample slot (fun s =>
    applySample (slotSource slot) (sampleStamp slot) (sampleReadings slot) order (forward slot (goodTurn s))) s

/-! ## REQUEST_CONSUMED (R10, R11, R23) -/

/-- The request captured from a slot (R23). -/
def captureRequest (slot : Slot) : Request :=
  { source := slotSource slot, tag := slotWord slot 4, kind := ((slotWord slot 3).extractLsb' 8 8).toNat,
    args := (List.range 27).map (fun i => slotWord slot (5 + i)) }

/-- A drop sets the request-overrun flag, and raises REQUEST_OVERRUN when the flag was clear (R11). -/
def dropRequest (s : State) : State :=
  let s' := { s with requestOverrun := true }
  if s.requestOverrun then s' else raiseDevice .requestOverrun s'

/-- Queueing: the tail of the queue, or a drop when it holds four (R10, R11). -/
def queueRequest (r : Request) (s : State) : State :=
  if s.requestQueue.length < Config.requestCapacity then { s with requestQueue := s.requestQueue ++ [r] }
  else dropRequest s

/-- Capture, queueing, then the freed slot is offered to the Output Arbiter (R10). -/
def execRequestConsumed (slot : Slot) (s : State) : Host.Outcome State Fault Refusal :=
  atTurn .consumed slot (fun s => decideSlot freedSlot (queueRequest (captureRequest slot) (goodTurn s))) s

/-! ## SLOT_STRIPPED and EMPTY_SLOT_TURN (R12, R15) -/

def execSlotStripped (slot : Slot) (s : State) : Host.Outcome State Fault Refusal :=
  atTurn .stripped slot (fun s => decideSlot freedSlot (goodTurn s)) s

/-- An EMPTY slot from upstream that stays EMPTY leaves as it arrived (R21). -/
def execEmptySlotTurn (slot : Slot) (s : State) : Host.Outcome State Fault Refusal :=
  atTurn .empty slot (fun s => decideSlot slot (goodTurn s)) s

end Sys2Proof.Machine
end

