-- ==== Sys2Proof/Machine/Tables.lean ====
section
/-! DEFINITION. The requests on the loaded tables: step records (R59 to R64), routes (R28 to R30), limits (R125, R126) and the trip
record (R142). -/

namespace Sys2Proof.Machine

/-! ## Step records -/

/-- The owner and state checks of a WRITE_STEP part: OWNED, then IN_USE (R60). -/
def stepRefusal (s : State) (index : Nat) (owner : Channel) : Option ReplyCode :=
  match (s.record index).owner with
  | none => if (s.chan owner).atRest then none else some .inUse
  | some present =>
    if present ≠ owner then some .owned
    else if (s.chan owner).atRest then none else some .inUse

/-- A part 0 that passes every check: a complete record replaces the record and drops any staged write; any other is staged (R61). -/
def acceptHead (head : StagedWrite) (s : State) : Answer × State :=
  if head.count ≤ 1 then
    (Answer.done (pack16 0),
      { s.setRecord head.index { owner := some head.owner, body := head.body } with staged := none })
  else (Answer.done (pack16 1), { s with staged := some head })

/-- WRITE_STEP part 0 (R59 to R61). -/
def writeStepHead (args : List Word) (s : State) : Answer × State :=
  inRangeOr (readStepHead args) s fun head =>
    match stepRefusal s head.index head.owner with
    | some code => (Answer.refuse code, s)
    | none => acceptHead head s

/-- A WRITE_STEP request belongs to this row unless its part is 1; a part above 1 is refused with RANGE under either row (R62). -/
def execWriteStepPart0 (s : State) : Host.Outcome State Fault Refusal :=
  serve (fun r => r.kind == 0x20 && argNat r.args 2 != 1)
    (fun args s => (some (writeStepHead args s).1, (writeStepHead args s).2)) s

/-- WRITE_STEP part 1 after its range checks (R62). -/
def writeStepTail (index : Nat) (owner : Channel) (more : List Predicate) (s : State) : Answer × State :=
  match s.staged with
  | none => (Answer.refuse .notFound, s)
  | some head =>
    if head.index ≠ index ∨ head.owner ≠ owner then (Answer.refuse .notFound, s)
    else if more.length ≠ head.count - 1 then (Answer.refuse .range, s)
    else
      match stepRefusal s index owner with
      | some code => (Answer.refuse code, s)
      | none =>
        (Answer.done (pack16 0),
          { s.setRecord index { owner := some owner, body := head.body.addPredicates more } with staged := none })

/-- WRITE_STEP part 1 (R62). -/
def writeStepRest (args : List Word) (s : State) : Answer × State :=
  inRangeOr (readStepRest args) s fun (index, owner, more) => writeStepTail index owner more s

/-- A WRITE_STEP request belongs to this row unless its part is 0 (R62). -/
def execWriteStepPart1 (s : State) : Host.Outcome State Fault Refusal :=
  serve (fun r => r.kind == 0x20 && argNat r.args 2 != 0)
    (fun args s => (some (writeStepRest args s).1, (writeStepRest args s).2)) s

/-- READ_STEP (R63). -/
def readStepPart (r : StepRecord) (part : Nat) : List Word :=
  match part with
  | 0 => packRecord r
  | _ => packList packPredicate (r.body.predicates.drop 1)

def execReadStep (s : State) : Host.Outcome State Fault Refusal :=
  serveWhole 0x21 (fun args s =>
    inRangeOr (argIn 0 511 args 0) s fun index =>
      inRangeOr (argIn 0 1 args 1) s fun part => (Answer.done (readStepPart (s.record index) part), s)) s

/-- FREE_STEPS (R64). -/
def freeOwned (c : Channel) (r : StepRecord) : StepRecord := if r.owner = some c then StepRecord.free else r

def freeSteps (c : Channel) (s : State) : Answer × State :=
  if (s.chan c).atRest then
    (Answer.done (pack16 (s.steps.toList.filter (fun r => r.owner == some c)).length),
      { s with steps := s.steps.map (freeOwned c) })
  else (Answer.refuse .inUse, s)

def execFreeSteps (s : State) : Host.Outcome State Fault Refusal :=
  serveWhole 0x22 (fun args s => inRangeOr (argChannel args 0) s fun c => freeSteps c s) s

/-! ## Routes -/

/-- WRITE_ROUTE's checks after RANGE, in order (R28). -/
def routeRefusal (s : State) (r : Route) : Option ReplyCode :=
  let present := findRoute s.routes r.source r.index
  if !(s.chan r.channel).atRest then some .inUse
  else if (match present with | some q => !(s.chan q.channel).atRest | none => false) then some .inUse
  else if s.routes.any (fun q => q.channel == r.channel && q.point == r.point && q.key != r.key) then some .duplicate
  else if present.isNone && decide (Config.routeCapacity ≤ s.routes.length) then some .tableFull
  else none

/-- The results of an accepted WRITE_ROUTE: the old target, then the entry count (R28). -/
def routeResults (previous : Option Route) (count : Nat) : List Word :=
  packOption 1 (fun q : Route => pack16 q.channel.val) previous ++
    packOption 1 (fun q : Route => pack16 q.point.val) previous ++ pack16 count

def putRouteRequest (r : Route) (s : State) : Answer × State :=
  match routeRefusal s r with
  | some code => (Answer.refuse code, s)
  | none =>
    (Answer.done (routeResults (findRoute s.routes r.source r.index) (putRoute r s.routes).length),
      { s with routes := putRoute r s.routes })

def readRoute (args : List Word) : Option Route := do
  let source ← argIn 0 62 args 0
  let index ← argIn 0 255 args 1
  let channel ← argChannel args 2
  let point ← argPoint args 3
  return { source := source, index := index, channel := channel, point := point }

def execWriteRoute (s : State) : Host.Outcome State Fault Refusal :=
  serveWhole 0x28 (fun args s => inRangeOr (readRoute args) s fun r => putRouteRequest r s) s

/-- REMOVE_ROUTE after RANGE (R29). -/
def removeRoute (source index : Nat) (s : State) : Answer × State :=
  match findRoute s.routes source index with
  | none => (Answer.refuse .notFound, s)
  | some r =>
    if (s.chan r.channel).atRest then
      (Answer.done (pack16 r.channel.val ++ pack16 r.point.val ++ pack16 (dropRoute source index s.routes).length),
        { s with routes := dropRoute source index s.routes })
    else (Answer.refuse .inUse, s)

def execRemoveRoute (s : State) : Host.Outcome State Fault Refusal :=
  serveWhole 0x29 (fun args s =>
    inRangeOr (argIn 0 62 args 0) s fun source =>
      inRangeOr (argIn 0 255 args 1) s fun index => removeRoute source index s) s

/-- The matching routes of a listing: at or after the start key, of the selected channel unless the selector is 8 (R30). -/
def matchingRoutes (selector source index : Nat) (routes : List Route) : List Route :=
  routes.filter (fun r =>
    decide (routeKey source index ≤ r.key) && (selector == 8 || r.channel.val == selector))

def packRoute (r : Route) : List Word := pack16 r.source ++ pack16 r.index ++ pack16 r.channel.val ++ pack16 r.point.val

/-- READ_ROUTES (R30). -/
def listRoutes (selector source index : Nat) (s : State) : List Word :=
  let found := matchingRoutes selector source index s.routes
  packFlag (decide (6 < found.length)) ++ pack16 s.routes.length ++ packList packRoute (found.take 6)

def execReadRoutes (s : State) : Host.Outcome State Fault Refusal :=
  serveWhole 0x2A (fun args s =>
    inRangeOr (argIn 0 8 args 0) s fun selector =>
      inRangeOr (argIn 0 62 args 1) s fun source =>
        inRangeOr (argIn 0 255 args 2) s fun index => (Answer.done (listRoutes selector source index s), s)) s

/-! ## Limits -/

/-- TEMP_HIGH and TEMP_LOW hold signed thresholds (R125). -/
def signedLimit (id : Fin 9) : Bool := id.val == 4 || id.val == 7

/-- The threshold ranges of 07 section 7.1. -/
def thresholdInRange (id : Fin 9) (v : Int) : Bool :=
  match id.val with
  | 0 | 1 => decide (0 ≤ v ∧ v ≤ 60000)
  | 2 | 3 | 6 => decide (0 ≤ v ∧ v ≤ 65535)
  | 4 | 7 => decide (-400 ≤ v ∧ v ≤ 1500)
  | _ => decide (0 ≤ v ∧ v ≤ 30000)

/-- One entry of WRITE_LIMITS; a persistence of 0 means absent, and its threshold word is not read (R125). -/
def readLimit (args : List Word) (id : Fin 9) : Option (Option LimitEntry) := do
  let persistence ← argIn 0 8 args (2 + 2 * id.val)
  if persistence = 0 then some none
  else
    let v : Int := if signedLimit id then argS16 args (1 + 2 * id.val) else (argNat args (1 + 2 * id.val) : Int)
    if thresholdInRange id v then some (some { threshold := v, persistence := persistence }) else none

/-- The nine entries, or none when one is out of range. -/
def readLimits (args : List Word) : Option (Vector (Option LimitEntry) 9) :=
  if (List.finRange 9).all (fun id => (readLimit args id).isSome) then
    some (Vector.ofFn (fun id : Fin 9 => (readLimit args id).getD none))
  else none

/-- The first absent mandatory entry, ids 0..5 (R125). -/
def missingLimit (limits : Vector (Option LimitEntry) 9) : Option (Fin 9) :=
  (List.finRange 9).find? (fun id => decide (id.val < 6) && (limits.get id).isNone)

/-- What an accepted WRITE_LIMITS does to its channel (R125). -/
def loadLimits (limits : Vector (Option LimitEntry) 9) (ch : ChannelState) : ChannelState :=
  { ch with limits := limits, limitsLoaded := true, limitCounters := Vector.replicate 9 0 }

def writeLimits (args : List Word) (s : State) : Answer × State :=
  inRangeOr (argChannel args 0) s fun c =>
    inRangeOr (readLimits args) s fun limits =>
      match missingLimit limits with
      | some id => ({ outcome := .incomplete, results := pack16 id.val }, s)
      | none => (Answer.done [], s.modChan c (loadLimits limits))

def execWriteLimits (s : State) : Host.Outcome State Fault Refusal := serveWhole 0x30 writeLimits s

/-- An entry as READ_LIMITS returns it: threshold 0 and persistence 0 when absent (R126). -/
def packLimit : Option LimitEntry → List Word
  | none => [0, 0]
  | some e => packS16 e.threshold ++ pack16 e.persistence

def execReadLimits (s : State) : Host.Outcome State Fault Refusal :=
  serveWhole 0x31 (fun args s =>
    inRangeOr (argChannel args 0) s fun c =>
      (Answer.done (packFlag (s.chan c).limitsLoaded ++ (s.chan c).limits.toList.flatMap packLimit), s)) s

/-! ## The trip record -/

/-- READ_TRIP's results; zero in every word when the record is absent (R142). -/
def packTrip : Option TripRecord → List Word
  | none => List.replicate 16 0
  | some t =>
    packFlag true ++ pack16 t.cause.code ++ pack16 t.detail ++ packOption 2 packS32 t.value ++ packOption 2 packS32 t.threshold ++
      packOption 1 pack16 t.stepIndex ++ pack32 t.cycleNumber ++ pack32 t.timeMs.toNat ++ pack16 t.stateAtTrip.code

def execReadTrip (s : State) : Host.Outcome State Fault Refusal :=
  serveWhole 0x32 (fun args s =>
    inRangeOr (argChannel args 0) s fun c => (Answer.done (packTrip (s.chan c).tripRecord), s)) s

end Sys2Proof.Machine
end

