-- ==== Sys2Proof/Machine/Dispatch.lean ====
section
/-! DEFINITION. One arm per row of spec/opcode_table.json: each command's meaning. -/

namespace Sys2Proof.Machine

open Sys2Proof

/-- The effect of a command on everything but the queue of waiting commands. -/
def exec (i : Instr) (s : State) : Host.Outcome State Fault Refusal :=
  match i with
  | .powerOnReset period => Sys2Proof.Machine.execPowerOnReset period s
  | .syncFound position bits => Sys2Proof.Machine.execSyncFound position bits s
  | .confirmSync rest sync => Sys2Proof.Machine.execConfirmSync rest sync s
  | .missedSlot slot order => Sys2Proof.Machine.execMissedSlot slot order s
  | .damagedSlot slot => Sys2Proof.Machine.execDamagedSlot slot s
  | .slotForwarded slot => Sys2Proof.Machine.execSlotForwarded slot s
  | .sampleSlotTurn slot order => Sys2Proof.Machine.execSampleSlotTurn slot order s
  | .requestConsumed slot => Sys2Proof.Machine.execRequestConsumed slot s
  | .slotStripped slot => Sys2Proof.Machine.execSlotStripped slot s
  | .emptySlotTurn slot => Sys2Proof.Machine.execEmptySlotTurn slot s
  | .staleTimerExpiry channel => Sys2Proof.Machine.execStaleTimerExpiry channel s
  | .contactorTimerExpiry channel => Sys2Proof.Machine.execContactorTimerExpiry channel s
  | .hallStopAsserted order => Sys2Proof.Machine.execHallStopAsserted order s
  | .hallStopReleased => Sys2Proof.Machine.execHallStopReleased s
  | .unknownRequest => Sys2Proof.Machine.execUnknownRequest s
  | .identify => Sys2Proof.Machine.execIdentify s
  | .readDeviceStatus => Sys2Proof.Machine.execReadDeviceStatus s
  | .setDeviceConfig => Sys2Proof.Machine.execSetDeviceConfig s
  | .clearDeviceFlags => Sys2Proof.Machine.execClearDeviceFlags s
  | .resetDevice => Sys2Proof.Machine.execResetDevice s
  | .setHallBudget => Sys2Proof.Machine.execSetHallBudget s
  | .writeChannelConfig => Sys2Proof.Machine.execWriteChannelConfig s
  | .readChannelConfig => Sys2Proof.Machine.execReadChannelConfig s
  | .readChannel => Sys2Proof.Machine.execReadChannel s
  | .start => Sys2Proof.Machine.execStart s
  | .programCheckCompletion => Sys2Proof.Machine.execProgramCheckCompletion s
  | .hold => Sys2Proof.Machine.execHold s
  | .resume => Sys2Proof.Machine.execResume s
  | .skipStep => Sys2Proof.Machine.execSkipStep s
  | .stop => Sys2Proof.Machine.execStop s
  | .clearTrip => Sys2Proof.Machine.execClearTrip s
  | .writeStepPart0 => Sys2Proof.Machine.execWriteStepPart0 s
  | .writeStepPart1 => Sys2Proof.Machine.execWriteStepPart1 s
  | .readStep => Sys2Proof.Machine.execReadStep s
  | .freeSteps => Sys2Proof.Machine.execFreeSteps s
  | .writeRoute => Sys2Proof.Machine.execWriteRoute s
  | .removeRoute => Sys2Proof.Machine.execRemoveRoute s
  | .readRoutes => Sys2Proof.Machine.execReadRoutes s
  | .writeLimits => Sys2Proof.Machine.execWriteLimits s
  | .readLimits => Sys2Proof.Machine.execReadLimits s
  | .readTrip => Sys2Proof.Machine.execReadTrip s
  | .readCounters => Sys2Proof.Machine.execReadCounters s
  | .readHistory => Sys2Proof.Machine.execReadHistory s
  | .clearCounters => Sys2Proof.Machine.execClearCounters s
  | .clearCauses => Sys2Proof.Machine.execClearCauses s
  | .hstopNSample asserted order => Sys2Proof.Machine.execHstopNSample asserted order s

end Sys2Proof.Machine
end

