-- ==== Sys2Proof/Safety.lean ====
section
/-! DEFINITION. What a sound state is, in the terms the manual uses: its queues, Route Map, Step Store, counters and accumulators, the
arbiter's lists against the channel states, and what the hall stop and the loss of lock keep at rest. Also the words in which the
statements speak of requests and replies, of the receiver's search, and of the stages of an evaluation. -/

namespace Sys2Proof.Safety

open Sys2Proof.Machine

/-! ## Queues -/

/-- Class descending (R178). -/
def EventsOrdered (q : List Event) : Prop := q.Pairwise (fun a b => b.cls ≤ a.cls)

/-- The three queues hold at most what they can (R178, R181, R184), the events stand by class, and a walk in flight has its START in the
request queue and room for its reply (R68, R182). -/
structure QueuesOk (s : State) : Prop where
  events   : s.eventQueue.length ≤ 32
  order    : EventsOrdered s.eventQueue
  requests : s.requestQueue.length ≤ 4
  replies  : s.replyQueue.length ≤ 4
  walk     : s.walk.isSome → s.requestQueue ≠ [] ∧ s.replyQueue.length < 4

/-! ## Tables -/

/-- The Route Map: at most 2048 routes in strict key order, no two with one target, every key in range (R27). -/
structure RoutesOk (routes : List Route) : Prop where
  count   : routes.length ≤ 2048
  order   : routes.Pairwise (fun a b => a.key < b.key)
  targets : routes.Pairwise (fun a b => ¬(a.channel = b.channel ∧ a.point = b.point))
  keys    : ∀ r ∈ routes, r.source ≤ 62 ∧ r.index ≤ 255

/-- The target word a GOTO outcome holds is one word of a request (log entry 13). -/
def OutcomeOk : PredicateOutcome → Prop
  | .goto target => target ≤ 65535
  | .next => True
  | .finish => True
  | .hold => True
  | .fault => True

/-- A predicate's fields: a signed 32-bit threshold and a persistence of 1..15 (R51). -/
def PredicateOk (p : Predicate) : Prop :=
  1 ≤ p.persistence ∧ p.persistence ≤ 15 ∧ -2147483648 ≤ p.threshold ∧ p.threshold ≤ 2147483647 ∧ OutcomeOk p.outcome

/-- At most so many predicates, each with its fields in range (R51). -/
def PredicatesOk (most : Nat) (ps : List Predicate) : Prop := ps.length ≤ most ∧ ∀ p ∈ ps, PredicateOk p

/-- A record's contents lie in the ranges of R47, R48 and R51; `most` predicates are those it may hold so far. A link is one word of a
request, not checked when it is written (R47; log entry 13). -/
def BodyOk (most : Nat) : StepBody → Prop
  | .sample kind next parts =>
      next ≤ 65535 ∧ (∀ v ∈ parts.level, v ≤ if kind = .chargeCC ∨ kind = .dischargeCC then 30000 else 200000) ∧
      (∀ v ∈ parts.clamp, v ≤ 60000) ∧ (∀ v ∈ parts.budget, v ≤ 200000) ∧
      ∀ ps ∈ parts.terminations, PredicatesOk most ps
  | .loop target next count _ predicates =>
      target ≤ 65535 ∧ next ≤ 65535 ∧ 1 ≤ count ∧ count ≤ 65535 ∧ PredicatesOk most predicates
  | .finish => True

/-- The Step Store: a FREE record is END (R46), every record's contents are in range, and a staged write holds a first predicate at most
and waits for one to three more (R61). -/
structure StoreOk (s : State) : Prop where
  free    : ∀ i, (s.record i).owner = none → (s.record i).body = .finish
  records : ∀ i, BodyOk 4 (s.record i).body
  staged  : ∀ w ∈ s.staged, w.index ≤ 511 ∧ 2 ≤ w.count ∧ w.count ≤ 4 ∧ BodyOk 1 w.body

/-! ## Channels -/

/-- The configuration fields that bound what a channel counts and asks for (05 section 5.1). -/
structure ConfigOk (g : ChannelConfig) : Prop where
  currentMaximum : g.currentMaximum ≤ 30000
  maxInterval    : 1 ≤ g.maxInterval ∧ g.maxInterval ≤ 10000
  maxPointAge    : 1 ≤ g.maxPointAge ∧ g.maxPointAge ≤ 254
  confirmCount   : 1 ≤ g.confirmCount ∧ g.confirmCount ≤ 8

/-- The lifetime counters and cycle totals within their widths (09 section 9.1). -/
def LifetimeOk (l : Lifetime) : Prop :=
  l.chargeIn ≤ 4294967295 ∧ l.chargeOut ≤ 4294967295 ∧ l.energyIn ≤ 281474976710655 ∧ l.energyOut ≤ 281474976710655

def TotalsOk (t : CycleTotals) : Prop :=
  t.chargeIn ≤ 4294967295 ∧ t.chargeOut ≤ 4294967295 ∧ t.energyIn ≤ 4294967295 ∧ t.energyOut ≤ 4294967295 ∧
    t.runSeconds ≤ 4294967295

/-- A loop stack: at most four entries, each of a distinct record with a remaining count of 1..65534 (R70). -/
def StackOk (stack : List LoopEntry) : Prop :=
  stack.length ≤ 4 ∧ (stack.map LoopEntry.index).Nodup ∧ ∀ e ∈ stack, 1 ≤ e.remaining ∧ e.remaining ≤ 65534

/-- A channel's counters, accumulators and lists within the ranges the manual gives them; a limit set not loaded holds no entry (R124,
R126). -/
structure ChannelOk (ch : ChannelState) : Prop where
  config      : ConfigOk ch.config
  counts      : ch.closeCount ≤ 8 ∧ ch.openCount ≤ 8
  charge      : -(2 ^ 47 - 1) ≤ ch.qs ∧ ch.qs ≤ 2 ^ 47 - 1
  energy      : -(2 ^ 59 - 1) ≤ ch.es ∧ ch.es ≤ 2 ^ 59 - 1
  fine        : ch.timeFine ≤ 9999
  coarse      : ch.timeCoarse ≤ 4294967295
  magnitude   : ch.lastMagnitude ≤ 30000
  outbox      : ∀ e ∈ ch.outbox, e.setpoint.magnitude ≤ 30000
  refresh     : ch.refreshCount ≤ 255
  stack       : StackOk ch.loopStack
  lifetime    : LifetimeOk ch.lifetime
  cycle       : TotalsOk ch.cycle
  cycleCount  : ch.cycleCount ≤ 4294967295
  history     : ch.history.length ≤ 16
  ages        : ∀ p, (ch.point p).age ≤ 255
  unloaded    : ch.limitsLoaded = false → ch.limits = Vector.replicate 9 none

/-- Every channel within its ranges. -/
def ChannelsOk (s : State) : Prop := ∀ c, ChannelOk (s.chan c)

/-- The range of an entry's threshold (07 section 7.1). -/
def ThresholdOk (id : Fin 9) (threshold : Int) : Prop :=
  match id.val with
  | 0 | 1 => 0 ≤ threshold ∧ threshold ≤ 60000
  | 2 | 3 | 6 => 0 ≤ threshold ∧ threshold ≤ 65535
  | 4 | 7 => -400 ≤ threshold ∧ threshold ≤ 1500
  | _ => 0 ≤ threshold ∧ threshold ≤ 30000

/-- A channel's limit entries, its two kinds of persistence counters and its timers within their ranges. A limit counter is 0..8 and
below its entry's persistence, since reaching it trips (R124, R129, R131); a termination counter is 0..15, and while a step is current
below its predicate's persistence, since reaching it ends the step (R51, R53); a running timer's length is a configured time (R95,
R133). -/
structure MonitorOk (ch : ChannelState) : Prop where
  times    : 10 ≤ ch.config.staleTime ∧ ch.config.staleTime ≤ 10000 ∧ 50 ≤ ch.config.contactorTime ∧ ch.config.contactorTime ≤ 5000
  entries  : ∀ id e, ch.limits.get id = some e → 1 ≤ e.persistence ∧ e.persistence ≤ 8 ∧ ThresholdOk id e.threshold
  counters : ∀ id, ch.limitCounters.get id ≤ 8 ∧ (ch.limits.get id = none → ch.limitCounters.get id = 0) ∧
               ∀ e, ch.limits.get id = some e → ch.limitCounters.get id < e.persistence
  list     : ∀ ps ∈ ch.effective.terminations, PredicatesOk 4 ps
  judged   : ∀ k, ch.persistence.get k ≤ 15 ∧
               (ch.currentStep ≠ none → ∀ ps ∈ ch.effective.terminations, ∀ p, ps[k.val]? = some p →
                 ch.persistence.get k < p.persistence)
  timers   : (∀ t ∈ ch.contactorTimer, 50 ≤ t.length ∧ t.length ≤ 5000) ∧ ∀ t ∈ ch.staleTimer, 10 ≤ t.length ∧ t.length ≤ 10000

def MonitorsOk (s : State) : Prop := ∀ c, MonitorOk (s.chan c)

/-! ## The arbiter against the channels -/

def HoldsGrant (s : State) (c : Channel) : Prop := c ∈ s.grants.map Grant.channel

def Waits (s : State) (c : Channel) : Prop := c ∈ s.waits.map WaitEntry.channel

/-- The status of a channel that waits for power. -/
def WaitStatus (st : Status) : Prop := st = .waitBudget ∨ st = .displaced

/-- The arbiter's lists: the net within the caps (R145), at most one entry a channel, no zero grant and no zero request (R147, R148), a
grant only in RUNNING (R147), a channel in the wait list exactly while it waits (R148), the wait list by priority (R148), and the channel
of a walk in flight still IDLE (R68). -/
structure PowerOk (s : State) : Prop where
  caps      : s.inCaps s.net = true
  grantOnce : (s.grants.map Grant.channel).Nodup
  waitOnce  : (s.waits.map WaitEntry.channel).Nodup
  grantNot0 : ∀ g ∈ s.grants, g.watts ≠ 0
  waitNot0  : ∀ w ∈ s.waits, w.request ≠ 0
  granted   : ∀ c, HoldsGrant s c → (s.chan c).status = .running
  waiting   : ∀ c, Waits s c ↔ WaitStatus (s.chan c).status
  bands     : s.waits.Pairwise (fun a b => b.priority ≤ a.priority)
  walk      : ∀ w ∈ s.walk, (s.chan w.channel).status = .idle

/-- While the hall stop is asserted, and while the receiver is not LOCKED, every channel is IDLE or TRIPPED (R137, R135). -/
def QuietOk (s : State) : Prop :=
  (s.hallStop = true ∨ s.receiver.mode ≠ .locked) → ∀ c, (s.chan c).atRest = true

/-! ## Requests and replies -/

/-- The Request Engine takes this request now: it is the head of the queue, the reply has room and no program check is in flight
(R182). -/
def Taken (s : State) (r : Request) (rest : List Request) : Prop :=
  s.requestQueue = r :: rest ∧ s.replyQueue.length < 4 ∧ s.walk = none

/-- The reply to a request, with the device flags of a state (R184, R185). -/
def replyTo (r : Request) (outcome : ReplyCode) (results : List Word) (flags : DeviceFlags) : Reply :=
  { destination := r.source, kind := r.kind, tag := r.tag, outcome := outcome, flags := flags, results := results }

/-- The state `after` an execution's effect, once its reply is placed and its entry has left the request queue (R181, R184). -/
def answered (r : Request) (rest : List Request) (outcome : ReplyCode) (results : List Word) (after : State) : State :=
  { after with
    requestQueue := rest
    replyQueue := after.replyQueue ++ [replyTo r outcome results after.deviceFlags] }

/-- The channel is in neither list of the arbiter: a release or a removal of it changes nothing (R149). -/
def NoPower (s : State) (c : Channel) : Prop := ¬HoldsGrant s c ∧ ¬Waits s c

/-- The urgent outbox entry of a transition into an OFF state: mode OFF, magnitude 0, the given contactor command and the channel's
effective clamp (R102, R103). -/
def offSetpoint (ch : ChannelState) (command : Contactor) : Setpoint :=
  { address := ch.config.converterAddress, output := ch.config.converterOutput, mode := .off, magnitude := 0,
    clamp := ch.effective.clamp.getD 0, contactor := command, refresh := (ch.refreshCount + 1) % 256 }

/-- The rows of the table that are requests taken by the Request Engine (R182); the completion of a program check is not one. -/
def requestRows : List Instr :=
  [.unknownRequest, .identify, .readDeviceStatus, .setDeviceConfig, .clearDeviceFlags, .resetDevice, .setHallBudget,
   .writeChannelConfig, .readChannelConfig, .readChannel, .start, .hold, .resume, .skipStep, .stop, .clearTrip, .writeStepPart0,
   .writeStepPart1, .readStep, .freeSteps, .writeRoute, .removeRoute, .readRoutes, .writeLimits, .readLimits, .readTrip,
   .readCounters, .readHistory, .clearCounters, .clearCauses]

/-! ## Frames -/

/-- What the work of channels and of the arbiter may touch: the channels, the grant and wait lists, the event queue and its overflow
flag. Every other field of the part stays as it stood. -/
def ChannelWork (s t : State) : Prop :=
  ∃ chs g w q o, t = { s with channels := chs, grants := g, waits := w, eventQueue := q, eventOverflow := o }

/-- Every channel other than `c` that has no entry in the arbiter's lists is as it was (R80, R149). -/
def BystandersKept (c : Channel) (s t : State) : Prop := ∀ d, d ≠ c → NoPower s d → t.chan d = s.chan d

/-- Every channel other than `c` is as it was. -/
def OthersKept (c : Channel) (s t : State) : Prop := ∀ d, d ≠ c → t.chan d = s.chan d

/-- No lifetime counter is below what it was (R166). -/
def LifetimeLe (a b : Lifetime) : Prop :=
  a.chargeIn ≤ b.chargeIn ∧ a.chargeOut ≤ b.chargeOut ∧ a.energyIn ≤ b.energyIn ∧ a.energyOut ≤ b.energyOut

/-! ## The receiver outside LOCKED (R3, R4) -/

/-- The last 18 of the bits received so far. -/
def lastEighteen (bits : List Bool) : List Bool := bits.drop (bits.length - 18)

/-- What a search over at most 576 bits makes of a receiver in SEARCH, when `passed` bits of the command are behind (R3): the last 18 bits
received are compared at every position, and the first match enters CONFIRM, its position counted from the start of the word 0 found
and moved on by the bits that follow. -/
structure Searched (passed : Nat) (bits : List Bool) (before after : Receiver) : Prop where
  unmatched : (∀ k, 0 < k → k ≤ bits.length → ¬ringBits syncPattern <:+ before.lastBits ++ bits.take k) →
    after = { before with lastBits := lastEighteen (before.lastBits ++ bits) }
  matched   : ∀ k, 0 < k → k ≤ bits.length → ringBits syncPattern <:+ before.lastBits ++ bits.take k →
    (∀ j, 0 < j → j < k → ¬ringBits syncPattern <:+ before.lastBits ++ bits.take j) →
      after = { before with
        mode := .confirm, framing := some ((passed + k + 558) % 576), position := (18 + (bits.length - k)) % 576
        lastBits := lastEighteen (before.lastBits ++ bits) }

/-! ## The quantities of a channel (R43, R44, R52, R127) -/

/-- A configured point counted among the cells or the temperatures holds this value (R43, R44). -/
def CellValue (ch : ChannelState) (v : Int) : Prop :=
  ∃ p : PointNumber, p.val < min ch.config.cellCount 192 ∧ (ch.point p).age < 255 ∧ (ch.point p).value = v

def TemperatureValue (ch : ChannelState) (v : Int) : Prop :=
  ∃ p : PointNumber, 192 ≤ p.val ∧ p.val < 192 + min ch.config.temperatureCount 32 ∧ (ch.point p).age < 255 ∧
    (ch.point p).value = v

def Greatest (held : Int → Prop) (v : Int) : Prop := held v ∧ ∀ x, held x → x ≤ v

def Least (held : Int → Prop) (v : Int) : Prop := held v ∧ ∀ x, held x → v ≤ x

/-- The cell spread (R43). -/
def Spread (held : Int → Prop) (v : Int) : Prop := ∃ hi lo, Greatest held hi ∧ Least held lo ∧ v = hi - lo

/-- The pack voltage received since START (R52, R127). -/
def VoltageSeen (ch : ChannelState) (v : Int) : Prop := (ch.point 225).age < 255 ∧ (ch.point 225).value = v

/-- The configured points (R33). -/
def Configured (g : ChannelConfig) (p : PointNumber) : Prop :=
  p.val < min g.cellCount 192 ∨ (192 ≤ p.val ∧ p.val < 192 + min g.temperatureCount 32) ∨ 225 ≤ p.val

/-- Every configured point is within the maximum point age (R92, R132). -/
def AllFresh (ch : ChannelState) : Prop := ∀ p, Configured ch.config p → (ch.point p).age ≤ ch.config.maxPointAge

/-- The channel is RUNNING a CC or CP step of this kind (R114, R130). -/
def Drives (s : State) (c : Channel) (kind : SampleKind) : Prop :=
  (s.chan c).status = .running ∧ kind ≠ .rest ∧ ∃ i next parts, (s.chan c).currentStep = some i ∧
    (s.record i).body = .sample kind next parts

/-! ## Stage 2: the checks (R127 to R132) -/

/-- The quantity of a limit entry, where it is valid (R127). -/
def LimitValue (ch : ChannelState) (current : Int) (id : Fin 9) (v : Int) : Prop :=
  match id.val with
  | 0 | 1 => VoltageSeen ch v
  | 2 => Greatest (CellValue ch) v
  | 3 => Least (CellValue ch) v
  | 4 => Greatest (TemperatureValue ch) v
  | 6 => Spread (CellValue ch) v
  | 7 => Least (TemperatureValue ch) v
  | _ => v = current.natAbs

/-- An entry is violated by a valid quantity; RESIDUAL_CURRENT only while the setpoint mode is OFF (R129, R130). -/
def LimitViolated (s : State) (c : Channel) (current : Int) (id : Fin 9) (e : LimitEntry) (v : Int) : Prop :=
  (s.chan c).limits.get id = some e ∧ LimitValue (s.chan c) current id v ∧
    (if id = 1 ∨ id = 3 ∨ id = 7 then v < e.threshold else e.threshold < v) ∧ (id = 8 → ∀ kind, ¬Drives s c kind)

/-- A violated entry's counter reaches its persistence (R129). -/
def LimitTrips (s : State) (c : Channel) (current : Int) (id : Fin 9) (e : LimitEntry) (v : Int) : Prop :=
  LimitViolated s c current id e v ∧ e.persistence ≤ (s.chan c).limitCounters.get id + 1

/-- The limit counters once the entries named were checked: a violated entry's counter has risen by 1, any other present entry's is 0;
an absent entry's, and one not checked, is as it was (R129, R130). -/
def LimitsMoved (s : State) (c : Channel) (current : Int) (checked : Fin 9 → Prop) (after : Vector Nat 9) : Prop :=
  ∀ id, (¬checked id ∨ (s.chan c).limits.get id = none → after.get id = (s.chan c).limitCounters.get id) ∧
    ∀ e, checked id → (s.chan c).limits.get id = some e →
      ((∃ v, LimitViolated s c current id e v) → after.get id = (s.chan c).limitCounters.get id + 1) ∧
      ((∀ v, ¬LimitViolated s c current id e v) → after.get id = 0)

/-- The converter status holds no fault code received since START (R128). -/
def ConverterFine (ch : ChannelState) : Prop := (ch.point 227).age = 255 ∨ (ch.point 227).value = 0

/-- Stage 2 of a channel that is neither IDLE nor TRIPPED: the converter status, the limit set in table order, then staleness except in
CONNECTING; the first check that trips ends it (R90, R128 to R132). -/
structure ChecksMade (c : Channel) (current : Int) (s t : State) : Prop where
  fault : ((s.chan c).point 227).age < 255 → ((s.chan c).point 227).value ≠ 0 →
    t = trip c { cause := .converterFault, detail := ((s.chan c).point 227).value.toNat, value := none, threshold := none,
                 stepIndex := (s.chan c).currentStep } s
  limit : ConverterFine (s.chan c) → ∀ id e v, LimitTrips s c current id e v → (∀ j e' v', j < id → ¬LimitTrips s c current j e' v') →
    ∃ counters, LimitsMoved s c current (fun j => j ≤ id) counters ∧
      t = trip c { cause := .limit, detail := id.val, value := some v, threshold := some e.threshold,
                   stepIndex := (s.chan c).currentStep } (s.modChan c (fun ch => { ch with limitCounters := counters }))
  stale : ConverterFine (s.chan c) → (∀ id e v, ¬LimitTrips s c current id e v) →
    ∃ counters, LimitsMoved s c current (fun _ => True) counters ∧
      let checked := s.modChan c (fun ch => { ch with limitCounters := counters })
      ((s.chan c).status = .connecting ∨ AllFresh (s.chan c) → t = checked) ∧
      ∀ p, (s.chan c).status ≠ .connecting → Configured (s.chan c).config p →
        (s.chan c).config.maxPointAge < ((s.chan c).point p).age →
        (∀ q, q < p → Configured (s.chan c).config q → ((s.chan c).point q).age ≤ (s.chan c).config.maxPointAge) →
        t = trip c { cause := .stalePoint, detail := p.val, value := some (((s.chan c).point p).age : Int),
                     threshold := some ((s.chan c).config.maxPointAge : Int), stepIndex := (s.chan c).currentStep } checked

/-! ## Stage 3: the contactor (R91 to R94) -/

/-- The close and open counts once stage 3 has moved them: a fresh reading of 1 is closed, of 0 is open (R91). -/
def countedClosed (ch : ChannelState) : Nat :=
  if (ch.point 226).updated = false then ch.closeCount else if (ch.point 226).value = 1 then min (ch.closeCount + 1) 8 else 0

def countedOpen (ch : ChannelState) : Nat :=
  if (ch.point 226).updated = false then ch.openCount else if (ch.point 226).value = 1 then 0 else min (ch.openCount + 1) 8

/-- Stage 3 in every state but IDLE: the counts move, then the state's confirmation or the dropped check (R91 to R94). -/
structure ContactorJudged (c : Channel) (s t moved : State) : Prop where
  moves         : moved = s.modChan c (fun ch => { ch with closeCount := countedClosed ch, openCount := countedOpen ch })
  confirmed     : (s.chan c).status = .connecting → (s.chan c).config.confirmCount ≤ countedClosed (s.chan c) → AllFresh (s.chan c) →
    ∀ i, (s.chan c).config.entryStep = some i → t = beginEntryStep c i (moved.modChan c (fun ch => { ch with contactorTimer := none }))
  waits         : (s.chan c).status = .connecting →
    countedClosed (s.chan c) < (s.chan c).config.confirmCount ∨ ¬AllFresh (s.chan c) → t = moved
  disconnecting : (s.chan c).status = .disconnecting →
    t = if (s.chan c).config.confirmCount ≤ countedOpen (s.chan c) then
      moved.modChan c (fun ch => { ch with status := .idle, contactorTimer := none, staleTimer := none }) else moved
  tripped       : (s.chan c).status = .tripped →
    t = moved.modChan c (fun ch => { ch with
      openConfirmed := (
        if (ch.point 226).updated = true ∧ (ch.point 226).value = 1 then false
        else if ch.config.confirmCount ≤ ch.openCount then true else ch.openConfirmed) })
  dropped       : (s.chan c).status ∈ [Status.waitBudget, .running, .displaced, .holding] →
    t = if (s.chan c).config.confirmCount ≤ countedOpen (s.chan c) then
      trip c { cause := .contactorDropped, detail := 0, value := some (countedOpen (s.chan c) : Int),
               threshold := some ((s.chan c).config.confirmCount : Int), stepIndex := (s.chan c).currentStep } moved else moved

/-! ## Stage 4: terminations (R51 to R58, R96) -/

/-- A termination quantity, where it is valid (R52, R122). -/
def QuantityIs (ch : ChannelState) (current : Int) (q : Quantity) (v : Int) : Prop :=
  match q with
  | .stepTime => v = ch.timeCoarse
  | .stepCharge => v = roundQuotient ch.config.rounding ch.qs 3600000
  | .stepEnergy => v = roundQuotient ch.config.rounding ch.es 360000000
  | .packVoltage => VoltageSeen ch v
  | .packCurrent => v = current
  | .cellMax => Greatest (CellValue ch) v
  | .cellMin => Least (CellValue ch) v
  | .cellSpread => Spread (CellValue ch) v
  | .tempMax => Greatest (TemperatureValue ch) v
  | .cycleCount => v = ch.cycleCount
  | .retention => ∃ out reference : Nat, ch.lastClosedOut = some out ∧ ch.reference = some reference ∧
      v = (min (out * 1000 / reference) 65535 : Nat)

/-- A predicate's quantity is valid with this value and its comparison is true (R51, R53). -/
def PredicateTrue (ch : ChannelState) (current : Int) (p : Predicate) (v : Int) : Prop :=
  QuantityIs ch current p.quantity v ∧
    match p.comparison with
    | .ge => p.threshold ≤ v
    | .gt => p.threshold < v
    | .le => v ≤ p.threshold
    | .lt => v < p.threshold
    | .eq => v = p.threshold
    | .ne => v ≠ p.threshold

/-- The effective termination list. -/
def effectiveList (ch : ChannelState) : List Predicate := ch.effective.terminations.getD []

/-- The predicate at a list position fires: it is true and its counter reaches its persistence (R53). -/
def Fires (ch : ChannelState) (current : Int) (k : Nat) (p : Predicate) (v : Int) : Prop :=
  (effectiveList ch)[k]? = some p ∧ PredicateTrue ch current p v ∧ p.persistence ≤ ch.persistence[k]?.getD 0 + 1

/-- A predicate of a LOOP record fires: it is true (R71). -/
def LoopFires (ch : ChannelState) (current : Int) (predicates : List Predicate) (k : Nat) (p : Predicate) (v : Int) : Prop :=
  predicates[k]? = some p ∧ PredicateTrue ch current p v

/-- The predicates of a list that its evaluation up to the position `last`, or of the whole list, finds with an invalid quantity, in list
order with their positions (R53, R54, R71). -/
def InvalidFound (ch : ChannelState) (current : Int) (predicates : List Predicate) (last : Option Nat)
    (invalid : List (Nat × Predicate)) : Prop :=
  invalid.Pairwise (fun a b => a.1 < b.1) ∧
    ∀ k p, (k, p) ∈ invalid ↔ (∀ l ∈ last, k ≤ l) ∧ predicates[k]? = some p ∧ ∀ v, ¬QuantityIs ch current p.quantity v

/-- ARITH_INVALID for each of them: the list position, the quantity's code, the step index (R54). -/
def invalidRaised (c : Channel) (stepIndex : Option Nat) (invalid : List (Nat × Predicate)) (s : State) : State :=
  invalid.foldl (fun u found => raiseChannel c .arithInvalid
    { detail := found.1, valueA := some (found.2.quantity.code : Int), stepIndex := stepIndex } u) s

/-- What the evaluation of the effective list leaves, up to the position `last` at which it stopped, or of the whole list: each
evaluated predicate's counter, and ARITH_INVALID for an invalid quantity (R53, R54). -/
structure Judged (c : Channel) (current : Int) (last : Option Nat) (s u : State) : Prop where
  counters : ∃ counters flags, u.chan c = { s.chan c with persistence := counters, causes := flags } ∧
    (∀ k : Fin 4,
      ((∃ l ∈ last, l < k.val) ∨ (effectiveList (s.chan c))[k.val]? = none → counters.get k = (s.chan c).persistence.get k) ∧
      ∀ p, (∀ l ∈ last, k.val ≤ l) → (effectiveList (s.chan c))[k.val]? = some p →
        ((∃ v, PredicateTrue (s.chan c) current p v) → counters.get k = (s.chan c).persistence.get k + 1) ∧
        ((∀ v, ¬PredicateTrue (s.chan c) current p v) → counters.get k = 0)) ∧
    ∀ x, x ∈ flags ↔ x ∈ (s.chan c).causes ∨ (x = .arithInvalid ∧
      ∃ k p, (∀ l ∈ last, k ≤ l) ∧ (effectiveList (s.chan c))[k]? = some p ∧ ∀ v, ¬QuantityIs (s.chan c) current p.quantity v)
  raised   : ∃ invalid, InvalidFound (s.chan c) current (effectiveList (s.chan c)) last invalid ∧
    u.eventQueue = (invalidRaised c (s.chan c).currentStep invalid s).eventQueue ∧
    u.eventOverflow = (invalidRaised c (s.chan c).currentStep invalid s).eventOverflow
  others   : OthersKept c s u
  same     : u = { s with channels := u.channels, eventQueue := u.eventQueue, eventOverflow := u.eventOverflow }

/-! ## The program's end (R74, R101) -/

/-- What the end of a program leaves; `i` is the END record, the ended step or the LOOP record. That PROGRAM_END comes before the release is
the model's choice (log entry 16). -/
structure ProgramEnded (c : Channel) (i : Nat) (s t : State) : Prop where
  order   : t = produceSetpoint c true (settlePower c (raiseChannel c .programEnd
    { stepIndex := some i, cycleNumber := some (s.chan c).cycleCount, valueA := none, valueB := none, detail := 0 }
    (s.modChan c (fun ch => { ch with
      status := .disconnecting, runOutcome := .completed, closeCount := 0, openCount := 0
      contactorTimer := some { startedAt := s.msTime, length := ch.config.contactorTime } }))))
  channel : PowerOk s → t.chan c = { s.chan c with
    status := .disconnecting, runOutcome := .completed, closeCount := 0, openCount := 0
    contactorTimer := some { startedAt := s.msTime, length := (s.chan c).config.contactorTime }
    outbox := some { setpoint := offSetpoint (s.chan c) .open, urgent := true }
    lastSetpoint := some (offSetpoint (s.chan c) .open)
    refreshCount := ((s.chan c).refreshCount + 1) % 256
    causes := (t.chan c).causes }
  cause   : PowerOk s → .programEnd ∈ (t.chan c).causes
  event   : (s.chan c).config.reportLevel.val ≤ 1 → t.eventOverflow = false →
    { cls := 1, cause := .programEnd, channel := some c, timeMs := s.msTime, stepIndex := some i,
      cycleNumber := some (s.chan c).cycleCount, valueA := none, valueB := none, detail := 0 : Event } ∈ t.eventQueue
  power   : PowerOk s → NoPower t c ∧ BystandersKept c s t ∧ ChannelWork s t ∧ t.inCaps t.net = true

/-! ## The program check (R65, R66) -/

/-- A visit's checks of the record at an index, one reason each (R66); NO_END is not one of them. -/
def CheckFails (s : State) (c : Channel) (entry i : Nat) : CheckReason → Prop
  | .badLink => 511 < i ∨ (s.record i).owner = none
  | .foreignStep => (s.record i).owner ≠ some c
  | .entryIncomplete => i = entry ∧ ¬∃ kind next parts, (s.record i).body = .sample kind next parts ∧ parts.level ≠ none ∧
      parts.clamp ≠ none ∧ parts.budget ≠ none ∧ parts.terminations ≠ none
  | .badQuantity => ∃ target next count flag predicates, (s.record i).body = .loop target next count flag predicates ∧
      ∃ p ∈ predicates, ¬((p.quantity = .cycleCount ∨ p.quantity = .retention) ∧ p.persistence = 1)
  | .loopToSelf => ∃ next count flag predicates, (s.record i).body = .loop i next count flag predicates
  | .noEnd => False

/-- The reason a visit ends the walk with: that of the first check, in the order of the codes, that fails (R66). -/
def VisitFails (s : State) (c : Channel) (entry i : Nat) (reason : CheckReason) : Prop :=
  CheckFails s c entry i reason ∧ ∀ earlier : CheckReason, earlier.code < reason.code → ¬CheckFails s c entry i earlier

/-- How a walk goes on from the indices visited and the list to visit, and the answer it ends with (R65, R66): the oldest index is visited;
one that fails ends the walk; another's successors join the end of the list, but for those visited or in it; an empty list asks for an END
record among those visited. -/
inductive Walks (s : State) (c : Channel) (entry : Nat) : List Nat → List Nat → Option (Nat × CheckReason) → Prop
  | fails (visited rest : List Nat) (i : Nat) (reason : CheckReason) :
      VisitFails s c entry i reason → Walks s c entry visited (i :: rest) (some (i, reason))
  | passes (visited rest : List Nat) (i : Nat) (answer : Option (Nat × CheckReason)) :
      (∀ reason, ¬CheckFails s c entry i reason) →
      Walks s c entry (i :: visited)
        (rest ++ ((s.record i).body.successors.filter (fun j => decide (j ∉ i :: visited ∧ j ∉ rest))).eraseDups) answer →
      Walks s c entry visited (i :: rest) answer
  | ends (visited : List Nat) : (∃ i ∈ visited, (s.record i).body = .finish) → Walks s c entry visited [] none
  | noEnd (visited : List Nat) : (∀ i ∈ visited, (s.record i).body ≠ .finish) → Walks s c entry visited [] (some (entry, .noEnd))

/-! ## The words of WRITE_STEP (R47, R48, R51, R59, R62) -/

/-- The words of a predicate from word `i` are in range; its target is no part of that (R47; log entry 13). -/
def PredicateFits (a : Nat → Nat) (i : Nat) : Prop := a i ≤ 10 ∧ a (i + 1) ≤ 5 ∧ 1 ≤ a (i + 4) ∧ a (i + 4) ≤ 15 ∧ a (i + 5) ≤ 4

/-- A predicate is what the seven words from word `i` say; the target word is read only for GOTO (R51, R59). -/
structure PredicateAt (a : Nat → Nat) (i : Nat) (p : Predicate) : Prop where
  quantity    : p.quantity.code = a i
  comparison  : p.comparison.code = a (i + 1)
  threshold   : p.threshold = (BitVec.ofNat 32 (a (i + 2) * 65536 + a (i + 3))).toInt
  persistence : p.persistence = a (i + 4)
  outcome     : p.outcome.code = a (i + 5)
  target      : ∀ there, p.outcome = .goto there → there = a (i + 6)

/-- The argument words of WRITE_STEP part 0 are in range: index, owner, part 0, kind; the optional parts by their presence words, a level by
its kind; the termination count, and a first predicate exactly when it is 1 or more (R59). -/
def StepHeadFits (a : Nat → Nat) : Prop :=
  a 0 ≤ 511 ∧ a 1 ≤ 7 ∧ a 2 = 0 ∧
    (a 3 ≤ 4 ∧ (a 5 = 0 ∨ a 5 = 1 ∧ a 6 * 65536 + a 7 ≤ if a 3 ≤ 1 then 30000 else 200000) ∧
        (a 8 = 0 ∨ a 8 = 1 ∧ a 9 ≤ 60000) ∧ (a 10 = 0 ∨ a 10 = 1 ∧ a 11 * 65536 + a 12 ≤ 200000) ∧
        (a 13 = 0 ∧ a 14 = 0 ∨ a 13 = 1 ∧ a 14 ≤ 4) ∧ a 15 = min (a 14) 1 ∧ (1 ≤ a 14 → PredicateFits a 16) ∨
      a 3 = 5 ∧ 1 ≤ a 6 ∧ a 7 ≤ 1 ∧ a 8 ≤ 4 ∧ a 9 = min (a 8) 1 ∧ (1 ≤ a 8 → PredicateFits a 10) ∨ a 3 = 6)

/-- A head is what the argument words of WRITE_STEP part 0 say (R59). -/
structure StepHeadAt (a : Nat → Nat) (head : StagedWrite) : Prop where
  place  : head.index = a 0 ∧ head.owner.val = a 1
  sample : a 3 ≤ 4 → ∃ kind parts, kind.code = a 3 ∧ head.body = .sample kind (a 4) parts ∧ head.count = a 14 ∧
    parts.level = (if a 5 = 1 then some (a 6 * 65536 + a 7) else none) ∧ parts.clamp = (if a 8 = 1 then some (a 9) else none) ∧
    parts.budget = (if a 10 = 1 then some (a 11 * 65536 + a 12) else none) ∧ (a 13 = 0 → parts.terminations = none) ∧
    (a 13 = 1 → ∃ first, parts.terminations = some first ∧ first.length = min (a 14) 1 ∧ ∀ p ∈ first, PredicateAt a 16 p)
  loop   : a 3 = 5 → ∃ first, head.body = .loop (a 5) (a 4) (a 6) (decide (a 7 = 1)) first ∧ head.count = a 8 ∧
    first.length = min (a 8) 1 ∧ ∀ p ∈ first, PredicateAt a 10 p
  finish : a 3 = 6 → head.body = .finish ∧ head.count = 0

/-- The argument words of WRITE_STEP part 1 are in range: index, owner, part 1, a list of 1 to 3 predicates (R62). -/
def StepRestFits (a : Nat → Nat) : Prop :=
  a 0 ≤ 511 ∧ a 1 ≤ 7 ∧ a 2 = 1 ∧ 1 ≤ a 3 ∧ a 3 ≤ 3 ∧ ∀ k, k < a 3 → PredicateFits a (4 + 7 * k)

/-! ## The arbiter's order (R155, R158) -/

/-- The order in which grants are taken: lowest priority first, and within one priority the most recent, nearest the tail, first. -/
def TakenBefore (s : State) (a b : Grant) : Prop :=
  s.priorityOf a.channel < s.priorityOf b.channel ∨
    (s.priorityOf a.channel = s.priorityOf b.channel ∧ [b, a].Sublist s.grants)

/-! ## Power-on (R195) -/

/-- A channel's context, tables and counters at power-on (05 section 5.1, R32, R78, R124, R133, R141, R164, R174). -/
structure PowerOnChannel (ch : ChannelState) : Prop where
  converter  : ch.config.converterAddress = none ∧ ch.config.converterOutput = 0
  pack       : ch.config.cellCount = 0 ∧ ch.config.temperatureCount = 0 ∧ ch.config.currentMaximum = 0
  policy     : ch.config.rounding = .nearestEven ∧ ch.config.priority = 0 ∧ ch.config.reportLevel = 1 ∧ ch.config.entryStep = none
  times      : ch.config.staleTime = 500 ∧ ch.config.contactorTime = 1000 ∧ ch.config.confirmCount = 3 ∧
                 ch.config.maxPointAge = 4 ∧ ch.config.maxInterval = 2000
  points     : ∀ p, ch.point p = { value := 0, age := 255, updated := false }
  stamp      : ch.lastStamp = none ∧ ch.invalidReported = false
  context    : ch.status = .idle ∧ ch.runOutcome = .none ∧ ch.holdPending = false ∧ ch.skipPending = false ∧
                 ch.openConfirmed = false ∧ ch.closeCount = 0 ∧ ch.openCount = 0
  step       : ch.currentStep = none ∧ ch.effective = .absent ∧ ch.persistence = Vector.replicate 4 0 ∧ ch.loopStack = [] ∧
                 ch.traversalCount = 0
  totals     : ch.qs = 0 ∧ ch.es = 0 ∧ ch.timeFine = 0 ∧ ch.timeCoarse = 0
  marks      : ch.budgetLimited = false ∧ ch.chargeSaturated = false ∧ ch.energySaturated = false ∧ ch.lastMagnitude = 0
  timers     : ch.contactorTimer = none ∧ ch.staleTimer = none
  setpoints  : ch.outbox = none ∧ ch.refreshCount = 0 ∧ ch.lastSetpoint = none
  limits     : ch.limits = Vector.replicate 9 none ∧ ch.limitsLoaded = false ∧ ch.limitCounters = Vector.replicate 9 0
  trip       : ch.tripRecord = none
  lifetime   : ch.lifetime.chargeIn = 0 ∧ ch.lifetime.chargeOut = 0 ∧ ch.lifetime.energyIn = 0 ∧ ch.lifetime.energyOut = 0 ∧
                 ch.lifetime.chargeInSaturated = false ∧ ch.lifetime.chargeOutSaturated = false ∧
                 ch.lifetime.energyInSaturated = false ∧ ch.lifetime.energyOutSaturated = false
  cycle      : ch.cycle = { chargeIn := 0, chargeOut := 0, energyIn := 0, energyOut := 0, runSeconds := 0 } ∧ ch.cycleCount = 0 ∧
                 ch.reference = none ∧ ch.lastClosedOut = none ∧ ch.history = []
  causes     : ch.causes = []

/-- The whole part at power-on, as far as the manual gives values: the node address is what the straps read (R6, R19, R27, R46, R61,
R136, R145, R162, R174, R178, R181, R184, R187, R195, R196). -/
structure PowerOnValues (s : State) : Prop where
  receiver : s.receiver.mode = .search ∧ s.receiver.framing = none ∧ s.receiver.missCount = 0
  output   : s.lastSetpointChannel = 7 ∧ s.lastClass = .b
  routes   : s.routes = []
  channels : ∀ c, PowerOnChannel (s.chan c)
  records  : ∀ i, (s.record i).owner = none ∧ (s.record i).body = .finish
  staged   : s.staged = none
  hallStop : s.hallStop = false ∧ s.previousSample = false
  time     : s.msTime = 0
  arbiter  : s.importCap = 0 ∧ s.exportCap = 0 ∧ s.grants = [] ∧ s.waits = []
  queues   : s.eventQueue = [] ∧ s.requestQueue = [] ∧ s.replyQueue = [] ∧ s.walk = none
  device   : s.eventDestination = 0 ∧ s.deviceReportLevel = 1 ∧ s.deviceCauses = [] ∧ s.requestOverrun = false ∧
               s.eventOverflow = false

/-! ## Trips (R135, R137, R139 to R141) -/

/-- What trip handling leaves at its channel (R139, R141): `before` is the channel when the trip reached it, `now` the ms time. -/
structure TrippedChannel (t : Trip) (now : BitVec 32) (before after : ChannelState) : Prop where
  state     : after.status = .tripped ∧ after.runOutcome = .tripped
  pendings  : after.holdPending = false ∧ after.skipPending = false ∧ after.openConfirmed = false
  counts    : after.closeCount = 0 ∧ after.openCount = 0 ∧ after.limitCounters = Vector.replicate 9 0
  timers    : after.contactorTimer = none ∧ after.staleTimer = none
  step      : after.currentStep = none
  outbox    : after.outbox = some { setpoint := offSetpoint before .open, urgent := true }
  record    : after.tripRecord = some
                { cause := t.cause, detail := t.detail, value := t.value, threshold := t.threshold, stepIndex := t.stepIndex,
                  cycleNumber := before.cycleCount, timeMs := now, stateAtTrip := before.status }
  cause     : t.cause ∈ after.causes
  kept      : after.config = before.config ∧ after.points = before.points ∧ after.effective = before.effective ∧
                after.loopStack = before.loopStack ∧ after.qs = before.qs ∧ after.es = before.es ∧
                after.timeFine = before.timeFine ∧ after.timeCoarse = before.timeCoarse ∧ after.limits = before.limits
  cycles    : after.cycleCount = before.cycleCount ∧ after.reference = before.reference ∧
                after.lastClosedOut = before.lastClosedOut ∧ after.history = before.history
  unfolded  : before.currentStep = none → after.lifetime = before.lifetime ∧ after.cycle = before.cycle
  fold      : before.currentStep ≠ none → .stepEnd ∈ after.causes ∧
                after.lifetime = foldLifetime (reportedCharge before) (reportedEnergy before) before.lifetime ∧
                after.cycle = foldCycle (reportedCharge before) (reportedEnergy before) before.timeCoarse before.cycle

/-- A hall-wide event with this cause left every channel IDLE or TRIPPED: those at rest before it as they were, the others tripped with
its cause (R135, R137, R141). -/
def AllTripped (cause : Cause) (now : BitVec 32) (s t : State) : Prop :=
  ∀ c, (t.chan c).atRest = true ∧ ((s.chan c).atRest = true → t.chan c = s.chan c) ∧
    ((s.chan c).atRest = false → (t.chan c).status = .tripped ∧ (t.chan c).runOutcome = .tripped ∧
      ∃ rec, (t.chan c).tripRecord = some rec ∧ rec.cause = cause ∧ rec.detail = 0 ∧ rec.value = none ∧ rec.threshold = none ∧
        rec.stepIndex = (s.chan c).currentStep ∧ rec.cycleNumber = (s.chan c).cycleCount ∧ rec.timeMs = now)

/-! ## Device reset (R192) -/

/-- A channel after a device reset: what it keeps, what it clears, the fold of a step that was current, and the OFF/OPEN setpoint of a
channel that was not IDLE (R79, R192). -/
structure DeviceResetChannel (before after : ChannelState) : Prop where
  state    : after.status = .idle ∧ after.runOutcome = if before.status = .idle then before.runOutcome else .reset
  outbox   : after.outbox = if before.status = .idle then before.outbox
               else some { setpoint := offSetpoint before .open, urgent := true }
  last     : after.lastSetpoint = (if before.status = .idle then before.lastSetpoint else some (offSetpoint before .open)) ∧
               after.refreshCount = if before.status = .idle then before.refreshCount else (before.refreshCount + 1) % 256
  pendings : after.holdPending = false ∧ after.skipPending = false ∧ after.openConfirmed = false ∧ after.closeCount = 0 ∧
               after.openCount = 0
  step     : after.currentStep = none ∧ after.effective = .absent ∧ after.persistence = Vector.replicate 4 0
  marks    : after.budgetLimited = false ∧ after.chargeSaturated = false ∧ after.energySaturated = false ∧ after.lastMagnitude = 0
  timers   : after.contactorTimer = none ∧ after.staleTimer = none
  totals   : after.loopStack = before.loopStack ∧ after.qs = before.qs ∧ after.es = before.es ∧
               after.timeFine = before.timeFine ∧ after.timeCoarse = before.timeCoarse
  fold     : (before.status = .idle ∨ before.currentStep = none →
                 after.lifetime = before.lifetime ∧ after.cycle = before.cycle) ∧
               (before.status ≠ .idle → before.currentStep ≠ none →
                 after.lifetime = foldLifetime (reportedCharge before) (reportedEnergy before) before.lifetime ∧
                 after.cycle = foldCycle (reportedCharge before) (reportedEnergy before) before.timeCoarse before.cycle)
  cycles   : after.cycleCount = before.cycleCount ∧ after.reference = before.reference ∧
               after.lastClosedOut = before.lastClosedOut ∧ after.history = before.history
  points   : (∀ p, after.point p = { value := (before.point p).value, age := 255, updated := false }) ∧ after.lastStamp = none ∧
               after.invalidReported = false
  monitor  : after.limits = before.limits ∧ after.limitsLoaded = before.limitsLoaded ∧
               after.limitCounters = Vector.replicate 9 0 ∧ after.tripRecord = none
  tables   : after.config = before.config ∧ after.causes = []

/-! ## Runs (R78, R82) -/

/-- A channel after a START that ended with OK at `now` (R32, R78, R82, R131, R133, R141, R164). -/
structure StartedChannel (mode : StartMode) (now : BitVec 32) (before after : ChannelState) : Prop where
  state    : after.status = .connecting ∧ after.runOutcome = .none
  pendings : after.holdPending = false ∧ after.skipPending = false ∧ after.openConfirmed = false ∧ after.closeCount = 0 ∧
               after.openCount = 0
  step     : after.currentStep = none ∧ after.effective = .absent ∧ after.persistence = Vector.replicate 4 0 ∧
               after.loopStack = []
  totals   : after.qs = 0 ∧ after.es = 0 ∧ after.timeFine = 0 ∧ after.timeCoarse = 0 ∧ after.lastMagnitude = 0
  marks    : after.budgetLimited = false ∧ after.chargeSaturated = false ∧ after.energySaturated = false
  timers   : after.contactorTimer = some { startedAt := now, length := before.config.contactorTime } ∧
               after.staleTimer = some { startedAt := now, length := before.config.staleTime }
  setpoint : after.outbox = some { setpoint := { offSetpoint before .close with clamp := 0 }, urgent := true } ∧
               after.lastSetpoint = some { offSetpoint before .close with clamp := 0 } ∧
               after.refreshCount = (before.refreshCount + 1) % 256
  points   : (∀ p, after.point p = { value := (before.point p).value, age := 255, updated := false }) ∧ after.lastStamp = none ∧
               after.invalidReported = false
  monitor  : after.limits = before.limits ∧ after.limitsLoaded = before.limitsLoaded ∧
               after.limitCounters = Vector.replicate 9 0 ∧ after.tripRecord = none
  counters : (mode = .continue → after.cycle = before.cycle ∧ after.cycleCount = before.cycleCount ∧
                 after.reference = before.reference ∧ after.lastClosedOut = before.lastClosedOut ∧ after.history = before.history) ∧
               (mode = .fresh → after.cycle = CycleTotals.zero ∧ after.cycleCount = 0 ∧ after.reference = none ∧
                 after.lastClosedOut = none ∧ after.history = [])
  tables   : after.config = before.config ∧ after.lifetime = before.lifetime ∧ after.causes = before.causes

end Sys2Proof.Safety
end

