-- ==== Sys2Proof/Certificates/Slice0/Obligations.lean ====
section
/-! DEFINITION. The statements about the model, one proposition each; OBLIGATIONS.json lists them with the rules they rest on. -/

open Sys2Proof Sys2Proof.Machine Sys2Proof.Safety

/-! ## The whole machine -/

/-- A step executes the command at the front of the queue with the queue's rest; on an empty queue the block idles, which is the model's
choice (log entry 2). -/
def Obligations.StepRunsFrontCommand : Prop :=
  (∀ (c : Instr) (rest : List Instr) (s : State), s.pending = c :: rest → step s = exec c { s with pending := rest }) ∧
  ∀ s : State, s.pending = [] → step s = .next s

/-- POWER_ON_RESET: the bits received while reset is in effect are repeated, TRIP_N is released, and at its end every piece of state holds
its power-on value and the node address the straps (R1, R195). The state after reset holds the same values. That the commands that wait
stay is the model's choice (log entry 21), as it is that one command spans the whole time of the reset (log entry 26). -/
def Obligations.PowerOnResetGivesPowerOnValues : Prop :=
  PowerOnValues State.reset ∧
  ∀ (period : ResetPeriod) (s : State), ∃ t, exec (.powerOnReset period) s = .next t ∧ PowerOnValues t ∧
    t.nodeAddress = period.straps ∧ t.ringOut = .bits period.bits ∧ t.tripLineLow = false ∧ t.pending = s.pending

/-- The state after reset meets every invariant below. -/
def Obligations.ResetMeetsInvariants : Prop :=
  QueuesOk State.reset ∧ RoutesOk State.reset.routes ∧ StoreOk State.reset ∧ ChannelsOk State.reset ∧ MonitorsOk State.reset ∧
    PowerOk State.reset ∧ QuietOk State.reset

/-- Every step keeps the queues within their capacities and the events by class, and none of them ends in a fault (R178, R181,
R182, R184). -/
def Obligations.StepKeepsQueues : Prop :=
  ∀ s : State, QueuesOk s → (∀ t, step s = .next t → QueuesOk t) ∧ ∀ f, step s ≠ .fault f

/-- Every step keeps the Route Map in key order, with distinct targets and within its capacity (R27). -/
def Obligations.StepKeepsRouteMap : Prop :=
  ∀ s t : State, RoutesOk s.routes → step s = .next t → RoutesOk t.routes

/-- Every step keeps every record, and the staged write, within the ranges of the Step Store (R46 to R48, R51, R61). That a link or a
GOTO target may be any word, 0..65535, where R47, R48 and R51 give 0..511, is the model's choice (log entry 13). -/
def Obligations.StepKeepsStepStore : Prop :=
  ∀ s t : State, StoreOk s → step s = .next t → StoreOk t

/-- Every step keeps every channel's counters, accumulators, stack and lists within their ranges (R70, R91, R109, R110, R119, R166,
R167, R170); and, from a state that holds them so, its limit entries, the limit and termination persistence counters, and its timers
(R51, R95, R124, R129, R133). -/
def Obligations.StepKeepsChannelRanges : Prop :=
  ∀ s t : State, StoreOk s → ChannelsOk s → step s = .next t → ChannelsOk t ∧ (MonitorsOk s → MonitorsOk t)

/-- Every step keeps the net within the caps and the arbiter's lists in agreement with the channel states (R145, R147, R148). -/
def Obligations.StepKeepsPower : Prop :=
  ∀ s t : State, PowerOk s → step s = .next t → PowerOk t

/-- Every step keeps every channel IDLE or TRIPPED while the hall stop is asserted or the receiver is not LOCKED (R135, R137). -/
def Obligations.StepKeepsQuiet : Prop :=
  ∀ s t : State, PowerOk s → QuietOk s → step s = .next t → QuietOk t

/-- A channel that is neither IDLE nor TRIPPED: no command but POWER_ON_RESET changes its configuration record, its step records, the
set of records it owns or its routes (R31, R60, R64, R76). -/
def Obligations.BusyChannelTablesKept : Prop :=
  ∀ (c : Instr) (rest : List Instr) (s t : State), s.pending = c :: rest → (∀ period, c ≠ .powerOnReset period) →
    RoutesOk s.routes → step s = .next t → ∀ ch, (s.chan ch).atRest = false →
      (t.chan ch).config = (s.chan ch).config ∧
      (∀ i, (s.record i).owner = some ch ∨ (t.record i).owner = some ch → t.record i = s.record i) ∧
      t.routes.filter (fun r => r.channel == ch) = s.routes.filter (fun r => r.channel == ch)

/-- No lifetime counter of any channel falls at a step, but by CLEAR_COUNTERS or POWER_ON_RESET (R166). -/
def Obligations.LifetimeCountersNeverFall : Prop :=
  ∀ (c : Instr) (rest : List Instr) (s t : State), s.pending = c :: rest → c ≠ .clearCounters →
    (∀ period, c ≠ .powerOnReset period) → StoreOk s → ChannelsOk s → step s = .next t →
      ∀ ch, LifetimeLe (s.chan ch).lifetime (t.chan ch).lifetime

/-- A request that is refused changes nothing but the two queues, and its reply carries the request's source, kind and tag and the
device flags as they stand (R183, R184); while the engine is not ready a request row changes nothing at all (R182),
which is how the model reads a command that comes early (log entry 4). -/
def Obligations.RefusedRequestChangesNothing : Prop :=
  (∀ c ∈ requestRows, ∀ (s t : State) (r : Request) (rest : List Request) (reply : Reply), Taken s r rest →
    exec c s = .next t → t.replyQueue = s.replyQueue ++ [reply] → reply.outcome ≠ .ok →
      reply = replyTo r reply.outcome reply.results s.deviceFlags ∧
      t = { s with requestQueue := rest, replyQueue := s.replyQueue ++ [reply] }) ∧
  ∀ c ∈ requestRows, ∀ (s : State) (r : Request) (rest : List Request), s.requestQueue = r :: rest →
    4 ≤ s.replyQueue.length ∨ s.walk.isSome = true → exec c s = .next s ∨ exec c s = .refused .notAtHead

/-! ## The Ring Port -/

/-- SYNC_FOUND in SEARCH (R3): when the last 18 bits received first match the sync pattern at the end of the bits given, the receiver
enters CONFIRM with the framing; when they match nowhere it stays in SEARCH. The bits are repeated either way. How position and remembered
bits are kept (log entry 9), and in which order the data bits of a character travel (log entry 27), are the model's choices. -/
def Obligations.SyncFoundEntersConfirm : Prop :=
  ∀ (position : Fin 576) (bits : List Bool) (s : State), s.receiver.mode = .search → bits ≠ [] →
    (∀ k, 0 < k → k < bits.length → ¬ ringBits syncPattern <:+ s.receiver.lastBits ++ bits.take k) →
    (ringBits syncPattern <:+ s.receiver.lastBits ++ bits →
      exec (.syncFound position bits) s = .next { s with
        receiver := { s.receiver with
          mode := .confirm, framing := some position.val, position := 18, lastBits := ringBits syncPattern }
        ringOut := .bits bits }) ∧
    (¬ ringBits syncPattern <:+ s.receiver.lastBits ++ bits →
      exec (.syncFound position bits) s = .next { s with
        receiver := { s.receiver with
          lastBits := (s.receiver.lastBits ++ bits).drop ((s.receiver.lastBits ++ bits).length - 18) }
        ringOut := .bits bits })

/-- CONFIRM_SYNC in CONFIRM (R4): a match locks the receiver with the miss count 0 and raises LINK_LOCKED; a mismatch sends it back to
SEARCH with the 18 bits compared as the first bits of the new search. The slot between is repeated unchanged. How position and
remembered bits are kept is the model's choice (log entry 9). -/
def Obligations.ConfirmSyncLocksOrSearches : Prop :=
  ∀ (rest : Vector RingWord 31) (sync : RingWord) (s : State), s.receiver.mode = .confirm →
    (sync = syncPattern → ∃ t, exec (.confirmSync rest sync) s = .next t ∧
      t = raiseDevice .linkLocked { s with
        receiver := { s.receiver with mode := .locked, missCount := 0, position := 18 }
        ringOut := .words (rest.toList ++ [sync]) } ∧
      t.receiver.mode = .locked ∧ .linkLocked ∈ t.deviceCauses) ∧
    (sync ≠ syncPattern → exec (.confirmSync rest sync) s = .next { s with
      receiver := { s.receiver with mode := .search, framing := none, missCount := 0, lastBits := ringBits sync }
      ringOut := .words (rest.toList ++ [sync]) })

/-- A missed slot in LOCKED is forwarded as received and counted (R5). The fourth in a row returns the receiver to SEARCH with the miss
count 0, raises LINK_LOST, and trips every channel that is neither IDLE nor TRIPPED with LINK_LOSS (R135); tables, requests and
replies are kept. That the position is 0 at a missed slot's turn and keeps its value at the loss of lock, and that the new search starts
with the bits of the missed word 0, are the model's choice (log entry 9). -/
def Obligations.MissedSlotsLoseLock : Prop :=
  ∀ (slot : Slot) (order : List Channel) (s : State), s.receiver.mode = .locked → slot.get 0 ≠ syncPattern →
    (s.receiver.missCount < 3 → exec (.missedSlot slot order) s = .next { s with
      receiver := { s.receiver with missCount := s.receiver.missCount + 1, position := 0 }
      ringOut := .slot slot }) ∧
    (PowerOk s → 3 ≤ s.receiver.missCount → ∃ t, exec (.missedSlot slot order) s = .next t ∧
      t.receiver = { s.receiver with
        mode := .search, framing := none, missCount := 0, lastBits := ringBits (slot.get 0) } ∧
      t.ringOut = .slot slot ∧ .linkLost ∈ t.deviceCauses ∧ AllTripped .linkLoss s.msTime s t ∧
      t.routes = s.routes ∧ t.steps = s.steps ∧ t.staged = s.staged ∧ t.requestQueue = s.requestQueue ∧
      t.replyQueue = s.replyQueue ∧ t.walk = s.walk ∧ t.msTime = s.msTime ∧ t.hallStop = s.hallStop ∧
      t.importCap = s.importCap ∧ t.exportCap = s.exportCap)

/-- A damaged slot in LOCKED leaves with its damaged flag set and correct header parity, its other words as received; it is not
interpreted (R7). Its sync word is good, so the miss count returns to 0 (R5); that the position becomes 0 at a slot's turn is the
model's choice (log entry 9). -/
def Obligations.DamagedSlotIsMarked : Prop :=
  ∀ (slot : Slot) (s : State), s.receiver.mode = .locked → slot.get 0 = syncPattern →
    (damagedFlag slot = true ∨ ∃ i : Fin 32, 1 ≤ i.val ∧ parityGood (slot.get i) = false) →
    ∃ out : Slot, exec (.damagedSlot slot) s = .next { s with
        receiver := { s.receiver with missCount := 0, position := 0 }
        ringOut := .slot out } ∧
      (∀ i : Fin 32, i ≠ 1 → out.get i = slot.get i) ∧ slotWord out 1 = slotWord slot 1 ||| 0x0800 ∧
      damagedFlag out = true ∧ parityGood (out.get 1) = true ∧
      (damagedFlag slot = true → parityGood (slot.get 1) = true → out = slot)

/-- A slot in LOCKED that R8 forwards, or that R13 forwards while the node address is 63, leaves bit for bit as it arrived, and nothing
else changes but the miss count, which returns to 0 (R5), and the position; that this becomes 0 at a slot's turn is the model's choice
(log entry 9). -/
def Obligations.ForwardedSlotIsUnchanged : Prop :=
  ∀ (slot : Slot) (s : State), s.receiver.mode = .locked → slot.get 0 = syncPattern → slotDamaged slot = false →
    slotKindCode slot ≠ 0 → slotKindCode slot ≠ 1 →
    (slotKindCode slot = 3 → slotDestination slot ≠ s.nodeAddress ∨ s.nodeAddress = 63) →
    (slotKindCode slot = 2 ∨ slotKindCode slot = 4 ∨ slotKindCode slot = 5 →
      slotSource slot ≠ s.nodeAddress ∨ s.nodeAddress = 63) →
    exec (.slotForwarded slot) s = .next { s with
      receiver := { s.receiver with missCount := 0, position := 0 }
      ringOut := .slot slot }

/-- While the receiver is not LOCKED a slot is repeated unchanged and nothing of it is interpreted, inserted or taken (R4, R15); the
receiver hears its bits. In SEARCH the last 18 bits are compared at every position (R3). In CONFIRM the compare falls due at the 18th bit
of the next slot: a match locks, with the miss count 0 and LINK_LOCKED, and a mismatch searches on from the bits compared. The slot whose
own sync word locks the receiver is the first it interprets: its command acts as it does in LOCKED (R4). That these commands stand for a
slot that passes is the model's choice (log entry 6), as is how position and framing are kept (log entry 9). -/
def Obligations.UnlockedReceiverRepeatsSlots : Prop :=
  ∀ (slot : Slot) (order : List Channel) (s : State), s.receiver.mode ≠ .locked →
    ∀ c ∈ [Instr.missedSlot slot order, .damagedSlot slot, .slotForwarded slot, .sampleSlotTurn slot order,
           .requestConsumed slot, .slotStripped slot, .emptySlotTurn slot],
      let bits := slot.toList.flatMap ringBits
      ∃ heard : Receiver,
        let passed : State := { s with receiver := heard, ringOut := .slot slot }
        (heard.mode ≠ .locked → exec c s = .next passed) ∧
        (heard.mode = .locked → heard.position ≠ 0 → exec c s = .next (raiseDevice .linkLocked passed)) ∧
        (heard.mode = .locked → heard.position = 0 → exec c s = exec c (raiseDevice .linkLocked passed)) ∧
        (s.receiver.mode = .search → Searched 0 bits s.receiver heard) ∧
        ∀ n, s.receiver.mode = .confirm → s.receiver.position < 576 → 1 ≤ n → n ≤ 576 → (s.receiver.position + n) % 576 = 18 →
          let compared := lastEighteen (s.receiver.lastBits ++ bits.take n)
          (compared = ringBits syncPattern →
            heard = { s.receiver with mode := .locked, missCount := 0, lastBits := compared }) ∧
          (compared ≠ ringBits syncPattern → Searched n (bits.drop n)
            { s.receiver with mode := .search, framing := none, missCount := 0, position := 18, lastBits := compared } heard)

/-- An undamaged SAMPLE slot in LOCKED is forwarded unchanged (R9, R22). Its first count readings are applied in slot order, each to the
point its route names (R35), or none of them when the count is 0 or above 12; then each channel whose pack current took a valid reading
(R38) makes its anchor from the slot's stamp, once. The order of several anchors is the model's choice: that of the command's operand,
then ascending (log entry 5); so is that each channel's interval and its evaluation come back to back (log entry 30) and the position 0
at a slot's turn (log entry 9). With a count of 0 or above 12, or when no reading has a route, nothing else happens; in every case no
table, request, reply, cap or device setting changes, and a channel that is IDLE changes in nothing but its points and its report of an
invalid reading (R36 to R38). -/
def Obligations.SampleSlotTurnEffect : Prop :=
  ∀ (slot : Slot) (order : List Channel) (s : State), s.receiver.mode = .locked → slot.get 0 = syncPattern →
    slotDamaged slot = false → slotKindCode slot = 1 →
    let passed : State := { s with
      receiver := { s.receiver with missCount := 0, position := 0 }
      ringOut := .slot slot }
    let count := (slotWord slot 5).toNat
    let stamp := BitVec.ofNat 32 ((slotWord slot 3).toNat * 65536 + (slotWord slot 4).toNat)
    let reading := fun k : Nat =>
      ({ index := (slotWord slot (6 + 2 * k)).toNat / 256, valid := decide ((slotWord slot (6 + 2 * k)).toNat % 2 = 1),
         value := slotWord slot (7 + 2 * k) } : Reading)
    let readings := if count ≤ 12 then (List.range count).map reading else []
    let reaches := fun (rd : Reading) (c : Channel) =>
      ∃ r, findRoute s.routes (slotSource slot).toNat rd.index = some r ∧ r.channel = c ∧ r.point = 224 ∧ rd.valid = true ∧
        -30000 ≤ rd.value.toInt ∧ rd.value.toInt ≤ 30000
    (count = 0 ∨ 12 < count ∨
        (∀ k, k < count → findRoute s.routes (slotSource slot).toNat ((slotWord slot (6 + 2 * k)).toNat / 256) = none) →
      exec (.sampleSlotTurn slot order) s = .next passed) ∧
    ∃ anchors : List Channel,
      anchors.Nodup ∧ (∀ c, c ∈ anchors ↔ ∃ rd ∈ readings, reaches rd c) ∧
      (∃ rest, anchors = (order.filter (fun c => anchors.contains c)).dedup ++ rest ∧ rest.Pairwise (fun a b => a < b)) ∧
      let t := anchors.foldl (anchorEvent stamp) (readings.foldl (applyReading (slotSource slot)) passed)
      exec (.sampleSlotTurn slot order) s = .next t ∧ ChannelWork passed t ∧
      (PowerOk s → ∀ c, (s.chan c).status = .idle →
        ∃ points reported flags, t.chan c =
          { s.chan c with points := points, invalidReported := reported, causes := flags })

/-- A routed reading (R35 to R37): a valid one replaces the value of its point alone, with age 0 and the updated mark; an invalid one
changes no point, and raises READING_INVALID when the channel's invalid-reported mark is clear; one with no route does nothing. -/
def Obligations.ReadingReachesItsPoint : Prop :=
  ∀ (source : NodeAddress) (rd : Reading) (s : State),
    (findRoute s.routes source.toNat rd.index = none → applyReading source s rd = s) ∧
    ∀ r, findRoute s.routes source.toNat rd.index = some r →
      let v := readingValue (pointKind r.point) rd.value
      let t := applyReading source s rd
      OthersKept r.channel s t ∧ t.grants = s.grants ∧ t.waits = s.waits ∧ t.routes = s.routes ∧
      (∀ p, p ≠ r.point → (t.chan r.channel).point p = (s.chan r.channel).point p) ∧
      (rd.valid = true → valueInRange (pointKind r.point) v = true →
        (t.chan r.channel).point r.point = { value := v, age := 0, updated := true } ∧
        (t.chan r.channel).invalidReported = (s.chan r.channel).invalidReported ∧ t.eventQueue = s.eventQueue) ∧
      (rd.valid = false ∨ valueInRange (pointKind r.point) v = false →
        (t.chan r.channel).point r.point = (s.chan r.channel).point r.point ∧
        (t.chan r.channel).invalidReported = true ∧
        ((s.chan r.channel).invalidReported = true → t = s) ∧
        ((s.chan r.channel).invalidReported = false → .readingInvalid ∈ (t.chan r.channel).causes))

/-- An anchor (R38 to R42). In IDLE, and with the stamp of the last accepted anchor, it does nothing more. Otherwise its interval is 0
without a last stamp, else the stamp difference modulo 2^32 limited to the maximum interval, a limited one raising GAP first; the stamp
becomes the last stamp, a stale timer that runs is reloaded with the stale time and a stopped one stays stopped (R39, R41, R42, R133), the
evaluation is made with the interval, and at its close every point's age has moved by R34, and the updated
marks, the invalid-reported mark and the traversal count are clear (R89). The evaluation runs its six stages in order, each in the states
of its row, and a trip at stage 2, 3 or 4, or IDLE at stage 3, passes over the later ones (R89, R92, R143). Stage 2 makes its three checks
(R90, R127 to R132) and stage 3 moves the contactor counts and judges them (R91 to R94). -/
def Obligations.AnchorIntervalAndClose : Prop :=
  (∀ (stamp : BitVec 32) (s : State) (c : Channel),
    let before := s.chan c
    let t := anchorEvent stamp s c
    let after := t.chan c
    let accepted := fun u : State => u.modChan c (fun ch => { ch with
      lastStamp := some stamp
      staleTimer := if ch.staleTimer = none then none else some { startedAt := s.msTime, length := before.config.staleTime } })
    (before.status = .idle ∨ before.lastStamp = some stamp → t = s) ∧
    (before.status ≠ .idle → before.lastStamp ≠ some stamp →
      (before.lastStamp = none → t = evaluate c 0 (before.point 224).value (accepted s)) ∧
      (∀ last, before.lastStamp = some last → (stamp - last).toNat ≤ before.config.maxInterval →
        t = evaluate c (stamp - last).toNat (before.point 224).value (accepted s)) ∧
      (∀ last, before.lastStamp = some last → before.config.maxInterval < (stamp - last).toNat →
        t = evaluate c before.config.maxInterval (before.point 224).value (accepted
            (raiseChannel c .gap { valueA := some (stamp - last).toInt, valueB := some (before.config.maxInterval : Int) } s)) ∧
        .gap ∈ after.causes) ∧
      after.lastStamp = some stamp ∧ after.invalidReported = false ∧ after.traversalCount = 0 ∧
      ∀ p, after.point p = { (before.point p) with
        updated := false
        age := if (before.point p).updated = false ∧ isConfigured before.config p = true
          then min ((before.point p).age + 1) 255 else (before.point p).age })) ∧
  ∀ (c : Channel) (dt : Nat) (current : Int) (s : State), (s.chan c).status ≠ .idle →
    let t := evaluate c dt current s
    let close := fun u : State => u.modChan c closeEvaluation
    let integrated := if (s.chan c).status = .running then integrate c dt current s else s
    let checked := checkStage c current integrated
    let contacted := contactorStage c checked
    let judged := if (contacted.chan c).status = .running ∧ (checked.chan c).status ≠ .connecting
      then terminationStage c current contacted else contacted
    ((s.chan c).status = .tripped → t = close (produceSetpoint c false (contactorStage c s))) ∧
    ((s.chan c).status ≠ .tripped →
      ((checked.chan c).status = .tripped → t = close checked) ∧
      ((checked.chan c).status ≠ .tripped →
        ((contacted.chan c).status = .tripped ∨ (contacted.chan c).status = .idle → t = close contacted) ∧
        ((contacted.chan c).status ≠ .tripped → (contacted.chan c).status ≠ .idle →
          ((judged.chan c).status = .tripped → t = close judged) ∧
          ((judged.chan c).status ≠ .tripped → t = close (produceSetpoint c false (holdStage c judged)))))) ∧
    ((s.chan c).status ≠ .tripped → ChecksMade c current s (checkStage c current s)) ∧
    ∃ moved, ContactorJudged c s (contactorStage c s) moved

/-- A request for this node in LOCKED is captured and joins the request queue at its tail, or is dropped with the request-overrun flag
set when the queue holds four, REQUEST_OVERRUN being raised when the flag was clear; the freed slot is then offered to the Output
Arbiter (R10, R11, R23). The miss count returns to 0 (R5); that the position becomes 0 at a slot's turn is the model's choice (log
entry 9). -/
def Obligations.RequestIsQueuedOrDropped : Prop :=
  ∀ (slot : Slot) (s : State), s.receiver.mode = .locked → slot.get 0 = syncPattern → slotDamaged slot = false →
    slotKindCode slot = 3 → slotDestination slot = s.nodeAddress → s.nodeAddress ≠ 63 →
    let request : Request :=
      { source := slotSource slot, tag := slotWord slot 4, kind := (slotWord slot 3).toNat / 256,
        args := (List.range 27).map (fun i => slotWord slot (5 + i)) }
    ∃ queued t : State, exec (.requestConsumed slot) s = .next t ∧ t = decideSlot freedSlot queued ∧
      queued = { s with
        receiver := { s.receiver with missCount := 0, position := 0 }
        requestQueue := queued.requestQueue, requestOverrun := queued.requestOverrun, deviceCauses := queued.deviceCauses
        eventQueue := queued.eventQueue, eventOverflow := queued.eventOverflow } ∧
      t.requestQueue = queued.requestQueue ∧ t.requestOverrun = queued.requestOverrun ∧
      (s.requestQueue.length < 4 → queued.requestQueue = s.requestQueue ++ [request] ∧
        queued.requestOverrun = s.requestOverrun ∧ queued.deviceCauses = s.deviceCauses ∧
        queued.eventQueue = s.eventQueue ∧ queued.eventOverflow = s.eventOverflow) ∧
      (4 ≤ s.requestQueue.length → queued.requestQueue = s.requestQueue ∧ queued.requestOverrun = true ∧
        (s.requestOverrun = true → queued.deviceCauses = s.deviceCauses ∧ queued.eventQueue = s.eventQueue ∧
          queued.eventOverflow = s.eventOverflow) ∧
        (s.requestOverrun = false → .requestOverrun ∈ queued.deviceCauses ∧
          queued = raiseDevice .requestOverrun { s with
            receiver := { s.receiver with missCount := 0, position := 0 }
            requestOverrun := true }))

/-- A returning slot of this node is stripped and its slot offered to the Output Arbiter in the EMPTY form (R12, R21); an EMPTY slot is
offered as it arrived (R15, R21); with node address 63 an EMPTY slot is forwarded and nothing is inserted (R13). The miss count returns
to 0 (R5); that the position becomes 0 at a slot's turn is the model's choice (log entry 9). -/
def Obligations.EmptySlotsAreOffered : Prop :=
  ∀ (slot : Slot) (s : State), s.receiver.mode = .locked → slot.get 0 = syncPattern → slotDamaged slot = false →
    let turned : State := { s with receiver := { s.receiver with missCount := 0, position := 0 } }
    (slotKindCode slot = 2 ∨ slotKindCode slot = 4 ∨ slotKindCode slot = 5 → slotSource slot = s.nodeAddress →
      s.nodeAddress ≠ 63 → exec (.slotStripped slot) s = .next (decideSlot freedSlot turned)) ∧
    (slotKindCode slot = 0 → exec (.emptySlotTurn slot) s = .next (decideSlot slot turned)) ∧
    (slotKindCode slot = 0 → s.nodeAddress = 63 →
      exec (.emptySlotTurn slot) s = .next { turned with ringOut := .slot slot })

/-- The Output Arbiter's decision (R16, R17). A channel claims with the setpoint in its outbox when its converter address is not NONE.
Channels take turns upward from the one after the last setpoint channel, urgent claims before everything; with no urgent claim the
class not served last goes first when both have something; class B sends the reply queue's head, else the event queue's. What is sent
leaves its place; a setpoint without an address is removed unsent; nothing else moves. What is sent is laid out as R20, R21 and R23 to
R26 give, word by word, with zero in every other word and correct parity in every character. -/
def Obligations.OutputArbiterChoice : Prop :=
  (∀ source : NodeAddress,
    let holds := fun (slot : Slot) (words : List Nat) => slot.get 0 = syncPattern ∧ (∀ i : Fin 32, parityGood (slot.get i) = true) ∧
      ∀ i, i < 32 → slotWord slot i = BitVec.ofNat 16 (words.getD i 0)
    let high := fun v : Int => (BitVec.ofInt 32 v).toNat / 65536
    let low := fun v : Int => (BitVec.ofInt 32 v).toNat % 65536
    let presence := fun (present : Bool) (weight : Nat) => if present then weight else 0
    (∀ sp : Setpoint, sp.address.getD 63 < 64 → holds (setpointSlot source sp)
      [0x5CA3, 0x2000, source.toNat * 256 + sp.address.getD 63,
       sp.output.val * 256 + (match sp.mode with | .off => 0 | .charge => 1 | .discharge => 2) * 16 +
         (match sp.contactor with | .open => 0 | .close => 1),
       sp.magnitude, sp.clamp, sp.refresh]) ∧
    (∀ r : Reply, holds (replySlot source r)
      ([0x5CA3, 0x4000, source.toNat * 256 + r.destination.toNat,
        r.kind * 256 + r.outcome.code * 16 + presence r.flags.requestOverrun 8 + presence r.flags.eventOverflow 4 +
          presence r.flags.anyTripped 2 + presence r.flags.hallStop 1,
        r.tag.toNat] ++ r.results.map BitVec.toNat)) ∧
    ∀ (destination : Nat) (e : Event), destination < 64 → holds (eventSlot source destination e)
      [0x5CA3, 0x5000, source.toNat * 256 + destination,
       e.cls * 4096 + (match e.channel with | some c => c.val | none => 8) * 256 + presence e.stepIndex.isSome 8 +
         presence e.cycleNumber.isSome 4 + presence e.valueA.isSome 2 + presence e.valueB.isSome 1,
       e.cause.code, e.timeMs.toNat / 65536, e.timeMs.toNat % 65536, e.stepIndex.getD 0, e.cycleNumber.getD 0 / 65536,
       e.cycleNumber.getD 0 % 65536, high (e.valueA.getD 0), low (e.valueA.getD 0), high (e.valueB.getD 0), low (e.valueB.getD 0),
       e.detail]) ∧
  ∀ (empty : Slot) (s : State), s.nodeAddress ≠ 63 →
    let claims := fun (urgent : Bool) (c : Channel) (e : OutboxEntry) =>
      (s.chan c).outbox = some e ∧ e.urgent = urgent ∧ e.setpoint.address ≠ none
    let first := fun (urgent : Bool) (c : Channel) (e : OutboxEntry) => claims urgent c e ∧
      ∀ d e', claims urgent d e' → (c - s.lastSetpointChannel - 1).val ≤ (d - s.lastSetpointChannel - 1).val
    let t := decideSlot empty s
    let classA := ∃ c e, claims false c e
    let classB := s.replyQueue ≠ [] ∨ s.eventQueue ≠ []
    let addressed := fun c : Channel => ∀ e, (s.chan c).outbox = some e → e.setpoint.address ≠ none
    let sentSetpoint := fun (c : Channel) (e : OutboxEntry) =>
      t.ringOut = .slot (setpointSlot s.nodeAddress e.setpoint) ∧ t.lastSetpointChannel = c ∧
        t.chan c = { s.chan c with outbox := none } ∧ (∀ d, d ≠ c → addressed d → t.chan d = s.chan d) ∧
        t.replyQueue = s.replyQueue ∧ t.eventQueue = s.eventQueue
    (∀ c e, first true c e → sentSetpoint c e ∧ t.lastClass = s.lastClass) ∧
    ((∀ c e, ¬claims true c e) →
      (∀ c e, first false c e → (¬classB ∨ s.lastClass = .b) → sentSetpoint c e ∧ t.lastClass = .a) ∧
      (classB → (¬classA ∨ s.lastClass = .a) →
        t.lastClass = .b ∧ t.lastSetpointChannel = s.lastSetpointChannel ∧ (∀ d, addressed d → t.chan d = s.chan d) ∧
        (∀ r rest, s.replyQueue = r :: rest →
          t.ringOut = .slot (replySlot s.nodeAddress r) ∧ t.replyQueue = rest ∧ t.eventQueue = s.eventQueue) ∧
        (∀ e rest, s.replyQueue = [] → s.eventQueue = e :: rest →
          t.ringOut = .slot (eventSlot s.nodeAddress s.eventDestination e) ∧ t.eventQueue = rest ∧ t.replyQueue = [])) ∧
      (¬classA → ¬classB → t.ringOut = .slot empty ∧ t.lastClass = s.lastClass ∧
        t.lastSetpointChannel = s.lastSetpointChannel ∧ t.replyQueue = [] ∧ t.eventQueue = [] ∧
        ∀ d, addressed d → t.chan d = s.chan d)) ∧
    (∀ c e, (s.chan c).outbox = some e → e.setpoint.address = none → t.chan c = { s.chan c with outbox := none }) ∧
    t = { s with
      channels := t.channels, lastSetpointChannel := t.lastSetpointChannel, lastClass := t.lastClass, ringOut := t.ringOut
      replyQueue := t.replyQueue, eventQueue := t.eventQueue }

/-! ## Timers, trips and the hall stop -/

/-- The expiry of a running stale timer trips its channel with ANCHOR_TIMEOUT (R134); that of the contactor timer with CONNECT_TIMEOUT
in CONNECTING and DISCONNECT_TIMEOUT in DISCONNECTING (R95). A timer that is stopped, or whose time has not passed, does nothing: that
the command is then accepted is the model's choice (log entry 12). -/
def Obligations.TimerExpiriesTrip : Prop :=
  ∀ (c : Channel) (s : State),
    (∀ tm, (s.chan c).staleTimer = some tm → tm.length ≤ (s.msTime - tm.startedAt).toNat →
      exec (.staleTimerExpiry c) s = .next (trip c
        { cause := .anchorTimeout, detail := 0, value := none, threshold := some ((s.chan c).config.staleTime : Int),
          stepIndex := (s.chan c).currentStep } s)) ∧
    (∀ tm, (s.chan c).contactorTimer = some tm → tm.length ≤ (s.msTime - tm.startedAt).toNat →
      ((s.chan c).status = .connecting → exec (.contactorTimerExpiry c) s = .next (trip c
        { cause := .connectTimeout, detail := 0, value := some ((s.chan c).closeCount : Int),
          threshold := some ((s.chan c).config.confirmCount : Int), stepIndex := none } s)) ∧
      ((s.chan c).status = .disconnecting → exec (.contactorTimerExpiry c) s = .next (trip c
        { cause := .disconnectTimeout, detail := 0, value := some ((s.chan c).openCount : Int),
          threshold := some ((s.chan c).config.confirmCount : Int), stepIndex := none } s))) ∧
    ((∀ tm ∈ (s.chan c).staleTimer, (s.msTime - tm.startedAt).toNat < tm.length) →
      exec (.staleTimerExpiry c) s = .next s) ∧
    ((∀ tm ∈ (s.chan c).contactorTimer, (s.msTime - tm.startedAt).toNat < tm.length) →
      exec (.contactorTimerExpiry c) s = .next s)

/-- A trip of a channel that is neither IDLE nor TRIPPED folds the step that was current and raises its STEP_END (R98, R165), and leaves
the channel, its record and its setpoint as R139 and R141 give, out of both lists of the arbiter, the net within the caps, and no
bystander touched; its event is queued unless the queue overflowed. A trip that reaches an IDLE or TRIPPED channel changes nothing
(R140). -/
def Obligations.TripHandling : Prop :=
  ∀ (c : Channel) (t : Trip) (s : State), PowerOk s →
    ((s.chan c).atRest = true → trip c t s = s) ∧
    ((s.chan c).atRest = false → t.cause.cls = 3 →
      let u := trip c t s
      TrippedChannel t s.msTime (s.chan c) (u.chan c) ∧ NoPower u c ∧ u.inCaps u.net = true ∧ ChannelWork s u ∧
      BystandersKept c s u ∧
      (u.eventOverflow = false →
        { cls := 3, cause := t.cause, channel := some c, timeMs := s.msTime, stepIndex := t.stepIndex,
          cycleNumber := some (s.chan c).cycleCount, valueA := t.value, valueB := t.threshold,
          detail := t.detail : Event } ∈ u.eventQueue) ∧
      ∀ i, (s.chan c).currentStep = some i → (s.chan c).config.reportLevel.val ≤ 1 → u.eventOverflow = false →
        { cls := 1, cause := .stepEnd, channel := some c, timeMs := s.msTime, stepIndex := some i,
          cycleNumber := some (s.chan c).cycleCount, valueA := some (reportedCharge (s.chan c)),
          valueB := some (reportedEnergy (s.chan c)), detail := 6 : Event } ∈ u.eventQueue)

/-- The second asserted sample in a row makes the hall stop asserted, raises HALL_STOP_ASSERTED and trips every channel that is neither
IDLE nor TRIPPED with HALL_STOP (R136, R137). That HALL_STOP_ASSERTED is the millisecond's sample itself, that HSTOP_N_SAMPLE does the
same, and that ms time rises before the sample, so that the trips carry the risen count, are the model's choices (log entry 11). -/
def Obligations.HallStopAssertionTripsChannels : Prop :=
  ∀ (order : List Channel) (s : State), PowerOk s → s.hallStop = false → s.previousSample = true →
    ∃ t, exec (.hallStopAsserted order) s = .next t ∧ exec (.hstopNSample true order) s = .next t ∧
      t.hallStop = true ∧ t.previousSample = true ∧ t.msTime = s.msTime + 1 ∧ .hallStopAsserted ∈ t.deviceCauses ∧
      AllTripped .hallStop (s.msTime + 1) s t ∧ t.receiver = s.receiver ∧ t.routes = s.routes ∧ t.steps = s.steps ∧
      t.staged = s.staged ∧ t.requestQueue = s.requestQueue ∧ t.replyQueue = s.replyQueue ∧ t.walk = s.walk ∧
      t.importCap = s.importCap ∧ t.exportCap = s.exportCap

/-- A sample that makes no change becomes the previous sample and the ms time rises by 1; the second released sample in a row makes the
hall stop released, raises HALL_STOP_RELEASED and touches no channel (R136, R138, R196). That HALL_STOP_RELEASED is the millisecond's
sample itself, equal to HSTOP_N_SAMPLE at it, and that ms time rises before the sample, are the model's choices (log entry 11). -/
def Obligations.HallStopSampleAndRelease : Prop :=
  ∀ (asserted : Bool) (order : List Channel) (s : State),
    (asserted = s.hallStop ∨ asserted ≠ s.previousSample →
      exec (.hstopNSample asserted order) s = .next { s with msTime := s.msTime + 1, previousSample := asserted }) ∧
    (s.hallStop = true → s.previousSample = false →
      let t := raiseDevice .hallStopReleased
        { s with msTime := s.msTime + 1, previousSample := false, hallStop := false }
      exec .hallStopReleased s = .next t ∧ exec (.hstopNSample false order) s = .next t ∧ t.hallStop = false ∧
        .hallStopReleased ∈ t.deviceCauses ∧ t.channels = s.channels ∧ t.grants = s.grants ∧ t.waits = s.waits)

/-! ## Requests on the device -/

/-- A request of a kind outside the code table is answered with UNKNOWN_REQUEST and zero results (R183). -/
def Obligations.UnknownRequestIsAnswered : Prop :=
  ∀ (s : State) (r : Request) (rest : List Request), Taken s r rest →
    r.kind ∉ [0x01, 0x02, 0x03, 0x04, 0x05, 0x06, 0x10, 0x11, 0x12, 0x13, 0x14, 0x15, 0x16, 0x17, 0x18, 0x20, 0x21, 0x22, 0x28,
      0x29, 0x2A, 0x30, 0x31, 0x32, 0x38, 0x39, 0x3A, 0x3B] →
    exec .unknownRequest s = .next (answered r rest .unknownRequest [] s)

/-- IDENTIFY is answered OK in every state with the thirteen results of R188 and changes no state; with node address 63 no request is
consumed. -/
def Obligations.IdentifyAnswersIdentity : Prop :=
  (∀ (s : State) (r : Request) (rest : List Request), Taken s r rest → r.kind = 0x01 →
    exec .identify s = .next (answered r rest .ok
      [0x0B1D, 2408, 3, BitVec.ofNat 16 s.nodeAddress.toNat, 8, 512, 2048, 32, 4, 4, 16, 4, 8] s)) ∧
  ∀ (slot : Slot) (s t : State), s.nodeAddress = 63 → exec (.requestConsumed slot) s = .next t → t.requestQueue = s.requestQueue

/-- SET_DEVICE_CONFIG replaces the event destination and the device report level, or is refused with RANGE (R187); CLEAR_DEVICE_FLAGS
answers the two latched flags and clears them, leaving the cause flags (R190). -/
def Obligations.DeviceSettingRequests : Prop :=
  ∀ (s : State) (r : Request) (rest : List Request), Taken s r rest →
    (r.kind = 0x03 →
      (∀ level : Fin 4, argNat r.args 0 ≤ 62 → argNat r.args 1 = level.val →
        exec .setDeviceConfig s = .next (answered r rest .ok []
          { s with eventDestination := argNat r.args 0, deviceReportLevel := level })) ∧
      (62 < argNat r.args 0 ∨ 3 < argNat r.args 1 →
        exec .setDeviceConfig s = .next (answered r rest .range [] s))) ∧
    (r.kind = 0x04 →
      exec .clearDeviceFlags s = .next (answered r rest .ok
        [if s.requestOverrun then 1 else 0, if s.eventOverflow then 1 else 0]
        { s with requestOverrun := false, eventOverflow := false }))

/-- RESET_DEVICE: every channel is reset (R192), the shared blocks as R193 gives, and the reply, the only one left, lists in ascending
order the channels that were not IDLE (R191). That the OFF/OPEN setpoint carries the clamp that stood before the reset, and that its
production advances the refresh count of a channel that was not IDLE, where R78, R79 and R192 keep it, are the model's choices (log
entry 22). -/
def Obligations.ResetDeviceEffect : Prop :=
  ∀ (s : State) (r : Request) (rest : List Request), Taken s r rest → r.kind = 0x05 →
    ∃ t, exec .resetDevice s = .next t ∧ (∀ c, DeviceResetChannel (s.chan c) (t.chan c)) ∧
      t.grants = [] ∧ t.waits = [] ∧ t.importCap = s.importCap ∧ t.exportCap = s.exportCap ∧
      t.eventQueue = [] ∧ t.deviceCauses = [] ∧ t.requestOverrun = false ∧ t.eventOverflow = false ∧
      t.lastSetpointChannel = 7 ∧ t.lastClass = .b ∧ t.steps = s.steps ∧ t.staged = none ∧ t.routes = s.routes ∧
      t.receiver = s.receiver ∧ t.ringOut = s.ringOut ∧ t.nodeAddress = s.nodeAddress ∧ t.hallStop = s.hallStop ∧
      t.previousSample = s.previousSample ∧ t.msTime = s.msTime ∧ t.eventDestination = s.eventDestination ∧
      t.deviceReportLevel = s.deviceReportLevel ∧ t.walk = none ∧ t.pending = s.pending ∧ t.requestQueue = [] ∧
      let stopped := (List.finRange 8).filter (fun c => decide ((s.chan c).status ≠ .idle))
      t.replyQueue = [replyTo r .ok
        (BitVec.ofNat 16 stopped.length :: stopped.map (fun c => BitVec.ofNat 16 c.val))
        { requestOverrun := false, eventOverflow := false, anyTripped := false, hallStop := s.hallStop }]

/-- SET_HALL_BUDGET takes the new caps, sheds, scans, and answers the net at completion and the number of grants shed; caps that hold
the present net shed nothing (R146, R155). A cap above 4,000,000 is refused with RANGE. Shedding takes, while the net is outside the caps,
the grant of lowest priority and then most recent on the side that is over (R155); a grant taken goes to DISPLACED and the wait list, or
to HOLDING (R156). An entry of a scan is passed over when its channel was displaced in the scan, blocked behind a failure of its sign,
granted when it fits, else granted after the shortest prefix of the lower priorities of its sign in taking order makes room, or it fails
(R157, R158, R160), its GRANTED carrying the grant and the net after it (R161); a scan that grants is followed by another (R159). The actions that lead to it are those of R150 to R154. That one
action scans at most 496 times is the model's bound (log entry 18). -/
def Obligations.SetHallBudgetEffect : Prop :=
  (∀ (s : State) (r : Request) (rest : List Request), Taken s r rest → r.kind = 0x06 →
    (4000000 < arg32 r.args 0 ∨ 4000000 < arg32 r.args 2 →
      exec .setHallBudget s = .next (answered r rest .range [] s)) ∧
    (arg32 r.args 0 ≤ 4000000 → arg32 r.args 2 ≤ 4000000 →
      let capped : State := { s with importCap := arg32 r.args 0, exportCap := arg32 r.args 2 }
      let u := scan none (shed capped)
      let count := s.grants.length - (shed capped).grants.length
      exec .setHallBudget s = .next (answered r rest .ok
          [(BitVec.ofInt 32 u.net).extractLsb' 16 16, (BitVec.ofInt 32 u.net).extractLsb' 0 16, BitVec.ofNat 16 count] u) ∧
      (PowerOk s →
        u.importCap = arg32 r.args 0 ∧ u.exportCap = arg32 r.args 2 ∧
        -(u.exportCap : Int) ≤ u.net ∧ u.net ≤ (u.importCap : Int) ∧ count ≤ 8 ∧
        (-(arg32 r.args 2 : Int) ≤ s.net → s.net ≤ (arg32 r.args 0 : Int) → count = 0) ∧
        (∀ c, NoPower s c → u.chan c = s.chan c) ∧ ChannelWork capped u))) ∧
  -- shedding and the grant it takes
  (∀ s : State,
    (s.inCaps s.net = true → shed s = s) ∧
    (s.inCaps s.net = false →
      let beyond := fun g : Grant => if (s.importCap : Int) < s.net then 0 < g.watts else g.watts < 0
      ∃ g ∈ s.grants, beyond g ∧ (∀ h ∈ s.grants, beyond h → h = g ∨ TakenBefore s g h) ∧ shed s = shed (takeGrant g 8 s))) ∧
  (∀ (g : Grant) (detail : Nat) (s : State), PowerOk s →
    let before := s.chan g.channel
    let t := takeGrant g detail s
    let after := t.chan g.channel
    let left := s.grants.filter (fun h => h.channel != g.channel)
    t.grants = left ∧ OthersKept g.channel s t ∧ ChannelWork s t ∧ .displaced ∈ after.causes ∧
    (before.config.reportLevel.val ≤ 2 → t.eventOverflow = false →
      { cls := 2, cause := .displaced, channel := some g.channel, timeMs := s.msTime, stepIndex := before.currentStep,
        cycleNumber := some before.cycleCount, valueA := some g.watts, valueB := some (left.map Grant.watts).sum,
        detail := detail : Event } ∈ t.eventQueue) ∧
    let frozen := fun (status : Status) (flags : List Cause) => { before with
      status := status, holdPending := false, skipPending := false, causes := flags
      outbox := some { setpoint := offSetpoint before .close, urgent := true }
      lastSetpoint := some (offSetpoint before .close)
      refreshCount := (before.refreshCount + 1) % 256 }
    (before.holdPending = true → after = frozen .holding after.causes ∧ .holdTaken ∈ after.causes ∧ t.waits = s.waits) ∧
    (before.holdPending = false → after = frozen .displaced after.causes ∧
      t.waits = s.waits.filter (fun w => decide (before.config.priority ≤ w.priority)) ++
        { channel := g.channel, request := g.watts, priority := before.config.priority } ::
          s.waits.filter (fun w => decide (w.priority < before.config.priority)))) ∧
  -- the scan
  (∀ (silent : Option Channel) (w : WaitEntry) (s : State),
    let t := grantEntry silent w s
    t.waits = s.waits.filter (fun x => x.channel != w.channel) ∧
    t.grants = s.grants ++ [{ channel := w.channel, watts := w.request }] ∧ OthersKept w.channel s t ∧ ChannelWork s t ∧
    (t.chan w.channel).status = .running ∧ .granted ∈ (t.chan w.channel).causes ∧
    (silent = some w.channel →
      t.chan w.channel = { s.chan w.channel with status := .running, causes := (t.chan w.channel).causes } ∧
      t = raiseChannel w.channel .granted
        { stepIndex := (s.chan w.channel).currentStep, cycleNumber := some (s.chan w.channel).cycleCount, valueA := some w.request,
          valueB := some (s.net + w.request), detail := 0 }
        ({ s with waits := t.waits, grants := t.grants } |>.modChan w.channel (fun ch => { ch with status := .running }))) ∧
    ((s.chan w.channel).config.reportLevel.val ≤ 2 → t.eventOverflow = false →
      { cls := 2, cause := .granted, channel := some w.channel, timeMs := s.msTime, stepIndex := (s.chan w.channel).currentStep,
        cycleNumber := some (s.chan w.channel).cycleCount, valueA := some w.request, valueB := some (s.net + w.request),
        detail := 0 : Event } ∈ t.eventQueue) ∧
    (silent ≠ some w.channel → t = produceSetpoint w.channel false (grantEntry (some w.channel) w s))) ∧
  (∀ (silent : Option Channel) (w : WaitEntry) (memo : ScanMemo) (s : State),
    let t := scanEntry silent w memo s
    let blocks := ∃ f ∈ memo.failed, (f.1 = true ↔ 0 < w.request) ∧ w.priority ≤ f.2
    (w.channel ∈ memo.displaced ∨ blocks → t = (memo, s)) ∧
    (w.channel ∉ memo.displaced → ¬blocks →
      (s.inCaps (s.net + w.request) = true → t = ({ memo with granted := true }, grantEntry silent w s)) ∧
      (s.inCaps (s.net + w.request) = false →
        ∃ candidates : List Grant,
          candidates.Perm (s.grants.filter (fun g =>
            decide (0 < g.watts ↔ 0 < w.request) && decide (s.priorityOf g.channel < w.priority))) ∧
          candidates.Pairwise (TakenBefore s) ∧
          let fits := fun k : Nat => s.inCaps (s.net - ((candidates.take k).map Grant.watts).sum + w.request) = true
          (∀ k, 0 < k → k ≤ candidates.length → fits k → (∀ j, 0 < j → j < k → ¬fits j) →
            t = ({ memo with
                granted := true, displaced := memo.displaced ++ (candidates.take k).map Grant.channel },
              grantEntry silent w ((candidates.take k).foldl (fun s g => takeGrant g w.channel.val s) s))) ∧
          ((∀ k, 0 < k → k ≤ candidates.length → ¬fits k) →
            t = ({ memo with failed := (decide (0 < w.request), w.priority) :: memo.failed }, s))))) ∧
  (∀ (silent : Option Channel) (s : State),
    let walk := fun (entries : List WaitEntry) => entries.foldl (fun found w => scanEntry silent w found.1 found.2)
      (({ displaced := [], failed := [], granted := false }, s) : ScanMemo × State)
    scan silent s = scanAtMost silent 496 s ∧ scanAtMost silent 0 s = s ∧
    ∀ n, scanAtMost silent (n + 1) s =
      if (walk s.waits).1.granted = true then scanAtMost silent n (walk s.waits).2 else (walk s.waits).2) ∧
  -- the actions
  ∀ (c : Channel) (s : State), PowerOk s →
    let holds := fun watts : Int => ({ channel := c, watts := watts } : Grant) ∈ s.grants
    let without : State := { s with grants := s.grants.filter (fun g => g.channel != c) }
    let joined := fun (request : Int) (t : State) => (t.joinWait c request).modChan c (fun ch => { ch with status := .waitBudget })
    (∀ request silent, requestAction c request silent s = scan silent (joined request s)) ∧
    (∀ watts, holds watts → settlePower c s = scan none (shed without)) ∧
    (Waits s c → settlePower c s = scan none { s with waits := s.waits.filter (fun w => w.channel != c) }) ∧
    (NoPower s c → settlePower c s = s) ∧
    ∀ old new : Int, holds old ∨ (old = 0 ∧ ¬HoldsGrant s c) →
      let list :=
        if old = 0 then (if new = 0 then s.grants else s.grants ++ [{ channel := c, watts := new }])
        else if new = 0 then s.grants.filter (fun g => g.channel != c)
        else s.grants.map (fun g => if g.channel = c then { channel := c, watts := new } else g)
      let placed : State := { s with grants := list }
      (s.inCaps (s.net - old + new) = true → placed.net = s.net - old + new ∧
        regrantAction c new s = if placed.net.natAbs < s.net.natAbs then scan (some c) placed else placed) ∧
      (s.inCaps (s.net - old + new) = false →
        regrantAction c new s = scan (some c) (if new = 0 then shed without else joined new (shed without)))

/-! ## Channel requests -/

/-- WRITE_CHANNEL_CONFIG (R76): RANGE when the channel or a field is out of range, then IN_USE when the channel is neither IDLE nor
TRIPPED, else all fourteen fields are replaced and nothing else changes. -/
def Obligations.WriteChannelConfigEffect : Prop :=
  ∀ (s : State) (r : Request) (rest : List Request), Taken s r rest → r.kind = 0x10 →
    let a := argNat r.args
    let inRange := a 1 ≤ 63 ∧ a 2 ≤ 3 ∧ a 3 ≤ 192 ∧ a 4 ≤ 32 ∧ a 5 ≤ 30000 ∧ a 6 ≤ 3 ∧ a 7 ≤ 3 ∧ a 8 ≤ 3 ∧
      (a 9 ≤ 511 ∨ a 9 = 0xFFFF) ∧ (10 ≤ a 10 ∧ a 10 ≤ 10000) ∧ (50 ≤ a 11 ∧ a 11 ≤ 5000) ∧ (1 ≤ a 12 ∧ a 12 ≤ 8) ∧
      (1 ≤ a 13 ∧ a 13 ≤ 254) ∧ (1 ≤ a 14 ∧ a 14 ≤ 10000)
    let written : ChannelConfig :=
      { converterAddress := if a 1 = 63 then none else some (a 1), converterOutput := Fin.ofNat 4 (a 2), cellCount := a 3,
        temperatureCount := a 4, currentMaximum := a 5,
        rounding := if a 6 = 0 then .nearestEven else if a 6 = 1 then .towardZero else if a 6 = 2 then .upward else .downward,
        priority := Fin.ofNat 4 (a 7), reportLevel := Fin.ofNat 4 (a 8), entryStep := if a 9 = 0xFFFF then none else some (a 9),
        staleTime := a 10, contactorTime := a 11, confirmCount := a 12, maxPointAge := a 13, maxInterval := a 14 }
    (7 < a 0 ∨ ¬inRange → exec .writeChannelConfig s = .next (answered r rest .range [] s)) ∧
    ∀ c : Channel, a 0 = c.val → inRange →
      ((s.chan c).atRest = false → exec .writeChannelConfig s = .next (answered r rest .inUse [] s)) ∧
      ((s.chan c).atRest = true → exec .writeChannelConfig s =
        .next (answered r rest .ok [] (s.modChan c (fun ch => { ch with config := written }))))

/-- READ_CHANNEL_CONFIG answers the fourteen fields as they stand, in the order and encoding of WRITE_CHANNEL_CONFIG, in every channel
state, and refuses a channel above 7 with RANGE (R77). -/
def Obligations.ReadChannelConfigResults : Prop :=
  ∀ (s : State) (r : Request) (rest : List Request), Taken s r rest → r.kind = 0x11 →
    (7 < argNat r.args 0 → exec .readChannelConfig s = .next (answered r rest .range [] s)) ∧
    ∀ c : Channel, argNat r.args 0 = c.val →
      let g := (s.chan c).config
      exec .readChannelConfig s = .next (answered r rest .ok
        ([g.converterAddress.getD 63, g.converterOutput.val, g.cellCount, g.temperatureCount, g.currentMaximum,
          (match g.rounding with | .nearestEven => 0 | .towardZero => 1 | .upward => 2 | .downward => 3),
          g.priority.val, g.reportLevel.val, g.entryStep.getD 0xFFFF, g.staleTime, g.contactorTime, g.confirmCount,
          g.maxPointAge, g.maxInterval].map (BitVec.ofNat 16)) s)

/-- START when taken (R81): RANGE, then WRONG_STATE, then INCOMPLETE naming the first missing item; otherwise the program check begins
from the entry step, no reply is made yet, and nothing else changes (R65). -/
def Obligations.StartBeginsProgramCheck : Prop :=
  ∀ (s : State) (r : Request) (rest : List Request), Taken s r rest → r.kind = 0x13 →
    (7 < argNat r.args 0 ∨ 1 < argNat r.args 1 → exec .start s = .next (answered r rest .range [] s)) ∧
    ∀ c : Channel, argNat r.args 0 = c.val → argNat r.args 1 ≤ 1 →
      let ch := s.chan c
      let missing : List Bool :=
        [ch.config.converterAddress == none, ch.config.cellCount == 0, ch.config.entryStep == none, ch.limitsLoaded == false,
         !(s.routes.any (fun q => q.channel == c && q.point == 224))]
      (ch.status ≠ .idle → exec .start s = .next (answered r rest .wrongState [] s)) ∧
      (∀ k, k < 5 → ch.status = .idle → missing[k]? = some true → (∀ j, j < k → missing[j]? = some false) →
        exec .start s = .next (answered r rest .incomplete [BitVec.ofNat 16 (k + 1)] s)) ∧
      (∀ entry, ch.status = .idle → (∀ b ∈ missing, b = false) → ch.config.entryStep = some entry →
        exec .start s = .next { s with
          walk := some { channel := c, mode := if argNat r.args 1 = 0 then .fresh else .continue, visited := [],
                         toVisit := [entry] } })

/-- The completion of a program check (R67, R82): a fault answers PROGRAM_FAULT with the offending index and the reason; then
HALL_STOPPED and LINK_DOWN are tested; if none applies the run begins. A refusal leaves no trace but the end of the walk. -/
def Obligations.ProgramCheckCompletionEffect : Prop :=
  ∀ (s : State) (w : Walk) (r : Request) (rest : List Request), s.walk = some w → s.requestQueue = r :: rest →
    (∀ i reason, programCheck s w = some (i, reason) → exec .programCheckCompletion s =
      .next (answered r rest .programFault [BitVec.ofNat 16 i, BitVec.ofNat 16 reason.code] { s with walk := none })) ∧
    (programCheck s w = none →
      (s.hallStop = true → exec .programCheckCompletion s =
        .next (answered r rest .hallStopped [] { s with walk := none })) ∧
      (s.hallStop = false → s.receiver.mode ≠ .locked → exec .programCheckCompletion s =
        .next (answered r rest .linkDown [] { s with walk := none })) ∧
      (s.hallStop = false → s.receiver.mode = .locked → ∃ u : State,
        exec .programCheckCompletion s = .next (answered r rest .ok [] u) ∧ OthersKept w.channel s u ∧
        u = { s with walk := none, channels := u.channels } ∧
        StartedChannel w.mode s.msTime (s.chan w.channel) (u.chan w.channel)))

/-- A program check walks from the entry step (R65): the oldest index of the list is visited; the first check of R66 that fails there ends
the walk with that index and its reason; a record that passes adds its successors, each once, at the list's end; an empty list without an
END record visited answers NO_END with the entry step. One that finds no fault: every record that the entry step leads to, by next links,
LOOP targets and the GOTO targets of records' own predicates, is a record of the channel, a LOOP record among them is not its own target
and holds only predicates on CYCLE_COUNT and RETENTION with persistence 1, the entry step carries all four parts, and an END record is
reached. -/
def Obligations.ProgramCheckIsSound : Prop :=
  (let gotos := fun predicates : List Predicate => predicates.filterMap (fun p => match p.outcome with
      | .goto target => some target
      | _ => none);
    (∀ kind next parts, (StepBody.sample kind next parts).successors = next :: gotos (parts.terminations.getD [])) ∧
    (∀ target next count flag predicates,
      (StepBody.loop target next count flag predicates).successors = target :: next :: gotos predicates) ∧
    StepBody.finish.successors = [] ∧
    [CheckReason.badLink, .foreignStep, .entryIncomplete, .badQuantity, .loopToSelf, .noEnd].map CheckReason.code =
      [1, 2, 3, 4, 5, 6]) ∧
  ∀ (s : State) (c : Channel) (mode : StartMode) (entry : Nat), (s.chan c).config.entryStep = some entry →
    let answer := programCheck s { channel := c, mode := mode, visited := [], toVisit := [entry] }
    Walks s c entry [] [entry] answer ∧
    (answer = none →
      let leads := fun i j => j ∈ (s.record i).body.successors
      (∀ i, Relation.ReflTransGen leads entry i →
        i ≤ 511 ∧ (s.record i).owner = some c ∧
        ∀ target next count flag predicates, (s.record i).body = .loop target next count flag predicates →
          target ≠ i ∧ ∀ p ∈ predicates, (p.quantity = .cycleCount ∨ p.quantity = .retention) ∧ p.persistence = 1) ∧
      (∃ kind next parts, (s.record entry).body = .sample kind next parts ∧ parts.level ≠ none ∧ parts.clamp ≠ none ∧
        parts.budget ≠ none ∧ parts.terminations ≠ none) ∧
      ∃ i, Relation.ReflTransGen leads entry i ∧ (s.record i).body = .finish)

/-- HOLD (R83): RUNNING sets hold-pending; WAIT_BUDGET and DISPLACED enter HOLDING at once, out of the wait list, with HOLD_TAKEN and an
urgent OFF/CLOSE setpoint; every other state is refused with WRONG_STATE, a channel above 7 with RANGE. Stage 5 of an evaluation (R97)
takes a pending hold in RUNNING or WAIT_BUDGET in the same way, and discards it in any other state. That the grant or the wait-list
entry is given up before HOLDING and HOLD_TAKEN is the model's choice (log entry 16). -/
def Obligations.HoldEffect : Prop :=
  let held := fun (before : ChannelState) (flags : List Cause) => { before with
    status := .holding, holdPending := false, causes := flags
    outbox := some { setpoint := offSetpoint before .close, urgent := true }
    lastSetpoint := some (offSetpoint before .close)
    refreshCount := (before.refreshCount + 1) % 256 }
  (∀ (c : Channel) (s : State),
    ((s.chan c).holdPending = false → holdStage c s = s) ∧
    ((s.chan c).holdPending = true →
      ((s.chan c).status ∉ [Status.running, .waitBudget] →
        holdStage c s = s.modChan c (fun ch => { ch with holdPending := false })) ∧
      (PowerOk s → (s.chan c).status ∈ [Status.running, .waitBudget] →
        let u := holdStage c s
        NoPower u c ∧ BystandersKept c s u ∧ ChannelWork s u ∧ u.inCaps u.net = true ∧ .holdTaken ∈ (u.chan c).causes ∧
          u.chan c = held (s.chan c) (u.chan c).causes))) ∧
  ∀ (s : State) (r : Request) (rest : List Request), Taken s r rest → r.kind = 0x14 →
    (7 < argNat r.args 0 → exec .hold s = .next (answered r rest .range [] s)) ∧
    ∀ c : Channel, argNat r.args 0 = c.val →
      ((s.chan c).status = .running → exec .hold s =
        .next (answered r rest .ok [] (s.modChan c (fun ch => { ch with holdPending := true })))) ∧
      ((s.chan c).status ∉ [Status.running, .waitBudget, .displaced] →
        exec .hold s = .next (answered r rest .wrongState [] s)) ∧
      (PowerOk s → (s.chan c).status ∈ [Status.waitBudget, .displaced] →
        ∃ u : State, exec .hold s = .next (answered r rest .ok [] u) ∧ NoPower u c ∧ BystandersKept c s u ∧ ChannelWork s u ∧
          u.inCaps u.net = true ∧ .holdTaken ∈ (u.chan c).causes ∧ ∃ flags, u.chan c = held (s.chan c) flags)

/-- RESUME (R84): HALL_STOPPED while the hall stop is asserted; HOLDING asks again for its step's request (the effective budget, signed by
the kind, 0 for REST), a request of 0 running at once, another made as a request action (R150, R160), which leaves it running with its
grant or waiting; RUNNING with hold-pending clears it; every other case is WRONG_STATE. That a channel above 7
is RANGE also while the hall stop is asserted, before HALL_STOPPED, is the model's choice (log entry 24). -/
def Obligations.ResumeEffect : Prop :=
  ∀ (s : State) (r : Request) (rest : List Request), Taken s r rest → r.kind = 0x15 →
    (7 < argNat r.args 0 → exec .resume s = .next (answered r rest .range [] s)) ∧
    ∀ c : Channel, argNat r.args 0 = c.val →
      (s.hallStop = true → exec .resume s = .next (answered r rest .hallStopped [] s)) ∧
      (s.hallStop = false →
        ((s.chan c).status ≠ .holding → ¬((s.chan c).status = .running ∧ (s.chan c).holdPending = true) →
          exec .resume s = .next (answered r rest .wrongState [] s)) ∧
        ((s.chan c).status = .running → (s.chan c).holdPending = true → exec .resume s =
          .next (answered r rest .ok [] (s.modChan c (fun ch => { ch with holdPending := false })))) ∧
        ((s.chan c).status = .holding → stepRequest s c = 0 → exec .resume s =
          .next (answered r rest .ok [] (s.modChan c (fun ch => { ch with status := .running })))) ∧
        (∀ i kind next parts, (s.chan c).currentStep = some i → (s.record i).body = .sample kind next parts →
          let budget : Int := ((s.chan c).effective.budget.getD 0 : Nat)
          stepRequest s c = if kind = .rest then 0 else if kind = .chargeCC ∨ kind = .chargeCP then budget else -budget) ∧
        ((s.chan c).status = .holding → stepRequest s c ≠ 0 →
          exec .resume s = .next (answered r rest .ok [] (requestAction c (stepRequest s c) none s))) ∧
        (PowerOk s → (s.chan c).status = .holding → (s.chan c).holdPending = false → stepRequest s c ≠ 0 →
          ∃ u : State, u = requestAction c (stepRequest s c) none s ∧ ChannelWork s u ∧ BystandersKept c s u ∧
            u.inCaps u.net = true ∧
            ((u.chan c).status = .running ∧ HoldsGrant u c ∧ ¬Waits u c ∨
              WaitStatus (u.chan c).status ∧ Waits u c ∧ ¬HoldsGrant u c) ∧
            (u.chan c).qs = (s.chan c).qs ∧ (u.chan c).es = (s.chan c).es ∧ (u.chan c).timeFine = (s.chan c).timeFine ∧
            (u.chan c).timeCoarse = (s.chan c).timeCoarse ∧ (u.chan c).persistence = (s.chan c).persistence ∧
            (u.chan c).currentStep = (s.chan c).currentStep))

/-- SKIP_STEP sets skip-pending in RUNNING and is refused with WRONG_STATE in every other state, with RANGE for a channel above 7
(R85). -/
def Obligations.SkipStepEffect : Prop :=
  ∀ (s : State) (r : Request) (rest : List Request), Taken s r rest → r.kind = 0x16 →
    (7 < argNat r.args 0 → exec .skipStep s = .next (answered r rest .range [] s)) ∧
    ∀ c : Channel, argNat r.args 0 = c.val →
      ((s.chan c).status = .running → exec .skipStep s =
        .next (answered r rest .ok [] (s.modChan c (fun ch => { ch with skipPending := true })))) ∧
      ((s.chan c).status ≠ .running → exec .skipStep s = .next (answered r rest .wrongState [] s))

/-- STOP (R86): in IDLE and DISCONNECTING it is OK and changes nothing, in TRIPPED it is WRONG_STATE; in every other state the step ends,
the arbiter's entry is settled, and the channel enters DISCONNECTING with outcome STOPPED, its counts 0, its contactor timer started
and an urgent OFF/OPEN setpoint. -/
def Obligations.StopEffect : Prop :=
  ∀ (s : State) (r : Request) (rest : List Request), Taken s r rest → r.kind = 0x17 →
    (7 < argNat r.args 0 → exec .stop s = .next (answered r rest .range [] s)) ∧
    ∀ c : Channel, argNat r.args 0 = c.val →
      ((s.chan c).status ∈ [Status.idle, .disconnecting] → exec .stop s = .next (answered r rest .ok [] s)) ∧
      ((s.chan c).status = .tripped → exec .stop s = .next (answered r rest .wrongState [] s)) ∧
      (PowerOk s → (s.chan c).status ∈ [Status.connecting, .waitBudget, .running, .displaced, .holding] →
        ∃ u : State, exec .stop s = .next (answered r rest .ok [] u) ∧ NoPower u c ∧ BystandersKept c s u ∧ ChannelWork s u ∧
          u.inCaps u.net = true ∧
          (u.chan c).status = .disconnecting ∧ (u.chan c).runOutcome = .stopped ∧ (u.chan c).currentStep = none ∧
          (u.chan c).holdPending = false ∧ (u.chan c).skipPending = false ∧ (u.chan c).closeCount = 0 ∧
          (u.chan c).openCount = 0 ∧
          (u.chan c).contactorTimer = some { startedAt := s.msTime, length := (s.chan c).config.contactorTime } ∧
          (u.chan c).outbox = some { setpoint := offSetpoint (s.chan c) .open, urgent := true } ∧
          (u.chan c).qs = (s.chan c).qs ∧ (u.chan c).es = (s.chan c).es ∧ (u.chan c).timeFine = (s.chan c).timeFine ∧
          (u.chan c).timeCoarse = (s.chan c).timeCoarse ∧ (u.chan c).loopStack = (s.chan c).loopStack ∧
          (u.chan c).points = (s.chan c).points ∧ (u.chan c).staleTimer = (s.chan c).staleTimer ∧
          ((s.chan c).currentStep = none → (u.chan c).lifetime = (s.chan c).lifetime ∧ (u.chan c).cycle = (s.chan c).cycle) ∧
          (∀ i, (s.chan c).currentStep = some i → .stepEnd ∈ (u.chan c).causes ∧
            (u.chan c).lifetime =
              foldLifetime (reportedCharge (s.chan c)) (reportedEnergy (s.chan c)) (s.chan c).lifetime ∧
            (u.chan c).cycle = foldCycle (reportedCharge (s.chan c)) (reportedEnergy (s.chan c)) (s.chan c).timeCoarse
              (s.chan c).cycle))

/-- CLEAR_TRIP (R87): TRIPPED with open-confirmed set enters IDLE and leaves everything else but that flag; open-confirmed clear is
NOT_SAFE, another state WRONG_STATE, a channel above 7 RANGE. -/
def Obligations.ClearTripEffect : Prop :=
  ∀ (s : State) (r : Request) (rest : List Request), Taken s r rest → r.kind = 0x18 →
    (7 < argNat r.args 0 → exec .clearTrip s = .next (answered r rest .range [] s)) ∧
    ∀ c : Channel, argNat r.args 0 = c.val →
      ((s.chan c).status ≠ .tripped → exec .clearTrip s = .next (answered r rest .wrongState [] s)) ∧
      ((s.chan c).status = .tripped → (s.chan c).openConfirmed = false →
        exec .clearTrip s = .next (answered r rest .notSafe [] s)) ∧
      ((s.chan c).status = .tripped → (s.chan c).openConfirmed = true → exec .clearTrip s =
        .next (answered r rest .ok [] (s.modChan c (fun ch => { ch with status := .idle, openConfirmed := false }))))

/-! ## Requests on tables -/

/-- WRITE_STEP part 0 (R59 to R61): RANGE, then OWNED, then IN_USE; a complete record, of a termination count of 0 or 1, replaces the
record named and discards any staged write; one of 2 to 4 is held as the staged write, with the record's head and first predicate as the
argument words spell them, and the store is not changed. That a next link, a LOOP target or a GOTO target above 511 is accepted is the
model's choice (log entry 13). -/
def Obligations.WriteStepPart0Effect : Prop :=
  ∀ (s : State) (r : Request) (rest : List Request), Taken s r rest → r.kind = 0x20 → argNat r.args 2 ≠ 1 →
    (¬StepHeadFits (argNat r.args) → exec .writeStepPart0 s = .next (answered r rest .range [] s)) ∧
    (StepHeadFits (argNat r.args) → ∃ head, StepHeadAt (argNat r.args) head ∧ readStepHead r.args = some head ∧
      ((s.record head.index).owner ≠ none → (s.record head.index).owner ≠ some head.owner →
        exec .writeStepPart0 s = .next (answered r rest .owned [] s)) ∧
      ((s.record head.index).owner ∈ [none, some head.owner] →
        ((s.chan head.owner).atRest = false → exec .writeStepPart0 s = .next (answered r rest .inUse [] s)) ∧
        ((s.chan head.owner).atRest = true → head.count ≤ 1 → exec .writeStepPart0 s =
          .next (answered r rest .ok [0]
            { s with steps := s.steps.setIfInBounds head.index { owner := some head.owner, body := head.body }, staged := none })) ∧
        ((s.chan head.owner).atRest = true → 2 ≤ head.count → exec .writeStepPart0 s =
          .next (answered r rest .ok [1] { s with staged := some head }))))

/-- WRITE_STEP part 1 (R62): RANGE on its own fields, NOT_FOUND without a matching staged write, RANGE when the count does not fit it,
then OWNED and IN_USE; a part that passes completes the staged record with its predicates, as the argument words spell them, behind the
staged one, and discards the staged write. A refusal leaves both. That a GOTO target above 511 is accepted is the model's choice (log
entry 13). -/
def Obligations.WriteStepPart1Effect : Prop :=
  ∀ (s : State) (r : Request) (rest : List Request), Taken s r rest → r.kind = 0x20 → argNat r.args 2 ≠ 0 →
    let index := argNat r.args 0
    (¬StepRestFits (argNat r.args) → exec .writeStepPart1 s = .next (answered r rest .range [] s)) ∧
    (StepRestFits (argNat r.args) → ∃ (owner : Channel) (more : List Predicate),
      readStepRest r.args = some (index, owner, more) ∧ owner.val = argNat r.args 1 ∧ more.length = argNat r.args 3 ∧
      (∀ k p, more[k]? = some p → PredicateAt (argNat r.args) (4 + 7 * k) p) ∧
      ((∀ head ∈ s.staged, head.index ≠ index ∨ head.owner ≠ owner) →
        exec .writeStepPart1 s = .next (answered r rest .notFound [] s)) ∧
      ∀ head, s.staged = some head → head.index = index → head.owner = owner →
        let completed : StepBody := match head.body with
          | .sample kind next parts => .sample kind next { parts with terminations := parts.terminations.map (· ++ more) }
          | .loop target next count flag predicates => .loop target next count flag (predicates ++ more)
          | .finish => .finish
        (more.length + 1 ≠ head.count → exec .writeStepPart1 s = .next (answered r rest .range [] s)) ∧
        (more.length + 1 = head.count →
          ((s.record index).owner ≠ none → (s.record index).owner ≠ some owner →
            exec .writeStepPart1 s = .next (answered r rest .owned [] s)) ∧
          ((s.record index).owner ∈ [none, some owner] → (s.chan owner).atRest = false →
            exec .writeStepPart1 s = .next (answered r rest .inUse [] s)) ∧
          ((s.record index).owner ∈ [none, some owner] → (s.chan owner).atRest = true → exec .writeStepPart1 s =
            .next (answered r rest .ok [0]
              { s with steps := s.steps.setIfInBounds index { owner := some owner, body := completed }, staged := none }))))

/-- What READ_STEP packs, WRITE_STEP reads back: for every record contents in range, part 0's words give the contents with their first
predicate at most and the number of predicates, whatever argument words stand behind them; part 1's words give the predicates after the
first; and head and rest together are the contents (R23, R59, R62, R63). That a link may be any word (log entry 13), and that the target
word of an outcome other than GOTO is 0 (log entry 14), are the model's choices. -/
def Obligations.StepHeadRoundTrip : Prop :=
  ∀ (index : Nat) (owner : Channel) (body : StepBody) (behind : List Word), index ≤ 511 → BodyOk 4 body →
    let headed : StepBody := match body with
      | .sample kind next parts => .sample kind next { parts with terminations := parts.terminations.map (·.take 1) }
      | .loop target next count flag predicates => .loop target next count flag (predicates.take 1)
      | .finish => .finish
    let more := body.predicates.drop 1
    readStepHead (pack16 index ++ pack16 owner.val ++ pack16 0 ++ pack16 body.kindCode ++ packBody body ++ behind) =
      some { index := index, owner := owner, body := headed, count := body.predicates.length } ∧
    (2 ≤ body.predicates.length →
      readStepRest (pack16 index ++ pack16 owner.val ++ pack16 1 ++ readStepPart { owner := some owner, body := body } 1 ++ behind) =
        some (index, owner, more)) ∧
    headed.addPredicates more = body

/-- FREE_STEPS frees every record of a channel that is IDLE or TRIPPED and answers their number; it touches no other record, not the
staged write and not the configuration; another state is refused with IN_USE, a channel above 7 with RANGE (R64). -/
def Obligations.FreeStepsEffect : Prop :=
  ∀ (s : State) (r : Request) (rest : List Request), Taken s r rest → r.kind = 0x22 →
    (7 < argNat r.args 0 → exec .freeSteps s = .next (answered r rest .range [] s)) ∧
    ∀ c : Channel, argNat r.args 0 = c.val →
      ((s.chan c).atRest = false → exec .freeSteps s = .next (answered r rest .inUse [] s)) ∧
      ((s.chan c).atRest = true → ∃ u : State, exec .freeSteps s = .next (answered r rest .ok
          [BitVec.ofNat 16 ((List.range 512).filter (fun i => (s.record i).owner == some c)).length] u) ∧
        u = { s with steps := u.steps } ∧
        ∀ i, ((s.record i).owner = some c → (u.record i).owner = none ∧ (u.record i).body = .finish) ∧
          ((s.record i).owner ≠ some c → u.record i = s.record i))

/-- WRITE_ROUTE (R28): RANGE, IN_USE, DUPLICATE and TABLE_FULL in that order; a write that passes leaves exactly one route with its key,
with the new target, every other route as it was, and answers the old target and the new number of routes. -/
def Obligations.WriteRouteEffect : Prop :=
  ∀ (s : State) (r : Request) (rest : List Request), RoutesOk s.routes → Taken s r rest → r.kind = 0x28 →
    (62 < argNat r.args 0 ∨ 255 < argNat r.args 1 ∨ 7 < argNat r.args 2 ∨ 227 < argNat r.args 3 →
      exec .writeRoute s = .next (answered r rest .range [] s)) ∧
    ∀ new : Route, new.source = argNat r.args 0 → new.index = argNat r.args 1 → new.channel.val = argNat r.args 2 →
      new.point.val = argNat r.args 3 → new.source ≤ 62 → new.index ≤ 255 →
      let sameKey := fun q : Route => q.source = new.source ∧ q.index = new.index
      let inUse := (s.chan new.channel).atRest = false ∨ ∃ q ∈ s.routes, sameKey q ∧ (s.chan q.channel).atRest = false
      let duplicate := ∃ q ∈ s.routes, ¬sameKey q ∧ q.channel = new.channel ∧ q.point = new.point
      let full := (∀ q ∈ s.routes, ¬sameKey q) ∧ 2048 ≤ s.routes.length
      (inUse → exec .writeRoute s = .next (answered r rest .inUse [] s)) ∧
      (¬inUse → duplicate → exec .writeRoute s = .next (answered r rest .duplicate [] s)) ∧
      (¬inUse → ¬duplicate → full → exec .writeRoute s = .next (answered r rest .tableFull [] s)) ∧
      (¬inUse → ¬duplicate → ¬full → ∃ routes results, exec .writeRoute s =
          .next (answered r rest .ok results { s with routes := routes }) ∧
        (∀ q, q ∈ routes ↔ q = new ∨ (q ∈ s.routes ∧ ¬sameKey q)) ∧
        (∀ q ∈ s.routes, sameKey q → routes.length = s.routes.length ∧
          results = [1, BitVec.ofNat 16 q.channel.val, 1, BitVec.ofNat 16 q.point.val, BitVec.ofNat 16 routes.length]) ∧
        ((∀ q ∈ s.routes, ¬sameKey q) → routes.length = s.routes.length + 1 ∧
          results = [0, 0, 0, 0, BitVec.ofNat 16 routes.length]))

/-- REMOVE_ROUTE (R29): RANGE, NOT_FOUND and IN_USE in that order; on OK the route leaves the map, the others keep their order, and the
reply carries the removed target and the new number of routes. -/
def Obligations.RemoveRouteEffect : Prop :=
  ∀ (s : State) (r : Request) (rest : List Request), RoutesOk s.routes → Taken s r rest → r.kind = 0x29 →
    (62 < argNat r.args 0 ∨ 255 < argNat r.args 1 → exec .removeRoute s = .next (answered r rest .range [] s)) ∧
    (argNat r.args 0 ≤ 62 → argNat r.args 1 ≤ 255 →
      ((∀ q ∈ s.routes, ¬(q.source = argNat r.args 0 ∧ q.index = argNat r.args 1)) →
        exec .removeRoute s = .next (answered r rest .notFound [] s)) ∧
      ∀ before after q, s.routes = before ++ q :: after → q.source = argNat r.args 0 → q.index = argNat r.args 1 →
        ((s.chan q.channel).atRest = false → exec .removeRoute s = .next (answered r rest .inUse [] s)) ∧
        ((s.chan q.channel).atRest = true → exec .removeRoute s = .next (answered r rest .ok
          [BitVec.ofNat 16 q.channel.val, BitVec.ofNat 16 q.point.val, BitVec.ofNat 16 (before.length + after.length)]
          { s with routes := before ++ after })))

/-- READ_ROUTES lists, in key order and in every channel state, the first six routes at or after the start key, of the selected channel
unless the selector is 8, with the more-follows flag and the entry count of the whole map; a value out of range is refused (R30). -/
def Obligations.ReadRoutesListing : Prop :=
  ∀ (s : State) (r : Request) (rest : List Request), RoutesOk s.routes → Taken s r rest → r.kind = 0x2A →
    (8 < argNat r.args 0 ∨ 62 < argNat r.args 1 ∨ 255 < argNat r.args 2 →
      exec .readRoutes s = .next (answered r rest .range [] s)) ∧
    (argNat r.args 0 ≤ 8 → argNat r.args 1 ≤ 62 → argNat r.args 2 ≤ 255 →
      let after := fun q : Route =>
        argNat r.args 1 < q.source ∨ (q.source = argNat r.args 1 ∧ argNat r.args 2 ≤ q.index)
      let selected := fun q : Route => argNat r.args 0 = 8 ∨ q.channel.val = argNat r.args 0
      ∃ found : List Route, found.Sublist s.routes ∧ (∀ q, q ∈ found ↔ q ∈ s.routes ∧ after q ∧ selected q) ∧
        (found.take 6).Pairwise (fun a b => a.source < b.source ∨ (a.source = b.source ∧ a.index < b.index)) ∧
        exec .readRoutes s = .next (answered r rest .ok
          ((if 6 < found.length then 1 else 0) :: BitVec.ofNat 16 s.routes.length :: BitVec.ofNat 16 (found.take 6).length ::
            (found.take 6).flatMap (fun q => [BitVec.ofNat 16 q.source, BitVec.ofNat 16 q.index,
              BitVec.ofNat 16 q.channel.val, BitVec.ofNat 16 q.point.val])) s))

/-- WRITE_LIMITS (R125): RANGE, then INCOMPLETE naming the first absent mandatory entry; a write that passes replaces all nine entries,
sets the loaded flag, zeroes the nine counters, in every channel state, and changes nothing else. A persistence word of 0 makes its
entry absent and its threshold word is not read. -/
def Obligations.WriteLimitsEffect : Prop :=
  ∀ (s : State) (r : Request) (rest : List Request), Taken s r rest → r.kind = 0x30 →
    let persistence := fun id : Fin 9 => argNat r.args (2 + 2 * id.val)
    let threshold := fun id : Fin 9 => if id = 4 ∨ id = 7 then argS16 r.args (1 + 2 * id.val)
      else (argNat r.args (1 + 2 * id.val) : Int)
    let low := fun id : Fin 9 => if id = 4 ∨ id = 7 then (-400 : Int) else 0
    let high := fun id : Fin 9 => if id = 0 ∨ id = 1 then (60000 : Int) else if id = 2 ∨ id = 3 ∨ id = 6 then 65535
      else if id = 4 ∨ id = 7 then 1500 else 30000
    let fits := fun id : Fin 9 => persistence id = 0 ∨
      (persistence id ≤ 8 ∧ low id ≤ threshold id ∧ threshold id ≤ high id)
    (7 < argNat r.args 0 ∨ (∃ id, ¬fits id) → exec .writeLimits s = .next (answered r rest .range [] s)) ∧
    ∀ c : Channel, argNat r.args 0 = c.val → (∀ id, fits id) →
      (∀ id : Fin 9, id.val < 6 → persistence id = 0 → (∀ j, j < id → persistence j ≠ 0) →
        exec .writeLimits s = .next (answered r rest .incomplete [BitVec.ofNat 16 id.val] s)) ∧
      ((∀ id : Fin 9, id.val < 6 → persistence id ≠ 0) → ∃ limits : Vector (Option LimitEntry) 9,
        (∀ id : Fin 9, limits.get id = if persistence id = 0 then none
          else some { threshold := threshold id, persistence := persistence id }) ∧
        exec .writeLimits s = .next (answered r rest .ok [] (s.modChan c (fun ch =>
          { ch with limits := limits, limitsLoaded := true, limitCounters := Vector.replicate 9 0 }))))

/-- READ_LIMITS answers the loaded flag and the nine entries in the encoding of WRITE_LIMITS, 19 words, in every channel state; a limit
set not loaded returns nine absent entries; a channel above 7 is refused with RANGE (R126). -/
def Obligations.ReadLimitsResults : Prop :=
  ∀ (s : State) (r : Request) (rest : List Request), ChannelsOk s → Taken s r rest → r.kind = 0x31 →
    (7 < argNat r.args 0 → exec .readLimits s = .next (answered r rest .range [] s)) ∧
    ∀ c : Channel, argNat r.args 0 = c.val → ∃ results : List Word,
      exec .readLimits s = .next (answered r rest .ok results s) ∧ results.length = 19 ∧
      results[0]? = some (if (s.chan c).limitsLoaded then 1 else 0) ∧
      (∀ id : Fin 9,
        (∀ e, (s.chan c).limits.get id = some e → results[1 + 2 * id.val]? = some (BitVec.ofInt 16 e.threshold) ∧
          results[2 + 2 * id.val]? = some (BitVec.ofNat 16 e.persistence)) ∧
        ((s.chan c).limits.get id = none → results[1 + 2 * id.val]? = some 0 ∧ results[2 + 2 * id.val]? = some 0)) ∧
      ((s.chan c).limitsLoaded = false → results = List.replicate 19 0)

/-- READ_TRIP answers the trip record as it stands in sixteen words, all zero when it is absent, in every channel state; a channel above
7 is refused with RANGE (R142). -/
def Obligations.ReadTripResults : Prop :=
  ∀ (s : State) (r : Request) (rest : List Request), Taken s r rest → r.kind = 0x32 →
    (7 < argNat r.args 0 → exec .readTrip s = .next (answered r rest .range [] s)) ∧
    ∀ c : Channel, argNat r.args 0 = c.val →
      ((s.chan c).tripRecord = none → exec .readTrip s = .next (answered r rest .ok (List.replicate 16 0) s)) ∧
      ∀ t, (s.chan c).tripRecord = some t →
        let signed := fun v : Option Int => match v with
          | none => [0, 0, 0]
          | some x => [1, (BitVec.ofInt 32 x).extractLsb' 16 16, (BitVec.ofInt 32 x).extractLsb' 0 16]
        let index := match t.stepIndex with
          | none => [0, 0]
          | some i => [1, BitVec.ofNat 16 i]
        exec .readTrip s = .next (answered r rest .ok
          ([1, BitVec.ofNat 16 t.cause.code, BitVec.ofNat 16 t.detail] ++ signed t.value ++ signed t.threshold ++ index ++
            [BitVec.ofNat 16 (t.cycleNumber / 65536), BitVec.ofNat 16 t.cycleNumber, t.timeMs.extractLsb' 16 16,
             t.timeMs.extractLsb' 0 16, BitVec.ofNat 16 t.stateAtTrip.code]) s)

/-- READ_DEVICE_STATUS, READ_CHANNEL, READ_STEP, READ_COUNTERS and READ_HISTORY answer OK with the part or the position asked for, of the
state as it stands, word by word as the tables of R63, R88, R171, R172 and R189 list them, and change nothing; an argument out of range
is refused with RANGE. That the target word of a predicate without GOTO reads 0 is the model's choice (log entry 14). -/
def Obligations.ReadRequestsAnswerState : Prop :=
  ∀ (s : State) (r : Request) (rest : List Request), Taken s r rest →
    let word := fun n : Nat => BitVec.ofNat 16 n
    let flag := fun b : Bool => if b then word 1 else word 0
    let u32 := fun n : Nat => [word (n / 65536), word (n % 65536)]
    let u48 := fun n : Nat => [word (n / 4294967296), word (n / 65536 % 65536), word (n % 65536)]
    let s32 := fun v : Int => [(BitVec.ofInt 32 v).extractLsb' 16 16, (BitVec.ofInt 32 v).extractLsb' 0 16]
    let optional := fun (width : Nat) (field : Option (List Word)) => match field with
      | none => word 0 :: List.replicate width (word 0)
      | some words => word 1 :: words
    let codesOf := fun (flags : List Cause) (words : List Word) => ∃ codes : List Nat,
      words = word codes.length :: codes.map word ∧ codes.Pairwise (fun a b => a < b) ∧
      ∀ x, x ∈ codes ↔ ∃ cause ∈ flags, cause.code = x
    let answers := fun (row : Instr) (results : List Word) => exec row s = .next (answered r rest .ok results s)
    let refuses := fun (row : Instr) => exec row s = .next (answered r rest .range [] s)
    (r.kind = 0x02 →
      let waiting := fun entries : List WaitEntry => word s.waits.length :: word entries.length ::
        entries.flatMap (fun w => [word w.channel.val] ++ s32 w.request ++ [word w.priority.val])
      (3 < argNat r.args 0 → refuses .readDeviceStatus) ∧
      (argNat r.args 0 = 0 → ∃ causes, codesOf s.deviceCauses causes ∧ answers .readDeviceStatus
        ([word (match s.receiver.mode with | .search => 0 | .confirm => 1 | .locked => 2), flag s.hallStop,
          word s.eventDestination, word s.deviceReportLevel.val] ++ u32 s.msTime.toNat ++
          (List.finRange 8).map (fun c => word (s.chan c).status.code) ++ causes)) ∧
      (argNat r.args 0 = 1 → answers .readDeviceStatus
        (s32 s.net ++ [word s.grants.length] ++ s.grants.flatMap (fun g => [word g.channel.val] ++ s32 g.watts))) ∧
      (argNat r.args 0 = 2 → answers .readDeviceStatus (u32 s.importCap ++ u32 s.exportCap ++ waiting (s.waits.take 4))) ∧
      (argNat r.args 0 = 3 → answers .readDeviceStatus (waiting ((s.waits.drop 4).take 4)))) ∧
    (r.kind = 0x12 →
      (7 < argNat r.args 0 ∨ 2 < argNat r.args 1 → refuses .readChannel) ∧
      ∀ c : Channel, argNat r.args 0 = c.val →
        let ch := s.chan c
        (argNat r.args 1 = 0 → answers .readChannel
          ([word ch.status.code, word ch.runOutcome.code, flag ch.holdPending, flag ch.skipPending, flag ch.openConfirmed] ++
            optional 1 (ch.currentStep.map (fun i => [word i])) ++
            s32 (roundQuotient ch.config.rounding ch.qs 3600000) ++ s32 (roundQuotient ch.config.rounding ch.es 360000000) ++
            [flag (decide (¬(3600000 : Int) ∣ ch.qs)), flag (decide (¬(360000000 : Int) ∣ ch.es)), flag ch.budgetLimited,
             word ch.timeFine] ++ u32 ch.timeCoarse ++ u32 ch.cycleCount ++ [word ch.closeCount, word ch.openCount])) ∧
        (argNat r.args 1 = 1 → answers .readChannel
          (optional 5 (ch.lastSetpoint.map (fun sp =>
              [word (match sp.mode with | .off => 0 | .charge => 1 | .discharge => 2), word sp.magnitude, word sp.clamp,
               word (match sp.contactor with | .open => 0 | .close => 1), word sp.refresh])) ++
            [flag ch.chargeSaturated, flag ch.energySaturated, word ch.loopStack.length] ++
            ch.loopStack.reverse.flatMap (fun e => [word e.index, word e.remaining]))) ∧
        (argNat r.args 1 = 2 → ∃ causes, codesOf ch.causes causes ∧ answers .readChannel causes)) ∧
    (r.kind = 0x21 →
      (511 < argNat r.args 0 ∨ 1 < argNat r.args 1 → refuses .readStep) ∧
      (argNat r.args 0 ≤ 511 →
        let record := s.record (argNat r.args 0)
        let owner := match record.owner with
          | some c => word c.val
          | none => word 8
        let predicate := fun p : Predicate => [word p.quantity.code, word p.comparison.code] ++ s32 p.threshold ++
          [word p.persistence, word p.outcome.code, word (match p.outcome with | .goto target => target | _ => 0)]
        let listed := fun ps : List Predicate => word ps.length :: ps.flatMap predicate
        (argNat r.args 1 = 0 →
          (∀ kind next parts, record.body = .sample kind next parts →
            let ps := parts.terminations.getD []
            answers .readStep ([owner, word kind.code, word next] ++ optional 2 (parts.level.map u32) ++
              optional 1 (parts.clamp.map (fun v => [word v])) ++ optional 2 (parts.budget.map u32) ++
              [flag parts.terminations.isSome, word ps.length] ++ listed (ps.take 1))) ∧
          (∀ target next count cycle ps, record.body = .loop target next count cycle ps →
            answers .readStep ([owner, word 5, word next, word target, word count, flag cycle, word ps.length] ++
              listed (ps.take 1))) ∧
          (record.body = .finish → answers .readStep [owner, word 6])) ∧
        (argNat r.args 1 = 1 →
          (∀ kind next parts, record.body = .sample kind next parts →
            answers .readStep (listed ((parts.terminations.getD []).drop 1))) ∧
          (∀ target next count cycle ps, record.body = .loop target next count cycle ps →
            answers .readStep (listed (ps.drop 1))) ∧
          (record.body = .finish → answers .readStep [word 0])))) ∧
    (r.kind = 0x38 →
      (7 < argNat r.args 0 ∨ 1 < argNat r.args 1 → refuses .readCounters) ∧
      ∀ c : Channel, argNat r.args 0 = c.val →
        let ch := s.chan c
        let l := ch.lifetime
        (argNat r.args 1 = 0 → answers .readCounters
          (u32 l.chargeIn ++ u32 l.chargeOut ++ u48 l.energyIn ++ u48 l.energyOut ++
            [flag l.chargeInSaturated, flag l.chargeOutSaturated, flag l.energyInSaturated, flag l.energyOutSaturated] ++
            u32 ch.cycleCount ++ optional 2 (ch.reference.map u32) ++ optional 2 (ch.lastClosedOut.map u32) ++
            [word ch.history.length])) ∧
        (argNat r.args 1 = 1 → answers .readCounters
          (u32 ch.cycle.chargeIn ++ u32 ch.cycle.chargeOut ++ u32 ch.cycle.energyIn ++ u32 ch.cycle.energyOut ++
            u32 ch.cycle.runSeconds))) ∧
    (r.kind = 0x39 →
      (7 < argNat r.args 0 ∨ 15 < argNat r.args 1 → refuses .readHistory) ∧
      ∀ c : Channel, argNat r.args 0 = c.val → argNat r.args 1 ≤ 15 →
        let record := fun x : CycleRecord => u32 x.totals.chargeIn ++ u32 x.totals.chargeOut ++ u32 x.totals.energyIn ++
          u32 x.totals.energyOut ++ u32 x.totals.runSeconds ++ optional 1 (x.retention.map (fun v => [word v]))
        match (s.chan c).history.drop (argNat r.args 1) with
        | [] => answers .readHistory (u32 0 ++ [word 0])
        | [x] => answers .readHistory (u32 x.number ++ [word 1] ++ record x)
        | x :: y :: _ => answers .readHistory (u32 x.number ++ [word 2] ++ record x ++ record y))

/-- CLEAR_COUNTERS clears the lifetime counters and their marks, the history, or both, and no other counter (R164, R173); CLEAR_CAUSES
clears the named flags of its target and lists, in ascending code order and once each, those that were set (R175). Arguments out of
range are refused with RANGE. -/
def Obligations.ClearingRequests : Prop :=
  ∀ (s : State) (r : Request) (rest : List Request), Taken s r rest →
    (r.kind = 0x3A →
      (7 < argNat r.args 0 ∨ 2 < argNat r.args 1 → exec .clearCounters s = .next (answered r rest .range [] s)) ∧
      ∀ c : Channel, argNat r.args 0 = c.val →
        (argNat r.args 1 = 0 → exec .clearCounters s =
          .next (answered r rest .ok [] (s.modChan c (fun ch => { ch with lifetime := Lifetime.zero })))) ∧
        (argNat r.args 1 = 1 → exec .clearCounters s =
          .next (answered r rest .ok [] (s.modChan c (fun ch => { ch with history := [] })))) ∧
        (argNat r.args 1 = 2 → exec .clearCounters s =
          .next (answered r rest .ok [] (s.modChan c (fun ch => { ch with lifetime := Lifetime.zero, history := [] }))))) ∧
    (r.kind = 0x3B →
      let count := argNat r.args 1
      let fits := fun (device : Bool) (i : Nat) => ∃ cause : Cause, cause.code = argNat r.args (2 + i) ∧ cause.ofDevice = device
      let named := fun cause : Cause => ∃ i, i < count ∧ argNat r.args (2 + i) = cause.code
      (8 < argNat r.args 0 ∨ 22 < count ∨ (∃ i, i < count ∧ ¬fits (argNat r.args 0 == 8) i) →
        exec .clearCauses s = .next (answered r rest .range [] s)) ∧
      (count ≤ 22 → (∀ i, i < count → fits (argNat r.args 0 == 8) i) →
        (argNat r.args 0 = 8 → ∃ flags cleared : List Cause, exec .clearCauses s = .next (answered r rest .ok
            (BitVec.ofNat 16 cleared.length :: cleared.map (fun x => BitVec.ofNat 16 x.code)) { s with deviceCauses := flags }) ∧
          (∀ x, x ∈ flags ↔ x ∈ s.deviceCauses ∧ ¬named x) ∧ (∀ x, x ∈ cleared ↔ x ∈ s.deviceCauses ∧ named x) ∧
          cleared.Pairwise (fun x y => x.code < y.code)) ∧
        ∀ c : Channel, argNat r.args 0 = c.val → ∃ flags cleared : List Cause, exec .clearCauses s = .next (answered r rest .ok
            (BitVec.ofNat 16 cleared.length :: cleared.map (fun x => BitVec.ofNat 16 x.code))
            (s.modChan c (fun ch => { ch with causes := flags }))) ∧
          (∀ x, x ∈ flags ↔ x ∈ (s.chan c).causes ∧ ¬named x) ∧ (∀ x, x ∈ cleared ↔ x ∈ (s.chan c).causes ∧ named x) ∧
          cleared.Pairwise (fun x y => x.code < y.code)))

/-! ## Arithmetic and queues -/

/-- The rounding function of R111 on an exact quotient with a positive divisor, in each of the four modes, and its inexact mark. -/
def Obligations.RoundingFunction : Prop :=
  ∀ (mode : RoundingMode) (n d : Int), 0 < d →
    let q := roundQuotient mode n d
    (d ∣ n → q * d = n ∧ inexact n d = false) ∧
    (¬ d ∣ n → inexact n d = true ∧
      match mode with
      | .towardZero => q.natAbs * d.natAbs < n.natAbs ∧ n.natAbs < (q.natAbs + 1) * d.natAbs ∧ 0 ≤ q * n
      | .upward => n < q * d ∧ q * d < n + d
      | .downward => n - d < q * d ∧ q * d < n
      | .nearestEven => 2 * (n - q * d).natAbs ≤ d.natAbs ∧ (2 * (n - q * d).natAbs = d.natAbs → q % 2 = 0))

/-- Stage 1 in RUNNING (R105, R107, R108, R110): the charge and the energy of the interval are added, each stopping at its bound; no
energy is added while the pack voltage is too old; the step time advances by the interval, its coarse part stopping at its bound. A total
that passes its bound sets its saturated mark, and raises SATURATED when the mark was clear: detail 1 for charge, 2 for energy, value A
the side, +1 or -1 (R109). That charge raises before energy is the model's choice (log entry 15). No other channel, and no list of the
arbiter, changes. -/
def Obligations.IntegrationAddsInterval : Prop :=
  ∀ (c : Channel) (dt : Nat) (current : Int) (s : State), ChannelOk (s.chan c) → dt ≤ 10000 →
    let before := s.chan c
    let t := integrate c dt current s
    let after := t.chan c
    after.qs = max (-(2 ^ 47 - 1)) (min (2 ^ 47 - 1) (before.qs + current * dt)) ∧
    ((before.point 225).age ≤ before.config.maxPointAge →
      after.es = max (-(2 ^ 59 - 1)) (min (2 ^ 59 - 1) (before.es + (before.point 225).value * current * dt))) ∧
    (before.config.maxPointAge < (before.point 225).age → after.es = before.es ∧ .arithInvalid ∈ after.causes) ∧
    (let fresh := (before.point 225).age ≤ before.config.maxPointAge
      let charge := before.qs + current * dt
      let energy := before.es + (before.point 225).value * current * dt
      let outside := fun bound sum : Int => bound < sum ∨ sum < -bound
      let told := fun (marked : Bool) (bound sum : Int) (detail : Nat) (u : State) =>
        if marked = false ∧ outside bound sum then raiseChannel c .saturated
          { stepIndex := before.currentStep, cycleNumber := some before.cycleCount,
            valueA := some (if bound < sum then 1 else -1), valueB := none, detail := detail } u
        else u
      let chargeTold := told before.chargeSaturated (2 ^ 47 - 1) charge 1 s
      let energyTold := if fresh then told before.energySaturated (2 ^ 59 - 1) energy 2 chargeTold
        else raiseChannel c .arithInvalid
          { stepIndex := before.currentStep, valueA := some ((before.point 225).age : Int), valueB := none, detail := 17 } chargeTold
      (after.chargeSaturated = true ↔ before.chargeSaturated = true ∨ outside (2 ^ 47 - 1) charge) ∧
      (after.energySaturated = true ↔ before.energySaturated = true ∨ fresh ∧ outside (2 ^ 59 - 1) energy) ∧
      t = energyTold.modChan c (fun ch => { ch with
        qs := after.qs, es := after.es, timeFine := after.timeFine, timeCoarse := after.timeCoarse
        chargeSaturated := after.chargeSaturated, energySaturated := after.energySaturated })) ∧
    after.timeFine ≤ 9999 ∧
    (before.timeCoarse < 4294967295 ∨ before.timeFine + dt < 10000 →
      after.timeCoarse * 10000 + after.timeFine = before.timeCoarse * 10000 + before.timeFine + dt) ∧
    (before.timeCoarse = 4294967295 → 10000 ≤ before.timeFine + dt →
      after.timeCoarse = 4294967295 ∧ after.timeFine = before.timeFine + dt - 10000) ∧
    after.points = before.points ∧ after.status = before.status ∧ OthersKept c s t ∧ t.grants = s.grants ∧ t.waits = s.waits

/-- An event offered to a queue in order (R178, R179): with room it stands behind every entry of its class or above and ahead of every
lower one; in a full queue it takes the place of the last entry when that is of lower class, else it is dropped, and the
event-overflow flag is set either way. Raising a cause sets its flag always, and offers its event, formed at that moment, exactly when
its class is at or above the report level of its channel or of the device (R174, R176, R177); a cause's class is that of its code. -/
def Obligations.EventQueuePolicy : Prop :=
  (∀ (c : Channel) (cause : Cause) (f : EventFields) (s : State),
    let t := raiseChannel c cause f s
    let flagged := s.modChan c (fun ch => { ch with causes := (t.chan c).causes })
    (∀ x, x ∈ (t.chan c).causes ↔ x = cause ∨ x ∈ (s.chan c).causes) ∧
    t = if (s.chan c).config.reportLevel.val ≤ cause.cls then offerEvent
        { cls := cause.cls, cause := cause, channel := some c, timeMs := s.msTime, stepIndex := f.stepIndex,
          cycleNumber := f.cycleNumber, valueA := f.valueA, valueB := f.valueB, detail := f.detail } flagged
      else flagged) ∧
  (∀ (cause : Cause) (s : State),
    let t := raiseDevice cause s
    let flagged := { s with deviceCauses := t.deviceCauses }
    (∀ x, x ∈ t.deviceCauses ↔ x = cause ∨ x ∈ s.deviceCauses) ∧
    t = if s.deviceReportLevel.val ≤ cause.cls then offerEvent
        { cls := cause.cls, cause := cause, channel := none, timeMs := s.msTime, stepIndex := none, cycleNumber := none,
          valueA := none, valueB := none, detail := 0 } flagged
      else flagged) ∧
  (∀ cause : Cause, cause.cls =
    if cause.code ≤ 0x0B ∨ cause.code = 0x10 ∨ cause.code = 0x11 then 3
    else if 0x20 ≤ cause.code ∧ cause.code ≤ 0x22 then 2
    else if cause.code = 0x12 ∨ cause.code = 0x13 ∨ (0x28 ≤ cause.code ∧ cause.code ≤ 0x2A) then 1 else 0) ∧
  ∀ (e : Event) (s : State), EventsOrdered s.eventQueue →
    let placed := fun q : List Event =>
      q.filter (fun d => decide (e.cls ≤ d.cls)) ++ e :: q.filter (fun d => decide (d.cls < e.cls))
    (s.eventQueue.length < 32 → offerEvent e s = { s with eventQueue := placed s.eventQueue }) ∧
    ∀ kept last, s.eventQueue = kept ++ [last] → kept.length = 31 →
      (last.cls < e.cls → offerEvent e s = { s with eventQueue := placed kept, eventOverflow := true }) ∧
      (e.cls ≤ last.cls → offerEvent e s = { s with eventOverflow := true })

/-- A setpoint's production (R102, R104, R114 to R121): the fields by the channel's state, the outbox urgent if either entry was. RUNNING a
charging step gives mode CHARGE, a discharging step DISCHARGE, and every other case mode OFF with magnitude 0, which leaves the last
magnitude. With a pack voltage of at least 100 the magnitude is the least of the raw value, the budget limit and the current maximum, and
so asks for no more than the effective budget; the budget-limited mark is set, and BUDGET_LIMITED raised, when the budget alone sets it.
Without such a voltage a CC step's magnitude is the least of its level and the current maximum, and a CP step holds the last magnitude
and raises ARITH_INVALID. -/
def Obligations.SetpointProduction : Prop :=
  ∀ (c : Channel) (urgent : Bool) (s : State),
    let before := s.chan c
    let t := produceSetpoint c urgent s
    let after := t.chan c
    let level := before.effective.level.getD 0
    let budget := before.effective.budget.getD 0
    let current := fun kind : SampleKind => kind = .chargeCC ∨ kind = .dischargeCC
    let voltage := fun v : Int => (before.point 225).age ≤ before.config.maxPointAge ∧ (before.point 225).value = v
    ∃ sp : Setpoint, after.lastSetpoint = some sp ∧
      after.outbox = some { setpoint := sp, urgent := urgent || (before.outbox.map OutboxEntry.urgent).getD false } ∧
      after.refreshCount = (before.refreshCount + 1) % 256 ∧ sp.refresh = after.refreshCount ∧
      sp.address = before.config.converterAddress ∧ sp.output = before.config.converterOutput ∧
      sp.clamp = before.effective.clamp.getD 0 ∧
      sp.contactor = (if before.status ∈ [Status.idle, .disconnecting, .tripped] then .open else .close) ∧
      ((∀ kind, ¬Drives s c kind) → sp.mode = .off ∧ sp.magnitude = 0 ∧ after.lastMagnitude = before.lastMagnitude ∧
        after.causes = before.causes ∧ after.budgetLimited = before.budgetLimited) ∧
      (∀ kind, Drives s c kind →
        sp.mode = (if kind = .chargeCC ∨ kind = .chargeCP then .charge else .discharge) ∧ after.lastMagnitude = sp.magnitude ∧
        (before.lastMagnitude ≤ before.config.currentMaximum → sp.magnitude ≤ before.config.currentMaximum) ∧
        (∀ v : Nat, voltage v → 100 ≤ v →
          let raw := if current kind then level else (roundQuotient before.config.rounding (level * 10000) v).toNat
          let bud := budget * 10000 / v
          let limited := bud < raw ∧ bud ≤ before.config.currentMaximum
          sp.magnitude = min raw (min bud before.config.currentMaximum) ∧ sp.magnitude * v ≤ 10000 * budget ∧
          (limited → after.budgetLimited = true) ∧
          (limited → before.budgetLimited = false → .budgetLimited ∈ after.causes) ∧
          (¬limited ∨ before.budgetLimited = true → after.budgetLimited = before.budgetLimited ∧ after.causes = before.causes)) ∧
        ((∀ v, voltage v → v < 100) →
          after.budgetLimited = before.budgetLimited ∧
          (current kind → sp.magnitude = min level before.config.currentMaximum ∧ after.causes = before.causes) ∧
          (¬current kind → sp.magnitude = before.lastMagnitude ∧ .arithInvalid ∈ after.causes))) ∧
      after = { before with
        refreshCount := after.refreshCount, lastSetpoint := after.lastSetpoint, outbox := after.outbox
        lastMagnitude := after.lastMagnitude, budgetLimited := after.budgetLimited, causes := after.causes } ∧
      OthersKept c s t ∧ t.grants = s.grants ∧ t.waits = s.waits

/-- Counting a LOOP record against the stack (R70, R73): a record not in the stack with count 1 goes on, with a greater count pushes
count - 1 and repeats, or finds four entries and trips; a record in the stack discards what stands above it, then its remaining count
falls by 1 and it repeats, or is popped and goes on. Around it, stage 4 and the moves: the effective list is judged in order up to the
first predicate that fires (R53, R54), which beats a pending skip (R96); the outcomes of R55 to R58; the step end with its fold and the
SATURATED causes of it, ahead of STEP_END (R98, R165 to R167); the move to a record (R69, R74), where a LOOP record's own predicates are
judged once, in list order, after its cycle close, and the first that fires is taken without touching the stack (R71, R72); the program's
end (R74, R101); the step begin with its request (R49, R50, R99); and the cycle close (R122, R168, R170). The order of one fold's SATURATED
causes is the model's choice (log entry 15), as is that PROGRAM_END comes before the release (log entry 16). -/
def Obligations.LoopCounting : Prop :=
  -- stage 4
  (∀ (c : Channel) (current : Int) (i : Nat) (s : State), (s.chan c).currentStep = some i →
    let ch := s.chan c
    let skipped := fun u : State => u.modChan c (fun ch => { ch with skipPending := false })
    (∀ k p v, Fires ch current k p v → (∀ j q x, j < k → ¬Fires ch current j q x) →
      ∃ u, Judged c current (some k) s u ∧
        terminationStage c current s = takeOutcome c current i { position := k, predicate := p, value := v } (skipped u)) ∧
    ((∀ k p v, ¬Fires ch current k p v) →
      ∃ u, Judged c current none s u ∧
        (ch.skipPending = false → terminationStage c current s = u) ∧
        (ch.skipPending = true → ∀ kind next parts, (s.record i).body = .sample kind next parts →
          terminationStage c current s = move c current next (endStep c 4 (skipped u))))) ∧
  -- the outcomes
  (∀ (c : Channel) (current : Int) (i : Nat) (f : Fired) (s : State) (kind : SampleKind) (next : Nat) (parts : Parts),
    (s.record i).body = .sample kind next parts →
    let t := takeOutcome c current i f s
    (f.predicate.outcome = .next → t = move c current next (endStep c f.position s)) ∧
    (∀ target, f.predicate.outcome = .goto target → t = move c current target (endStep c f.position s)) ∧
    (f.predicate.outcome = .finish → t = endProgram c i (endStep c 7 s)) ∧
    (f.predicate.outcome = .hold →
      t = move c current next (endStep c f.position (s.modChan c (fun ch => { ch with holdPending := true })))) ∧
    (f.predicate.outcome = .fault → -2147483648 ≤ f.value → f.value ≤ 2147483647 →
      t = trip c { cause := .programCondition, detail := f.position, value := some f.value,
                   threshold := some f.predicate.threshold, stepIndex := some i } s)) ∧
  -- the step end
  (∀ (c : Channel) (detail : Nat) (s : State),
    let ch := s.chan c
    let charge := roundQuotient ch.config.rounding ch.qs 3600000
    let energy := roundQuotient ch.config.rounding ch.es 360000000
    let u := endStep c detail s
    let sum := fun (bound counter amount : Nat) => min (counter + amount) bound
    (ch.currentStep = none → u = s) ∧
    (∀ i, ch.currentStep = some i →
      u.chan c = { ch with
        currentStep := none, causes := (u.chan c).causes, lifetime := (u.chan c).lifetime
        cycle :=
          { chargeIn := sum 4294967295 ch.cycle.chargeIn charge.toNat
            chargeOut := sum 4294967295 ch.cycle.chargeOut (-charge).toNat
            energyIn := sum 4294967295 ch.cycle.energyIn energy.toNat
            energyOut := sum 4294967295 ch.cycle.energyOut (-energy).toNat
            runSeconds := sum 4294967295 ch.cycle.runSeconds ch.timeCoarse } } ∧
      (u.chan c).lifetime.chargeIn = sum 4294967295 ch.lifetime.chargeIn charge.toNat ∧
      (u.chan c).lifetime.chargeOut = sum 4294967295 ch.lifetime.chargeOut (-charge).toNat ∧
      (u.chan c).lifetime.energyIn = sum 281474976710655 ch.lifetime.energyIn energy.toNat ∧
      (u.chan c).lifetime.energyOut = sum 281474976710655 ch.lifetime.energyOut (-energy).toNat ∧
      ((u.chan c).lifetime.chargeInSaturated = true ↔
        ch.lifetime.chargeInSaturated = true ∨ 4294967295 < ch.lifetime.chargeIn + charge.toNat) ∧
      ((u.chan c).lifetime.chargeOutSaturated = true ↔
        ch.lifetime.chargeOutSaturated = true ∨ 4294967295 < ch.lifetime.chargeOut + (-charge).toNat) ∧
      ((u.chan c).lifetime.energyInSaturated = true ↔
        ch.lifetime.energyInSaturated = true ∨ 281474976710655 < ch.lifetime.energyIn + energy.toNat) ∧
      ((u.chan c).lifetime.energyOutSaturated = true ↔
        ch.lifetime.energyOutSaturated = true ∨ 281474976710655 < ch.lifetime.energyOut + (-energy).toNat) ∧
      (let fields := fun (detail : Nat) (a : Int) (b : Option Int) =>
          ({ stepIndex := some i, cycleNumber := some ch.cycleCount, valueA := some a, valueB := b, detail := detail } : EventFields)
        let lost := fun (marked : Bool) (bound counter amount detail : Nat) (v : State) =>
          if marked = false ∧ bound < counter + amount then
            raiseChannel c .saturated (fields detail (min (counter + amount - bound) 2147483647 : Nat) none) v
          else v
        let told := lost ch.lifetime.energyOutSaturated 281474976710655 ch.lifetime.energyOut (-energy).toNat 6
          (lost ch.lifetime.energyInSaturated 281474976710655 ch.lifetime.energyIn energy.toNat 5
            (lost ch.lifetime.chargeOutSaturated 4294967295 ch.lifetime.chargeOut (-charge).toNat 4
              (lost ch.lifetime.chargeInSaturated 4294967295 ch.lifetime.chargeIn charge.toNat 3 s)))
        let full := 4294967295 < ch.cycle.chargeIn + charge.toNat ∨ 4294967295 < ch.cycle.chargeOut + (-charge).toNat ∨
          4294967295 < ch.cycle.energyIn + energy.toNat ∨ 4294967295 < ch.cycle.energyOut + (-energy).toNat ∨
          4294967295 < ch.cycle.runSeconds + ch.timeCoarse
        let folded := if full then raiseChannel c .saturated (fields 7 charge none) told else told
        u = (raiseChannel c .stepEnd (fields detail charge (some energy)) folded).modChan c (fun now => { now with
          currentStep := none, lifetime := (u.chan c).lifetime, cycle := (u.chan c).cycle })) ∧
      .stepEnd ∈ (u.chan c).causes ∧
      (ch.config.reportLevel.val ≤ 1 → u.eventOverflow = false →
        { cls := 1, cause := .stepEnd, channel := some c, timeMs := s.msTime, stepIndex := some i,
          cycleNumber := some ch.cycleCount, valueA := some charge, valueB := some energy, detail := detail : Event }
            ∈ u.eventQueue) ∧
      OthersKept c s u ∧ u.grants = s.grants ∧ u.waits = s.waits)) ∧
  -- the move
  (∀ (c : Channel) (current : Int) (i : Nat) (s : State),
    (∀ kind next parts, (s.record i).body = .sample kind next parts → move c current i s = beginNextStep c i s) ∧
    ((s.record i).owner ≠ none → (s.record i).body = .finish → move c current i s = endProgram c i s) ∧
    ∀ target next count flag predicates, (s.record i).body = .loop target next count flag predicates →
      (16 ≤ (s.chan c).traversalCount → move c current i s =
        trip c { cause := .programFault, detail := 2, value := none, threshold := none, stepIndex := some i } s) ∧
      ((s.chan c).traversalCount < 16 →
        let counted := s.modChan c (fun ch => { ch with traversalCount := ch.traversalCount + 1 })
        let closed := if flag then closeCycle c i counted else counted
        let fires := LoopFires (closed.chan c) current predicates
        let found := InvalidFound (closed.chan c) current predicates
        (∀ k p v, fires k p v → (∀ j q x, j < k → ¬fires j q x) →
          ∃ invalid, found (some k) invalid ∧
            let u := invalidRaised c (some i) invalid closed
            (p.outcome = .next → move c current i s = move c current next u) ∧
            (∀ there, p.outcome = .goto there → move c current i s = move c current there u) ∧
            (p.outcome = .finish → move c current i s = endProgram c i u) ∧
            (p.outcome = .hold →
              move c current i s = move c current next (u.modChan c (fun ch => { ch with holdPending := true }))) ∧
            (p.outcome = .fault → -2147483648 ≤ v → v ≤ 2147483647 → move c current i s =
              trip c { cause := .programCondition, detail := k, value := some v, threshold := some p.threshold,
                       stepIndex := some i } u)) ∧
        ((∀ k p v, ¬fires k p v) →
          ∃ invalid, found none invalid ∧
            let u := invalidRaised c (some i) invalid closed
            (∀ there stack, countLoop i target next count (s.chan c).loopStack = some (there, stack) →
              move c current i s = move c current there (u.modChan c (fun ch => { ch with loopStack := stack }))) ∧
            (countLoop i target next count (s.chan c).loopStack = none → move c current i s =
              trip c { cause := .programFault, detail := 1, value := none, threshold := none, stepIndex := some i } u)))) ∧
  -- the program's end
  (∀ (c : Channel) (i : Nat) (s : State), ProgramEnded c i s (endProgram c i s)) ∧
  -- the step begin
  (∀ (c : Channel) (i : Nat) (s : State) (kind : SampleKind) (next : Nat) (parts : Parts),
    (s.record i).body = .sample kind next parts →
    let u := s.modChan c (fun ch => { ch with
      currentStep := some i
      effective :=
        { level := parts.level.or ch.effective.level, clamp := parts.clamp.or ch.effective.clamp
          budget := parts.budget.or ch.effective.budget, terminations := parts.terminations.or ch.effective.terminations }
      qs := 0, es := 0, timeFine := 0, timeCoarse := 0, persistence := Vector.replicate 4 0
      budgetLimited := false, chargeSaturated := false, energySaturated := false, lastMagnitude := 0 })
    let budget : Int := ((u.chan c).effective.budget.getD 0 : Nat)
    let request : Int := if kind = .rest then 0 else if kind = .chargeCC ∨ kind = .chargeCP then budget else -budget
    let waits := fun v : State => if (v.chan c).status = .waitBudget then produceSetpoint c true v else v
    beginNextStep c i s = waits (regrantAction c request u) ∧
    (request = 0 → beginEntryStep c i s = u.modChan c (fun ch => { ch with status := .running })) ∧
    (request ≠ 0 → beginEntryStep c i s = waits (requestAction c request (some c) u))) ∧
  -- the cycle close
  (∀ (c : Channel) (i : Nat) (s : State),
    let ch := s.chan c
    let t := closeCycle c i s
    let out := ch.cycle.chargeOut
    let retention := ch.reference.map (fun reference => min (out * 1000 / reference) 65535)
    let pushed : CycleRecord := { number := ch.cycleCount, totals := ch.cycle, retention := retention }
    (ch.history.length ≤ 16 → t.chan c = { ch with
      history := (if ch.history.length = 16 then ch.history.tail else ch.history) ++ [pushed]
      lastClosedOut := some out
      reference := if ch.reference = none ∧ 0 < out then some out else ch.reference
      cycleCount := min (ch.cycleCount + 1) 4294967295
      cycle := { chargeIn := 0, chargeOut := 0, energyIn := 0, energyOut := 0, runSeconds := 0 }
      causes := (t.chan c).causes }) ∧
    .cycleEnd ∈ (t.chan c).causes ∧
    (4294967295 ≤ ch.cycleCount → .saturated ∈ (t.chan c).causes) ∧
    (ch.config.reportLevel.val ≤ 1 → t.eventOverflow = false →
      { cls := 1, cause := .cycleEnd, channel := some c, timeMs := s.msTime, stepIndex := some i,
        cycleNumber := some ch.cycleCount, valueA := some ((min out 2147483647 : Nat) : Int),
        valueB := retention.map Int.ofNat, detail := 0 : Event } ∈ t.eventQueue) ∧
    OthersKept c s t ∧ t.grants = s.grants ∧ t.waits = s.waits) ∧
  -- the count
  ∀ (i target next count : Nat) (stack : List LoopEntry), 1 ≤ count →
    ((∀ e ∈ stack, e.index ≠ i) →
      (count = 1 → countLoop i target next count stack = some (next, stack)) ∧
      (2 ≤ count → stack.length < 4 →
        countLoop i target next count stack = some (target, { index := i, remaining := count - 1 } :: stack)) ∧
      (2 ≤ count → 4 ≤ stack.length → countLoop i target next count stack = none)) ∧
    ∀ above below remaining, stack = above ++ { index := i, remaining := remaining } :: below →
      (∀ e ∈ above, e.index ≠ i) → 1 ≤ remaining →
      (2 ≤ remaining →
        countLoop i target next count stack = some (target, { index := i, remaining := remaining - 1 } :: below)) ∧
      (remaining = 1 → countLoop i target next count stack = some (next, below))
end

