-- ==== Sys2Proof/Laws/State.lean ====
section
/-! SUPPORT. One lemma per field per update of the state record, so that no later proof unfolds an update. -/

namespace Sys2Proof.Machine

/-! ## A channel's state -/

@[simp] theorem State.chan_modChan_self (s : State) (c : Channel) (f : ChannelState → ChannelState) :
    (s.modChan c f).chan c = f (s.chan c) :=
  Vector.getElem_set_self c.isLt

theorem State.chan_modChan_ne (s : State) {c d : Channel} (f : ChannelState → ChannelState) (h : d ≠ c) :
    (s.modChan c f).chan d = s.chan d := by
  have hv : c.val ≠ d.val := fun e => h (Fin.ext e.symm)
  simp only [State.chan, State.modChan]
  exact Vector.getElem_set_ne c.isLt d.isLt hv

theorem State.chan_modChan (s : State) (c d : Channel) (f : ChannelState → ChannelState) :
    (s.modChan c f).chan d = if d = c then f (s.chan c) else s.chan d := by
  by_cases h : d = c
  · subst h; simp
  · simp [h, State.chan_modChan_ne s f h]

/-- Two states agree on every channel exactly when their channel vectors are equal. -/
theorem State.channels_ext {s t : State} (h : ∀ c, s.chan c = t.chan c) : s.channels = t.channels := by
  apply Vector.ext
  intro i hi
  exact h ⟨i, hi⟩

@[simp] theorem State.modChan_pending (s : State) (c : Channel) (f : ChannelState → ChannelState) :
    (s.modChan c f).pending = s.pending := rfl
@[simp] theorem State.modChan_receiver (s : State) (c : Channel) (f : ChannelState → ChannelState) :
    (s.modChan c f).receiver = s.receiver := rfl
@[simp] theorem State.modChan_nodeAddress (s : State) (c : Channel) (f : ChannelState → ChannelState) :
    (s.modChan c f).nodeAddress = s.nodeAddress := rfl
@[simp] theorem State.modChan_lastSetpointChannel (s : State) (c : Channel) (f : ChannelState → ChannelState) :
    (s.modChan c f).lastSetpointChannel = s.lastSetpointChannel := rfl
@[simp] theorem State.modChan_lastClass (s : State) (c : Channel) (f : ChannelState → ChannelState) :
    (s.modChan c f).lastClass = s.lastClass := rfl
@[simp] theorem State.modChan_ringOut (s : State) (c : Channel) (f : ChannelState → ChannelState) :
    (s.modChan c f).ringOut = s.ringOut := rfl
@[simp] theorem State.modChan_routes (s : State) (c : Channel) (f : ChannelState → ChannelState) :
    (s.modChan c f).routes = s.routes := rfl
@[simp] theorem State.modChan_steps (s : State) (c : Channel) (f : ChannelState → ChannelState) :
    (s.modChan c f).steps = s.steps := rfl
@[simp] theorem State.modChan_staged (s : State) (c : Channel) (f : ChannelState → ChannelState) :
    (s.modChan c f).staged = s.staged := rfl
@[simp] theorem State.modChan_hallStop (s : State) (c : Channel) (f : ChannelState → ChannelState) :
    (s.modChan c f).hallStop = s.hallStop := rfl
@[simp] theorem State.modChan_previousSample (s : State) (c : Channel) (f : ChannelState → ChannelState) :
    (s.modChan c f).previousSample = s.previousSample := rfl
@[simp] theorem State.modChan_msTime (s : State) (c : Channel) (f : ChannelState → ChannelState) :
    (s.modChan c f).msTime = s.msTime := rfl
@[simp] theorem State.modChan_importCap (s : State) (c : Channel) (f : ChannelState → ChannelState) :
    (s.modChan c f).importCap = s.importCap := rfl
@[simp] theorem State.modChan_exportCap (s : State) (c : Channel) (f : ChannelState → ChannelState) :
    (s.modChan c f).exportCap = s.exportCap := rfl
@[simp] theorem State.modChan_grants (s : State) (c : Channel) (f : ChannelState → ChannelState) :
    (s.modChan c f).grants = s.grants := rfl
@[simp] theorem State.modChan_waits (s : State) (c : Channel) (f : ChannelState → ChannelState) :
    (s.modChan c f).waits = s.waits := rfl
@[simp] theorem State.modChan_eventQueue (s : State) (c : Channel) (f : ChannelState → ChannelState) :
    (s.modChan c f).eventQueue = s.eventQueue := rfl
@[simp] theorem State.modChan_deviceCauses (s : State) (c : Channel) (f : ChannelState → ChannelState) :
    (s.modChan c f).deviceCauses = s.deviceCauses := rfl
@[simp] theorem State.modChan_requestQueue (s : State) (c : Channel) (f : ChannelState → ChannelState) :
    (s.modChan c f).requestQueue = s.requestQueue := rfl
@[simp] theorem State.modChan_replyQueue (s : State) (c : Channel) (f : ChannelState → ChannelState) :
    (s.modChan c f).replyQueue = s.replyQueue := rfl
@[simp] theorem State.modChan_walk (s : State) (c : Channel) (f : ChannelState → ChannelState) :
    (s.modChan c f).walk = s.walk := rfl
@[simp] theorem State.modChan_eventDestination (s : State) (c : Channel) (f : ChannelState → ChannelState) :
    (s.modChan c f).eventDestination = s.eventDestination := rfl
@[simp] theorem State.modChan_deviceReportLevel (s : State) (c : Channel) (f : ChannelState → ChannelState) :
    (s.modChan c f).deviceReportLevel = s.deviceReportLevel := rfl
@[simp] theorem State.modChan_requestOverrun (s : State) (c : Channel) (f : ChannelState → ChannelState) :
    (s.modChan c f).requestOverrun = s.requestOverrun := rfl
@[simp] theorem State.modChan_eventOverflow (s : State) (c : Channel) (f : ChannelState → ChannelState) :
    (s.modChan c f).eventOverflow = s.eventOverflow := rfl

@[simp] theorem State.record_modChan (s : State) (c : Channel) (f : ChannelState → ChannelState) (i : Nat) :
    (s.modChan c f).record i = s.record i := rfl

@[simp] theorem State.net_modChan (s : State) (c : Channel) (f : ChannelState → ChannelState) :
    (s.modChan c f).net = s.net := rfl

@[simp] theorem State.inCaps_modChan (s : State) (c : Channel) (f : ChannelState → ChannelState) (n : Int) :
    (s.modChan c f).inCaps n = s.inCaps n := rfl

/-! ## A step record -/

@[simp] theorem State.setRecord_pending (s : State) (i : Nat) (r : StepRecord) : (s.setRecord i r).pending = s.pending := rfl
@[simp] theorem State.setRecord_receiver (s : State) (i : Nat) (r : StepRecord) : (s.setRecord i r).receiver = s.receiver := rfl
@[simp] theorem State.setRecord_nodeAddress (s : State) (i : Nat) (r : StepRecord) : (s.setRecord i r).nodeAddress = s.nodeAddress := rfl
@[simp] theorem State.setRecord_lastSetpointChannel (s : State) (i : Nat) (r : StepRecord) : (s.setRecord i r).lastSetpointChannel = s.lastSetpointChannel := rfl
@[simp] theorem State.setRecord_lastClass (s : State) (i : Nat) (r : StepRecord) : (s.setRecord i r).lastClass = s.lastClass := rfl
@[simp] theorem State.setRecord_ringOut (s : State) (i : Nat) (r : StepRecord) : (s.setRecord i r).ringOut = s.ringOut := rfl
@[simp] theorem State.setRecord_routes (s : State) (i : Nat) (r : StepRecord) : (s.setRecord i r).routes = s.routes := rfl
@[simp] theorem State.setRecord_channels (s : State) (i : Nat) (r : StepRecord) : (s.setRecord i r).channels = s.channels := rfl
@[simp] theorem State.setRecord_staged (s : State) (i : Nat) (r : StepRecord) : (s.setRecord i r).staged = s.staged := rfl
@[simp] theorem State.setRecord_hallStop (s : State) (i : Nat) (r : StepRecord) : (s.setRecord i r).hallStop = s.hallStop := rfl
@[simp] theorem State.setRecord_previousSample (s : State) (i : Nat) (r : StepRecord) : (s.setRecord i r).previousSample = s.previousSample := rfl
@[simp] theorem State.setRecord_msTime (s : State) (i : Nat) (r : StepRecord) : (s.setRecord i r).msTime = s.msTime := rfl
@[simp] theorem State.setRecord_importCap (s : State) (i : Nat) (r : StepRecord) : (s.setRecord i r).importCap = s.importCap := rfl
@[simp] theorem State.setRecord_exportCap (s : State) (i : Nat) (r : StepRecord) : (s.setRecord i r).exportCap = s.exportCap := rfl
@[simp] theorem State.setRecord_grants (s : State) (i : Nat) (r : StepRecord) : (s.setRecord i r).grants = s.grants := rfl
@[simp] theorem State.setRecord_waits (s : State) (i : Nat) (r : StepRecord) : (s.setRecord i r).waits = s.waits := rfl
@[simp] theorem State.setRecord_eventQueue (s : State) (i : Nat) (r : StepRecord) : (s.setRecord i r).eventQueue = s.eventQueue := rfl
@[simp] theorem State.setRecord_deviceCauses (s : State) (i : Nat) (r : StepRecord) : (s.setRecord i r).deviceCauses = s.deviceCauses := rfl
@[simp] theorem State.setRecord_requestQueue (s : State) (i : Nat) (r : StepRecord) : (s.setRecord i r).requestQueue = s.requestQueue := rfl
@[simp] theorem State.setRecord_replyQueue (s : State) (i : Nat) (r : StepRecord) : (s.setRecord i r).replyQueue = s.replyQueue := rfl
@[simp] theorem State.setRecord_walk (s : State) (i : Nat) (r : StepRecord) : (s.setRecord i r).walk = s.walk := rfl
@[simp] theorem State.setRecord_eventDestination (s : State) (i : Nat) (r : StepRecord) : (s.setRecord i r).eventDestination = s.eventDestination := rfl
@[simp] theorem State.setRecord_deviceReportLevel (s : State) (i : Nat) (r : StepRecord) : (s.setRecord i r).deviceReportLevel = s.deviceReportLevel := rfl
@[simp] theorem State.setRecord_requestOverrun (s : State) (i : Nat) (r : StepRecord) : (s.setRecord i r).requestOverrun = s.requestOverrun := rfl
@[simp] theorem State.setRecord_eventOverflow (s : State) (i : Nat) (r : StepRecord) : (s.setRecord i r).eventOverflow = s.eventOverflow := rfl

@[simp] theorem State.chan_setRecord (s : State) (i : Nat) (r : StepRecord) (c : Channel) :
    (s.setRecord i r).chan c = s.chan c := rfl

theorem State.record_setRecord_self (s : State) {i : Nat} (r : StepRecord) (h : i < 512) :
    (s.setRecord i r).record i = r := by
  simp [State.record, State.setRecord, h]

theorem State.record_setRecord_ne (s : State) {i j : Nat} (r : StepRecord) (h : j ≠ i) :
    (s.setRecord i r).record j = s.record j := by
  simp [State.record, State.setRecord, Ne.symm h]

/-! ## The lists of the arbiter -/

@[simp] theorem State.dropGrant_pending (s : State) (c : Channel) : (s.dropGrant c).pending = s.pending := rfl
@[simp] theorem State.dropGrant_receiver (s : State) (c : Channel) : (s.dropGrant c).receiver = s.receiver := rfl
@[simp] theorem State.dropGrant_nodeAddress (s : State) (c : Channel) : (s.dropGrant c).nodeAddress = s.nodeAddress := rfl
@[simp] theorem State.dropGrant_lastSetpointChannel (s : State) (c : Channel) : (s.dropGrant c).lastSetpointChannel = s.lastSetpointChannel := rfl
@[simp] theorem State.dropGrant_lastClass (s : State) (c : Channel) : (s.dropGrant c).lastClass = s.lastClass := rfl
@[simp] theorem State.dropGrant_ringOut (s : State) (c : Channel) : (s.dropGrant c).ringOut = s.ringOut := rfl
@[simp] theorem State.dropGrant_routes (s : State) (c : Channel) : (s.dropGrant c).routes = s.routes := rfl
@[simp] theorem State.dropGrant_channels (s : State) (c : Channel) : (s.dropGrant c).channels = s.channels := rfl
@[simp] theorem State.dropGrant_steps (s : State) (c : Channel) : (s.dropGrant c).steps = s.steps := rfl
@[simp] theorem State.dropGrant_staged (s : State) (c : Channel) : (s.dropGrant c).staged = s.staged := rfl
@[simp] theorem State.dropGrant_hallStop (s : State) (c : Channel) : (s.dropGrant c).hallStop = s.hallStop := rfl
@[simp] theorem State.dropGrant_previousSample (s : State) (c : Channel) : (s.dropGrant c).previousSample = s.previousSample := rfl
@[simp] theorem State.dropGrant_msTime (s : State) (c : Channel) : (s.dropGrant c).msTime = s.msTime := rfl
@[simp] theorem State.dropGrant_importCap (s : State) (c : Channel) : (s.dropGrant c).importCap = s.importCap := rfl
@[simp] theorem State.dropGrant_exportCap (s : State) (c : Channel) : (s.dropGrant c).exportCap = s.exportCap := rfl
@[simp] theorem State.dropGrant_waits (s : State) (c : Channel) : (s.dropGrant c).waits = s.waits := rfl
@[simp] theorem State.dropGrant_eventQueue (s : State) (c : Channel) : (s.dropGrant c).eventQueue = s.eventQueue := rfl
@[simp] theorem State.dropGrant_deviceCauses (s : State) (c : Channel) : (s.dropGrant c).deviceCauses = s.deviceCauses := rfl
@[simp] theorem State.dropGrant_requestQueue (s : State) (c : Channel) : (s.dropGrant c).requestQueue = s.requestQueue := rfl
@[simp] theorem State.dropGrant_replyQueue (s : State) (c : Channel) : (s.dropGrant c).replyQueue = s.replyQueue := rfl
@[simp] theorem State.dropGrant_walk (s : State) (c : Channel) : (s.dropGrant c).walk = s.walk := rfl
@[simp] theorem State.dropGrant_eventDestination (s : State) (c : Channel) : (s.dropGrant c).eventDestination = s.eventDestination := rfl
@[simp] theorem State.dropGrant_deviceReportLevel (s : State) (c : Channel) : (s.dropGrant c).deviceReportLevel = s.deviceReportLevel := rfl
@[simp] theorem State.dropGrant_requestOverrun (s : State) (c : Channel) : (s.dropGrant c).requestOverrun = s.requestOverrun := rfl
@[simp] theorem State.dropGrant_eventOverflow (s : State) (c : Channel) : (s.dropGrant c).eventOverflow = s.eventOverflow := rfl
@[simp] theorem State.dropWait_pending (s : State) (c : Channel) : (s.dropWait c).pending = s.pending := rfl
@[simp] theorem State.dropWait_receiver (s : State) (c : Channel) : (s.dropWait c).receiver = s.receiver := rfl
@[simp] theorem State.dropWait_nodeAddress (s : State) (c : Channel) : (s.dropWait c).nodeAddress = s.nodeAddress := rfl
@[simp] theorem State.dropWait_lastSetpointChannel (s : State) (c : Channel) : (s.dropWait c).lastSetpointChannel = s.lastSetpointChannel := rfl
@[simp] theorem State.dropWait_lastClass (s : State) (c : Channel) : (s.dropWait c).lastClass = s.lastClass := rfl
@[simp] theorem State.dropWait_ringOut (s : State) (c : Channel) : (s.dropWait c).ringOut = s.ringOut := rfl
@[simp] theorem State.dropWait_routes (s : State) (c : Channel) : (s.dropWait c).routes = s.routes := rfl
@[simp] theorem State.dropWait_channels (s : State) (c : Channel) : (s.dropWait c).channels = s.channels := rfl
@[simp] theorem State.dropWait_steps (s : State) (c : Channel) : (s.dropWait c).steps = s.steps := rfl
@[simp] theorem State.dropWait_staged (s : State) (c : Channel) : (s.dropWait c).staged = s.staged := rfl
@[simp] theorem State.dropWait_hallStop (s : State) (c : Channel) : (s.dropWait c).hallStop = s.hallStop := rfl
@[simp] theorem State.dropWait_previousSample (s : State) (c : Channel) : (s.dropWait c).previousSample = s.previousSample := rfl
@[simp] theorem State.dropWait_msTime (s : State) (c : Channel) : (s.dropWait c).msTime = s.msTime := rfl
@[simp] theorem State.dropWait_importCap (s : State) (c : Channel) : (s.dropWait c).importCap = s.importCap := rfl
@[simp] theorem State.dropWait_exportCap (s : State) (c : Channel) : (s.dropWait c).exportCap = s.exportCap := rfl
@[simp] theorem State.dropWait_grants (s : State) (c : Channel) : (s.dropWait c).grants = s.grants := rfl
@[simp] theorem State.dropWait_eventQueue (s : State) (c : Channel) : (s.dropWait c).eventQueue = s.eventQueue := rfl
@[simp] theorem State.dropWait_deviceCauses (s : State) (c : Channel) : (s.dropWait c).deviceCauses = s.deviceCauses := rfl
@[simp] theorem State.dropWait_requestQueue (s : State) (c : Channel) : (s.dropWait c).requestQueue = s.requestQueue := rfl
@[simp] theorem State.dropWait_replyQueue (s : State) (c : Channel) : (s.dropWait c).replyQueue = s.replyQueue := rfl
@[simp] theorem State.dropWait_walk (s : State) (c : Channel) : (s.dropWait c).walk = s.walk := rfl
@[simp] theorem State.dropWait_eventDestination (s : State) (c : Channel) : (s.dropWait c).eventDestination = s.eventDestination := rfl
@[simp] theorem State.dropWait_deviceReportLevel (s : State) (c : Channel) : (s.dropWait c).deviceReportLevel = s.deviceReportLevel := rfl
@[simp] theorem State.dropWait_requestOverrun (s : State) (c : Channel) : (s.dropWait c).requestOverrun = s.requestOverrun := rfl
@[simp] theorem State.dropWait_eventOverflow (s : State) (c : Channel) : (s.dropWait c).eventOverflow = s.eventOverflow := rfl
@[simp] theorem State.joinWait_pending (s : State) (c : Channel) (r : Int) : (s.joinWait c r).pending = s.pending := rfl
@[simp] theorem State.joinWait_receiver (s : State) (c : Channel) (r : Int) : (s.joinWait c r).receiver = s.receiver := rfl
@[simp] theorem State.joinWait_nodeAddress (s : State) (c : Channel) (r : Int) : (s.joinWait c r).nodeAddress = s.nodeAddress := rfl
@[simp] theorem State.joinWait_lastSetpointChannel (s : State) (c : Channel) (r : Int) : (s.joinWait c r).lastSetpointChannel = s.lastSetpointChannel := rfl
@[simp] theorem State.joinWait_lastClass (s : State) (c : Channel) (r : Int) : (s.joinWait c r).lastClass = s.lastClass := rfl
@[simp] theorem State.joinWait_ringOut (s : State) (c : Channel) (r : Int) : (s.joinWait c r).ringOut = s.ringOut := rfl
@[simp] theorem State.joinWait_routes (s : State) (c : Channel) (r : Int) : (s.joinWait c r).routes = s.routes := rfl
@[simp] theorem State.joinWait_channels (s : State) (c : Channel) (r : Int) : (s.joinWait c r).channels = s.channels := rfl
@[simp] theorem State.joinWait_steps (s : State) (c : Channel) (r : Int) : (s.joinWait c r).steps = s.steps := rfl
@[simp] theorem State.joinWait_staged (s : State) (c : Channel) (r : Int) : (s.joinWait c r).staged = s.staged := rfl
@[simp] theorem State.joinWait_hallStop (s : State) (c : Channel) (r : Int) : (s.joinWait c r).hallStop = s.hallStop := rfl
@[simp] theorem State.joinWait_previousSample (s : State) (c : Channel) (r : Int) : (s.joinWait c r).previousSample = s.previousSample := rfl
@[simp] theorem State.joinWait_msTime (s : State) (c : Channel) (r : Int) : (s.joinWait c r).msTime = s.msTime := rfl
@[simp] theorem State.joinWait_importCap (s : State) (c : Channel) (r : Int) : (s.joinWait c r).importCap = s.importCap := rfl
@[simp] theorem State.joinWait_exportCap (s : State) (c : Channel) (r : Int) : (s.joinWait c r).exportCap = s.exportCap := rfl
@[simp] theorem State.joinWait_grants (s : State) (c : Channel) (r : Int) : (s.joinWait c r).grants = s.grants := rfl
@[simp] theorem State.joinWait_eventQueue (s : State) (c : Channel) (r : Int) : (s.joinWait c r).eventQueue = s.eventQueue := rfl
@[simp] theorem State.joinWait_deviceCauses (s : State) (c : Channel) (r : Int) : (s.joinWait c r).deviceCauses = s.deviceCauses := rfl
@[simp] theorem State.joinWait_requestQueue (s : State) (c : Channel) (r : Int) : (s.joinWait c r).requestQueue = s.requestQueue := rfl
@[simp] theorem State.joinWait_replyQueue (s : State) (c : Channel) (r : Int) : (s.joinWait c r).replyQueue = s.replyQueue := rfl
@[simp] theorem State.joinWait_walk (s : State) (c : Channel) (r : Int) : (s.joinWait c r).walk = s.walk := rfl
@[simp] theorem State.joinWait_eventDestination (s : State) (c : Channel) (r : Int) : (s.joinWait c r).eventDestination = s.eventDestination := rfl
@[simp] theorem State.joinWait_deviceReportLevel (s : State) (c : Channel) (r : Int) : (s.joinWait c r).deviceReportLevel = s.deviceReportLevel := rfl
@[simp] theorem State.joinWait_requestOverrun (s : State) (c : Channel) (r : Int) : (s.joinWait c r).requestOverrun = s.requestOverrun := rfl
@[simp] theorem State.joinWait_eventOverflow (s : State) (c : Channel) (r : Int) : (s.joinWait c r).eventOverflow = s.eventOverflow := rfl

@[simp] theorem State.chan_dropGrant (s : State) (c d : Channel) : (s.dropGrant c).chan d = s.chan d := rfl
@[simp] theorem State.chan_dropWait (s : State) (c d : Channel) : (s.dropWait c).chan d = s.chan d := rfl
@[simp] theorem State.chan_joinWait (s : State) (c d : Channel) (r : Int) : (s.joinWait c r).chan d = s.chan d := rfl

/-! ## Power-on values -/

@[simp] theorem State.chan_reset (c : Channel) : State.reset.chan c = ChannelState.initial :=
  Vector.getElem_replicate c.isLt

@[simp] theorem State.record_reset (i : Nat) : State.reset.record i = StepRecord.free := by
  by_cases h : i < 512
  · simp [State.record, State.reset, h]
  · simp [State.record, State.reset, h]

end Sys2Proof.Machine
end

