-- ==== Sys2Proof/Laws/Work.lean ====
section
/-! SUPPORT. What the work of a channel can touch: channel states, the arbiter's lists and the event queue, and nothing else. Each shared
operation that a channel runs is shown to be such work once; every frame statement follows from it. -/

namespace Sys2Proof.Laws

open Sys2Proof.Machine Sys2Proof.Safety

/-- The state differs at most in the channels, the arbiter's lists, the event queue and the event-overflow flag. -/
def SameElsewhere (s t : State) : Prop := ChannelWork s t

/-- What a channel's work keeps, step by step. -/
structure Work (s t : State) : Prop where
  same   : SameElsewhere s t
  events : s.eventQueue.length ≤ 32 ∧ EventsOrdered s.eventQueue → t.eventQueue.length ≤ 32 ∧ EventsOrdered t.eventQueue
  config : ∀ c, (t.chan c).config = (s.chan c).config
  limits : ∀ c, (t.chan c).limits = (s.chan c).limits ∧ (t.chan c).limitsLoaded = (s.chan c).limitsLoaded
  bounds : StoreOk s → ChannelsOk s → ChannelsOk t
  counts : StoreOk s → ChannelsOk s → ∀ c, LifetimeLe (s.chan c).lifetime (t.chan c).lifetime

theorem lifetimeLe_refl (l : Lifetime) : LifetimeLe l l := ⟨le_refl _, le_refl _, le_refl _, le_refl _⟩

theorem lifetimeLe_trans {a b c : Lifetime} (h₁ : LifetimeLe a b) (h₂ : LifetimeLe b c) : LifetimeLe a c :=
  ⟨h₁.1.trans h₂.1, h₁.2.1.trans h₂.2.1, h₁.2.2.1.trans h₂.2.2.1, h₁.2.2.2.trans h₂.2.2.2⟩

theorem SameElsewhere.refl (s : State) : SameElsewhere s s := ⟨_, _, _, _, _, rfl⟩

theorem SameElsewhere.trans {s t u : State} (h₁ : SameElsewhere s t) (h₂ : SameElsewhere t u) : SameElsewhere s u := by
  obtain ⟨_, _, _, _, _, rfl⟩ := h₁
  obtain ⟨_, _, _, _, _, rfl⟩ := h₂
  exact ⟨_, _, _, _, _, rfl⟩

namespace SameElsewhere

variable {s t : State} (h : SameElsewhere s t)
include h

theorem pending : t.pending = s.pending := by obtain ⟨_, _, _, _, _, rfl⟩ := h; rfl
theorem receiver : t.receiver = s.receiver := by obtain ⟨_, _, _, _, _, rfl⟩ := h; rfl
theorem nodeAddress : t.nodeAddress = s.nodeAddress := by obtain ⟨_, _, _, _, _, rfl⟩ := h; rfl
theorem lastSetpointChannel : t.lastSetpointChannel = s.lastSetpointChannel := by obtain ⟨_, _, _, _, _, rfl⟩ := h; rfl
theorem lastClass : t.lastClass = s.lastClass := by obtain ⟨_, _, _, _, _, rfl⟩ := h; rfl
theorem ringOut : t.ringOut = s.ringOut := by obtain ⟨_, _, _, _, _, rfl⟩ := h; rfl
theorem routes : t.routes = s.routes := by obtain ⟨_, _, _, _, _, rfl⟩ := h; rfl
theorem steps : t.steps = s.steps := by obtain ⟨_, _, _, _, _, rfl⟩ := h; rfl
theorem staged : t.staged = s.staged := by obtain ⟨_, _, _, _, _, rfl⟩ := h; rfl
theorem hallStop : t.hallStop = s.hallStop := by obtain ⟨_, _, _, _, _, rfl⟩ := h; rfl
theorem previousSample : t.previousSample = s.previousSample := by obtain ⟨_, _, _, _, _, rfl⟩ := h; rfl
theorem msTime : t.msTime = s.msTime := by obtain ⟨_, _, _, _, _, rfl⟩ := h; rfl
theorem importCap : t.importCap = s.importCap := by obtain ⟨_, _, _, _, _, rfl⟩ := h; rfl
theorem exportCap : t.exportCap = s.exportCap := by obtain ⟨_, _, _, _, _, rfl⟩ := h; rfl
theorem deviceCauses : t.deviceCauses = s.deviceCauses := by obtain ⟨_, _, _, _, _, rfl⟩ := h; rfl
theorem requestQueue : t.requestQueue = s.requestQueue := by obtain ⟨_, _, _, _, _, rfl⟩ := h; rfl
theorem replyQueue : t.replyQueue = s.replyQueue := by obtain ⟨_, _, _, _, _, rfl⟩ := h; rfl
theorem walk : t.walk = s.walk := by obtain ⟨_, _, _, _, _, rfl⟩ := h; rfl
theorem eventDestination : t.eventDestination = s.eventDestination := by obtain ⟨_, _, _, _, _, rfl⟩ := h; rfl
theorem deviceReportLevel : t.deviceReportLevel = s.deviceReportLevel := by obtain ⟨_, _, _, _, _, rfl⟩ := h; rfl
theorem requestOverrun : t.requestOverrun = s.requestOverrun := by obtain ⟨_, _, _, _, _, rfl⟩ := h; rfl
theorem record (i : Nat) : t.record i = s.record i := by obtain ⟨_, _, _, _, _, rfl⟩ := h; rfl
theorem inCaps (n : Int) : t.inCaps n = s.inCaps n := by obtain ⟨_, _, _, _, _, rfl⟩ := h; rfl

theorem storeOk (hs : StoreOk s) : StoreOk t :=
  { free := fun i => by rw [h.record]; exact hs.free i
    records := fun i => by rw [h.record]; exact hs.records i
    staged := by rw [h.staged]; exact hs.staged }

end SameElsewhere

theorem Work.refl (s : State) : Work s s :=
  { same := .refl s, events := id, config := fun _ => rfl, limits := fun _ => ⟨rfl, rfl⟩, bounds := fun _ hc => hc,
    counts := fun _ _ _ => lifetimeLe_refl _ }

theorem Work.trans {s t u : State} (h₁ : Work s t) (h₂ : Work t u) : Work s u :=
  { same := h₁.same.trans h₂.same
    events := h₂.events ∘ h₁.events
    config := fun c => (h₂.config c).trans (h₁.config c)
    limits := fun c => ⟨(h₂.limits c).1.trans (h₁.limits c).1, (h₂.limits c).2.trans (h₁.limits c).2⟩
    bounds := fun hs hc => h₂.bounds (h₁.same.storeOk hs) (h₁.bounds hs hc)
    counts := fun hs hc c => lifetimeLe_trans (h₁.counts hs hc c) (h₂.counts (h₁.same.storeOk hs) (h₁.bounds hs hc) c) }

/-! ## Changing one channel -/

/-- A change of one channel that keeps its configuration and limits and its ranges is work. -/
theorem work_modChan (s : State) (c : Channel) (f : ChannelState → ChannelState)
    (hcfg : (f (s.chan c)).config = (s.chan c).config)
    (hlim : (f (s.chan c)).limits = (s.chan c).limits ∧ (f (s.chan c)).limitsLoaded = (s.chan c).limitsLoaded)
    (hok : StoreOk s → ChannelOk (s.chan c) → ChannelOk (f (s.chan c)))
    (hlife : ChannelOk (s.chan c) → LifetimeLe (s.chan c).lifetime (f (s.chan c)).lifetime := by
      exact fun _ => lifetimeLe_refl _) : Work s (s.modChan c f) :=
  { same := ⟨_, s.grants, s.waits, s.eventQueue, s.eventOverflow, rfl⟩
    events := id
    config := fun d => by
      rw [State.chan_modChan]; split
      · next h => rw [h, hcfg]
      · rfl
    limits := fun d => by
      rw [State.chan_modChan]; split
      · next h => rw [h]; exact hlim
      · exact ⟨rfl, rfl⟩
    bounds := fun hs hc d => by
      rw [State.chan_modChan]; split
      · exact hok hs (hc c)
      · exact hc d
    counts := fun _ hc d => by
      rw [State.chan_modChan]; split
      · next h => rw [h]; exact hlife (hc c)
      · exact lifetimeLe_refl _ }

/-! ## Work at one channel -/

/-- Work that touches no other channel, not the arbiter's lists, and not the channel's state. -/
structure LocalWork (c : Channel) (s t : State) : Prop extends Work s t where
  others : ∀ d, d ≠ c → t.chan d = s.chan d
  grants : t.grants = s.grants
  waits  : t.waits = s.waits
  status : (t.chan c).status = (s.chan c).status

theorem LocalWork.refl (c : Channel) (s : State) : LocalWork c s s :=
  { Work.refl s with others := fun _ _ => rfl, grants := rfl, waits := rfl, status := rfl }

theorem LocalWork.trans {c : Channel} {s t u : State} (h₁ : LocalWork c s t) (h₂ : LocalWork c t u) : LocalWork c s u :=
  { h₁.toWork.trans h₂.toWork with
    others := fun d hd => (h₂.others d hd).trans (h₁.others d hd)
    grants := h₂.grants.trans h₁.grants
    waits := h₂.waits.trans h₁.waits
    status := h₂.status.trans h₁.status }

/-- Local work keeps the state of every channel. -/
theorem LocalWork.statuses {c : Channel} {s t : State} (h : LocalWork c s t) (d : Channel) :
    (t.chan d).status = (s.chan d).status := by
  by_cases hd : d = c
  · rw [hd]; exact h.status
  · rw [h.others d hd]

/-- A change of one channel that keeps its state, configuration, limits and ranges. -/
theorem local_modChan (s : State) (c : Channel) (f : ChannelState → ChannelState)
    (hcfg : (f (s.chan c)).config = (s.chan c).config)
    (hlim : (f (s.chan c)).limits = (s.chan c).limits ∧ (f (s.chan c)).limitsLoaded = (s.chan c).limitsLoaded)
    (hst : (f (s.chan c)).status = (s.chan c).status)
    (hok : StoreOk s → ChannelOk (s.chan c) → ChannelOk (f (s.chan c)))
    (hlife : ChannelOk (s.chan c) → LifetimeLe (s.chan c).lifetime (f (s.chan c)).lifetime := by
      exact fun _ => lifetimeLe_refl _) : LocalWork c s (s.modChan c f) :=
  { work_modChan s c f hcfg hlim hok hlife with
    others := fun _ hd => State.chan_modChan_ne s f hd
    grants := rfl, waits := rfl
    status := by rw [State.chan_modChan_self]; exact hst }

/-- A further change of the channel after local work; its ranges may rest on those of the state the work began in. -/
theorem LocalWork.thenMod {c : Channel} {s t : State} (h : LocalWork c s t) (f : ChannelState → ChannelState)
    (hcfg : (f (t.chan c)).config = (t.chan c).config)
    (hlim : (f (t.chan c)).limits = (t.chan c).limits ∧ (f (t.chan c)).limitsLoaded = (t.chan c).limitsLoaded)
    (hst : (f (t.chan c)).status = (t.chan c).status)
    (hok : StoreOk s → ChannelOk (s.chan c) → ChannelOk (t.chan c) → ChannelOk (f (t.chan c)))
    (hlife : (f (t.chan c)).lifetime = (t.chan c).lifetime := by exact rfl) :
    LocalWork c s (t.modChan c f) := by
  refine { same := h.same.trans ⟨_, t.grants, t.waits, t.eventQueue, t.eventOverflow, rfl⟩, events := h.events,
           others := fun d hd => (State.chan_modChan_ne t f hd).trans (h.others d hd), grants := h.grants, waits := h.waits,
           config := ?_, limits := ?_, bounds := ?_, counts := ?_, status := ?_ }
  · intro d
    by_cases hd : d = c
    · rw [hd, State.chan_modChan_self, hcfg]; exact h.config c
    · rw [State.chan_modChan_ne t f hd]; exact h.config d
  · intro d
    by_cases hd : d = c
    · rw [hd, State.chan_modChan_self, hlim.1, hlim.2]; exact h.limits c
    · rw [State.chan_modChan_ne t f hd]; exact h.limits d
  · intro hs hc d
    by_cases hd : d = c
    · rw [hd, State.chan_modChan_self]; exact hok hs (hc c) (h.bounds hs hc c)
    · rw [State.chan_modChan_ne t f hd]; exact h.bounds hs hc d
  · intro hs hc d
    by_cases hd : d = c
    · rw [hd, State.chan_modChan_self, hlife]; exact h.counts hs hc c
    · rw [State.chan_modChan_ne t f hd]; exact h.counts hs hc d
  · rw [State.chan_modChan_self, hst]; exact h.status

/-- The arbiter's lists may change freely within work. -/
theorem work_lists (s : State) (g : List Grant) (w : List WaitEntry) : Work s { s with grants := g, waits := w } :=
  { same := ⟨_, _, _, _, _, rfl⟩, events := id, config := fun _ => rfl, limits := fun _ => ⟨rfl, rfl⟩, bounds := fun _ hc => hc,
    counts := fun _ _ _ => lifetimeLe_refl _ }

/-! ## Events (R178, R179) -/

theorem insertEvent_length (e : Event) (q : List Event) : (insertEvent e q).length = q.length + 1 := by
  induction q with
  | nil => rfl
  | cons d rest ih => simp only [insertEvent]; split <;> simp [ih]

theorem mem_insertEvent {e x : Event} {q : List Event} : x ∈ insertEvent e q ↔ x = e ∨ x ∈ q := by
  induction q with
  | nil => simp [insertEvent]
  | cons d rest ih => simp only [insertEvent]; split <;> simp [ih]; tauto

/-- Inserting keeps the order by class (R178). -/
theorem insertEvent_ordered (e : Event) {q : List Event} (h : EventsOrdered q) : EventsOrdered (insertEvent e q) := by
  induction q with
  | nil => exact List.pairwise_singleton _ _
  | cons d rest ih =>
    have hd := List.pairwise_cons.mp h
    simp only [insertEvent]
    split
    · next hlt =>
      exact List.pairwise_cons.mpr ⟨fun x hx => by
        rcases List.mem_cons.mp hx with rfl | hx
        · omega
        · have := hd.1 x hx; omega, h⟩
    · next hge =>
      exact List.pairwise_cons.mpr ⟨fun x hx => by
        rcases mem_insertEvent.mp hx with rfl | hx
        · omega
        · exact hd.1 x hx, ih hd.2⟩

/-- The queue after an offer: at most 32 events, in class order. -/
theorem offerEvent_queue (e : Event) {s : State} (h : s.eventQueue.length ≤ 32 ∧ EventsOrdered s.eventQueue) :
    (offerEvent e s).eventQueue.length ≤ 32 ∧ EventsOrdered (offerEvent e s).eventQueue := by
  unfold offerEvent
  split
  · next hlt =>
    exact ⟨by simp only [insertEvent_length]; simp only [Config.eventCapacity] at hlt; omega, insertEvent_ordered e h.2⟩
  · split
    · split
      · next hl _ =>
        refine ⟨?_, insertEvent_ordered e (h.2.sublist (List.dropLast_sublist _))⟩
        simp only [insertEvent_length, List.length_dropLast]
        have : s.eventQueue ≠ [] := by rintro h0; simp [h0] at hl
        have := List.length_pos_of_ne_nil this
        omega
      · exact h
    · exact h

/-- An offer changes the event queue and the event-overflow flag only. -/
theorem offerEvent_eq (e : Event) (s : State) :
    ∃ q o, offerEvent e s = { s with eventQueue := q, eventOverflow := o } := by
  unfold offerEvent
  split
  · exact ⟨_, _, rfl⟩
  · split
    · split <;> exact ⟨_, _, rfl⟩
    · exact ⟨_, _, rfl⟩

theorem work_offerEvent (e : Event) (s : State) : Work s (offerEvent e s) := by
  obtain ⟨q, o, h⟩ := offerEvent_eq e s
  refine { same := ⟨s.channels, s.grants, s.waits, q, o, h⟩, events := offerEvent_queue e, config := ?_, limits := ?_, bounds := ?_,
           counts := ?_ }
  · intro c; rw [h]; rfl
  · intro c; rw [h]; exact ⟨rfl, rfl⟩
  · intro _ hc; rw [h]; exact hc
  · intro _ _ c; rw [h]; exact lifetimeLe_refl _

@[simp] theorem chan_offerEvent (e : Event) (s : State) (c : Channel) : (offerEvent e s).chan c = s.chan c := by
  obtain ⟨q, o, h⟩ := offerEvent_eq e s; rw [h]; rfl

@[simp] theorem grants_offerEvent (e : Event) (s : State) : (offerEvent e s).grants = s.grants := by
  obtain ⟨q, o, h⟩ := offerEvent_eq e s; rw [h]

@[simp] theorem waits_offerEvent (e : Event) (s : State) : (offerEvent e s).waits = s.waits := by
  obtain ⟨q, o, h⟩ := offerEvent_eq e s; rw [h]

/-! ## Raising causes (R174, R176) -/

/-- A channel's cause flags are bookkeeping: they are no part of its ranges. -/
theorem channelOk_withCauses {ch : ChannelState} (h : ChannelOk ch) (flags : List Cause) :
    ChannelOk { ch with causes := flags } := { h with }

theorem work_raiseChannel (c : Channel) (cause : Cause) (f : EventFields) (s : State) : Work s (raiseChannel c cause f s) := by
  have h₁ : Work s (s.modChan c (fun ch => { ch with causes := withCause cause ch.causes })) :=
    work_modChan s c _ rfl ⟨rfl, rfl⟩ (fun _ hc => channelOk_withCauses hc _)
  unfold raiseChannel
  simp only
  split
  · exact h₁.trans (work_offerEvent _ _)
  · exact h₁

/-- Raising a channel cause changes no channel but in that channel's cause flags. -/
theorem chan_raiseChannel (c d : Channel) (cause : Cause) (f : EventFields) (s : State) :
    (raiseChannel c cause f s).chan d =
      if d = c then { s.chan c with causes := withCause cause (s.chan c).causes } else s.chan d := by
  unfold raiseChannel
  simp only
  split <;> simp [State.chan_modChan]

theorem chan_raiseChannel_ne {c d : Channel} (h : d ≠ c) (cause : Cause) (f : EventFields) (s : State) :
    (raiseChannel c cause f s).chan d = s.chan d := by simp [chan_raiseChannel, h]

@[simp] theorem grants_raiseChannel (c : Channel) (cause : Cause) (f : EventFields) (s : State) :
    (raiseChannel c cause f s).grants = s.grants := by
  unfold raiseChannel; simp only; split <;> simp

@[simp] theorem waits_raiseChannel (c : Channel) (cause : Cause) (f : EventFields) (s : State) :
    (raiseChannel c cause f s).waits = s.waits := by
  unfold raiseChannel; simp only; split <;> simp

theorem local_raiseChannel (c : Channel) (cause : Cause) (f : EventFields) (s : State) :
    LocalWork c s (raiseChannel c cause f s) :=
  { work_raiseChannel c cause f s with
    others := fun _ hd => chan_raiseChannel_ne hd cause f s
    grants := grants_raiseChannel c cause f s, waits := waits_raiseChannel c cause f s
    status := by simp [chan_raiseChannel] }

/-- Raising a device cause sets its flag and may change the event queue. -/
theorem raiseDevice_eq (cause : Cause) (s : State) :
    ∃ q o, raiseDevice cause s =
      { s with deviceCauses := withCause cause s.deviceCauses, eventQueue := q, eventOverflow := o } := by
  unfold raiseDevice
  simp only
  split
  · obtain ⟨q, o, h⟩ := offerEvent_eq (formEvent cause none {} { s with deviceCauses := withCause cause s.deviceCauses })
      { s with deviceCauses := withCause cause s.deviceCauses }
    exact ⟨q, o, h⟩
  · exact ⟨_, _, rfl⟩

theorem raiseDevice_queue (cause : Cause) {s : State} (h : s.eventQueue.length ≤ 32 ∧ EventsOrdered s.eventQueue) :
    (raiseDevice cause s).eventQueue.length ≤ 32 ∧ EventsOrdered (raiseDevice cause s).eventQueue := by
  unfold raiseDevice
  simp only
  split
  · exact offerEvent_queue _ h
  · exact h

end Sys2Proof.Laws
end

