-- ==== Sys2Proof/Laws/Integrator.lean ====
section
/-! SUPPORT. The Integrator's operations are work at their channel, and keep every accumulator and counter in its range (R107 to R110, R165 to R170). -/

namespace Sys2Proof.Laws

open Sys2Proof.Machine Sys2Proof.Safety

/-! ## Accumulators (R107 to R109) -/

/-- A saturated sum lies within its bound. -/
theorem saturate_within {bound : Int} (h : 0 ≤ bound) (sum : Int) : -bound ≤ saturate bound sum ∧ saturate bound sum ≤ bound := by
  unfold saturate; omega

/-- A sum within the bound is exact (R107). -/
theorem saturate_exact {bound sum : Int} (h₁ : -bound ≤ sum) (h₂ : sum ≤ bound) : saturate bound sum = sum := by
  unfold saturate; omega

/-- The side named is that of the bound the sum passed (R109). -/
theorem passedBound_eq_none {bound sum : Int} : passedBound bound sum = none ↔ -bound ≤ sum ∧ sum ≤ bound := by
  unfold passedBound
  split
  · next h => simp; omega
  · split
    · next h => simp; omega
    · simp; omega

theorem local_addCharge (c : Channel) (q : Int) (s : State) : LocalWork c s (addCharge c q s) := by
  have h₁ : LocalWork c s (s.modChan c (fun ch => { ch with qs := saturate Config.chargeBound ((s.chan c).qs + q) })) :=
    local_modChan s c _ rfl ⟨rfl, rfl⟩ rfl (fun _ h => { h with charge := saturate_within (by decide) _ })
  unfold addCharge
  simp only
  split
  · exact h₁
  · split
    · exact h₁
    · exact (h₁.trans (local_modChan _ c _ rfl ⟨rfl, rfl⟩ rfl (fun _ h => { h with }))).trans (local_raiseChannel _ _ _ _)

theorem local_addEnergy (c : Channel) (e : Int) (s : State) : LocalWork c s (addEnergy c e s) := by
  have h₁ : LocalWork c s (s.modChan c (fun ch => { ch with es := saturate Config.energyBound ((s.chan c).es + e) })) :=
    local_modChan s c _ rfl ⟨rfl, rfl⟩ rfl (fun _ h => { h with energy := saturate_within (by decide) _ })
  unfold addEnergy
  simp only
  split
  · exact h₁
  · split
    · exact h₁
    · exact (h₁.trans (local_modChan _ c _ rfl ⟨rfl, rfl⟩ rfl (fun _ h => { h with }))).trans (local_raiseChannel _ _ _ _)

theorem channelOk_time {ch : ChannelState} (h : ChannelOk ch) {fine coarse : Nat} (hf : fine ≤ 9999)
    (hc : coarse ≤ 4294967295) : ChannelOk { ch with timeFine := fine, timeCoarse := coarse } :=
  { h with fine := hf, coarse := hc }

theorem advanceTime_noCarry {ch : ChannelState} {dt : Nat} (h : ch.timeFine + dt < 10000) :
    advanceTime dt ch = { ch with timeFine := ch.timeFine + dt, timeCoarse := ch.timeCoarse } := by
  simp only [advanceTime, if_pos h]

theorem advanceTime_carry {ch : ChannelState} {dt : Nat} (h : ¬ch.timeFine + dt < 10000) :
    advanceTime dt ch =
      { ch with timeFine := ch.timeFine + dt - 10000, timeCoarse := min (ch.timeCoarse + 1) Config.counterMax32 } := by
  simp only [advanceTime, if_neg h]

/-- The step time after an interval: a single carry, the coarse part stopping at its bound (R110). -/
theorem channelOk_advanceTime {dt : Nat} {ch : ChannelState} (hdt : dt ≤ ch.config.maxInterval) (h : ChannelOk ch) :
    ChannelOk (advanceTime dt ch) := by
  have hf := h.fine
  have hm := h.config.maxInterval.2
  by_cases hc : ch.timeFine + dt < 10000
  · rw [advanceTime_noCarry hc]
    exact channelOk_time h (by omega) h.coarse
  · rw [advanceTime_carry hc]
    exact channelOk_time h (by omega) (Nat.min_le_right _ _)

theorem advanceTime_config (dt : Nat) (ch : ChannelState) :
    (advanceTime dt ch).config = ch.config ∧ (advanceTime dt ch).limits = ch.limits ∧
      (advanceTime dt ch).limitsLoaded = ch.limitsLoaded ∧ (advanceTime dt ch).status = ch.status ∧
      (advanceTime dt ch).lifetime = ch.lifetime := by
  unfold advanceTime; simp only; split <;> exact ⟨rfl, rfl, rfl, rfl, rfl⟩

theorem local_integrate (c : Channel) {dt : Nat} (current : Int) {s : State} (hdt : dt ≤ (s.chan c).config.maxInterval) :
    LocalWork c s (integrate c dt current s) := by
  have h₁ := local_addCharge c (current * dt) s
  have h₃ : ∀ t : State, LocalWork c s t → LocalWork c s (t.modChan c (advanceTime dt)) := fun t ht => ht.trans <|
    local_modChan t c _ (advanceTime_config dt _).1 ⟨(advanceTime_config dt _).2.1, (advanceTime_config dt _).2.2.1⟩
      (advanceTime_config dt _).2.2.2.1 (fun _ h => channelOk_advanceTime (by rw [ht.config]; exact hdt) h)
      (fun _ => (advanceTime_config dt _).2.2.2.2 ▸ lifetimeLe_refl _)
  unfold integrate
  simp only
  split
  · exact h₃ _ (h₁.trans (local_addEnergy _ _ _))
  · exact h₃ _ (h₁.trans (local_raiseChannel _ _ _ _))

/-! ## The fold (R165 to R167) -/

theorem lifetimeOk_fold (rq re : Int) (l : Lifetime) : LifetimeOk (foldLifetime rq re l) :=
  ⟨Nat.min_le_right _ _, Nat.min_le_right _ _, Nat.min_le_right _ _, Nat.min_le_right _ _⟩

/-- A fold lowers no lifetime counter (R166). -/
theorem lifetimeLe_fold (rq re : Int) {l : Lifetime} (h : LifetimeOk l) : LifetimeLe l (foldLifetime rq re l) := by
  obtain ⟨h₁, h₂, h₃, h₄⟩ := h
  refine ⟨?_, ?_, ?_, ?_⟩ <;> simp only [foldLifetime, addCapped, Config.counterMax32, Config.counterMax48] <;> omega

theorem totalsOk_fold (rq re : Int) (seconds : Nat) (t : CycleTotals) : TotalsOk (foldCycle rq re seconds t) :=
  ⟨Nat.min_le_right _ _, Nat.min_le_right _ _, Nat.min_le_right _ _, Nat.min_le_right _ _, Nat.min_le_right _ _⟩

theorem channelOk_foldCounters (rq re : Int) (seconds : Nat) {ch : ChannelState} (h : ChannelOk ch) :
    ChannelOk (foldCounters rq re seconds ch) :=
  { h with lifetime := lifetimeOk_fold _ _ _, cycle := totalsOk_fold _ _ _ _ }

/-- Raising several causes in a row is work. -/
theorem local_foldl_raise {α : Type} (c : Channel) (cause : Cause) (fields : α → EventFields) (xs : List α) (s : State) :
    LocalWork c s (xs.foldl (fun s x => raiseChannel c cause (fields x) s) s) := by
  induction xs generalizing s with
  | nil => exact .refl c s
  | cons x rest ih => exact (local_raiseChannel c cause (fields x) s).trans (ih _)

theorem local_foldStep (c : Channel) (i : Option Nat) (rq re : Int) (seconds : Nat) (s : State) :
    LocalWork c s (foldStep c i rq re seconds s) := by
  have h₁ : LocalWork c s (s.modChan c (foldCounters rq re seconds)) :=
    local_modChan s c _ rfl ⟨rfl, rfl⟩ rfl (fun _ h => channelOk_foldCounters rq re seconds h)
      (fun h => lifetimeLe_fold rq re h.lifetime)
  have h₂ := local_foldl_raise c .saturated
    (fun x : Nat × Nat => { detail := x.1, valueA := some ((min x.2 Config.valueCap : Nat) : Int), stepIndex := i,
                            cycleNumber := some (s.chan c).cycleCount })
    (lifetimeLosses rq re (s.chan c).lifetime) (s.modChan c (foldCounters rq re seconds))
  unfold foldStep
  simp only
  split
  · exact (h₁.trans h₂).trans (local_raiseChannel _ _ _ _)
  · exact h₁.trans h₂

/-! ## The cycle close (R168 to R170) -/

/-- A push keeps at most sixteen records, the newest last (R170). -/
theorem pushHistory_length (r : CycleRecord) (h : List CycleRecord) : (pushHistory r h).length ≤ 16 := by
  unfold pushHistory
  by_cases hl : h.length < Config.historyCapacity
  · simp only [hl, if_true, List.length_append, List.length_singleton]
    simp only [Config.historyCapacity] at hl; omega
  · simp only [hl, if_false, List.length_append, List.length_drop, List.length_singleton]
    simp only [Config.historyCapacity] at hl ⊢; omega

theorem totalsOk_zero : TotalsOk CycleTotals.zero := by unfold TotalsOk; decide

theorem channelOk_closeCounters {ch : ChannelState} (h : ChannelOk ch) : ChannelOk (closeCounters ch) :=
  { h with cycle := totalsOk_zero, cycleCount := Nat.min_le_right _ _, history := pushHistory_length _ _ }

theorem local_closeCycle (c : Channel) (i : Nat) (s : State) : LocalWork c s (closeCycle c i s) := by
  have h₁ : LocalWork c s (s.modChan c closeCounters) :=
    local_modChan s c _ rfl ⟨rfl, rfl⟩ rfl (fun _ h => channelOk_closeCounters h)
  unfold closeCycle
  simp only
  split
  · exact h₁.trans (local_raiseChannel _ _ _ _)
  · exact (h₁.trans (local_raiseChannel _ _ _ _)).trans (local_raiseChannel _ _ _ _)

/-! ## Step totals -/

theorem channelOk_zeroStepTotals {ch : ChannelState} (h : ChannelOk ch) : ChannelOk (zeroStepTotals ch) :=
  { h with
    charge := by show -(2 ^ 47 - 1) ≤ (0 : Int) ∧ (0 : Int) ≤ 2 ^ 47 - 1; decide
    energy := by show -(2 ^ 59 - 1) ≤ (0 : Int) ∧ (0 : Int) ≤ 2 ^ 59 - 1; decide
    fine := Nat.zero_le _, coarse := Nat.zero_le _, magnitude := Nat.zero_le _ }

end Sys2Proof.Laws
end

