-- ==== Sys2Proof/Laws/Setpoints.lean ====
section
/-! SUPPORT. The production of a setpoint: what it changes, and the bounds of its magnitude (R102 to R104, R114 to R121). -/

namespace Sys2Proof.Laws

open Sys2Proof.Machine Sys2Proof.Safety

/-! ## Magnitude (R118, R119) -/

/-- The magnitude is at most the current maximum (R119). -/
theorem limitedMagnitude_le (ch : ChannelState) (raw : Nat) : limitedMagnitude ch raw ≤ ch.config.currentMaximum := by
  unfold limitedMagnitude; omega

theorem computeMagnitude_le (c : Channel) (kind : SampleKind) {s : State} (h : ChannelOk (s.chan c)) :
    (computeMagnitude c kind s).1 ≤ 30000 := by
  unfold computeMagnitude
  simp only
  split
  · exact h.magnitude
  · exact (limitedMagnitude_le _ _).trans h.config.currentMaximum

theorem local_computeMagnitude (c : Channel) (kind : SampleKind) (s : State) :
    LocalWork c s (computeMagnitude c kind s).2 := by
  unfold computeMagnitude
  simp only
  split
  · exact local_raiseChannel _ _ _ _
  · simp only
    split
    · exact .refl c s
    · split
      · exact .refl c s
      · exact (local_modChan s c _ rfl ⟨rfl, rfl⟩ rfl (fun _ h => { h with })).trans (local_raiseChannel _ _ _ _)

/-! ## Production (R102 to R104) -/

theorem channelOk_placeSetpoint (mode : SetpointMode) {magnitude : Nat} (urgent : Bool) {ch : ChannelState}
    (hm : magnitude ≤ 30000) (h : ChannelOk ch) : ChannelOk (placeSetpoint mode magnitude urgent ch) :=
  { h with
    magnitude := by
      show (if mode = .off then ch.lastMagnitude else magnitude) ≤ 30000
      split
      · exact h.magnitude
      · exact hm
    outbox := by
      intro e he
      cases he
      exact hm
    refresh := by
      show (ch.refreshCount + 1) % 256 ≤ 255
      omega }

theorem local_produceSetpoint (c : Channel) (urgent : Bool) (s : State) : LocalWork c s (produceSetpoint c urgent s) := by
  unfold produceSetpoint
  split
  · exact local_modChan s c _ rfl ⟨rfl, rfl⟩ rfl (fun _ h => channelOk_placeSetpoint .off urgent (Nat.zero_le _) h)
  · next kind _ =>
    exact (local_computeMagnitude c kind s).thenMod _ rfl ⟨rfl, rfl⟩ rfl
      (fun _ h h' => channelOk_placeSetpoint _ _ (computeMagnitude_le c kind h) h')

/-- Outside RUNNING a drive step, a setpoint has mode OFF and magnitude 0, and its production changes the outbox, the last setpoint and
the refresh count of its channel, nothing else (R114). -/
theorem produceSetpoint_off {c : Channel} {s : State} (h : driveKind s c = none) (urgent : Bool) :
    produceSetpoint c urgent s = s.modChan c (placeSetpoint .off 0 urgent) := by
  unfold produceSetpoint; rw [h]

theorem driveKind_eq_none {c : Channel} {s : State} (h : (s.chan c).status ≠ .running) : driveKind s c = none := by
  unfold driveKind; rw [if_neg h]

end Sys2Proof.Laws
end

