-- ==== Sys2Proof/Laws/Arbiter.lean ====
section
/-! SUPPORT. The arbiter's lists: what one taking, one granting, shedding, a scan and each action do to them, to the net and to the
channels (R145 to R160). -/

namespace Sys2Proof.Laws

open Sys2Proof.Machine Sys2Proof.Safety

/-! ## The lists and the channel states -/

/-- The lists against the channel states, with some channels left out of the comparison while an event settles their state. -/
structure ListsOk (x : Channel → Prop) (s : State) : Prop where
  grantOnce : (s.grants.map Grant.channel).Nodup
  waitOnce  : (s.waits.map WaitEntry.channel).Nodup
  grantNot0 : ∀ g ∈ s.grants, g.watts ≠ 0
  waitNot0  : ∀ w ∈ s.waits, w.request ≠ 0
  bands     : s.waits.Pairwise (fun a b => b.priority ≤ a.priority)
  apart     : ∀ d, HoldsGrant s d → ¬Waits s d
  granted   : ∀ d, ¬x d → HoldsGrant s d → (s.chan d).status = .running
  waiting   : ∀ d, ¬x d → (Waits s d ↔ WaitStatus (s.chan d).status)

/-- The channels that hold no grant and do not wait are untouched, and stay so. -/
def Untouched (s t : State) : Prop := ∀ d, NoPower s d → t.chan d = s.chan d ∧ NoPower t d

theorem Untouched.refl (s : State) : Untouched s s := fun _ h => ⟨rfl, h⟩

theorem Untouched.trans {s t u : State} (h₁ : Untouched s t) (h₂ : Untouched t u) : Untouched s u := fun d h =>
  ⟨(h₂ d (h₁ d h).2).1.trans (h₁ d h).1, (h₂ d (h₁ d h).2).2⟩

theorem not_waitStatus_running : ¬WaitStatus .running := by unfold WaitStatus; decide

/-- No channel is left out. -/
abbrev NoneOut : Channel → Prop := fun _ => False

/-- One more channel is left out. -/
abbrev And1 (x : Channel → Prop) (c : Channel) : Channel → Prop := fun d => x d ∨ d = c

theorem powerOk_lists {s : State} (h : PowerOk s) : ListsOk NoneOut s :=
  { h with
    apart := fun d hg hw => by
      have := (h.waiting d).mp hw
      rw [h.granted d hg] at this
      exact not_waitStatus_running this
    granted := fun d _ => h.granted d
    waiting := fun d _ => h.waiting d }

theorem ListsOk.weaken {x y : Channel → Prop} {s : State} (h : ListsOk x s) (hxy : ∀ d, x d → y d) : ListsOk y s :=
  { h with
    granted := fun d hd => h.granted d (fun hx => hd (hxy d hx))
    waiting := fun d hd => h.waiting d (fun hx => hd (hxy d hx)) }

theorem ListsOk.leave {x : Channel → Prop} {s : State} (h : ListsOk x s) (c : Channel) : ListsOk (And1 x c) s :=
  h.weaken (fun _ => .inl)

/-- The lists stay sound while they and every state stand as they were. -/
theorem ListsOk.same {x : Channel → Prop} {s t : State} (h : ListsOk x s) (hg : t.grants = s.grants) (hw : t.waits = s.waits)
    (hs : ∀ d, ¬x d → (t.chan d).status = (s.chan d).status) : ListsOk x t :=
  { grantOnce := by rw [hg]; exact h.grantOnce
    waitOnce := by rw [hw]; exact h.waitOnce
    grantNot0 := by rw [hg]; exact h.grantNot0
    waitNot0 := by rw [hw]; exact h.waitNot0
    bands := by rw [hw]; exact h.bands
    apart := fun d => by simpa only [HoldsGrant, Waits, hg, hw] using h.apart d
    granted := fun d hd => by rw [hs d hd]; simpa only [HoldsGrant, hg] using h.granted d hd
    waiting := fun d hd => by rw [hs d hd]; simpa only [Waits, hw] using h.waiting d hd }

theorem ListsOk.local {x : Channel → Prop} {c : Channel} {s t : State} (h : ListsOk x s) (hl : LocalWork c s t) : ListsOk x t :=
  h.same hl.grants hl.waits (fun d _ => hl.statuses d)

theorem noPower_local {c d : Channel} {s t : State} (hl : LocalWork c s t) : NoPower t d ↔ NoPower s d := by
  simp only [NoPower, HoldsGrant, Waits, hl.grants, hl.waits]

/-- A channel at rest has no entry in either list. -/
theorem ListsOk.noPower_atRest {x : Channel → Prop} {s : State} (h : ListsOk x s) {d : Channel} (hd : ¬x d)
    (hr : (s.chan d).status ≠ .running) (hw : ¬WaitStatus (s.chan d).status) : NoPower s d :=
  ⟨fun hg => hr (h.granted d hd hg), fun hh => hw ((h.waiting d hd).mp hh)⟩

/-- Once a channel left out has no entry and does not wait, it is compared again. -/
theorem ListsOk.close {x : Channel → Prop} {c : Channel} {s : State} (h : ListsOk (And1 x c) s) (hn : NoPower s c)
    (hw : ¬WaitStatus (s.chan c).status) : ListsOk x s :=
  { h with
    granted := fun d hx hg => by
      by_cases hd : d = c
      · subst hd; exact absurd hg hn.1
      · exact h.granted d (by simp [hx, hd]) hg
    waiting := fun d hx => by
      by_cases hd : d = c
      · subst hd; exact ⟨fun hh => absurd hh hn.2, fun hh => absurd hh hw⟩
      · exact h.waiting d (by simp [hx, hd]) }

/-- Once a channel left out waits and its state says so, it is compared again. -/
theorem ListsOk.closeWaiting {x : Channel → Prop} {c : Channel} {s : State} (h : ListsOk (And1 x c) s) (hw : Waits s c)
    (hs : WaitStatus (s.chan c).status) : ListsOk x s :=
  { h with
    granted := fun d hx hg => by
      by_cases hd : d = c
      · subst hd; exact absurd hw (h.apart d hg)
      · exact h.granted d (by simp [hx, hd]) hg
    waiting := fun d hx => by
      by_cases hd : d = c
      · subst hd; exact ⟨fun _ => hs, fun _ => hw⟩
      · exact h.waiting d (by simp [hx, hd]) }

/-- Once a channel left out holds its grant, or none, and runs, it is compared again. -/
theorem ListsOk.closeRunning {x : Channel → Prop} {c : Channel} {s : State} (h : ListsOk (And1 x c) s) (hw : ¬Waits s c)
    (hs : (s.chan c).status = .running) : ListsOk x s :=
  { h with
    granted := fun d hx hg => by
      by_cases hd : d = c
      · subst hd; exact hs
      · exact h.granted d (by simp [hx, hd]) hg
    waiting := fun d hx => by
      by_cases hd : d = c
      · subst hd; exact ⟨fun hh => absurd hh hw, fun hh => absurd (hs ▸ hh) not_waitStatus_running⟩
      · exact h.waiting d (by simp [hx, hd]) }

/-! ## The net -/

theorem net_eq (s : State) : s.net = (s.grants.map Grant.watts).sum := rfl

theorem net_of_grants {s t : State} (h : t.grants = s.grants) : t.net = s.net := by rw [net_eq, net_eq, h]

/-- Without one channel's entry, the sum falls by that entry's watts. -/
theorem sum_without {gs : List Grant} (hn : (gs.map Grant.channel).Nodup) {g : Grant} (hg : g ∈ gs) :
    ((gs.filter (fun k => k.channel != g.channel)).map Grant.watts).sum = (gs.map Grant.watts).sum - g.watts := by
  induction gs with
  | nil => simp at hg
  | cons k rest ih =>
    have hk := List.nodup_cons.mp (by simpa using hn : (k.channel :: rest.map Grant.channel).Nodup)
    rcases List.mem_cons.mp hg with rfl | hg
    · have hrest : rest.filter (fun k => k.channel != g.channel) = rest := by
        rw [List.filter_eq_self]
        intro a ha
        have : a.channel ≠ g.channel := fun e => hk.1 (e ▸ List.mem_map_of_mem ha)
        simp [this]
      simp [hrest]
    · have hne : k.channel ≠ g.channel := fun e => hk.1 (e ▸ List.mem_map_of_mem hg)
      simp [hne, ih hk.2 hg]
      omega

theorem inCaps_iff (s : State) (n : Int) : s.inCaps n = true ↔ -(s.exportCap : Int) ≤ n ∧ n ≤ (s.importCap : Int) := by
  simp [State.inCaps]

/-! ## The wait list's order (R148) -/

theorem mem_insertWait {e x : WaitEntry} {ws : List WaitEntry} : x ∈ insertWait e ws ↔ x = e ∨ x ∈ ws := by
  induction ws with
  | nil => simp [insertWait]
  | cons w rest ih => simp only [insertWait]; split <;> simp [ih]; tauto

theorem insertWait_perm (e : WaitEntry) (ws : List WaitEntry) : (insertWait e ws).Perm (e :: ws) := by
  induction ws with
  | nil => exact .refl _
  | cons w rest ih =>
    simp only [insertWait]
    split
    · exact .refl _
    · exact (ih.cons w).trans (.swap e w rest)

theorem insertWait_bands (e : WaitEntry) {ws : List WaitEntry} (h : ws.Pairwise (fun a b => b.priority ≤ a.priority)) :
    (insertWait e ws).Pairwise (fun a b => b.priority ≤ a.priority) := by
  induction ws with
  | nil => exact List.pairwise_singleton _ _
  | cons w rest ih =>
    have hw := List.pairwise_cons.mp h
    simp only [insertWait]
    split
    · next hlt =>
      exact List.pairwise_cons.mpr ⟨fun x hx => by
        rcases List.mem_cons.mp hx with rfl | hx
        · omega
        · have := hw.1 x hx; omega, h⟩
    · next hge =>
      exact List.pairwise_cons.mpr ⟨fun x hx => by
        rcases mem_insertWait.mp hx with rfl | hx
        · omega
        · exact hw.1 x hx, ih hw.2⟩

theorem waits_joinWait (s : State) (c : Channel) (r : Int) :
    (s.joinWait c r).waits = insertWait { channel := c, request := r, priority := s.priorityOf c } s.waits := rfl

theorem waits_join_iff (s : State) (c d : Channel) (r : Int) : Waits (s.joinWait c r) d ↔ d = c ∨ Waits s d := by
  simp only [Waits, waits_joinWait, List.mem_map, mem_insertWait]
  constructor
  · rintro ⟨w, rfl | hw, rfl⟩
    · exact .inl rfl
    · exact .inr ⟨w, hw, rfl⟩
  · rintro (rfl | ⟨w, hw, rfl⟩)
    · exact ⟨_, .inl rfl, rfl⟩
    · exact ⟨w, .inr hw, rfl⟩

theorem waits_drop_iff (s : State) (c d : Channel) : Waits (s.dropWait c) d ↔ d ≠ c ∧ Waits s d := by
  simp only [Waits, State.dropWait, List.mem_map, List.mem_filter, bne_iff_ne, ne_eq]
  constructor
  · rintro ⟨w, ⟨hw, hne⟩, rfl⟩; exact ⟨hne, w, hw, rfl⟩
  · rintro ⟨hne, w, hw, rfl⟩; exact ⟨w, ⟨hw, hne⟩, rfl⟩

theorem holds_drop_iff (s : State) (c d : Channel) : HoldsGrant (s.dropGrant c) d ↔ d ≠ c ∧ HoldsGrant s d := by
  simp only [HoldsGrant, State.dropGrant, List.mem_map, List.mem_filter, bne_iff_ne, ne_eq]
  constructor
  · rintro ⟨w, ⟨hw, hne⟩, rfl⟩; exact ⟨hne, w, hw, rfl⟩
  · rintro ⟨hne, w, hw, rfl⟩; exact ⟨w, ⟨hw, hne⟩, rfl⟩

/-! ## Leaving and joining the lists -/

/-- A channel leaves the grant list; until its state is settled it is left out of the comparison. -/
theorem ListsOk.dropGrant {x : Channel → Prop} {s : State} (h : ListsOk x s) (c : Channel) : ListsOk x (s.dropGrant c) :=
  { h with
    grantOnce := h.grantOnce.sublist ((List.filter_sublist).map _)
    grantNot0 := fun g hg => h.grantNot0 g (List.mem_of_mem_filter hg)
    apart := fun d hg => h.apart d ((holds_drop_iff s c d).mp hg).2
    granted := fun d hd hg => h.granted d hd ((holds_drop_iff s c d).mp hg).2 }

theorem ListsOk.dropWait {x : Channel → Prop} {s : State} {c : Channel} (h : ListsOk x s) (hc : x c) :
    ListsOk x (s.dropWait c) :=
  { h with
    waitOnce := h.waitOnce.sublist ((List.filter_sublist).map _)
    waitNot0 := fun w hw => h.waitNot0 w (List.mem_of_mem_filter hw)
    bands := h.bands.sublist List.filter_sublist
    apart := fun d hg hw => h.apart d hg ((waits_drop_iff s c d).mp hw).2
    waiting := fun d hd => by
      have hne : d ≠ c := fun e => hd (e ▸ hc)
      rw [waits_drop_iff]
      exact ⟨fun hh => (h.waiting d hd).mp hh.2, fun hh => ⟨hne, (h.waiting d hd).mpr hh⟩⟩ }

/-- A channel in neither list joins the wait list with a nonzero request, its state to be settled. -/
theorem ListsOk.joinWait {x : Channel → Prop} {s : State} {c : Channel} (h : ListsOk x s) (hc : x c) (hn : NoPower s c) {r : Int}
    (hr : r ≠ 0) : ListsOk x (s.joinWait c r) :=
  { h with
    waitOnce := by
      have hp := (insertWait_perm { channel := c, request := r, priority := s.priorityOf c } s.waits).map WaitEntry.channel
      exact hp.nodup_iff.mpr (List.nodup_cons.mpr ⟨hn.2, h.waitOnce⟩)
    waitNot0 := fun w hw => by
      rcases mem_insertWait.mp hw with rfl | hw
      · exact hr
      · exact h.waitNot0 w hw
    bands := insertWait_bands _ h.bands
    apart := fun d hg hw => by
      rcases (waits_join_iff s c d r).mp hw with rfl | hw
      · exact hn.1 hg
      · exact h.apart d hg hw
    waiting := fun d hd => by
      have hne : d ≠ c := fun e => hd (e ▸ hc)
      rw [waits_join_iff]
      exact ⟨fun hh => (h.waiting d hd).mp (hh.resolve_left hne), fun hh => .inr ((h.waiting d hd).mpr hh)⟩ }

/-- A channel in neither list joins the tail of the grant list with a nonzero grant, its state to be settled. -/
theorem ListsOk.joinGrant {x : Channel → Prop} {s : State} {c : Channel} (h : ListsOk x s) (hc : x c) (hn : NoPower s c) {r : Int}
    (hr : r ≠ 0) : ListsOk x { s with grants := s.grants ++ [{ channel := c, watts := r }] } :=
  { h with
    grantOnce := by
      have hs : ∀ a ∈ s.grants.map Grant.channel, ∀ b ∈ [c], a ≠ b := by
        intro a ha b hb e
        rw [List.mem_singleton] at hb
        exact hn.1 (by subst hb; subst e; exact ha)
      simpa using List.nodup_append.mpr ⟨h.grantOnce, List.nodup_singleton c, hs⟩
    grantNot0 := fun g hg => by
      rcases List.mem_append.mp hg with hg | hg
      · exact h.grantNot0 g hg
      · rw [List.mem_singleton.mp hg]; exact hr
    apart := fun d hg hw => by
      simp only [HoldsGrant, List.map_append, List.mem_append, List.map_cons, List.map_nil, List.mem_singleton] at hg
      rcases hg with hg | rfl
      · exact h.apart d hg hw
      · exact hn.2 hw
    granted := fun d hd hg => by
      simp only [HoldsGrant, List.map_append, List.mem_append, List.map_cons, List.map_nil, List.mem_singleton] at hg
      rcases hg with hg | rfl
      · exact h.granted d hd hg
      · exact absurd hc hd }

/-- The state of a channel left out changes. -/
theorem ListsOk.mod {x : Channel → Prop} {s : State} {c : Channel} (h : ListsOk x s) (hc : x c) (f : ChannelState → ChannelState) :
    ListsOk x (s.modChan c f) :=
  h.same rfl rfl (fun d hd => by
    have hne : d ≠ c := fun e => hd (by rw [e]; exact hc)
    rw [State.chan_modChan_ne s f hne])

end Sys2Proof.Laws
end

