-- ==== Sys2Proof/Laws/Actions.lean ====
section
/-! SUPPORT. Taking a grant, granting, shedding, scans and the arbiter's actions: each is work, keeps the lists sound against the channel
states, touches only channels with an entry, and leaves the net within the caps (R145 to R160). -/

namespace Sys2Proof.Laws

open Sys2Proof.Machine Sys2Proof.Safety

/-! ## Work -/

theorem work_dropGrant (s : State) (c : Channel) : Work s (s.dropGrant c) := work_lists s _ s.waits

theorem work_dropWait (s : State) (c : Channel) : Work s (s.dropWait c) := work_lists s s.grants _

theorem work_joinWait (s : State) (c : Channel) (r : Int) : Work s (s.joinWait c r) := work_lists s s.grants _

theorem work_enterHolding (c : Channel) (s : State) : Work s (enterHolding c s) := by
  have h₁ : Work s (s.modChan c (fun ch => { ch with status := .holding, holdPending := false })) :=
    work_modChan s c _ rfl ⟨rfl, rfl⟩ (fun _ h => { h with })
  exact (h₁.trans (work_raiseChannel _ _ _ _)).trans (local_produceSetpoint _ _ _).toWork

theorem work_takeGrant (g : Grant) (detail : Nat) (s : State) : Work s (takeGrant g detail s) := by
  have h₁ : Work s ((s.dropGrant g.channel).modChan g.channel (fun ch => { ch with skipPending := false })) :=
    (work_dropGrant s g.channel).trans (work_modChan _ _ _ rfl ⟨rfl, rfl⟩ (fun _ h => { h with }))
  unfold takeGrant
  simp only
  split
  · exact (h₁.trans (work_raiseChannel _ _ _ _)).trans (work_enterHolding _ _)
  · have h₂ := (h₁.trans (work_joinWait _ g.channel g.watts)).trans
      (work_modChan _ g.channel (fun ch => { ch with status := .displaced }) rfl ⟨rfl, rfl⟩ (fun _ h => { h with }))
    exact (h₂.trans (work_raiseChannel _ _ _ _)).trans (local_produceSetpoint _ _ _).toWork

theorem work_shedAtMost (fuel : Nat) (s : State) : Work s (shedAtMost fuel s) := by
  induction fuel generalizing s with
  | zero => exact .refl s
  | succ n ih =>
    unfold shedAtMost
    split
    · exact .refl s
    · split
      · exact .refl s
      · exact (work_takeGrant _ _ _).trans (ih _)

theorem work_shed (s : State) : Work s (shed s) := work_shedAtMost _ s

theorem work_grantEntry (silent : Option Channel) (w : WaitEntry) (s : State) : Work s (grantEntry silent w s) := by
  have h₁ : Work s { s.dropWait w.channel with
      grants := s.grants ++ [({ channel := w.channel, watts := w.request } : Grant)] } := work_lists s _ _
  have h₂ := h₁.trans (work_modChan _ w.channel (fun ch => { ch with status := .running }) rfl ⟨rfl, rfl⟩ (fun _ h => { h with }))
  unfold grantEntry
  simp only
  split
  · exact h₂.trans (work_raiseChannel _ _ _ _)
  · exact (h₂.trans (work_raiseChannel _ _ _ _)).trans (local_produceSetpoint _ _ _).toWork

theorem work_takeAll (detail : Nat) (gs : List Grant) (s : State) :
    Work s (gs.foldl (fun s g => takeGrant g detail s) s) := by
  induction gs generalizing s with
  | nil => exact .refl s
  | cons g rest ih => exact (work_takeGrant g detail s).trans (ih _)

theorem work_scanEntry (silent : Option Channel) (w : WaitEntry) (memo : ScanMemo) (s : State) :
    Work s (scanEntry silent w memo s).2 := by
  unfold scanEntry
  split
  · exact .refl s
  · split
    · exact .refl s
    · split
      · exact work_grantEntry _ _ _
      · split
        · exact (work_takeAll _ _ _).trans (work_grantEntry _ _ _)
        · exact .refl s

theorem work_scanWalk (silent : Option Channel) (ws : List WaitEntry) (memo : ScanMemo) (s : State) :
    Work s (scanWalk silent ws memo s).2 := by
  induction ws generalizing memo s with
  | nil => exact .refl s
  | cons w rest ih => exact (work_scanEntry silent w memo s).trans (ih _ _)

theorem work_scanAtMost (silent : Option Channel) (fuel : Nat) (s : State) : Work s (scanAtMost silent fuel s) := by
  induction fuel generalizing s with
  | zero => exact .refl s
  | succ n ih =>
    unfold scanAtMost
    have h := work_scanWalk silent s.waits { displaced := [], failed := [], granted := false } s
    simp only
    split
    · exact h.trans (ih _)
    · exact h

theorem work_scan (silent : Option Channel) (s : State) : Work s (scan silent s) := work_scanAtMost _ _ s

theorem work_requestAction (c : Channel) (request : Int) (silent : Option Channel) (s : State) :
    Work s (requestAction c request silent s) :=
  ((work_joinWait s c request).trans
    (work_modChan _ c (fun ch => { ch with status := .waitBudget }) rfl ⟨rfl, rfl⟩ (fun _ h => { h with }))).trans (work_scan _ _)

theorem work_regrantAction (c : Channel) (new : Int) (s : State) : Work s (regrantAction c new s) := by
  unfold regrantAction
  simp only
  split
  · split
    · exact (work_lists s _ s.waits).trans (work_scan _ _)
    · exact work_lists s _ s.waits
  · have h₁ := (work_dropGrant s c).trans (work_shed _)
    split
    · exact h₁.trans (work_scan _ _)
    · exact ((h₁.trans (work_joinWait _ c new)).trans
        (work_modChan _ c (fun ch => { ch with status := .waitBudget }) rfl ⟨rfl, rfl⟩ (fun _ h => { h with }))).trans (work_scan _ _)

theorem work_settlePower (c : Channel) (s : State) : Work s (settlePower c s) := by
  unfold settlePower
  split
  · exact ((work_dropGrant s c).trans (work_shed _)).trans (work_scan _ _)
  · split
    · exact (work_dropWait s c).trans (work_scan _ _)
    · exact .refl s

/-! ## Caps stand through work -/

theorem work_inCaps {s t : State} (h : Work s t) (n : Int) : t.inCaps n = s.inCaps n := h.same.inCaps n

/-! ## Taking a grant (R155, R156, R158) -/

/-- What a taking of one entry leaves: the lists sound, the entry gone from the grant list and no other, every waiting entry still there,
every channel but the entry's as it was. -/
structure Taken1 (x : Channel → Prop) (c : Channel) (s t : State) : Prop where
  lists  : ListsOk x t
  grants : t.grants = s.grants.filter (fun k => k.channel != c)
  waits  : ∀ w ∈ s.waits, w ∈ t.waits
  only   : ∀ d, Waits t d → d = c ∨ Waits s d
  others : ∀ d, d ≠ c → t.chan d = s.chan d

theorem enterHolding_lists {x : Channel → Prop} {c : Channel} {s : State} (h : ListsOk (And1 x c) s) (hn : NoPower s c) :
    ListsOk x (enterHolding c s) := by
  have h₁ := h.mod (.inr rfl) (fun ch => { ch with status := .holding, holdPending := false })
  have hl := (local_raiseChannel c .holdTaken
      { stepIndex := ((s.modChan c (fun ch => { ch with status := .holding, holdPending := false })).chan c).currentStep }
      (s.modChan c (fun ch => { ch with status := .holding, holdPending := false }))).trans (local_produceSetpoint c true _)
  have h₂ := h₁.local hl
  refine h₂.close ((noPower_local hl).mpr hn) ?_
  show ¬WaitStatus ((produceSetpoint c true _).chan c).status
  rw [hl.status]
  simp [WaitStatus]

theorem enterHolding_grants (c : Channel) (s : State) : (enterHolding c s).grants = s.grants := by
  have := (local_produceSetpoint c true (raiseChannel c .holdTaken
      { stepIndex := ((s.modChan c (fun ch => { ch with status := .holding, holdPending := false })).chan c).currentStep }
      (s.modChan c (fun ch => { ch with status := .holding, holdPending := false })))).grants
  rw [grants_raiseChannel] at this
  exact this

theorem enterHolding_waits (c : Channel) (s : State) : (enterHolding c s).waits = s.waits := by
  have := (local_produceSetpoint c true (raiseChannel c .holdTaken
      { stepIndex := ((s.modChan c (fun ch => { ch with status := .holding, holdPending := false })).chan c).currentStep }
      (s.modChan c (fun ch => { ch with status := .holding, holdPending := false })))).waits
  rw [waits_raiseChannel] at this
  exact this

theorem enterHolding_others (c : Channel) (s : State) {d : Channel} (hd : d ≠ c) : (enterHolding c s).chan d = s.chan d := by
  have h := (local_raiseChannel c .holdTaken
      { stepIndex := ((s.modChan c (fun ch => { ch with status := .holding, holdPending := false })).chan c).currentStep }
      (s.modChan c (fun ch => { ch with status := .holding, holdPending := false }))).trans (local_produceSetpoint c true _)
  exact (h.others d hd).trans (State.chan_modChan_ne s _ hd)

theorem takeGrant_spec {x : Channel → Prop} {s : State} (h : ListsOk x s) {g : Grant} (hg : g ∈ s.grants) (detail : Nat) : Taken1 x g.channel s (takeGrant g detail s) := by
  have hmem : HoldsGrant s g.channel := List.mem_map_of_mem hg
  have hw : ¬Waits s g.channel := h.apart _ hmem
  have h₁ : ListsOk (And1 x g.channel) ((s.dropGrant g.channel).modChan g.channel (fun ch => { ch with skipPending := false })) :=
    ((h.leave g.channel).dropGrant g.channel).mod (.inr rfl) _
  have hn : NoPower ((s.dropGrant g.channel).modChan g.channel (fun ch => { ch with skipPending := false })) g.channel :=
    ⟨fun hh => ((holds_drop_iff s g.channel g.channel).mp hh).1 rfl, hw⟩
  have hoth : ∀ d, d ≠ g.channel →
      ((s.dropGrant g.channel).modChan g.channel (fun ch => { ch with skipPending := false })).chan d = s.chan d :=
    fun d hd => State.chan_modChan_ne _ _ hd
  generalize hs₁ : (s.dropGrant g.channel).modChan g.channel (fun ch => { ch with skipPending := false }) = s₁ at h₁ hn hoth
  have hgr : s₁.grants = s.grants.filter (fun k => k.channel != g.channel) := by rw [← hs₁]; rfl
  have hwa : s₁.waits = s.waits := by rw [← hs₁]; rfl
  unfold takeGrant
  simp only [hs₁]
  split
  · -- hold-pending: HOLDING, in neither list
    generalize (EventFields.mk (s.chan g.channel).currentStep (some (s.chan g.channel).cycleCount) (some g.watts) (some s₁.net)
      detail) = f
    have hl := local_raiseChannel g.channel .displaced f s₁
    refine { lists := enterHolding_lists (h₁.local hl) ((noPower_local hl).mpr hn), grants := ?_, waits := ?_, only := ?_,
             others := ?_ }
    · rw [enterHolding_grants, hl.grants, hgr]
    · intro w hw'; rw [enterHolding_waits, hl.waits, hwa]; exact hw'
    · intro d hd; right; simpa only [Waits, enterHolding_waits, hl.waits, hwa] using hd
    · intro d hd; rw [enterHolding_others _ _ hd, hl.others d hd, hoth d hd]
  · -- DISPLACED, in the wait list
    have h₂ : ListsOk (And1 x g.channel) ((s₁.joinWait g.channel g.watts).modChan g.channel
        (fun ch => { ch with status := .displaced })) :=
      (h₁.joinWait (.inr rfl) hn (h.grantNot0 g hg)).mod (.inr rfl) _
    generalize hs₂ : (s₁.joinWait g.channel g.watts).modChan g.channel (fun ch => { ch with status := .displaced }) = s₂ at h₂
    have hst : (s₂.chan g.channel).status = .displaced := by rw [← hs₂, State.chan_modChan_self]
    have hwt : Waits s₂ g.channel := by rw [← hs₂]; exact (waits_join_iff s₁ _ _ _).mpr (.inl rfl)
    generalize (EventFields.mk (s.chan g.channel).currentStep (some (s.chan g.channel).cycleCount) (some g.watts) (some s₁.net)
      detail) = f
    have hl := (local_raiseChannel g.channel .displaced f s₂).trans (local_produceSetpoint g.channel true _)
    refine { lists := (h₂.local hl).closeWaiting ?_ ?_, grants := ?_, waits := ?_, only := ?_, others := ?_ }
    · simpa only [Waits, hl.waits] using hwt
    · rw [hl.status, hst]; exact .inr rfl
    · rw [hl.grants, ← hs₂, ← hgr]; rfl
    · intro w hw'; rw [hl.waits, ← hs₂]
      exact mem_insertWait.mpr (.inr (by rw [hwa]; exact hw'))
    · intro d hd
      have hd' : Waits s₂ d := by simpa only [Waits, hl.waits] using hd
      rw [← hs₂] at hd'
      rcases (waits_join_iff s₁ _ _ _).mp hd' with rfl | hd'
      · exact .inl rfl
      · exact .inr (by simpa only [Waits, hwa] using hd')
    · intro d hd
      rw [hl.others d hd, ← hs₂, State.chan_modChan_ne _ _ hd, State.chan_joinWait, hoth d hd]

theorem Taken1.untouched {x : Channel → Prop} {c : Channel} {s t : State} (h : Taken1 x c s t) (hc : ¬NoPower s c) : Untouched s t :=
  fun d hd => by
    have hne : d ≠ c := fun e => hc (e ▸ hd)
    refine ⟨h.others d hne, ?_, ?_⟩
    · intro hg
      apply hd.1
      have hg' : d ∈ t.grants.map Grant.channel := hg
      rw [h.grants] at hg'
      exact (List.filter_sublist.map Grant.channel).subset hg'
    · intro hw
      exact (h.only d hw).elim hne hd.2

/-- A taking moves the net by the entry's watts (R155, R158). -/
theorem takeGrant_net {x : Channel → Prop} {s : State} (h : ListsOk x s) {g : Grant} (hg : g ∈ s.grants) (detail : Nat) :
    (takeGrant g detail s).net = s.net - g.watts := by
  rw [net_eq, (takeGrant_spec h hg detail).grants, sum_without h.grantOnce hg, net_eq]

/-! ## Granting (R160) -/

/-- What granting a waiting entry leaves. -/
theorem grantEntry_spec {x : Channel → Prop} {s : State} (h : ListsOk x s) {w : WaitEntry} (hw : w ∈ s.waits)
    (silent : Option Channel) :
    ListsOk x (grantEntry silent w s) ∧
      (grantEntry silent w s).grants = s.grants ++ [{ channel := w.channel, watts := w.request }] ∧
      (grantEntry silent w s).waits = s.waits.filter (fun k => k.channel != w.channel) ∧
      (∀ d, d ≠ w.channel → (grantEntry silent w s).chan d = s.chan d) ∧
      ((grantEntry silent w s).chan w.channel).status = .running := by
  have hmem : Waits s w.channel := List.mem_map_of_mem hw
  have hng : ¬HoldsGrant s w.channel := fun hg => h.apart _ hg hmem
  have hn : NoPower (s.dropWait w.channel) w.channel := ⟨hng, fun hh => ((waits_drop_iff s _ _).mp hh).1 rfl⟩
  have h₁ : ListsOk (And1 x w.channel) (({ s.dropWait w.channel with
      grants := s.grants ++ [({ channel := w.channel, watts := w.request } : Grant)] } : State).modChan w.channel
        (fun ch => { ch with status := .running })) :=
    (((h.leave w.channel).dropWait (.inr rfl)).joinGrant (.inr rfl) hn (h.waitNot0 w hw)).mod (.inr rfl) _
  generalize hs₁ : (({ s.dropWait w.channel with
      grants := s.grants ++ [({ channel := w.channel, watts := w.request } : Grant)] } : State).modChan w.channel
        (fun ch => { ch with status := .running })) = s₁ at h₁
  have hst : (s₁.chan w.channel).status = .running := by rw [← hs₁, State.chan_modChan_self]
  have hnw : ¬Waits s₁ w.channel := by rw [← hs₁]; exact hn.2
  have h₂ : ListsOk x s₁ := h₁.closeRunning hnw hst
  have hgr : s₁.grants = s.grants ++ [{ channel := w.channel, watts := w.request }] := by rw [← hs₁]; rfl
  have hwa : s₁.waits = s.waits.filter (fun k => k.channel != w.channel) := by rw [← hs₁]; rfl
  have hoth : ∀ d, d ≠ w.channel → s₁.chan d = s.chan d := fun d hd => by
    rw [← hs₁, State.chan_modChan_ne _ _ hd]; rfl
  unfold grantEntry
  simp only [hs₁]
  generalize (EventFields.mk (s₁.chan w.channel).currentStep (some (s₁.chan w.channel).cycleCount) (some w.request) (some s₁.net)
      0) = f
  have hr := local_raiseChannel w.channel .granted f s₁
  split
  · exact ⟨h₂.local hr, hr.grants.trans hgr, hr.waits.trans hwa, fun d hd => (hr.others d hd).trans (hoth d hd),
      hr.status.trans hst⟩
  · have hl := hr.trans (local_produceSetpoint w.channel false _)
    exact ⟨h₂.local hl, hl.grants.trans hgr, hl.waits.trans hwa, fun d hd => (hl.others d hd).trans (hoth d hd),
      hl.status.trans hst⟩

/-- The net after a grant (R157). -/
theorem grantEntry_net {x : Channel → Prop} {s : State} (h : ListsOk x s) {w : WaitEntry} (hw : w ∈ s.waits)
    (silent : Option Channel) : (grantEntry silent w s).net = s.net + w.request := by
  rw [net_eq, (grantEntry_spec h hw silent).2.1, net_eq]; simp

theorem grantEntry_untouched {x : Channel → Prop} {s : State} (h : ListsOk x s) {w : WaitEntry} (hw : w ∈ s.waits)
    (silent : Option Channel) : Untouched s (grantEntry silent w s) := fun d hd => by
  obtain ⟨_, hg, hwt, hoth, _⟩ := grantEntry_spec h hw silent
  have hne : d ≠ w.channel := fun e => hd.2 (e ▸ List.mem_map_of_mem hw)
  refine ⟨hoth d hne, ?_, ?_⟩
  · intro hh
    have hh' : d ∈ (grantEntry silent w s).grants.map Grant.channel := hh
    rw [hg] at hh'
    simp only [List.map_append, List.mem_append, List.map_cons, List.map_nil, List.mem_singleton] at hh'
    exact hh'.elim hd.1 hne
  · intro hh
    have hh' : d ∈ (grantEntry silent w s).waits.map WaitEntry.channel := hh
    rw [hwt] at hh'
    exact hd.2 ((List.filter_sublist.map WaitEntry.channel).subset hh')

/-! ## Taking several grants (R158) -/

/-- The candidates of a taking are entries of the grant list, each channel once (R155, R158). -/
theorem takeOrder_mem {s : State} {e : Grant → Bool} {g : Grant} (h : g ∈ takeOrder s e) : g ∈ s.grants ∧ e g = true := by
  simp only [takeOrder, List.mem_flatMap, List.mem_reverse, List.mem_filter, Bool.and_eq_true] at h
  obtain ⟨_, _, hg, he, _⟩ := h
  exact ⟨hg, he⟩

theorem mem_takeOrder {s : State} {e : Grant → Bool} {g : Grant} (hg : g ∈ s.grants) (he : e g = true) : g ∈ takeOrder s e := by
  simp only [takeOrder, List.mem_flatMap, List.mem_reverse, List.mem_filter, Bool.and_eq_true, beq_iff_eq]
  exact ⟨s.priorityOf g.channel, List.mem_finRange _, hg, he, rfl⟩

theorem takeOrder_nodup {s : State} (h : (s.grants.map Grant.channel).Nodup) (e : Grant → Bool) :
    ((takeOrder s e).map Grant.channel).Nodup := by
  have hg : s.grants.Nodup := h.of_map
  have hn : (takeOrder s e).Nodup := by
    unfold takeOrder
    rw [List.nodup_flatMap]
    refine ⟨fun p _ => List.nodup_reverse.mpr (hg.filter _), ?_⟩
    refine (List.nodup_finRange 4).imp ?_
    intro p q hpq a ha hb
    simp only [List.mem_reverse, List.mem_filter, Bool.and_eq_true, beq_iff_eq] at ha hb
    exact hpq (ha.2.2.symm.trans hb.2.2)
  refine hn.map_on ?_
  intro a ha b hb hab
  exact List.inj_on_of_nodup_map h (takeOrder_mem ha).1 (takeOrder_mem hb).1 hab

/-- What a row of takings leaves. -/
theorem takeAll_spec {x : Channel → Prop} (detail : Nat) (gs : List Grant) {s : State} (h : ListsOk x s)
    (hin : ∀ g ∈ gs, g ∈ s.grants) (hn : (gs.map Grant.channel).Nodup) :
    ListsOk x (gs.foldl (fun s g => takeGrant g detail s) s) ∧
      (gs.foldl (fun s g => takeGrant g detail s) s).net = s.net - (gs.map Grant.watts).sum ∧
      Untouched s (gs.foldl (fun s g => takeGrant g detail s) s) ∧
      ∀ w ∈ s.waits, w ∈ (gs.foldl (fun s g => takeGrant g detail s) s).waits := by
  induction gs generalizing s with
  | nil => exact ⟨h, by simp, .refl s, fun _ hw => hw⟩
  | cons g rest ih =>
    have hg := hin g (by simp)
    have ht := takeGrant_spec h hg detail
    have hc := List.nodup_cons.mp (by simpa using hn : (g.channel :: rest.map Grant.channel).Nodup)
    have hrest : ∀ k ∈ rest, k ∈ (takeGrant g detail s).grants := fun k hk => by
      rw [ht.grants, List.mem_filter]
      refine ⟨hin k (by simp [hk]), ?_⟩
      have : k.channel ≠ g.channel := fun e => hc.1 (e ▸ List.mem_map_of_mem hk)
      simp [this]
    obtain ⟨hl, hnet, hu, hw⟩ := ih ht.lists hrest hc.2
    refine ⟨hl, ?_, (ht.untouched ?_).trans hu, fun w hw' => hw w (ht.waits w hw')⟩
    · rw [List.foldl_cons, hnet, takeGrant_net h hg detail]; simp; omega
    · exact fun hno => hno.1 (List.mem_map_of_mem hg)

/-- The shortest prefix of the candidates that makes room (R158). -/
theorem shortestTake_spec {s : State} {request : Int} {acc cands taken : List Grant}
    (h : shortestTake s request acc cands = some taken) :
    ∃ pre, pre <+: cands ∧ taken = acc ++ pre ∧ s.inCaps (s.net - (taken.map Grant.watts).sum + request) = true := by
  induction cands generalizing acc with
  | nil => simp [shortestTake] at h
  | cons g rest ih =>
    simp only [shortestTake] at h
    split at h
    · next hc =>
      cases h
      exact ⟨[g], ⟨rest, rfl⟩, rfl, hc⟩
    · obtain ⟨pre, hp, rfl, hc⟩ := ih h
      exact ⟨g :: pre, (List.prefix_cons_inj g).mpr hp, by simp, hc⟩

/-! ## The scan (R157 to R159) -/

/-- What one entry of a scan's walk, and so the walk and the scans, leaves: sound lists, the net within the caps, channels without an entry
untouched. -/
structure Scanned (x : Channel → Prop) (s t : State) : Prop where
  lists     : ListsOk x t
  caps      : t.inCaps t.net = true
  untouched : Untouched s t

theorem Scanned.refl {x : Channel → Prop} {s : State} (h : ListsOk x s) (hc : s.inCaps s.net = true) : Scanned x s s :=
  ⟨h, hc, .refl s⟩

theorem Scanned.trans {x : Channel → Prop} {s t u : State} (h₁ : Scanned x s t) (h₂ : Scanned x t u) : Scanned x s u :=
  ⟨h₂.lists, h₂.caps, h₁.untouched.trans h₂.untouched⟩

theorem scanEntry_spec {x : Channel → Prop} {s : State} (h : ListsOk x s) (hc : s.inCaps s.net = true) {w : WaitEntry}
    (hw : w ∈ s.waits) (silent : Option Channel) (memo : ScanMemo) :
    Scanned x s (scanEntry silent w memo s).2 ∧
      ∀ k ∈ s.waits, k.channel ≠ w.channel → k ∈ (scanEntry silent w memo s).2.waits := by
  have hgrant : ∀ t : State, ListsOk x t → (∀ n, t.inCaps n = s.inCaps n) → w ∈ t.waits → s.inCaps (t.net + w.request) = true →
      Scanned x t (grantEntry silent w t) ∧ ∀ k ∈ t.waits, k.channel ≠ w.channel → k ∈ (grantEntry silent w t).waits := by
    intro t ht hcaps hwt hfit
    obtain ⟨hl, _, hwa, _, _⟩ := grantEntry_spec ht hwt silent
    refine ⟨⟨hl, ?_, grantEntry_untouched ht hwt silent⟩, fun k hk hne => ?_⟩
    · rw [work_inCaps (work_grantEntry silent w t), grantEntry_net ht hwt silent, hcaps]; exact hfit
    · rw [hwa, List.mem_filter]; exact ⟨hk, by simp [hne]⟩
  unfold scanEntry
  split
  · exact ⟨.refl h hc, fun k hk _ => hk⟩
  · split
    · exact ⟨.refl h hc, fun k hk _ => hk⟩
    · split
      · next hfit => exact hgrant s h (fun _ => rfl) hw hfit
      · split
        · next taken htake =>
          obtain ⟨pre, hpre, heq, hfit⟩ := shortestTake_spec htake
          rw [List.nil_append] at heq
          subst heq
          have hsub : ∀ g ∈ taken, g ∈ s.grants := fun g hg => (takeOrder_mem (hpre.subset hg)).1
          have hnd : (taken.map Grant.channel).Nodup :=
            (takeOrder_nodup h.grantOnce _).sublist ((hpre.sublist).map _)
          obtain ⟨hl, hnet, hu, hws⟩ := takeAll_spec w.channel.val taken h hsub hnd
          have hcaps := fun n => work_inCaps (work_takeAll w.channel.val taken s) n
          obtain ⟨hs, hk⟩ := hgrant _ hl hcaps (hws w hw) (by rw [hnet]; exact hfit)
          exact ⟨⟨hs.lists, hs.caps, hu.trans hs.untouched⟩, fun k hk' hne => hk k (hws k hk') hne⟩
        · exact ⟨.refl h hc, fun k hk _ => hk⟩

theorem scanWalk_spec {x : Channel → Prop} (silent : Option Channel) (ws : List WaitEntry) (memo : ScanMemo) {s : State}
    (h : ListsOk x s) (hc : s.inCaps s.net = true) (hin : ∀ w ∈ ws, w ∈ s.waits) (hn : (ws.map WaitEntry.channel).Nodup) :
    Scanned x s (scanWalk silent ws memo s).2 := by
  induction ws generalizing memo s with
  | nil => exact .refl h hc
  | cons w rest ih =>
    have hc' := List.nodup_cons.mp (by simpa using hn : (w.channel :: rest.map WaitEntry.channel).Nodup)
    obtain ⟨hs, hk⟩ := scanEntry_spec h hc (hin w (by simp)) silent memo
    refine hs.trans (ih _ hs.lists hs.caps (fun k hk' => hk k (hin k (by simp [hk'])) ?_) hc'.2)
    exact fun e => hc'.1 (e ▸ List.mem_map_of_mem hk')

theorem scanAtMost_spec {x : Channel → Prop} (silent : Option Channel) (fuel : Nat) {s : State} (h : ListsOk x s)
    (hc : s.inCaps s.net = true) : Scanned x s (scanAtMost silent fuel s) := by
  induction fuel generalizing s with
  | zero => exact .refl h hc
  | succ n ih =>
    have hw := scanWalk_spec silent s.waits { displaced := [], failed := [], granted := false } h hc (fun _ hw => hw) h.waitOnce
    unfold scanAtMost
    simp only
    split
    · exact hw.trans (ih hw.lists hw.caps)
    · exact hw

/-- The scans that end an action keep the net within the caps and the lists sound (R145, R159). -/
theorem scan_spec {x : Channel → Prop} (silent : Option Channel) {s : State} (h : ListsOk x s) (hc : s.inCaps s.net = true) :
    Scanned x s (scan silent s) := scanAtMost_spec silent _ h hc

/-! ## Shedding (R155) -/

theorem exists_positive {gs : List Grant} (h : 0 < (gs.map Grant.watts).sum) : ∃ g ∈ gs, 0 < g.watts := by
  by_contra hne
  push Not at hne
  have : ∀ (l : List Grant), (∀ g ∈ l, g.watts ≤ 0) → (l.map Grant.watts).sum ≤ 0 := by
    intro l
    induction l with
    | nil => simp
    | cons g rest ih =>
      intro hl
      have h₁ := hl g (by simp)
      have h₂ := ih (fun k hk => hl k (by simp [hk]))
      simp; omega
  have := this gs hne
  omega

theorem exists_negative {gs : List Grant} (h : (gs.map Grant.watts).sum < 0) : ∃ g ∈ gs, g.watts < 0 := by
  by_contra hne
  push Not at hne
  have : ∀ (l : List Grant), (∀ g ∈ l, 0 ≤ g.watts) → 0 ≤ (l.map Grant.watts).sum := by
    intro l
    induction l with
    | nil => simp
    | cons g rest ih =>
      intro hl
      have h₁ := hl g (by simp)
      have h₂ := ih (fun k hk => hl k (by simp [hk]))
      simp; omega
  have := this gs hne
  omega

/-- While the net lies outside the caps some grant of the side that is over can be taken (R155). -/
theorem shed_candidate {s : State} (h : ¬s.inCaps s.net = true) :
    takeOrder s (fun g => if (s.importCap : Int) < s.net then decide (0 < g.watts) else decide (g.watts < 0)) ≠ [] := by
  rw [inCaps_iff] at h
  by_cases hm : (s.importCap : Int) < s.net
  · obtain ⟨g, hg, hp⟩ := exists_positive (gs := s.grants) (by rw [net_eq] at hm; omega)
    exact List.ne_nil_of_mem (mem_takeOrder hg (by simp [hm, hp]))
  · obtain ⟨g, hg, hp⟩ := exists_negative (gs := s.grants) (by rw [net_eq] at hm h; omega)
    exact List.ne_nil_of_mem (mem_takeOrder hg (by simp [hm, hp]))

theorem shedAtMost_spec {x : Channel → Prop} (fuel : Nat) {s : State} (h : ListsOk x s) (hf : s.grants.length ≤ fuel) :
    Scanned x s (shedAtMost fuel s) := by
  induction fuel generalizing s with
  | zero =>
    have h0 : s.grants = [] := List.eq_nil_of_length_eq_zero (by omega)
    refine .refl h ?_
    rw [inCaps_iff, net_eq, h0]; simp
  | succ n ih =>
    unfold shedAtMost
    split
    · next hc => exact .refl h hc
    · next hc =>
      split
      · next hnil => exact absurd hnil (shed_candidate hc)
      · next g rest hcons =>
        have hg : g ∈ s.grants := (takeOrder_mem (e := fun g => if (s.importCap : Int) < s.net then decide (0 < g.watts)
          else decide (g.watts < 0)) (hcons ▸ List.mem_cons_self)).1
        have ht := takeGrant_spec h hg 8
        have hlt : (takeGrant g 8 s).grants.length ≤ n := by
          rw [ht.grants]
          have : (s.grants.filter (fun k => k.channel != g.channel)).length < s.grants.length := by
            refine List.length_filter_lt_length_iff_exists.mpr ⟨g, hg, by simp⟩
          omega
        have hr := ih ht.lists hlt
        exact ⟨hr.lists, hr.caps, (ht.untouched (fun hno => hno.1 (List.mem_map_of_mem hg))).trans hr.untouched⟩

/-- Shedding brings the net within the caps (R155). -/
theorem shed_spec {x : Channel → Prop} {s : State} (h : ListsOk x s) : Scanned x s (shed s) := shedAtMost_spec _ h (le_refl _)

/-! ## The actions (R149 to R154) -/

/-- Every channel but one that has no entry is untouched. -/
def UntouchedBut (c : Channel) (s t : State) : Prop := ∀ d, d ≠ c → NoPower s d → t.chan d = s.chan d ∧ NoPower t d

theorem Untouched.but {s t : State} (h : Untouched s t) (c : Channel) : UntouchedBut c s t := fun d _ => h d

theorem UntouchedBut.refl (c : Channel) (s : State) : UntouchedBut c s s := fun _ _ h => ⟨rfl, h⟩

theorem UntouchedBut.trans {c : Channel} {s t u : State} (h₁ : UntouchedBut c s t) (h₂ : UntouchedBut c t u) :
    UntouchedBut c s u := fun d hd h => ⟨(h₂ d hd (h₁ d hd h).2).1.trans (h₁ d hd h).1, (h₂ d hd (h₁ d hd h).2).2⟩

theorem untouchedBut_local {c : Channel} {s t : State} (h : LocalWork c s t) : UntouchedBut c s t :=
  fun d hd hn => ⟨h.others d hd, (noPower_local h).mpr hn⟩

theorem untouchedBut_mod (s : State) (c : Channel) (f : ChannelState → ChannelState) : UntouchedBut c s (s.modChan c f) :=
  fun _ hd hn => ⟨State.chan_modChan_ne s f hd, hn⟩

theorem untouchedBut_dropGrant (s : State) (c : Channel) : UntouchedBut c s (s.dropGrant c) :=
  fun d _ hn => ⟨rfl, fun hg => hn.1 ((holds_drop_iff s c d).mp hg).2, hn.2⟩

theorem untouchedBut_dropWait (s : State) (c : Channel) : UntouchedBut c s (s.dropWait c) :=
  fun d _ hn => ⟨rfl, hn.1, fun hw => hn.2 ((waits_drop_iff s c d).mp hw).2⟩

theorem untouchedBut_joinWait (s : State) (c : Channel) (r : Int) : UntouchedBut c s (s.joinWait c r) :=
  fun d hd hn => ⟨rfl, hn.1, fun hw => ((waits_join_iff s c d r).mp hw).elim hd hn.2⟩

/-- What an action at a channel leaves: sound lists, the net within the caps, every other channel without an entry untouched. -/
structure Acted (x : Channel → Prop) (c : Channel) (s t : State) : Prop where
  lists : ListsOk x t
  caps  : t.inCaps t.net = true
  but   : UntouchedBut c s t

/-- A request action (R150). -/
theorem requestAction_spec {x : Channel → Prop} {s : State} {c : Channel} (h : ListsOk (And1 x c) s) (hn : NoPower s c)
    (hc : s.inCaps s.net = true) {r : Int} (hr : r ≠ 0) (silent : Option Channel) :
    Acted x c s (requestAction c r silent s) := by
  have h₁ := (h.joinWait (.inr rfl) hn hr).mod (.inr rfl) (fun ch => { ch with status := .waitBudget })
  have h₂ := h₁.closeWaiting (c := c) ((waits_join_iff s c c r).mpr (.inl rfl)) (by simp [WaitStatus])
  have hs := scan_spec silent h₂ hc
  exact ⟨hs.lists, hs.caps, ((untouchedBut_joinWait s c r).trans (untouchedBut_mod _ c _)).trans (hs.untouched.but c)⟩

theorem grantOf_ne_zero {s : State} {c : Channel} (h : s.grantOf c ≠ 0) : HoldsGrant s c := by
  unfold State.grantOf at h
  split at h
  · next g hg =>
    have := List.find?_some hg
    simp only [beq_iff_eq] at this
    exact this ▸ List.mem_map_of_mem (List.mem_of_find?_eq_some hg)
  · exact absurd rfl h

theorem grantOf_eq_zero {s : State} {c : Channel} (hn : ∀ g ∈ s.grants, g.watts ≠ 0) (h : s.grantOf c = 0) : ¬HoldsGrant s c := by
  intro hh
  obtain ⟨g, hmem, rfl⟩ := List.mem_map.mp hh
  unfold State.grantOf at h
  split at h
  · next k hk => exact hn k (List.mem_of_find?_eq_some hk) h
  · next hnone => simpa using List.find?_eq_none.mp hnone g hmem

theorem waiting_iff {s : State} {c : Channel} : s.waiting c = true ↔ Waits s c := by
  simp [State.waiting, Waits]

/-- A release or a removal (R153, R154): the channel is in neither list, and its own state has not been touched. -/
theorem settlePower_spec {x : Channel → Prop} {s : State} {c : Channel} (h : ListsOk (And1 x c) s) (hc : s.inCaps s.net = true) :
    Acted (And1 x c) c s (settlePower c s) ∧ NoPower (settlePower c s) c ∧ (settlePower c s).chan c = s.chan c := by
  have finish : ∀ t u : State, UntouchedBut c s t → t.chan c = s.chan c → NoPower t c → Scanned (And1 x c) t u →
      Acted (And1 x c) c s u ∧ NoPower u c ∧ u.chan c = s.chan c := fun t u hb hch hn hs =>
    ⟨⟨hs.lists, hs.caps, hb.trans (hs.untouched.but c)⟩, (hs.untouched c hn).2, (hs.untouched c hn).1.trans hch⟩
  unfold settlePower
  split
  · next hg =>
    have hhold := grantOf_ne_zero hg
    have hs := shed_spec (h.dropGrant c)
    exact finish _ _ (untouchedBut_dropGrant s c) rfl
      ⟨fun hh => ((holds_drop_iff s c c).mp hh).1 rfl, h.apart c hhold⟩ (hs.trans (scan_spec none hs.lists hs.caps))
  · next hg =>
    have hno := grantOf_eq_zero h.grantNot0 (Decidable.not_not.mp hg)
    split
    · exact finish _ _ (untouchedBut_dropWait s c) rfl ⟨hno, fun hh => ((waits_drop_iff s c c).mp hh).1 rfl⟩
        (scan_spec none (h.dropWait (.inr rfl)) hc)
    · next hw =>
      exact ⟨⟨h, hc, .refl c s⟩, ⟨hno, fun hh => hw (waiting_iff.mpr hh)⟩, rfl⟩

/-- The sum after one channel's watts are replaced (R151). -/
theorem sum_replaced {gs : List Grant} (hn : (gs.map Grant.channel).Nodup) {g : Grant} (hg : g ∈ gs) (new : Int) :
    ((gs.map (fun k => if k.channel = g.channel then { k with watts := new } else k)).map Grant.watts).sum =
      (gs.map Grant.watts).sum - g.watts + new := by
  induction gs with
  | nil => simp at hg
  | cons k rest ih =>
    have hk := List.nodup_cons.mp (by simpa using hn : (k.channel :: rest.map Grant.channel).Nodup)
    rcases List.mem_cons.mp hg with rfl | hg
    · have hrest : rest.map (fun k => if k.channel = g.channel then ({ k with watts := new } : Grant) else k) = rest := by
        refine (List.map_congr_left (g := id) ?_).trans (List.map_id _)
        intro a ha
        have : a.channel ≠ g.channel := fun e => hk.1 (e ▸ List.mem_map_of_mem ha)
        simp [this]
      rw [List.map_cons, hrest]; simp; omega
    · have hne : k.channel ≠ g.channel := fun e => hk.1 (e ▸ List.mem_map_of_mem hg)
      have := ih hk.2 hg
      rw [List.map_cons, if_neg hne, List.map_cons, List.sum_cons, this]; simp; omega

theorem grantOf_entry {s : State} {c : Channel} (h : HoldsGrant s c) :
    ∃ g ∈ s.grants, g.channel = c ∧ s.grantOf c = g.watts := by
  unfold State.grantOf
  split
  · next g hg =>
    have := List.find?_some hg
    simp only [beq_iff_eq] at this
    exact ⟨g, List.mem_of_find?_eq_some hg, this, rfl⟩
  · next hnone =>
    obtain ⟨g, hmem, rfl⟩ := List.mem_map.mp h
    exact absurd (List.find?_eq_none.mp hnone g hmem) (by simp)

/-- An in-place regrant (R151): the lists stay sound and the net moves from the old grant to the new. -/
theorem regrantInPlace_spec {x : Channel → Prop} {s : State} {c : Channel} (h : ListsOk (And1 x c) s) (hw : ¬Waits s c)
    (new : Int) :
    ListsOk (And1 x c) { s with grants := regrantInPlace c (s.grantOf c) new s.grants } ∧
      ({ s with grants := regrantInPlace c (s.grantOf c) new s.grants } : State).net = s.net - s.grantOf c + new ∧
      UntouchedBut c s { s with grants := regrantInPlace c (s.grantOf c) new s.grants } := by
  by_cases hold : s.grantOf c = 0
  · have hng := grantOf_eq_zero h.grantNot0 hold
    by_cases hnew : new = 0
    · simp only [regrantInPlace, hold, hnew, if_true]
      exact ⟨h, by rw [net_eq]; omega, .refl c s⟩
    · simp only [regrantInPlace, hold, hnew, if_true, if_false]
      refine ⟨h.joinGrant (.inr rfl) ⟨hng, hw⟩ hnew, by rw [net_eq]; simp [net_eq], ?_⟩
      intro d hd hn
      refine ⟨rfl, ?_, hn.2⟩
      intro hh
      simp only [HoldsGrant, List.map_append, List.mem_append, List.map_cons, List.map_nil, List.mem_singleton] at hh
      exact hh.elim hn.1 hd
  · obtain ⟨g, hg, rfl, hgw⟩ := grantOf_entry (grantOf_ne_zero hold)
    by_cases hnew : new = 0
    · simp only [regrantInPlace, hold, hnew, if_true, if_false]
      refine ⟨h.dropGrant g.channel, ?_, untouchedBut_dropGrant s g.channel⟩
      rw [net_eq]
      show ((s.grants.filter (fun k => k.channel != g.channel)).map Grant.watts).sum = _
      rw [sum_without h.grantOnce hg, hgw, net_eq]; omega
    · simp only [regrantInPlace, hold, hnew, if_false]
      have hch : (s.grants.map (fun k => if k.channel = g.channel then ({ k with watts := new } : Grant) else k)).map
          Grant.channel = s.grants.map Grant.channel := by
        rw [List.map_map]
        refine List.map_congr_left (fun k _ => ?_)
        simp only [Function.comp]; split <;> rfl
      refine ⟨{ h with grantOnce := ?_, grantNot0 := ?_, apart := ?_, granted := ?_ }, ?_, ?_⟩
      · show (List.map Grant.channel _).Nodup; rw [hch]; exact h.grantOnce
      · intro k hk
        obtain ⟨k', hk', rfl⟩ := List.mem_map.mp hk
        split
        · exact hnew
        · exact h.grantNot0 k' hk'
      · intro d hd
        exact h.apart d (by simpa only [HoldsGrant, hch] using hd)
      · intro d hx hd
        exact h.granted d hx (by simpa only [HoldsGrant, hch] using hd)
      · rw [net_eq, hgw]; exact sum_replaced h.grantOnce hg new
      · intro d _ hn
        exact ⟨rfl, by simpa only [HoldsGrant, hch] using hn.1, hn.2⟩

/-- A regrant action (R151, R152), begun by a RUNNING channel that does not wait. -/
theorem regrantAction_spec {x : Channel → Prop} {s : State} {c : Channel} (h : ListsOk (And1 x c) s) (hw : ¬Waits s c)
    (hst : (s.chan c).status = .running) (new : Int) : Acted x c s (regrantAction c new s) := by
  unfold regrantAction
  simp only
  split
  · next hfit =>
    obtain ⟨hl, hnet, hu⟩ := regrantInPlace_spec h hw new
    have hl' : ListsOk x { s with grants := regrantInPlace c (s.grantOf c) new s.grants } := hl.closeRunning hw hst
    have hcap : ({ s with grants := regrantInPlace c (s.grantOf c) new s.grants } : State).inCaps
        ({ s with grants := regrantInPlace c (s.grantOf c) new s.grants } : State).net = true := by rw [hnet]; exact hfit
    split
    · have hs := scan_spec (some c) hl' hcap
      exact ⟨hs.lists, hs.caps, hu.trans (hs.untouched.but c)⟩
    · exact ⟨hl', hcap, hu⟩
  · have hs := shed_spec (h.dropGrant c)
    have hn : NoPower (s.dropGrant c) c := ⟨fun hh => ((holds_drop_iff s c c).mp hh).1 rfl, hw⟩
    obtain ⟨hch, hn'⟩ := hs.untouched c hn
    have hu := (untouchedBut_dropGrant s c).trans (hs.untouched.but c)
    split
    · have hl' := hs.lists.closeRunning hn'.2 (by rw [hch]; exact hst)
      have hs' := scan_spec (some c) hl' hs.caps
      exact ⟨hs'.lists, hs'.caps, hu.trans (hs'.untouched.but c)⟩
    · next hnew =>
      have ha := requestAction_spec (silent := some c) hs.lists hn' hs.caps hnew
      exact ⟨ha.lists, ha.caps, hu.trans ha.but⟩

/-- A cap change (R146). -/
theorem capChange_spec {x : Channel → Prop} {s : State} (h : ListsOk x s) (importCap exportCap : Nat) :
    Scanned x s (capChange importCap exportCap s).1 := by
  have h₁ : ListsOk x { s with importCap := importCap, exportCap := exportCap } := h.same rfl rfl (fun _ _ => rfl)
  have hs := shed_spec h₁
  have hs' := scan_spec none hs.lists hs.caps
  exact ⟨hs'.lists, hs'.caps, hs.untouched.trans hs'.untouched⟩

end Sys2Proof.Laws
end

