-- ==== Sys2Proof/Laws/Trips.lean ====
section
/-! SUPPORT. Events at one channel: what they keep, and that a step's end, trip handling, a hold, the timers' expiries, link loss and the
hall stop are such events (R95, R97, R98, R134 to R140). -/

namespace Sys2Proof.Laws

open Sys2Proof.Machine Sys2Proof.Safety

/-! ## Events at one channel -/

/-- The arbiter's lists agree with the channel states and the net lies within the caps. -/
structure Good (s : State) : Prop where
  lists : ListsOk NoneOut s
  caps  : s.inCaps s.net = true

theorem good_of_powerOk {s : State} (h : PowerOk s) : Good s := ⟨powerOk_lists h, h.caps⟩

theorem powerOk_of_good {s : State} (h : Good s) (hw : ∀ w ∈ s.walk, (s.chan w.channel).status = .idle) : PowerOk s :=
  { h.lists with
    caps := h.caps, walk := hw
    granted := fun c => h.lists.granted c not_false
    waiting := fun c => h.lists.waiting c not_false }

/-- An event at a channel: work that keeps the lists sound and the net within the caps, and that touches no other channel without an
entry in the lists. -/
structure AtChannel (c : Channel) (s t : State) : Prop where
  work : Work s t
  good : Good s → Good t
  but  : Good s → UntouchedBut c s t

theorem AtChannel.refl (c : Channel) (s : State) : AtChannel c s s := ⟨.refl s, id, fun _ => .refl c s⟩

theorem AtChannel.trans {c : Channel} {s t u : State} (h₁ : AtChannel c s t) (h₂ : AtChannel c t u) : AtChannel c s u :=
  ⟨h₁.work.trans h₂.work, h₂.good ∘ h₁.good, fun hs => (h₁.but hs).trans (h₂.but (h₁.good hs))⟩

theorem good_local {c : Channel} {s t : State} (hl : LocalWork c s t) (h : Good s) : Good t :=
  ⟨h.lists.local hl, by rw [hl.same.inCaps, net_of_grants hl.grants]; exact h.caps⟩

theorem atChannel_local {c : Channel} {s t : State} (h : LocalWork c s t) : AtChannel c s t :=
  ⟨h.toWork, good_local h, fun _ => untouchedBut_local h⟩

/-- The channel of an event, once the arbiter's work on it is done, changes its state to one in which it neither runs nor waits. -/
theorem atChannel_settled {c : Channel} {s t u : State} (h₁ : Work s t) (h₂ : Good s → Acted (And1 NoneOut c) c s t ∧ NoPower t c)
    (f : ChannelState → ChannelState) (hu : LocalWork c (t.modChan c f) u) (hw : Work t (t.modChan c f))
    (hst : ¬WaitStatus (f (t.chan c)).status) : AtChannel c s u := by
  refine ⟨(h₁.trans hw).trans hu.toWork, fun hs => ?_, fun hs => ?_⟩
  · obtain ⟨ha, hn⟩ := h₂ hs
    have hl : ListsOk NoneOut (t.modChan c f) :=
      (ha.lists.mod (.inr rfl) f).close hn (by rw [State.chan_modChan_self]; exact hst)
    exact good_local hu ⟨hl, ha.caps⟩
  · exact ((h₂ hs).1.but.trans (untouchedBut_mod t c f)).trans (untouchedBut_local hu)

/-! ## Step end (R98) -/

theorem local_currentStep (s : State) (c : Channel) (i : Option Nat) :
    LocalWork c s (s.modChan c (fun ch => { ch with currentStep := i })) :=
  local_modChan s c _ rfl ⟨rfl, rfl⟩ rfl (fun _ h => { h with })

theorem local_endStep (c : Channel) (detail : Nat) (s : State) : LocalWork c s (endStep c detail s) := by
  unfold endStep
  simp only
  split
  · exact .refl c s
  · exact ((local_foldStep _ _ _ _ _ _).trans (local_raiseChannel _ _ _ _)).trans (local_currentStep _ _ _)

/-! ## Trips (R139, R140) -/

theorem channelOk_enterTripped {ch : ChannelState} (h : ChannelOk ch) : ChannelOk (enterTripped ch) :=
  { h with counts := ⟨Nat.zero_le _, Nat.zero_le _⟩ }

/-- A release or removal of the channel itself, whatever its state (R153, R154). -/
theorem settlePower_acted {c : Channel} {s : State} (h : Good s) :
    Acted (And1 NoneOut c) c s (settlePower c s) ∧ NoPower (settlePower c s) c := by
  obtain ⟨ha, hn, _⟩ := settlePower_spec (h.lists.leave c) h.caps
  exact ⟨ha, hn⟩

theorem local_tripRecord (s : State) (c : Channel) (r : Option TripRecord) :
    LocalWork c s (s.modChan c (fun ch => { ch with tripRecord := r })) :=
  local_modChan s c _ rfl ⟨rfl, rfl⟩ rfl (fun _ h => { h with })

theorem work_enterTripped (s : State) (c : Channel) : Work s (s.modChan c enterTripped) :=
  work_modChan s c _ rfl ⟨rfl, rfl⟩ (fun _ h => channelOk_enterTripped h)

/-- The steps of trip handling after the step's end. -/
theorem atChannel_tripTail (c : Channel) (cause : Cause) (r : State → Option TripRecord) (f : EventFields) (s : State) :
    AtChannel c s (raiseChannel c cause f
      ((produceSetpoint c true ((settlePower c s).modChan c enterTripped)).modChan c
        (fun ch => { ch with tripRecord := r (produceSetpoint c true ((settlePower c s).modChan c enterTripped)) }))) :=
  atChannel_settled (work_settlePower c s) settlePower_acted enterTripped
    (((local_produceSetpoint c true _).trans (local_tripRecord _ c _)).trans (local_raiseChannel c cause f _))
    (work_enterTripped _ c) (by simp [enterTripped, WaitStatus])

theorem atChannel_trip (c : Channel) (t : Trip) (s : State) : AtChannel c s (trip c t s) := by
  unfold trip
  simp only
  split
  · exact .refl c s
  · exact (atChannel_local (local_endStep c detailTripped s)).trans (atChannel_tripTail c t.cause
      (fun u => some { cause := t.cause, detail := t.detail, value := t.value, threshold := t.threshold, stepIndex := t.stepIndex,
                       cycleNumber := (s.chan c).cycleCount, timeMs := u.msTime, stateAtTrip := (s.chan c).status }) _ _)

/-- A trip leaves its channel IDLE or TRIPPED (R139, R140). -/
theorem trip_status (c : Channel) (t : Trip) (s : State) :
    ((trip c t s).chan c).status = if (s.chan c).atRest then (s.chan c).status else .tripped := by
  unfold trip
  simp only
  split
  · rfl
  · rw [chan_raiseChannel, if_pos rfl, State.chan_modChan_self]
    show ((produceSetpoint c true _).chan c).status = _
    rw [(local_produceSetpoint _ _ _).status, State.chan_modChan_self]
    rfl

theorem trip_atRest (c : Channel) (t : Trip) (s : State) : ((trip c t s).chan c).atRest = true := by
  unfold ChannelState.atRest
  rw [trip_status]
  by_cases h : (s.chan c).atRest = true
  · rw [if_pos h]; exact h
  · rw [if_neg h]; rfl

theorem trip_of_atRest {c : Channel} {s : State} (h : (s.chan c).atRest = true) (t : Trip) : trip c t s = s := by
  unfold trip; simp only [h, if_true]

/-! ## Holds (R83, R97) -/

theorem atChannel_hold (c : Channel) (s : State) : AtChannel c s (enterHolding c (settlePower c s)) :=
  atChannel_settled (work_settlePower c s) settlePower_acted _
    ((local_raiseChannel _ _ _ _).trans (local_produceSetpoint _ _ _))
    (work_modChan _ c _ rfl ⟨rfl, rfl⟩ (fun _ h => { h with })) (by simp [WaitStatus])

/-! ## Timers (R95, R134) -/

theorem atChannel_staleExpiry (c : Channel) (s : State) : AtChannel c s (staleExpiry c s) := by
  unfold staleExpiry
  simp only
  split
  · exact .refl c s
  · split
    · exact atChannel_trip _ _ _
    · exact .refl c s

theorem atChannel_contactorExpiry (c : Channel) (s : State) : AtChannel c s (contactorExpiry c s) := by
  unfold contactorExpiry
  simp only
  split
  · exact .refl c s
  · split
    · split
      · exact atChannel_trip _ _ _
      · exact atChannel_trip _ _ _
      · exact .refl c s
    · exact .refl c s

/-! ## Events of several channels -/

/-- A row of events of channels: work that keeps the lists sound, and that leaves IDLE channels IDLE. -/
structure Events (s t : State) : Prop where
  work : Work s t
  good : Good s → Good t
  idle : Good s → ∀ d, (s.chan d).status = .idle → (t.chan d).status = .idle

theorem Events.refl (s : State) : Events s s := ⟨.refl s, id, fun _ _ h => h⟩

theorem Events.trans {s t u : State} (h₁ : Events s t) (h₂ : Events t u) : Events s u :=
  ⟨h₁.work.trans h₂.work, h₂.good ∘ h₁.good, fun hs d hd => h₂.idle (h₁.good hs) d (h₁.idle hs d hd)⟩

/-- An IDLE channel has no entry in the lists. -/
theorem Good.idle_noPower {s : State} (h : Good s) {d : Channel} (hd : (s.chan d).status = .idle) : NoPower s d :=
  h.lists.noPower_atRest not_false (by rw [hd]; decide) (by rw [hd]; simp [WaitStatus])

/-- A channel at rest has no entry in the lists. -/
theorem Good.atRest_noPower {s : State} (h : Good s) {d : Channel} (hd : (s.chan d).atRest = true) : NoPower s d := by
  simp only [ChannelState.atRest, Bool.or_eq_true, beq_iff_eq] at hd
  rcases hd with hd | hd
  · exact h.idle_noPower hd
  · exact h.lists.noPower_atRest not_false (by rw [hd]; decide) (by rw [hd]; simp [WaitStatus])

/-- An event at a channel leaves every other IDLE channel as it was. -/
theorem AtChannel.events {c : Channel} {s t : State} (h : AtChannel c s t)
    (hc : (s.chan c).status = .idle → (t.chan c).status = .idle) : Events s t :=
  ⟨h.work, h.good, fun hs d hd => by
    by_cases hdc : d = c
    · subst hdc; exact hc hd
    · rw [(h.but hs d hdc (hs.idle_noPower hd)).1]; exact hd⟩

theorem events_local {c : Channel} {s t : State} (h : LocalWork c s t) : Events s t :=
  (atChannel_local h).events (fun hc => by rw [h.status]; exact hc)

theorem events_trip (c : Channel) (t : Trip) (s : State) : Events s (trip c t s) :=
  (atChannel_trip c t s).events (fun hc => by rw [trip_of_atRest (by unfold ChannelState.atRest; rw [hc]; rfl)]; exact hc)

theorem events_foldl {α : Type} (f : State → α → State) (hf : ∀ s a, Events s (f s a)) (xs : List α) (s : State) :
    Events s (xs.foldl f s) := by
  induction xs generalizing s with
  | nil => exact .refl s
  | cons a rest ih => exact (hf s a).trans (ih _)

/-- The trips of link loss and of the hall stop (R135, R137). -/
theorem events_tripAll (cause : Cause) (order : List Channel) (s : State) : Events s (tripAll cause order s) :=
  events_foldl _ (fun s c => events_trip c _ s) _ s

/-- A channel at rest stays as it was through another channel's trip, and so through a row of trips. -/
theorem tripFor_keeps_atRest (cause : Cause) {s : State} (h : Good s) (c : Channel) {d : Channel} (hd : (s.chan d).atRest = true) :
    (tripFor cause s c).chan d = s.chan d := by
  unfold tripFor
  by_cases hdc : d = c
  · subst hdc; rw [trip_of_atRest hd]
  · exact ((atChannel_trip c _ s).but h d hdc (h.atRest_noPower hd)).1

theorem tripFold_atRest (cause : Cause) (cs : List Channel) {s : State} (h : Good s) {d : Channel}
    (hd : (s.chan d).atRest = true) : (cs.foldl (tripFor cause) s).chan d = s.chan d := by
  induction cs generalizing s with
  | nil => rfl
  | cons c rest ih =>
    have h₁ := tripFor_keeps_atRest cause h c hd
    have hg : Good (tripFor cause s c) := (events_trip c _ s).good h
    rw [List.foldl_cons, ih hg (by rw [h₁]; exact hd), h₁]

theorem tripFold_all_atRest (cause : Cause) (cs : List Channel) {s : State} (h : Good s) {d : Channel} (hd : d ∈ cs) :
    ((cs.foldl (tripFor cause) s).chan d).atRest = true := by
  induction cs generalizing s with
  | nil => cases hd
  | cons c rest ih =>
    have hg : Good (tripFor cause s c) := (events_trip c _ s).good h
    rcases List.mem_cons.mp hd with rfl | hd
    · have hr : ((tripFor cause s d).chan d).atRest = true := trip_atRest _ _ _
      rw [List.foldl_cons, tripFold_atRest cause rest hg hr]; exact hr
    · exact ih hg hd

theorem mem_inOrder (order chosen : List Channel) (c : Channel) : c ∈ inOrder order chosen ↔ c ∈ chosen := by
  unfold inOrder
  simp
  tauto

/-- After a row of trips every channel is IDLE or TRIPPED (R135, R137). -/
theorem tripAll_atRest (cause : Cause) (order : List Channel) {s : State} (h : Good s) (d : Channel) :
    ((tripAll cause order s).chan d).atRest = true :=
  tripFold_all_atRest cause _ h ((mem_inOrder _ _ d).mpr (List.mem_finRange d))

end Sys2Proof.Laws
end

