-- ==== Sys2Proof/Laws/Moves.lean ====
section
/-! SUPPORT. Step begin, the judging of predicates, loops, moves and the program's end are events at their channel (R51 to R58, R69 to
R74, R99, R101). -/

namespace Sys2Proof.Laws

open Sys2Proof.Machine Sys2Proof.Safety

/-! ## Step begin (R99) -/

theorem local_takeUpStep (c : Channel) (i : Nat) (s : State) : LocalWork c s (takeUpStep c i s) :=
  local_modChan s c _ rfl ⟨rfl, rfl⟩ rfl (fun _ h => channelOk_zeroStepTotals { h with })

theorem local_waitingSetpoint (c : Channel) (s : State) : LocalWork c s (waitingSetpoint c s) := by
  unfold waitingSetpoint
  split
  · exact local_produceSetpoint _ _ _
  · exact .refl c s

/-- A channel without an entry begins to run a step of request 0, or asks for power (R92, R150). -/
theorem atChannel_begin {c : Channel} {s : State} (hst : (s.chan c).status ≠ .running ∧ ¬WaitStatus (s.chan c).status)
    (silent : Option Channel) :
    (stepRequest s c = 0 → AtChannel c s (s.modChan c (fun ch => { ch with status := .running }))) ∧
      (stepRequest s c ≠ 0 → AtChannel c s (requestAction c (stepRequest s c) silent s)) := by
  have hn : Good s → NoPower s c := fun h => h.lists.noPower_atRest not_false hst.1 hst.2
  refine ⟨fun _ => ⟨?_, fun hs => ⟨?_, hs.caps⟩, fun _ => untouchedBut_mod s c _⟩, fun hr => ⟨?_, fun hs => ?_, fun hs => ?_⟩⟩
  · exact work_modChan s c _ rfl ⟨rfl, rfl⟩ (fun _ h => { h with })
  · exact ((hs.lists.leave c).mod (.inr rfl) _).closeRunning (hn hs).2 (by rw [State.chan_modChan_self])
  · exact work_requestAction _ _ _ _
  · have ha := requestAction_spec (hs.lists.leave c) (hn hs) hs.caps hr silent
    exact ⟨ha.lists, ha.caps⟩
  · exact (requestAction_spec (hs.lists.leave c) (hn hs) hs.caps hr silent).but

theorem atChannel_beginEntryStep {c : Channel} (i : Nat) {s : State}
    (hst : (s.chan c).status ≠ .running ∧ ¬WaitStatus (s.chan c).status) : AtChannel c s (beginEntryStep c i s) := by
  have h₁ := local_takeUpStep c i s
  have hb := atChannel_begin (c := c) (s := takeUpStep c i s) (by rw [h₁.status]; exact hst) (some c)
  unfold beginEntryStep
  simp only
  split
  · next h => exact (atChannel_local h₁).trans (hb.1 h)
  · next h => exact ((atChannel_local h₁).trans (hb.2 h)).trans (atChannel_local (local_waitingSetpoint c _))

/-- A running channel does not wait. -/
theorem Good.running_not_waiting {s : State} (h : Good s) {c : Channel} (hst : (s.chan c).status = .running) : ¬Waits s c :=
  fun hw => not_waitStatus_running (hst ▸ (h.lists.waiting c not_false).mp hw)

theorem atChannel_regrant {c : Channel} {s : State} (hst : (s.chan c).status = .running) (new : Int) :
    AtChannel c s (regrantAction c new s) :=
  ⟨work_regrantAction c new s,
    fun hs => by
      have ha := regrantAction_spec (hs.lists.leave c) (hs.running_not_waiting hst) hst new
      have hc := hs.caps
      exact ⟨ha.lists, ha.caps⟩,
    fun hs => (regrantAction_spec (hs.lists.leave c) (hs.running_not_waiting hst) hst new).but⟩

theorem atChannel_beginNextStep {c : Channel} (i : Nat) {s : State} (hst : (s.chan c).status = .running) :
    AtChannel c s (beginNextStep c i s) :=
  ((atChannel_local (local_takeUpStep c i s)).trans
    (atChannel_regrant (by rw [(local_takeUpStep c i s).status]; exact hst) _)).trans (atChannel_local (local_waitingSetpoint c _))

/-! ## The program's end (R74, R101) -/

theorem channelOk_disconnecting {ch : ChannelState} (h : ChannelOk ch) (outcome : RunOutcome) (timer : Option Timer) :
    ChannelOk { ch with status := .disconnecting, runOutcome := outcome, closeCount := 0, openCount := 0, contactorTimer := timer } :=
  { h with counts := ⟨Nat.zero_le _, Nat.zero_le _⟩ }

theorem work_enterDisconnecting (c : Channel) (outcome : RunOutcome) (s : State) : Work s (enterDisconnecting c outcome s) :=
  work_modChan s c _ rfl ⟨rfl, rfl⟩ (fun _ h => channelOk_disconnecting h outcome _)

/-- The state is left first, and the arbiter's entry settled after it; in between the channel is left out of the comparison. -/
theorem settle_after {c : Channel} {s t : State} (f : ChannelState → ChannelState) (ht : LocalWork c (s.modChan c f) t) (h : Good s) :
    Acted (And1 NoneOut c) c s (settlePower c t) ∧ NoPower (settlePower c t) c ∧ (settlePower c t).chan c = t.chan c := by
  have hl : ListsOk (And1 NoneOut c) t := ((h.lists.leave c).mod (.inr rfl) f).local ht
  have hc : t.inCaps t.net = true := by
    rw [ht.same.inCaps, net_of_grants ht.grants]; exact h.caps
  obtain ⟨ha, hn, hch⟩ := settlePower_spec hl hc
  exact ⟨⟨ha.lists, ha.caps, ((untouchedBut_mod s c f).trans (untouchedBut_local ht)).trans ha.but⟩, hn, hch⟩

/-- Entering a state in which the channel neither runs nor waits, with its entry settled and then local work. -/
theorem atChannel_leave {c : Channel} {s t u : State} (f : ChannelState → ChannelState) (hf : Work s (s.modChan c f))
    (hst : ¬WaitStatus (f (s.chan c)).status) (ht : LocalWork c (s.modChan c f) t) (hu : LocalWork c (settlePower c t) u) :
    AtChannel c s u := by
  refine ⟨((hf.trans ht.toWork).trans (work_settlePower c t)).trans hu.toWork, fun hs => ?_, fun hs => ?_⟩
  · obtain ⟨ha, hn, hch⟩ := settle_after f ht hs
    refine good_local hu ⟨ha.lists.close hn ?_, ha.caps⟩
    rw [hch, ht.status, State.chan_modChan_self]; exact hst
  · exact (settle_after f ht hs).1.but.trans (untouchedBut_local hu)

theorem atChannel_endProgram (c : Channel) (i : Nat) (s : State) : AtChannel c s (endProgram c i s) :=
  atChannel_leave _ (work_enterDisconnecting c .completed s) (by simp [WaitStatus]) (local_raiseChannel c .programEnd _ _)
    (local_produceSetpoint c true _)

/-! ## Predicates (R51 to R54) -/

theorem local_setCounter (c : Channel) (k n : Nat) (s : State) : LocalWork c s (setCounter c k n s) :=
  local_modChan s c _ rfl ⟨rfl, rfl⟩ rfl (fun _ h => { h with })

theorem local_judgeStep (c : Channel) (current : Int) (ps : List Predicate) (k : Nat) (s : State) :
    LocalWork c s (judgeStep c current ps k s).2 := by
  induction ps generalizing k s with
  | nil => exact .refl c s
  | cons p rest ih =>
    unfold judgeStep
    simp only
    split
    · exact ((local_setCounter c k 0 s).trans (local_raiseChannel _ _ _ _)).trans (ih _ _)
    · split
      · split
        · exact local_setCounter _ _ _ _
        · exact (local_setCounter _ _ _ _).trans (ih _ _)
      · exact (local_setCounter _ _ _ _).trans (ih _ _)

theorem local_judgeLoop (c : Channel) (current : Int) (i : Nat) (ps : List Predicate) (k : Nat) (s : State) :
    LocalWork c s (judgeLoop c current i ps k s).2 := by
  induction ps generalizing k s with
  | nil => exact .refl c s
  | cons p rest ih =>
    unfold judgeLoop
    split
    · exact (local_raiseChannel _ _ _ _).trans (ih _ _)
    · split
      · exact .refl c s
      · exact ih _ _

/-! ## Loops (R70 to R73) -/

/-- Counting keeps the stack's bounds (R70). -/
theorem countLoop_stackOk {i target next count there : Nat} {stack after : List LoopEntry}
    (h : countLoop i target next count stack = some (there, after)) (hs : StackOk stack) (hc : count ≤ 65535) :
    StackOk after := by
  obtain ⟨hlen, hnd, hrem⟩ := hs
  have hsub : (stack.dropWhile (fun e => e.index != i)).Sublist stack := (List.dropWhile_suffix _).sublist
  unfold countLoop at h
  split at h
  · next e rest hd =>
    rw [hd] at hsub
    have hlen' := hsub.length_le
    have hnd' := hnd.sublist (hsub.map LoopEntry.index)
    have he := hrem e (hsub.subset (by simp))
    split at h
    · cases h
      refine ⟨by simpa using hlen'.trans hlen, by simpa using hnd', ?_⟩
      intro x hx
      rcases List.mem_cons.mp hx with rfl | hx
      · exact ⟨by show 1 ≤ e.remaining - 1; omega, by show e.remaining - 1 ≤ 65534; omega⟩
      · exact hrem x (hsub.subset (by simp [hx]))
    · cases h
      have hr : after.Sublist stack := (List.sublist_cons_self e after).trans hsub
      exact ⟨hr.length_le.trans hlen, hnd.sublist (hr.map _), fun x hx => hrem x (hr.subset hx)⟩
  · next hd =>
    have hno : ∀ e ∈ stack, e.index ≠ i := by
      intro e he
      have := List.dropWhile_eq_nil_iff.mp hd e he
      simpa using this
    split at h
    · cases h; exact ⟨hlen, hnd, hrem⟩
    · next hc2 =>
      split at h
      · next hlt =>
        cases h
        simp only [Config.loopDepth] at hlt
        refine ⟨by simp; omega, ?_, ?_⟩
        · rw [List.map_cons, List.nodup_cons]
          refine ⟨?_, hnd⟩
          intro hm
          obtain ⟨e, he, hei⟩ := List.mem_map.mp hm
          exact hno e he hei
        · intro x hx
          rcases List.mem_cons.mp hx with rfl | hx
          · exact ⟨by show 1 ≤ count - 1; omega, by show count - 1 ≤ 65534; omega⟩
          · exact hrem x hx
      · cases h

/-! ## Moves (R69) -/

theorem local_traversal (s : State) (c : Channel) :
    LocalWork c s (s.modChan c (fun ch => { ch with traversalCount := ch.traversalCount + 1 })) :=
  local_modChan s c _ rfl ⟨rfl, rfl⟩ rfl (fun _ h => { h with })

theorem local_holdPending (s : State) (c : Channel) (b : Bool) :
    LocalWork c s (s.modChan c (fun ch => { ch with holdPending := b })) :=
  local_modChan s c _ rfl ⟨rfl, rfl⟩ rfl (fun _ h => { h with })

theorem local_skipPending (s : State) (c : Channel) (b : Bool) :
    LocalWork c s (s.modChan c (fun ch => { ch with skipPending := b })) :=
  local_modChan s c _ rfl ⟨rfl, rfl⟩ rfl (fun _ h => { h with })

/-- The stack a LOOP record leaves. -/
theorem local_loopStack {c : Channel} {s : State} {i target next count there : Nat} {flag : Bool} {ps : List Predicate}
    {stack : List LoopEntry} (hb : (s.record i).body = .loop target next count flag ps)
    (h : countLoop i target next count (s.chan c).loopStack = some (there, stack)) :
    LocalWork c s (s.modChan c (fun ch => { ch with loopStack := stack })) :=
  local_modChan s c _ rfl ⟨rfl, rfl⟩ rfl (fun hs hc =>
    { hc with
      stack := by
        have hr := hs.records i
        rw [hb] at hr
        exact countLoop_stackOk h hc.stack hr.2.2.2.1 })

/-- The state a LOOP record's own work leaves before its outcome is taken: the traversal count, the cycle close, its predicates. -/
theorem local_passLoop (c : Channel) (current : Int) (i : Nat) (flag : Bool) (ps : List Predicate) (s : State) :
    LocalWork c s (judgeLoop c current i ps 0
      (if flag then closeCycle c i (s.modChan c (fun ch => { ch with traversalCount := ch.traversalCount + 1 }))
       else s.modChan c (fun ch => { ch with traversalCount := ch.traversalCount + 1 }))).2 := by
  refine (LocalWork.trans ?_ (local_judgeLoop c current i ps 0 _))
  split
  · exact (local_traversal s c).trans (local_closeCycle c i _)
  · exact local_traversal s c

/-- A move of a running channel (R69 to R74). -/
theorem atChannel_moveTo (c : Channel) (current : Int) (fuel i : Nat) {s : State} (hst : (s.chan c).status = .running) :
    AtChannel c s (moveTo c current fuel i s) := by
  induction fuel generalizing i s with
  | zero =>
    unfold moveTo
    split
    · exact atChannel_beginNextStep i hst
    · exact atChannel_endProgram c i s
    · exact atChannel_trip _ _ _
  | succ n ih =>
    unfold moveTo
    split
    · exact atChannel_beginNextStep i hst
    · exact atChannel_endProgram c i s
    · next target next count flag ps hb =>
      have hp := local_passLoop c current i flag ps s
      simp only
      split
      · next f t hj =>
        rw [hj] at hp
        have ht : (t.chan c).status = .running := hp.status.trans hst
        refine (atChannel_local hp).trans ?_
        split
        · exact ih _ ht
        · exact ih _ ht
        · exact atChannel_endProgram _ _ _
        · exact (atChannel_local (local_holdPending t c true)).trans (ih _ (by rw [(local_holdPending t c true).status]; exact ht))
        · exact atChannel_trip _ _ _
      · next t hj =>
        rw [hj] at hp
        have ht : (t.chan c).status = .running := hp.status.trans hst
        refine (atChannel_local hp).trans ?_
        split
        · next there stack hcl =>
          have hl := local_loopStack (s := t) (by rw [hp.same.record]; exact hb) hcl
          exact (atChannel_local hl).trans (ih _ (by rw [hl.status]; exact ht))
        · exact atChannel_trip _ _ _

theorem atChannel_move (c : Channel) (current : Int) (i : Nat) {s : State} (hst : (s.chan c).status = .running) :
    AtChannel c s (move c current i s) := atChannel_moveTo c current _ i hst

/-- A firing predicate's outcome (R55 to R58). -/
theorem atChannel_takeOutcome (c : Channel) (current : Int) (i : Nat) (f : Fired) {s : State}
    (hst : (s.chan c).status = .running) : AtChannel c s (takeOutcome c current i f s) := by
  have he : ∀ (d : Nat) (t : State), (t.chan c).status = .running → ((endStep c d t).chan c).status = .running :=
    fun d t ht => (local_endStep c d t).status.trans ht
  unfold takeOutcome
  split
  · exact (atChannel_local (local_endStep _ _ _)).trans (atChannel_move _ _ _ (he _ _ hst))
  · exact (atChannel_local (local_endStep _ _ _)).trans (atChannel_move _ _ _ (he _ _ hst))
  · exact (atChannel_local (local_endStep _ _ _)).trans (atChannel_endProgram _ _ _)
  · have hh := local_holdPending s c true
    exact (atChannel_local (hh.trans (local_endStep _ _ _))).trans (atChannel_move _ _ _ (he _ _ (hh.status.trans hst)))
  · exact atChannel_trip _ _ _

end Sys2Proof.Laws
end

