-- ==== Sys2Proof/Laws/Evaluation.lean ====
section
/-! SUPPORT. The stages of an anchor evaluation, the evaluation, the anchor and a sample slot's readings are events of channels (R35 to
R42, R89 to R97, R127 to R132). -/

namespace Sys2Proof.Laws

open Sys2Proof.Machine Sys2Proof.Safety

/-! ## Stage 2 (R127 to R132) -/

theorem local_setLimitCounter (c : Channel) (id : Fin 9) (n : Nat) (s : State) : LocalWork c s (setLimitCounter c id n s) :=
  local_modChan s c _ rfl ⟨rfl, rfl⟩ rfl (fun _ h => { h with })

theorem local_checkLimits (c : Channel) (current : Int) (off : Bool) (ids : List (Fin 9)) (s : State) :
    LocalWork c s (checkLimits c current off ids s).2 := by
  induction ids generalizing s with
  | nil => exact .refl c s
  | cons id rest ih =>
    unfold checkLimits
    simp only
    split
    · exact ih _
    · split
      · exact (local_setLimitCounter _ _ _ _).trans (ih _)
      · split
        · exact (local_setLimitCounter _ _ _ _).trans (ih _)
        · split
          · split
            · exact local_setLimitCounter _ _ _ _
            · exact (local_setLimitCounter _ _ _ _).trans (ih _)
          · exact (local_setLimitCounter _ _ _ _).trans (ih _)

theorem atChannel_checkStage (c : Channel) (current : Int) (s : State) : AtChannel c s (checkStage c current s) := by
  have hl := local_checkLimits c current (setpointMode s c == .off) (List.finRange 9) s
  unfold checkStage
  simp only
  split
  · exact atChannel_trip _ _ _
  · split
    · next hit t heq =>
      rw [heq] at hl
      exact (atChannel_local hl).trans (atChannel_trip _ _ _)
    · next t heq =>
      rw [heq] at hl
      split
      · exact atChannel_local hl
      · split
        · exact (atChannel_local hl).trans (atChannel_trip _ _ _)
        · exact atChannel_local hl

/-- Stage 2 leaves the state of the channel as it was or TRIPPED (R128 to R132). -/
theorem checkStage_status (c : Channel) (current : Int) {s : State} (h : (s.chan c).atRest = false) :
    ((checkStage c current s).chan c).status = (s.chan c).status ∨ ((checkStage c current s).chan c).status = .tripped := by
  have hl := local_checkLimits c current (setpointMode s c == .off) (List.finRange 9) s
  have htrip : ∀ (u : State) (t : Trip), (u.chan c).status = (s.chan c).status → ((trip c t u).chan c).status = .tripped := by
    intro u t hu
    have : (u.chan c).atRest = false := by unfold ChannelState.atRest at h ⊢; rw [hu]; exact h
    rw [trip_status, this]; rfl
  unfold checkStage
  simp only
  split
  · exact .inr (htrip s _ rfl)
  · split
    · next hit t heq => rw [heq] at hl; exact .inr (htrip t _ hl.status)
    · next t heq =>
      rw [heq] at hl
      split
      · exact .inl hl.status
      · split
        · exact .inr (htrip t _ hl.status)
        · exact .inl hl.status

/-! ## Stage 3 (R91 to R94) -/

theorem moveContactorCounts_config (ch : ChannelState) :
    (moveContactorCounts ch).config = ch.config ∧ (moveContactorCounts ch).limits = ch.limits ∧
      (moveContactorCounts ch).limitsLoaded = ch.limitsLoaded ∧ (moveContactorCounts ch).status = ch.status ∧
      (moveContactorCounts ch).lifetime = ch.lifetime ∧ (moveContactorCounts ch).points = ch.points := by
  unfold moveContactorCounts; split <;> exact ⟨rfl, rfl, rfl, rfl, rfl, rfl⟩

theorem channelOk_moveContactorCounts {ch : ChannelState} (h : ChannelOk ch) : ChannelOk (moveContactorCounts ch) := by
  unfold moveContactorCounts
  split
  · exact { h with counts := ⟨Nat.min_le_right _ _, Nat.zero_le _⟩ }
  · exact { h with counts := ⟨Nat.zero_le _, Nat.min_le_right _ _⟩ }
  · exact h

theorem local_moveContactorCounts (c : Channel) (s : State) : LocalWork c s (s.modChan c moveContactorCounts) := by
  obtain ⟨h₁, h₂, h₃, h₄, h₅, _⟩ := moveContactorCounts_config (s.chan c)
  exact local_modChan s c _ h₁ ⟨h₂, h₃⟩ h₄ (fun _ h => channelOk_moveContactorCounts h) (fun _ => h₅ ▸ lifetimeLe_refl _)

theorem local_contactorTimer (s : State) (c : Channel) (t : Option Timer) :
    LocalWork c s (s.modChan c (fun ch => { ch with contactorTimer := t })) :=
  local_modChan s c _ rfl ⟨rfl, rfl⟩ rfl (fun _ h => { h with })

theorem atChannel_confirmClosed {c : Channel} {s : State} (hst : (s.chan c).status = .connecting) :
    AtChannel c s (confirmClosed c s) := by
  have ht := local_contactorTimer s c none
  unfold confirmClosed
  simp only
  split
  · split
    · exact (atChannel_local ht).trans (atChannel_beginEntryStep _ (by rw [ht.status, hst]; simp [WaitStatus]))
    · exact .refl c s
  · exact .refl c s

/-- DISCONNECTING to IDLE: the channel has no entry before and none after (R93). -/
theorem atChannel_confirmOpen {c : Channel} {s : State} (hst : (s.chan c).status = .disconnecting) :
    AtChannel c s (s.modChan c confirmOpen) := by
  have hcases : confirmOpen (s.chan c) = s.chan c ∨
      confirmOpen (s.chan c) = { s.chan c with status := .idle, contactorTimer := none, staleTimer := none } := by
    unfold confirmOpen; split
    · exact .inr rfl
    · exact .inl rfl
  have hw : ¬WaitStatus (confirmOpen (s.chan c)).status := by
    rcases hcases with h | h <;> rw [h]
    · rw [hst]; simp [WaitStatus]
    · simp [WaitStatus]
  refine ⟨?_, fun hs => ⟨?_, hs.caps⟩, fun _ => untouchedBut_mod s c _⟩
  · refine work_modChan s c _ ?_ ?_ ?_ ?_
    · rcases hcases with h | h <;> rw [h]
    · rcases hcases with h | h <;> rw [h] <;> exact ⟨rfl, rfl⟩
    · intro _ hc; rcases hcases with h | h <;> rw [h]
      · exact hc
      · exact { hc with }
    · intro _; rcases hcases with h | h <;> rw [h] <;> exact lifetimeLe_refl _
  · have hn := hs.lists.noPower_atRest (d := c) not_false (by rw [hst]; decide) (by rw [hst]; simp [WaitStatus])
    exact ((hs.lists.leave c).mod (.inr rfl) _).close hn (by rw [State.chan_modChan_self]; exact hw)

theorem local_confirmTripped (c : Channel) (s : State) : LocalWork c s (s.modChan c confirmTripped) := by
  have hcases : ∃ b, confirmTripped (s.chan c) = { s.chan c with openConfirmed := b } := by
    unfold confirmTripped
    split
    · exact ⟨_, rfl⟩
    · split
      · exact ⟨_, rfl⟩
      · exact ⟨(s.chan c).openConfirmed, rfl⟩
  obtain ⟨b, hb⟩ := hcases
  refine local_modChan s c _ ?_ ?_ ?_ ?_ ?_
  · rw [hb]
  · rw [hb]; exact ⟨rfl, rfl⟩
  · rw [hb]
  · intro _ h; rw [hb]; exact { h with }
  · intro _; rw [hb]; exact lifetimeLe_refl _

theorem atChannel_checkDropped (c : Channel) (s : State) : AtChannel c s (checkDropped c s) := by
  unfold checkDropped
  simp only
  split
  · exact atChannel_trip _ _ _
  · exact .refl c s

theorem atChannel_contactorStage (c : Channel) (s : State) : AtChannel c s (contactorStage c s) := by
  have h₁ := local_moveContactorCounts c s
  unfold contactorStage
  simp only
  split
  · exact atChannel_local h₁
  · next h => exact (atChannel_local h₁).trans (atChannel_confirmClosed h)
  · next h => exact (atChannel_local h₁).trans (atChannel_confirmOpen h)
  · exact (atChannel_local h₁).trans (atChannel_local (local_confirmTripped c _))
  · exact (atChannel_local h₁).trans (atChannel_checkDropped c _)
  · exact (atChannel_local h₁).trans (atChannel_checkDropped c _)
  · exact (atChannel_local h₁).trans (atChannel_checkDropped c _)
  · exact (atChannel_local h₁).trans (atChannel_checkDropped c _)

/-- In TRIPPED, stage 3 is local (R93, R143). -/
theorem local_contactorStage_tripped {c : Channel} {s : State} (h : (s.chan c).status = .tripped) :
    LocalWork c s (contactorStage c s) := by
  have h₁ := local_moveContactorCounts c s
  have h₂ : ((s.modChan c moveContactorCounts).chan c).status = .tripped := h₁.status.trans h
  unfold contactorStage
  simp only [h₂]
  exact h₁.trans (local_confirmTripped c _)

/-! ## Stages 4 and 5 (R96, R97) -/

theorem atChannel_terminationStage (c : Channel) (current : Int) {s : State} (hst : (s.chan c).status = .running) :
    AtChannel c s (terminationStage c current s) := by
  unfold terminationStage
  simp only
  split
  · exact .refl c s
  · have hl := local_judgeStep c current ((s.chan c).effective.terminations.getD []) 0 s
    split
    · next f t heq =>
      rw [heq] at hl
      have hk := local_skipPending t c false
      exact (atChannel_local (hl.trans hk)).trans
        (atChannel_takeOutcome _ _ _ _ ((hk.status.trans hl.status).trans hst))
    · next t heq =>
      rw [heq] at hl
      split
      · have hk := local_skipPending t c false
        have he := (hl.trans hk).trans (local_endStep c detailSkipped _)
        exact (atChannel_local he).trans (atChannel_move _ _ _ (he.status.trans hst))
      · exact atChannel_local hl

theorem atChannel_holdStage (c : Channel) (s : State) : AtChannel c s (holdStage c s) := by
  unfold holdStage
  simp only
  split
  · split
    · exact atChannel_hold c s
    · exact atChannel_local (local_holdPending s c false)
  · exact .refl c s

theorem atChannel_laterStages (c : Channel) (current : Int) (began : Bool) (s : State) :
    AtChannel c s (laterStages c current began s) := by
  have h₁ : AtChannel c s
      (if (s.chan c).status = .running ∧ began = false then terminationStage c current s else s) := by
    split
    · next h => exact atChannel_terminationStage c current h.1
    · exact .refl c s
  unfold laterStages
  simp only
  generalize (if (s.chan c).status = .running ∧ began = false then terminationStage c current s else s) = u at h₁ ⊢
  split
  · exact h₁
  · exact (h₁.trans (atChannel_holdStage c _)).trans (atChannel_local (local_produceSetpoint c false _))

/-! ## The evaluation (R89) -/

theorem moveAge_age (cfg : ChannelConfig) (p : PointNumber) {pt : Point} (h : pt.age ≤ 255) : (moveAge cfg p pt).age ≤ 255 := by
  unfold moveAge
  split
  · exact h
  · split
    · exact Nat.min_le_right _ _
    · exact h

/-- New points whose ages are in range keep a channel in its ranges. -/
theorem channelOk_points {ch : ChannelState} (h : ChannelOk ch) (v : Vector Point 228) (hv : ∀ p : PointNumber, (v.get p).age ≤ 255)
    (reported : Bool) (count : Nat) :
    ChannelOk { ch with points := v, invalidReported := reported, traversalCount := count } := { h with ages := hv }

/-- The close moves the ages and clears the marks (R34, R89). -/
theorem closeEvaluation_eq (ch : ChannelState) : ∃ v : Vector Point 228,
    closeEvaluation ch = { ch with points := v, invalidReported := false, traversalCount := 0 } ∧
      ∀ p : PointNumber, v.get p = moveAge ch.config p (ch.point p) :=
  ⟨(moveAges ch).points, by simp only [closeEvaluation, moveAges],
    fun p => by simp only [moveAges, Vector.get_eq_getElem, Vector.getElem_ofFn]⟩

theorem local_closeEvaluation (c : Channel) (s : State) : LocalWork c s (s.modChan c closeEvaluation) := by
  obtain ⟨v, he, hv⟩ := closeEvaluation_eq (s.chan c)
  refine local_modChan s c _ ?_ ?_ ?_ ?_ ?_ <;> rw [he]
  · exact ⟨rfl, rfl⟩
  · exact fun _ h => channelOk_points h v (fun p => by rw [hv]; exact moveAge_age _ p (h.ages p)) _ _
  · exact fun _ => lifetimeLe_refl _

theorem atChannel_activeStages (c : Channel) {dt : Nat} (current : Int) {s : State} (hdt : dt ≤ (s.chan c).config.maxInterval) :
    AtChannel c s (activeStages c dt current s) := by
  have h₁ : AtChannel c s (if (s.chan c).status = .running then integrate c dt current s else s) := by
    split
    · exact atChannel_local (local_integrate c current hdt)
    · exact .refl c s
  unfold activeStages
  simp only
  generalize (if (s.chan c).status = .running then integrate c dt current s else s) = u at h₁ ⊢
  have h₂ := h₁.trans (atChannel_checkStage c current u)
  generalize checkStage c current u = v at h₂ ⊢
  split
  · exact h₂
  · split
    · exact h₂.trans (atChannel_contactorStage c _)
    · exact (h₂.trans (atChannel_contactorStage c _)).trans (atChannel_laterStages c current _ _)

theorem atChannel_evaluate (c : Channel) {dt : Nat} (current : Int) {s : State} (hdt : dt ≤ (s.chan c).config.maxInterval) :
    AtChannel c s (evaluate c dt current s) := by
  unfold evaluate
  simp only
  refine AtChannel.trans ?_ (atChannel_local (local_closeEvaluation c _))
  split
  · exact (atChannel_contactorStage c s).trans (atChannel_local (local_produceSetpoint c false _))
  · exact atChannel_activeStages c current hdt

/-- An evaluation in TRIPPED is local (R143). -/
theorem local_evaluate_tripped {c : Channel} {s : State} (h : (s.chan c).status = .tripped) (dt : Nat) (current : Int) :
    LocalWork c s (evaluate c dt current s) := by
  unfold evaluate
  simp only [h, if_true]
  exact ((local_contactorStage_tripped h).trans (local_produceSetpoint c false _)).trans (local_closeEvaluation c _)

/-! ## The anchor (R38 to R42) -/

theorem local_acceptAnchor (c : Channel) (stamp : BitVec 32) (s : State) : LocalWork c s (acceptAnchor c stamp s) :=
  local_modChan s c _ rfl ⟨rfl, rfl⟩ rfl (fun _ h => { h with })

theorem anchorEvent_of_idle {c : Channel} {s : State} (h : (s.chan c).status = .idle) (stamp : BitVec 32) :
    anchorEvent stamp s c = s := by
  unfold anchorEvent
  simp only [h, if_true]

/-- What an anchor does: nothing, or the evaluation with an interval of at most the maximum (R38 to R42). -/
theorem anchorEvent_cases (stamp : BitVec 32) (s : State) (c : Channel) :
    anchorEvent stamp s c = s ∨ ∃ t dt current, LocalWork c s t ∧ dt ≤ (t.chan c).config.maxInterval ∧
      anchorEvent stamp s c = evaluate c dt current t := by
  unfold anchorEvent
  simp only
  split
  · exact .inl rfl
  · split
    · exact .inr ⟨_, 0, _, local_acceptAnchor c stamp s, Nat.zero_le _, rfl⟩
    · split
      · exact .inl rfl
      · split
        · refine .inr ⟨_, _, _, ?_, ?_, rfl⟩
          · exact (local_raiseChannel c .gap _ s).trans (local_acceptAnchor c stamp _)
          · rw [((local_raiseChannel c .gap _ s).trans (local_acceptAnchor c stamp _)).config]
        · next h =>
          refine .inr ⟨_, _, _, local_acceptAnchor c stamp s, ?_, rfl⟩
          rw [(local_acceptAnchor c stamp s).config]; exact Nat.le_of_not_lt h

theorem atChannel_anchorEvent (stamp : BitVec 32) (s : State) (c : Channel) : AtChannel c s (anchorEvent stamp s c) := by
  rcases anchorEvent_cases stamp s c with h | ⟨t, dt, current, hl, hdt, h⟩
  · rw [h]; exact .refl c s
  · rw [h]; exact (atChannel_local hl).trans (atChannel_evaluate c current hdt)

theorem events_anchorEvent (stamp : BitVec 32) (s : State) (c : Channel) : Events s (anchorEvent stamp s c) :=
  (atChannel_anchorEvent stamp s c).events (fun h => by rw [anchorEvent_of_idle h]; exact h)

/-- An anchor of a channel at rest is local: it stays IDLE or TRIPPED (R38, R143). -/
theorem local_anchorEvent_atRest {c : Channel} {s : State} (h : (s.chan c).atRest = true) (stamp : BitVec 32) :
    LocalWork c s (anchorEvent stamp s c) := by
  simp only [ChannelState.atRest, Bool.or_eq_true, beq_iff_eq] at h
  rcases h with h | h
  · rw [anchorEvent_of_idle h]; exact .refl c s
  · rcases anchorEvent_cases stamp s c with he | ⟨t, dt, current, hl, _, he⟩
    · rw [he]; exact .refl c s
    · rw [he]; exact hl.trans (local_evaluate_tripped (hl.status.trans h) dt current)

/-! ## A sample slot (R35 to R38) -/

theorem point_setPoint (p q : PointNumber) (v : Int) (ch : ChannelState) :
    (setPoint p v ch).point q = if p.val = q.val then { value := v, age := 0, updated := true } else ch.point q := by
  simp only [setPoint, ChannelState.point, Vector.get_eq_getElem, Vector.getElem_set]

theorem channelOk_setPoint (p : PointNumber) (v : Int) {ch : ChannelState} (h : ChannelOk ch) : ChannelOk (setPoint p v ch) :=
  channelOk_points h _ (fun q => by
    show ((setPoint p v ch).point q).age ≤ 255
    rw [point_setPoint]
    split
    · exact Nat.zero_le _
    · exact h.ages q) _ _

theorem local_setPoint (c : Channel) (p : PointNumber) (v : Int) (s : State) : LocalWork c s (s.modChan c (setPoint p v)) :=
  local_modChan s c _ rfl ⟨rfl, rfl⟩ rfl (fun _ h => channelOk_setPoint p v h)

theorem local_reportInvalid (c : Channel) (p : PointNumber) (rd : Reading) (s : State) : LocalWork c s (reportInvalid c p rd s) := by
  unfold reportInvalid
  split
  · exact .refl c s
  · exact (local_raiseChannel c .readingInvalid _ s).trans
      (local_modChan _ c (fun ch => { ch with invalidReported := true }) rfl ⟨rfl, rfl⟩ rfl (fun _ h => { h with }))

/-- A reading works at the channel of its route, or does nothing (R35). -/
theorem applyReading_local (source : NodeAddress) (s : State) (rd : Reading) : ∃ c, LocalWork c s (applyReading source s rd) := by
  unfold applyReading
  split
  · exact ⟨0, .refl 0 s⟩
  · split
    · exact ⟨_, local_setPoint _ _ _ s⟩
    · exact ⟨_, local_reportInvalid _ _ _ s⟩

theorem events_applyReading (source : NodeAddress) (s : State) (rd : Reading) : Events s (applyReading source s rd) := by
  obtain ⟨c, h⟩ := applyReading_local source s rd
  exact events_local h

/-- A sample slot's readings and anchors (R9, R35, R38). -/
theorem events_applySample (source : NodeAddress) (stamp : BitVec 32) (readings : List Reading) (order : List Channel)
    (s : State) : Events s (applySample source stamp readings order s) :=
  (events_foldl _ (fun s rd => events_applyReading source s rd) readings s).trans
    (events_foldl _ (fun s c => events_anchorEvent stamp s c) _ _)

/-- While every channel is at rest, a sample slot leaves every channel's state as it was (R38, R143). -/
theorem applySample_atRest (source : NodeAddress) (stamp : BitVec 32) (readings : List Reading) (order : List Channel) {s : State}
    (h : ∀ d, (s.chan d).atRest = true) (d : Channel) :
    ((applySample source stamp readings order s).chan d).status = (s.chan d).status := by
  have h₁ : ∀ (rds : List Reading) (t : State), ∀ d, ((rds.foldl (applyReading source) t).chan d).status = (t.chan d).status := by
    intro rds
    induction rds with
    | nil => intro _ _; rfl
    | cons rd rest ih =>
      intro t d
      obtain ⟨c, hl⟩ := applyReading_local source t rd
      rw [List.foldl_cons, ih, hl.statuses]
  have h₂ : ∀ (cs : List Channel) (t : State), (∀ d, (t.chan d).atRest = true) →
      ∀ d, ((cs.foldl (anchorEvent stamp) t).chan d).status = (t.chan d).status := by
    intro cs
    induction cs with
    | nil => intro _ _ _; rfl
    | cons c rest ih =>
      intro t ht d
      have hl := local_anchorEvent_atRest (ht c) stamp
      rw [List.foldl_cons, ih _ (fun e => by unfold ChannelState.atRest; rw [hl.statuses]; exact ht e), hl.statuses]
  unfold applySample
  simp only
  rw [h₂ _ _ (fun e => by unfold ChannelState.atRest; rw [h₁]; exact h e), h₁]

end Sys2Proof.Laws
end

