-- ==== Sys2Proof/Laws/Program.lean ====
section
/-! SUPPORT. What a visit of the program check answers, what it adds to its list (R65, R66), and what the words of a predicate are read as
(R51, R59). -/

namespace Sys2Proof.Laws

open Sys2Proof.Machine Sys2Proof.Safety

/-! ## The program check (R65, R66) -/

theorem fitsEntry_iff (body : StepBody) : body.fitsEntry = true ↔
    ∃ kind next parts, body = .sample kind next parts ∧ parts.level ≠ none ∧ parts.clamp ≠ none ∧ parts.budget ≠ none ∧
      parts.terminations ≠ none := by
  cases body <;> simp [StepBody.fitsEntry, Parts.complete, Option.isSome_iff_ne_none, and_assoc]

theorem loopFault_some_iff (i : Nat) (body : StepBody) (reason : CheckReason) : body.loopFault i = some reason ↔
    ∃ target next count flag predicates, body = .loop target next count flag predicates ∧
      (reason = .badQuantity ∧ predicates.all Predicate.fitsLoop = false ∨
        reason = .loopToSelf ∧ predicates.all Predicate.fitsLoop = true ∧ target = i) := by
  cases body with
  | sample => simp [StepBody.loopFault]
  | finish => simp [StepBody.loopFault]
  | loop target next count flag predicates =>
    simp only [StepBody.loopFault, StepBody.loop.injEq]
    cases hp : predicates.all Predicate.fitsLoop <;> by_cases ht : target = i <;> simp [ht, hp] <;> aesop

/-- A list of a LOOP record that the program check accepts (R48, R66). -/
theorem fitsLoop_all_iff (predicates : List Predicate) : predicates.all Predicate.fitsLoop = true ↔
    ∀ p ∈ predicates, (p.quantity = .cycleCount ∨ p.quantity = .retention) ∧ p.persistence = 1 := by
  simp [Predicate.fitsLoop]

/-- A visit answers the first check that fails, or none when no check fails. -/
theorem visitFault_spec (s : State) (c : Channel) (entry i : Nat) :
    (∀ reason, visitFault s c entry i = some reason → VisitFails s c entry i reason) ∧
    (visitFault s c entry i = none → ∀ reason, ¬CheckFails s c entry i reason) := by
  unfold visitFault
  by_cases hi : Config.stepRecords ≤ i
  · have h511 : 511 < i := by simp only [Config.stepRecords] at hi; omega
    rw [if_pos hi]
    exact ⟨fun r h => by cases h; exact ⟨.inl h511, fun r hr => by cases r <;> exact absurd hr (by decide)⟩, fun h => nomatch h⟩
  · have h511 : ¬511 < i := by simp only [Config.stepRecords] at hi; omega
    rw [if_neg hi]
    cases ho : (s.record i).owner with
    | none => exact ⟨fun r h => by cases h; exact ⟨.inr ho, fun r hr => by cases r <;> exact absurd hr (by decide)⟩, fun h => nomatch h⟩
    | some owner =>
      have link : ¬CheckFails s c entry i .badLink := by simp [CheckFails, h511, ho]
      by_cases hc : owner = c
      · subst hc
        have foreign : ¬CheckFails s owner entry i .foreignStep := by simp [CheckFails, ho]
        simp only [ne_eq, not_true_eq_false, if_false]
        have incomplete : CheckFails s owner entry i .entryIncomplete ↔ (i = entry && !(s.record i).body.fitsEntry) = true := by
          simp only [CheckFails, ← fitsEntry_iff, Bool.and_eq_true, decide_eq_true_eq, Bool.not_eq_true', Bool.not_eq_true]
        have quantity : CheckFails s owner entry i .badQuantity ↔ ∃ target next count flag predicates,
            (s.record i).body = .loop target next count flag predicates ∧ predicates.all Predicate.fitsLoop = false := by
          simp only [CheckFails, ← Bool.not_eq_true, fitsLoop_all_iff, not_forall, exists_prop]
        split
        · rename_i he
          exact ⟨fun r h => by
            cases h; exact ⟨incomplete.mpr he, fun r hr => by cases r <;> first | exact absurd hr (by decide) | assumption⟩, fun h => nomatch h⟩
        · rename_i he
          have complete := mt incomplete.mp he
          refine ⟨fun r h => ?_, fun h r => ?_⟩
          · obtain ⟨target, next, count, flag, predicates, hb, ⟨rfl, hp⟩ | ⟨rfl, hp, rfl⟩⟩ := (loopFault_some_iff _ _ _).mp h
            · exact ⟨quantity.mpr ⟨_, _, _, _, _, hb, hp⟩, fun r hr => by cases r <;> first | exact absurd hr (by decide) | assumption⟩
            · have : ¬CheckFails s owner entry target .badQuantity := by
                rw [quantity]; rintro ⟨_, _, _, _, _, hb', hp'⟩
                rw [hb] at hb'; cases hb'; simp [hp] at hp'
              exact ⟨⟨_, _, _, _, hb⟩, fun r hr => by cases r <;> first | exact absurd hr (by decide) | assumption⟩
          · cases r with
            | badLink => exact link
            | foreignStep => exact foreign
            | entryIncomplete => exact complete
            | badQuantity =>
              rw [quantity]; rintro ⟨_, _, _, _, _, hb, hp⟩
              have := (loopFault_some_iff i _ .badQuantity).mpr ⟨_, _, _, _, _, hb, .inl ⟨rfl, hp⟩⟩
              rw [h] at this; cases this
            | loopToSelf =>
              rintro ⟨next, count, flag, predicates, hb⟩
              cases hp : predicates.all Predicate.fitsLoop with
              | true =>
                have := (loopFault_some_iff i _ .loopToSelf).mpr ⟨_, _, _, _, _, hb, .inr ⟨rfl, hp, rfl⟩⟩
                rw [h] at this; cases this
              | false =>
                have := (loopFault_some_iff i _ .badQuantity).mpr ⟨_, _, _, _, _, hb, .inl ⟨rfl, hp⟩⟩
                rw [h] at this; cases this
            | noEnd => exact id
      · simp only [ne_eq, hc, not_false_eq_true, if_true]
        exact ⟨fun r h => by
          cases h
          exact ⟨by simpa [CheckFails, ho] using hc, fun r hr => by cases r <;> first | exact absurd hr (by decide) | assumption⟩, fun h => nomatch h⟩

/-- What a visit adds to the list: its successors, each once, but for those visited or in the list already. -/
theorem addSuccessors_eq (visited : List Nat) (successors toVisit : List Nat) :
    addSuccessors visited toVisit successors =
      toVisit ++ (successors.filter (fun j => decide (j ∉ visited ∧ j ∉ toVisit))).eraseDups := by
  induction successors generalizing toVisit with
  | nil => simp [addSuccessors]
  | cons i rest ih =>
    rw [addSuccessors]
    by_cases h : (visited.contains i || toVisit.contains i) = true
    · rw [if_pos h, ih, List.filter_cons_of_neg]
      simpa [or_iff_not_imp_left] using h
    · rw [if_neg h, ih, List.filter_cons_of_pos (by simpa using h), List.eraseDups_cons, List.append_assoc, List.singleton_append,
        List.filter_filter]
      congr 3
      apply List.filter_congr
      intro j _
      simp [and_comm, and_left_comm, beq_eq_decide]

end Sys2Proof.Laws
end

