-- ==== Sys2Proof/Laws/Receiver.lean ====
section
/-! SUPPORT. What the receiver makes of the bits it hears outside a slot's turn: the search (R3) and the count to the compare of CONFIRM
(R4). -/

namespace Sys2Proof.Laws

open Sys2Proof.Machine Sys2Proof.Safety

/-! ## The last bits received -/

theorem lastEighteen_append (l m : List Bool) : lastEighteen (lastEighteen l ++ m) = lastEighteen (l ++ m) := by
  simp only [lastEighteen]
  rw [← List.drop_append_of_le_length (by omega), List.drop_drop]
  congr 1
  simp only [List.length_append, List.length_drop]
  omega

theorem lastEighteen_of_short {l : List Bool} (h : l.length ≤ 18) : lastEighteen l = l := by
  simp [lastEighteen, Nat.sub_eq_zero_of_le h]

theorem lastEighteen_length (l : List Bool) : (lastEighteen l).length ≤ 18 := by
  simp only [lastEighteen, List.length_drop]; omega

theorem shiftIn_eq (last : List Bool) (b : Bool) : shiftIn last b = lastEighteen (last ++ [b]) := by
  simp [shiftIn, lastEighteen]

theorem ringBits_length (w : RingWord) : (ringBits w).length = 18 := by simp [ringBits]

/-- The last 18 bits are a word's exactly when the word's bits are what was received last. -/
theorem lastEighteen_eq_iff {l : List Bool} (w : RingWord) : lastEighteen l = ringBits w ↔ ringBits w <:+ l := by
  constructor
  · intro h; rw [← h]; exact List.drop_suffix _ _
  · intro h
    obtain ⟨p, rfl⟩ := h
    simp [lastEighteen, ringBits_length]

/-! ## The search -/

/-- Bits heard in SEARCH after which the pattern was nowhere the last to be received. -/
theorem hearBits_unmatched (bits : List Bool) (passed : Nat) (r : Receiver) (hm : r.mode = .search)
    (hs : bits ≠ [] ∨ r.lastBits.length ≤ 18)
    (hn : ∀ k, 0 < k → k ≤ bits.length → ¬ringBits syncPattern <:+ r.lastBits ++ bits.take k) :
    hearBits passed bits r = { r with lastBits := lastEighteen (r.lastBits ++ bits) } := by
  induction bits generalizing passed r with
  | nil =>
    have h : r.lastBits.length ≤ 18 := by simpa using hs
    simp [hearBits, lastEighteen_of_short h]
  | cons b rest ih =>
    have hb : ¬shiftIn r.lastBits b = ringBits syncPattern := by
      rw [shiftIn_eq, lastEighteen_eq_iff]; simpa using hn 1 (by omega) (by simp)
    have h1 : hearBit passed b r = { r with lastBits := lastEighteen (r.lastBits ++ [b]) } := by
      simp only [hearBit, hm, if_neg hb]
      rw [shiftIn_eq]
    rw [hearBits, h1, ih (passed + 1) { r with lastBits := lastEighteen (r.lastBits ++ [b]) } hm (.inr (lastEighteen_length _))]
    · simp only [lastEighteen_append, List.append_assoc, List.singleton_append]
    · intro k hk hl hsuf
      refine hn (k + 1) (by omega) (by simpa using hl) ?_
      rw [← lastEighteen_eq_iff] at hsuf ⊢
      simpa only [lastEighteen_append, List.append_assoc, List.singleton_append, List.take_succ_cons] using hsuf

/-- Bits heard in CONFIRM before the compare falls due: they are counted and kept. -/
theorem hearBits_counting (bits : List Bool) (passed : Nat) (r : Receiver) (hm : r.mode = .confirm) (hp : r.position < 576)
    (hs : bits ≠ [] ∨ r.lastBits.length ≤ 18) (hn : ∀ k, 0 < k → k ≤ bits.length → (r.position + k) % 576 ≠ 18) :
    hearBits passed bits r =
      { r with position := (r.position + bits.length) % 576, lastBits := lastEighteen (r.lastBits ++ bits) } := by
  induction bits generalizing passed r with
  | nil =>
    have h : r.lastBits.length ≤ 18 := by simpa using hs
    simp [hearBits, lastEighteen_of_short h, Nat.mod_eq_of_lt hp]
  | cons b rest ih =>
    have h1 : hearBit passed b r =
        { r with position := (r.position + 1) % 576, lastBits := lastEighteen (r.lastBits ++ [b]) } := by
      simp only [hearBit, hm, if_pos (hn 1 (by omega) (by simp)), shiftIn_eq]
    rw [hearBits, h1, ih (passed + 1) { r with position := (r.position + 1) % 576, lastBits := lastEighteen (r.lastBits ++ [b]) } hm
      (Nat.mod_lt _ (by omega)) (.inr (lastEighteen_length _))]
    · simp only [lastEighteen_append, List.append_assoc, List.singleton_append, List.length_cons, Nat.mod_add_mod]
      congr 2; omega
    · intro k hk hl
      have := hn (k + 1) (by omega) (by simpa using hl)
      rw [Nat.mod_add_mod]; convert this using 2; omega

/-- Bits heard once LOCKED are counted. -/
theorem hearBits_locked (bits : List Bool) (passed : Nat) (r : Receiver) (hm : r.mode = .locked) (hp : r.position < 576) :
    hearBits passed bits r = { r with position := (r.position + bits.length) % 576 } := by
  induction bits generalizing passed r with
  | nil => simp [hearBits, Nat.mod_eq_of_lt hp]
  | cons b rest ih =>
    have h1 : hearBit passed b r = { r with position := (r.position + 1) % 576 } := by simp only [hearBit, hm]
    rw [hearBits, h1, ih (passed + 1) { r with position := (r.position + 1) % 576 } hm (Nat.mod_lt _ (by omega))]
    simp only [Nat.mod_add_mod, List.length_cons]
    congr 2; omega

theorem hearBits_append (a b : List Bool) (passed : Nat) (r : Receiver) :
    hearBits passed (a ++ b) r = hearBits (passed + a.length) b (hearBits passed a r) := by
  induction a generalizing passed r with
  | nil => rfl
  | cons x rest ih =>
    simp only [List.cons_append, hearBits, ih, List.length_cons]
    congr 1; omega

/-- All that a search over the bits of one command can do (R3). -/
theorem hearBits_search (bits : List Bool) (passed : Nat) (r : Receiver) (hm : r.mode = .search)
    (hs : bits ≠ [] ∨ r.lastBits.length ≤ 18) (hl : bits.length ≤ 576) : Searched passed bits r (hearBits passed bits r) where
  unmatched := hearBits_unmatched bits passed r hm hs
  matched := by
    intro k hk hkl hsuf hfirst
    obtain ⟨j, rfl⟩ : ∃ j, k = j + 1 := ⟨k - 1, by omega⟩
    have hj : j < bits.length := by omega
    have hsplit : bits = bits.take j ++ bits[j] :: bits.drop (j + 1) := by
      rw [List.cons_getElem_drop_succ, List.take_append_drop]
    have htake : bits.take (j + 1) = bits.take j ++ [bits[j]] := List.take_succ_eq_append_getElem hj
    have hlen : (bits.take j).length = j := by simp; omega
    have hfound : lastEighteen (r.lastBits ++ bits.take (j + 1)) = ringBits syncPattern := (lastEighteen_eq_iff _).mpr hsuf
    -- the bits before the match
    have hbefore : j = 0 ∧ bits.take j = [] ∨ hearBits passed (bits.take j) r =
        { r with lastBits := lastEighteen (r.lastBits ++ bits.take j) } := by
      by_cases h0 : j = 0
      · exact .inl ⟨h0, by simp [h0]⟩
      · refine .inr (hearBits_unmatched _ _ _ hm (.inl ?_) ?_)
        · intro hnil; rw [hnil] at hlen; exact h0 hlen.symm
        · intro i hi hil hi'
          rw [hlen] at hil
          refine hfirst i hi (by omega) ?_
          rwa [List.take_take, Nat.min_eq_left hil] at hi'
    have hat : hearBits passed (bits.take (j + 1)) r =
        { r with mode := .confirm, framing := some ((passed + (j + 1) + 558) % 576), position := 18, lastBits := ringBits syncPattern } := by
      rw [htake, hearBits_append, hlen]
      have hlast : shiftIn (hearBits passed (bits.take j) r).lastBits bits[j] = ringBits syncPattern := by
        rcases hbefore with ⟨h0, hnil⟩ | hb
        · rw [hnil, hearBits, shiftIn_eq]; rw [htake, hnil, List.nil_append] at hfound; exact hfound
        · rw [hb, shiftIn_eq, lastEighteen_append, List.append_assoc, ← htake]; exact hfound
      have hmode : (hearBits passed (bits.take j) r).mode = .search := by
        rcases hbefore with ⟨h0, hnil⟩ | hb
        · rw [hnil, hearBits, hm]
        · rw [hb]; exact hm
      have hsame : ∀ (f : Nat) (l : List Bool), { hearBits passed (bits.take j) r with
          mode := .confirm, framing := some f, position := 18, lastBits := l } =
          { r with mode := .confirm, framing := some f, position := 18, lastBits := l } := by
        intro f l
        rcases hbefore with ⟨h0, hnil⟩ | hb
        · rw [hnil, hearBits]
        · rw [hb]
      simp only [hearBits, hearBit, hmode, hlast, if_true]
      rw [hsame]
      congr 3
    have hrest : bits = bits.take (j + 1) ++ bits.drop (j + 1) := (List.take_append_drop _ _).symm
    conv_lhs => rw [hrest]
    rw [hearBits_append, hat, hearBits_counting _ _ _ rfl (show 18 < 576 by decide) (.inr (by simp [ringBits_length]))]
    · simp only [List.length_drop]
      congr 1
      rw [← hfound, lastEighteen_append, List.append_assoc, List.take_append_drop]
    · intro i hi hil
      rw [List.length_drop] at hil
      simp only
      omega

/-! ## A slot command (R4, R5, R15) -/

/-- In LOCKED a slot command is its slot's turn. -/
theorem atTurn_locked (event : SlotEvent) (slot : Slot) (effect : State → State) (s : State) (hm : s.receiver.mode = .locked) :
    atTurn event slot effect s = takeTurn event slot effect s := if_pos hm

/-- Outside LOCKED its bits pass, and it acts as a slot command of the state they leave where that is LOCKED with the slot whole. -/
theorem atTurn_unlocked (event : SlotEvent) (slot : Slot) (effect : State → State) (s : State) (hm : s.receiver.mode ≠ .locked) :
    atTurn event slot effect s =
      if (passSlot slot s).receiver.mode = .locked ∧ (passSlot slot s).receiver.position = 0
      then atTurn event slot effect (passSlot slot s) else .next (passSlot slot s) := by
  rw [atTurn, if_neg hm]
  by_cases h : (passSlot slot s).receiver.mode = .locked ∧ (passSlot slot s).receiver.position = 0
  · simp only [if_pos h, atTurn_locked _ _ _ _ h.1]
  · simp only [if_neg h]

/-- Everything a turn can do: the effect of the slot's own row, or a refusal. -/
theorem takeTurn_next {event : SlotEvent} {slot : Slot} {effect : State → State} {s t : State}
    (h : takeTurn event slot effect s = .next t) : slotEvent s slot = event ∧ t = effect s := by
  unfold takeTurn at h
  split at h
  · rename_i he; cases h; exact ⟨he, rfl⟩
  · cases h

end Sys2Proof.Laws
end

