-- ==== Sys2Proof/Laws/Store.lean ====
section
/-! SUPPORT. The Step Store: what a record's replacement leaves, and that it stays within its ranges. -/

namespace Sys2Proof.Safety

open Sys2Proof.Machine

/-- A record after one record is replaced. -/
theorem record_setRecord (s : State) (i j : Nat) (r : StepRecord) :
    (s.setRecord i r).record j = if j = i ∧ i < 512 then r else s.record j := by
  by_cases h : j = i
  · subst h
    by_cases hj : j < 512
    · simp [hj, State.record_setRecord_self]
    · simp [hj, State.record, State.setRecord]
  · simp [h, State.record_setRecord_ne s r h]

/-- The store's ranges depend on the records and the staged write alone. -/
theorem StoreOk.congr {s t : State} (h : StoreOk s) (hs : t.steps = s.steps) (hw : t.staged = s.staged) : StoreOk t := by
  have hr : ∀ i, t.record i = s.record i := fun i => by simp only [State.record, hs]
  exact { free := fun i => by rw [hr]; exact h.free i
          records := fun i => by rw [hr]; exact h.records i
          staged := by rw [hw]; exact h.staged }

/-- An owned record within its ranges keeps the store within its ranges. -/
theorem StoreOk.setRecord {s : State} (h : StoreOk s) (i : Nat) {r : StepRecord}
    (free : r.owner = none → r.body = .finish) (body : BodyOk 4 r.body) : StoreOk (s.setRecord i r) :=
  { free := fun j => by
      rw [record_setRecord]; split
      · exact free
      · exact h.free j
    records := fun j => by
      rw [record_setRecord]; split
      · exact body
      · exact h.records j
    staged := h.staged }

/-- Discarding the staged write keeps the store within its ranges. -/
theorem StoreOk.unstaged {s : State} (h : StoreOk s) : StoreOk { s with staged := none } :=
  { free := h.free, records := h.records, staged := fun _ hw => nomatch hw }

/-- A store of FREE records with nothing staged is within its ranges. -/
theorem StoreOk.allFree {s : State} (hs : s.steps = Vector.replicate 512 .free) (hw : s.staged = none) : StoreOk s := by
  have hr : ∀ i, s.record i = .free := by
    intro i
    simp only [State.record, hs]
    by_cases h : i < 512
    · simp [h]
    · simp [h]
  exact { free := fun i _ => by rw [hr]; rfl
          records := fun i => by rw [hr]; trivial
          staged := fun _ hm => by rw [hw] at hm; cases hm }

end Sys2Proof.Safety
end

