-- ==== Sys2Proof/WellFormed.lean ====
section
/-! DEFINITION. Which operands a row's command may carry: a slot command carries a slot of the shape its row names (R5, R7, R8).
What also depends on the state (the node's address, the receiver's state) is judged by the meanings. -/

namespace Sys2Proof

open Sys2Proof.Machine

/-- An undamaged slot with a good sync word (R8). -/
def slotUndamaged (slot : Slot) : Bool := syncGood slot && !slotDamaged slot

/-- The operands have the shape that the row names. -/
def wellFormed : Instr → Bool
  | .missedSlot slot _ => !syncGood slot
  | .damagedSlot slot => syncGood slot && slotDamaged slot
  | .slotForwarded slot =>
      slotUndamaged slot && slotKindCode slot != kindEmpty && slotKindCode slot != kindSample
  | .sampleSlotTurn slot _ => slotUndamaged slot && slotKindCode slot == kindSample
  | .requestConsumed slot => slotUndamaged slot && slotKindCode slot == kindRequest
  | .slotStripped slot =>
      slotUndamaged slot &&
        (slotKindCode slot == kindSetpoint || slotKindCode slot == kindReply || slotKindCode slot == kindEvent)
  | .emptySlotTurn slot => slotUndamaged slot && slotKindCode slot == kindEmpty
  | .powerOnReset _ => true
  | .syncFound _ bits => bits != []
  | .confirmSync _ _ => true
  | .staleTimerExpiry _ => true
  | .contactorTimerExpiry _ => true
  | .hallStopAsserted _ => true
  | .hallStopReleased => true
  | .unknownRequest => true
  | .identify => true
  | .readDeviceStatus => true
  | .setDeviceConfig => true
  | .clearDeviceFlags => true
  | .resetDevice => true
  | .setHallBudget => true
  | .writeChannelConfig => true
  | .readChannelConfig => true
  | .readChannel => true
  | .start => true
  | .programCheckCompletion => true
  | .hold => true
  | .resume => true
  | .skipStep => true
  | .stop => true
  | .clearTrip => true
  | .writeStepPart0 => true
  | .writeStepPart1 => true
  | .readStep => true
  | .freeSteps => true
  | .writeRoute => true
  | .removeRoute => true
  | .readRoutes => true
  | .writeLimits => true
  | .readLimits => true
  | .readTrip => true
  | .readCounters => true
  | .readHistory => true
  | .clearCounters => true
  | .clearCauses => true
  | .hstopNSample _ _ => true

end Sys2Proof
end

