-- ==== Sys2Proof/Tests/Slice0.lean ====
section
/-! SUPPORT. Tests of the model, each about one operation or one step on a small state, their expected results taken from the manual's
worked examples or counted by hand from its rules; and for each statement with hypotheses a witness that meets them. -/

set_option Elab.async false

namespace Sys2Proof.Tests

open Sys2Proof.Machine Sys2Proof.Safety

/-! ## Small states -/

/-- A request from node 5 with tag 77. -/
def request (kind : Nat) (args : List Word) : Request := { source := 5, tag := 77, kind := kind, args := args }

/-- A part at node address 12, LOCKED, with everything else as after reset. -/
def locked : State :=
  { State.reset with nodeAddress := 12, receiver := { Receiver.initial with mode := .locked, framing := some 3 } }

/-- A state whose only request is the one given. -/
def serving (kind : Nat) (args : List Word) (s : State) : State := { s with requestQueue := [request kind args] }

/-- A state in which a channel has a given status. -/
def status (c : Channel) (st : Status) (s : State) : State := s.modChan c (fun ch => { ch with status := st })

/-- A reading of the state an outcome holds. -/
def after {α : Type} (o : Host.Outcome State Fault Refusal) (f : State → α) : Option α :=
  match o with
  | .next t => some (f t)
  | .fault _ => none
  | .refused _ => none

/-- The outcome and the results of the last reply an outcome holds. -/
def reply (o : Host.Outcome State Fault Refusal) : Option (Option (ReplyCode × List Word)) :=
  after o (fun t => t.replyQueue.getLast?.map (fun r => (r.outcome, r.results)))

/-- A slot of a kind from a source to a destination. -/
def slot (kind : Nat) (source destination : NodeAddress) (contents : List Word) : Slot := frame kind source destination contents

/-- A sample step record with its four parts. -/
def sampleBody (kind : SampleKind) (next level budget : Nat) (predicates : List Predicate) : StepBody :=
  .sample kind next { level := some level, clamp := some 40000, budget := some budget, terminations := some predicates }

/-- Channel 2 runs step 60, CHARGE_CC with a budget of 5000 W, and holds its grant; channel 3 waits for 70,000 W at step 60 of its own
kind; channel 4 is TRIPPED. Channel 2 has routes from node 20 and the records 60 and 61. -/
def busy : State :=
  let s : State := { locked with importCap := 60000, exportCap := 20000, grants := [{ channel := 2, watts := 5000 }] }
  let s : State := { s with waits := [{ channel := 3, request := 70000, priority := 0 }] }
  let s : State := { s with routes := [⟨20, 0, 2, 224⟩, ⟨20, 1, 2, 225⟩] }
  let s := s.setRecord 60 { owner := some 2, body := sampleBody .chargeCC 61 12000 5000 [] }
  let s := s.setRecord 61 { owner := some 2, body := .finish }
  let s := s.modChan 2 (fun ch => { ch with
    config := { ch.config with converterAddress := some 20, cellCount := 1, currentMaximum := 20000, entryStep := some 60 }
    status := .running, currentStep := some 60, limitsLoaded := true
    effective := { level := some 12000, clamp := some 40000, budget := some 5000, terminations := some [] }
    staleTimer := some { startedAt := 0, length := 500 } })
  let s := status 3 .waitBudget s
  status 4 .tripped s

/-! ## Well-formed commands -/

/-- One word of a slot replaced by a word with wrong parity. -/
def spoil (s : Slot) : Slot := s.set 5 1

theorem test_missed_slot_has_bad_sync : wellFormed (.missedSlot (slot 1 9 0 []) []) = false := by decide +kernel
theorem test_damaged_slot_has_a_fault : wellFormed (.damagedSlot (slot 1 9 0 [])) = false := by decide +kernel
theorem test_forwarded_slot_is_no_sample : wellFormed (.slotForwarded (slot 1 9 0 [])) = false := by decide +kernel
theorem test_sample_slot_is_undamaged : wellFormed (.sampleSlotTurn (spoil (slot 1 9 0 [])) []) = false := by decide +kernel
theorem test_consumed_slot_is_a_request : wellFormed (.requestConsumed (slot 4 9 0 [])) = false := by decide +kernel
theorem test_stripped_slot_is_no_request : wellFormed (.slotStripped (slot 3 9 0 [])) = false := by decide +kernel
theorem test_empty_slot_is_empty : wellFormed (.emptySlotTurn (slot 2 9 0 [])) = false := by decide +kernel
theorem test_sync_found_has_bits : wellFormed (.syncFound 0 []) = false := by decide

/-! ## Slots (01, 02) -/

/-- The sync pattern is 0x5C, 1, 0xA3, 1 (01 section 1.2). -/
theorem test_sync_pattern : syncPattern = 0b010111001101000111#18 := by decide +kernel

/-- A character with an even number of ones is in error (R2). -/
theorem test_parity_error : parityGood (0b000000000000000001#18) = false := by decide +kernel

/-- The reply of 02 section 2.7: START's echo 0x13, outcome 9, tag 0x0207, results 41 and 1, from node 12 to node 0. -/
theorem test_reply_slot :
    (replySlot 12 {
      destination := 0, kind := 0x13, tag := 0x0207, outcome := .programFault
      flags := { requestOverrun := false, eventOverflow := false, anyTripped := false, hallStop := false }
      results := [41, 1] }).toList.map dataOf =
      [0x5CA3, 0x4000, 0x0C00, 0x1390, 0x0207, 41, 1] ++ List.replicate 25 0 := by decide +kernel

/-- A setpoint slot: output 1, DISCHARGE, CLOSE, 14.28 A, clamp 300 V, refresh 9, from node 12 to converter 20 (R25). -/
theorem test_setpoint_slot :
    (setpointSlot 12 {
      address := some 20, output := 1, mode := .discharge, magnitude := 1428, clamp := 30000, contactor := .close
      refresh := 9 }).toList.map dataOf =
      [0x5CA3, 0x2000, 0x0C14, 0x0121, 1428, 30000, 9] ++ List.replicate 25 0 := by decide +kernel

/-- An event slot: LIMIT of channel 1 with every field (R26; 07 section 7.9: cycle 57, 27950 against 28000, ms 8,412,300). -/
theorem test_event_slot :
    (eventSlot 12 0 {
      cls := 3, cause := .limit, channel := some 1, timeMs := 8412300, stepIndex := some 42, cycleNumber := some 57
      valueA := some 27950, valueB := some 28000, detail := 3 }).toList.map dataOf =
      [0x5CA3, 0x5000, 0x0C00, 0x310F, 2, 128, 23692, 42, 0, 57, 0, 27950, 0, 28000, 3] ++ List.replicate 17 0 := by
  decide +kernel

/-- Reading 5 of a slot is cut from its two words: index 5, marked invalid, value 7 (R22). -/
theorem test_sample_readings :
    sampleReadings (slot 1 20 0 [0, 1000, 1, 0x0500, 7]) = [{ index := 5, valid := false, value := 7 }] := by decide +kernel

/-! ## Ring Port (01) -/

theorem test_sync_found :
    after (exec (.syncFound 7 ([true, true] ++ ringBits syncPattern)) State.reset)
      (fun t => (t.receiver.mode, t.receiver.framing)) = some (.confirm, some 7) := by decide +kernel

theorem test_sync_not_found :
    after (exec (.syncFound 7 ((ringBits syncPattern).drop 1)) State.reset) (fun t => t.receiver.mode) = some .search := by
  decide +kernel

/-- A receiver in CONFIRM. -/
def confirming : State := { State.reset with receiver := { Receiver.initial with mode := .confirm, framing := some 3 } }

theorem test_confirm_sync :
    after (exec (.confirmSync (Vector.replicate 31 0) syncPattern) confirming)
      (fun t => (t.receiver.mode, t.deviceCauses, t.eventQueue.map Event.cause)) =
      some (.locked, [.linkLocked], [.linkLocked]) := by decide +kernel

theorem test_confirm_fails :
    after (exec (.confirmSync (Vector.replicate 31 0) 0) confirming) (fun t => (t.receiver.mode, t.eventQueue)) =
      some (.search, []) := by decide +kernel

/-- Reset interrupts a run, repeats the bits received meanwhile, and samples the straps at its end (R1, R195). -/
theorem test_power_on_reset :
    after (exec (.powerOnReset { bits := [true, false], straps := 7 }) busy)
      (fun t => ((t.chan 2).status, t.grants, t.ringOut, t.nodeAddress)) = some (.idle, [], .bits [true, false], 7) := by
  decide +kernel

/-- A slot that passes in SEARCH: its word 0 is the sync pattern, found at bit 0, and 558 bits follow it (R3). -/
theorem test_search_hears_a_slot :
    after (exec (.slotForwarded (slot 3 12 30 [])) State.reset)
      (fun t => (t.receiver.mode, t.receiver.framing, t.receiver.position, t.ringOut)) =
      some (.confirm, some 0, 0, .slot (slot 3 12 30 [])) := by decide +kernel

/-- A receiver in CONFIRM that has heard a whole slot since the start of the word found. -/
def confirmDue : State := { confirming with receiver := { confirming.receiver with position := 0 } }

/-- The compare falls due at the 18th bit of the slot that passes: it locks, or searches on (R4). -/
theorem test_confirm_hears_a_slot :
    after (exec (.emptySlotTurn (slot 0 63 63 [])) confirmDue) (fun t => (t.receiver.mode, t.deviceCauses)) =
      some (.locked, [.linkLocked]) ∧
    after (exec (.missedSlot ((slot 0 63 63 []).set 0 0) []) confirmDue) (fun t => (t.receiver.mode, t.deviceCauses)) =
      some (.search, []) := by decide +kernel

/-- The slot whose sync word locks the receiver is the first it interprets, at its turn (R4): a request for node 12 joins the queue, and
the LINK_LOCKED just queued leaves in the slot freed. -/
theorem test_locking_slot_takes_its_turn :
    after (exec (.requestConsumed (slot 3 1 12 [0x1200, 7])) { confirmDue with nodeAddress := 12 })
      (fun t => (t.receiver.mode, t.requestQueue.map (fun r => (r.kind, r.tag)), t.eventQueue)) = some (.locked, [(0x12, 7)], []) := by
  decide +kernel

/-- A slot whose word 0 is no sync word. -/
def missed : Slot := (slot 1 9 0 []).set 0 0

theorem test_missed_slot :
    after (exec (.missedSlot missed []) locked) (fun t => (t.receiver.missCount, t.ringOut)) = some (1, .slot missed) := by
  decide +kernel

/-- The fourth missed slot: the running and the waiting channel trip, the others stay (R5, R135). -/
theorem test_lock_lost :
    after (exec (.missedSlot missed []) { busy with receiver := { busy.receiver with missCount := 3 } })
      (fun t => (t.receiver.mode, allChannels.map (fun c => (t.chan c).status), t.grants)) =
      some (.search, [.idle, .idle, .tripped, .tripped, .tripped, .idle, .idle, .idle], []) := by decide +kernel

theorem test_damaged_slot :
    after (exec (.damagedSlot (spoil (slot 3 0 12 []))) locked) (fun t => t.ringOut) =
      some (.slot ((spoil (slot 3 0 12 [])).set 1 (ringWord 0x3800))) := by decide +kernel

theorem test_slot_forwarded :
    after (exec (.slotForwarded (slot 3 12 30 [1, 2])) { locked with receiver := { locked.receiver with missCount := 2 } })
      (fun t => (t.receiver.missCount, t.ringOut)) = some (0, .slot (slot 3 12 30 [1, 2])) := by decide +kernel

/-- The REQUEST of 02 section 2.7: START, tag 0x0207, channel 3, FRESH, with stale words behind. -/
theorem test_request_consumed :
    after (exec (.requestConsumed (slot 3 0 12 [0x1300, 0x0207, 3, 0, 99, 98])) locked)
      (fun t => t.requestQueue.map (fun r => ((r.source.toNat, r.tag.toNat, r.kind), r.args.take 2))) =
      some [((0, 0x0207, 0x13), [3, 0])] := by decide +kernel

/-- The fifth request is dropped and flagged, once (R11). -/
theorem test_request_dropped :
    after (exec (.requestConsumed (slot 3 0 12 [0x1400]))
        { locked with requestQueue := List.replicate 4 (request 0x12 []) })
      (fun t => (t.requestQueue.length, t.requestOverrun, t.deviceCauses)) = some (4, true, [.requestOverrun]) := by decide +kernel

theorem test_slot_stripped :
    after (exec (.slotStripped (slot 4 12 0 [1, 2, 3])) locked) (fun t => t.ringOut) = some (.slot freedSlot) := by decide +kernel

/-- An empty slot with nothing pending leaves as it arrived, filler and all (R21). -/
theorem test_empty_slot_forwarded :
    after (exec (.emptySlotTurn (slot 0 1 2 [7, 7])) locked) (fun t => t.ringOut) = some (.slot (slot 0 1 2 [7, 7])) := by
  decide +kernel

/-! ## The Output Arbiter: turns 1 to 3 of 01 section 1.6 -/

def outboxOf (urgent : Bool) (magnitude : Nat) : OutboxEntry :=
  { setpoint := { address := some 20, output := 0, mode := .off, magnitude := magnitude, clamp := 0, contactor := .open, refresh := 1 },
    urgent := urgent }

def claimants : State :=
  let s : State := { locked with replyQueue := [replyTo (request 0x12 []) .ok [] locked.deviceFlags] }
  let s := s.modChan 2 (fun ch => { ch with outbox := some (outboxOf false 0) })
  let s := s.modChan 5 (fun ch => { ch with outbox := some (outboxOf true 0) })
  s.modChan 6 (fun ch => { ch with outbox := some (outboxOf false 0) })

theorem test_output_urgent :
    (let t := decideSlot freedSlot claimants; (t.lastSetpointChannel, t.lastClass, (t.chan 5).outbox)) = (5, .b, none) := by
  decide +kernel

theorem test_output_class_a :
    (let t := decideSlot freedSlot (decideSlot freedSlot claimants); (t.lastSetpointChannel, t.lastClass)) = (6, .a) := by
  decide +kernel

theorem test_output_class_b :
    (let t := decideSlot freedSlot (decideSlot freedSlot (decideSlot freedSlot claimants));
      (t.lastSetpointChannel, t.lastClass, t.replyQueue.length, (t.chan 2).outbox.isSome)) = (6, .b, 0, true) := by decide +kernel

/-! ## Measurement routing (03) -/

def routed : State :=
  { locked with routes := [⟨20, 0, 0, 224⟩, ⟨20, 1, 0, 225⟩, ⟨20, 4, 1, 224⟩, ⟨20, 5, 1, 225⟩] }

/-- Readings 0, 4 and 5 of 03 section 3.6: -12000 to (0, 224), 0 to (1, 224), and an invalid one to (1, 225). -/
theorem test_sample_turn :
    after (exec (.sampleSlotTurn (slot 1 20 0 [1, 34464, 3, 0x0001, 53536, 0x0401, 0, 0x0500, 9]) []) routed)
      (fun t => ((t.chan 0).point 224, (t.chan 1).point 224, (t.chan 1).point 225, (t.chan 1).causes)) =
      some (⟨-12000, 0, true⟩, ⟨0, 0, true⟩, ⟨0, 255, false⟩, [.readingInvalid]) := by decide +kernel

/-- A channel that is not IDLE with a maximum interval of 2000 and a last stamp (03 section 3.7). -/
def paced (last : Option (BitVec 32)) : State :=
  (status 4 .tripped locked).modChan 4 (fun ch => { ch with lastStamp := last })

theorem test_gap_values :
    ((anchorEvent 9490 (paced (some 9500)) 4).chan 4).causes = [.gap] ∧
      (anchorEvent 9490 { paced (some 9500) with deviceReportLevel := 0 } 4).eventQueue = [] := by decide +kernel

theorem test_stamp_wrap :
    ((anchorEvent 296 (paced (some 4294967000)) 4).chan 4).causes = [] ∧
      ((anchorEvent 296 (paced (some 4294967000)) 4).chan 4).lastStamp = some 296 := by decide +kernel

/-- Cells 0, 1 and 3 received, cell 2 not (03 section 3.8). -/
def cells : ChannelState :=
  [(0, 36420), (1, 36455), (3, 36410)].foldl (fun ch (p, v) => setPoint p v ch)
    { ChannelState.initial with config := { ChannelConfig.initial with cellCount := 4 } }

theorem test_cell_extremes :
    (cellMaximum cells, cellMinimum cells, cellSpread cells, temperatureMaximum cells) =
      (some 36455, some 36410, some 45, none) := by decide +kernel

/-! ## Step programs (04) -/

/-- The nested loops of 04 section 4.7, LOOP 62 (target 61, next 63, count 2) and LOOP 64 (target 60, next 65, count 3). -/
theorem test_loop_push : countLoop 62 61 63 2 [⟨64, 2⟩] = some (61, [⟨62, 1⟩, ⟨64, 2⟩]) := by decide
theorem test_loop_pop : countLoop 62 61 63 2 [⟨62, 1⟩, ⟨64, 2⟩] = some (63, [⟨64, 2⟩]) := by decide
theorem test_loop_discards_above : countLoop 64 60 65 3 [⟨62, 1⟩, ⟨64, 1⟩] = some (65, []) := by decide
theorem test_loop_depth : countLoop 9 0 1 2 [⟨4, 1⟩, ⟨3, 1⟩, ⟨2, 1⟩, ⟨1, 1⟩] = none := by decide

def predicateOf (q : Quantity) (cmp : Comparison) (threshold : Int) (persistence : Nat) (outcome : PredicateOutcome) : Predicate :=
  { quantity := q, comparison := cmp, threshold := threshold, persistence := persistence, outcome := outcome }

/-- The two-phase program of 04 section 4.6, channel 5, entry step 40. -/
def twoPhase : State :=
  let rest (next : Nat) (p : Predicate) : StepBody :=
    .sample .rest next { level := none, clamp := none, budget := none, terminations := some [p] }
  [(40, sampleBody .chargeCC 41 15000 60000 [predicateOf .packVoltage .ge 40000 3 .next]),
   (41, rest 42 (predicateOf .stepTime .ge 600 1 .next)),
   (42, StepBody.sample .dischargeCC 43 {
     level := some 12000, clamp := none, budget := some 45000
     terminations := some [predicateOf .packVoltage .le 30000 3 .next, predicateOf .tempMax .ge 450 2 (.goto 47)] }),
   (43, rest 44 (predicateOf .stepTime .ge 600 1 .next)),
   (44, StepBody.loop 40 45 500 true [predicateOf .retention .lt 800 1 .finish]),
   (45, StepBody.finish),
   (47, rest 43 (predicateOf .tempMax .le 350 5 (.goto 42)))].foldl
    (fun s (i, body) => s.setRecord i { owner := some 5, body := body })
    (locked.modChan 5 (fun ch => { ch with config := { ch.config with entryStep := some 40 } }))

def walkOf (c : Channel) (entry : Nat) : Walk := { channel := c, mode := .fresh, visited := [], toVisit := [entry] }

theorem test_program_check_passes : programCheck twoPhase (walkOf 5 40) = none := by decide +kernel

theorem test_program_check_bad_link :
    programCheck (twoPhase.setRecord 45 .free) (walkOf 5 40) = some (45, .badLink) := by decide +kernel

/-- Step 42 requests its budget of 45,000 W with the sign of a discharge (R50). -/
theorem test_step_request :
    stepRequest (takeUpStep 5 42 (takeUpStep 5 40 twoPhase)) 5 = -45000 ∧
      ((takeUpStep 5 42 (takeUpStep 5 40 twoPhase)).chan 5).effective.clamp = some 40000 := by decide +kernel

/-- The LOOP record 44 reached at the end of a cycle with a charge-out, against a reference of 50000 mAh. -/
def looped (out : Nat) : State :=
  move 5 0 44 (twoPhase.modChan 5 (fun ch => { ch with
    status := .running, reference := some 50000, cycle := { ch.cycle with chargeOut := out } }))

/-- The cycle closes; a retention of 79.9 per cent ends the program, one of 92.2 per cent counts the loop (04 section 4.6; 06 section 6.8).
PROGRAM_END carries the LOOP record's index (R101). -/
theorem test_loop_predicate :
    (((looped 39996).chan 5).status, (looped 39996).eventQueue.map (fun e => (e.cause, e.stepIndex))) =
      (.disconnecting, [(.cycleEnd, some 44), (.programEnd, some 44)]) ∧
    (((looped 46123).chan 5).loopStack, (looped 46123).eventQueue.map Event.cause) = ([⟨44, 499⟩], [.cycleEnd]) := by decide +kernel

/-- Persistence 3 at the third true comparison in a row (04 section 4.4): the counter stands at 2 and the comparison is true. -/
theorem test_persistence_fires :
    (judgeStep 5 0 [predicateOf .stepTime .ge 0 3 .next] 0
      (twoPhase.modChan 5 (fun ch => { ch with persistence := ch.persistence.set 0 2 }))).1.isSome = true ∧
    (judgeStep 5 0 [predicateOf .stepTime .ge 1 3 .next] 0
      (twoPhase.modChan 5 (fun ch => { ch with persistence := ch.persistence.set 0 2 }))).1.isSome = false := by decide +kernel

/-! ## Arithmetic (06) -/

/-- The rows of 06 section 6.6, with the modes in the order NEAREST_EVEN, TOWARD_ZERO, UPWARD, DOWNWARD. -/
def rounded (qs : Int) : List Int :=
  [RoundingMode.nearestEven, .towardZero, .upward, .downward].map (fun m => roundQuotient m qs 3600000)

theorem test_rounding_ties : [1800000, 5400000, 9000000].map rounded = [[0, 0, 1, 0], [2, 1, 2, 1], [2, 2, 3, 2]] := by
  decide +kernel

theorem test_rounding_signs :
    [-1800000, -5400000, 1800001, -7200000].map rounded =
      [[0, 0, 0, -1], [-2, -1, -1, -2], [1, 0, 1, 0], [-2, -2, -2, -2]] := by decide +kernel

/-- A channel at a pack voltage of 10 mV units, RUNNING a step with a level and a budget (06 section 6.7). -/
def powered (v : Int) (mode : RoundingMode) (level budget most last : Nat) : State :=
  locked.modChan 2 (fun ch => setPoint 225 v { ch with
    config := { ch.config with rounding := mode, currentMaximum := most }
    effective := { level := some level, clamp := none, budget := some budget, terminations := some [] }
    lastMagnitude := last })

theorem test_power_setpoint :
    ((computeMagnitude 2 .dischargeCP (powered 35000 .nearestEven 5000 5000 20000 0)).1,
      (computeMagnitude 2 .chargeCP (powered 20000 .towardZero 6000 5000 2000 0)).1,
      (computeMagnitude 2 .chargeCP (powered 30000 .towardZero 6000 5000 2000 2000)).1) = (1428, 2000, 1666) := by decide +kernel

theorem test_power_setpoint_held :
    (computeMagnitude 2 .chargeCP (powered 60 .towardZero 6000 5000 2000 1666)).1 = 1666 ∧
      ((computeMagnitude 2 .chargeCP (powered 60 .towardZero 6000 5000 2000 1666)).2.chan 2).causes = [.arithInvalid] := by
  decide +kernel

/-- The first interval of 06 section 6.5: -12000 for 1000 units at 36250. -/
theorem test_integration :
    (let ch := (integrate 2 1000 (-12000) (powered 36250 .nearestEven 0 0 20000 0)).chan 2; (ch.qs, ch.es, ch.timeFine)) =
      (-12000000, -435000000000, 1000) := by decide +kernel

/-- One interval of 10 mA for 100 us in channel 2, which reports every class. -/
def saturating (qs : Int) : State :=
  integrate 2 1 1 (busy.modChan 2 (fun ch => { ch with qs := qs, config := { ch.config with reportLevel := 0 } }))

/-- Qs stops at its bound: a sum that reaches it sets no mark; one that passes it by 1 sets the mark and raises SATURATED, detail 1, value A
+1 (R107, R109). -/
theorem test_charge_saturates :
    (let t := saturating 140737488355326; ((t.chan 2).qs, (t.chan 2).chargeSaturated)) = (140737488355327, false) ∧
    (let t := saturating 140737488355327; ((t.chan 2).qs, (t.chan 2).chargeSaturated)) = (140737488355327, true) ∧
    ((saturating 140737488355327).eventQueue.filter (fun e => e.cause == .saturated)).map (fun e => (e.detail, e.valueA)) =
      [(1, some 1)] := by decide +kernel

theorem test_retention :
    (retentionOf 49210 (some 50000), retentionOf 46123 (some 50000), retentionOf 39996 (some 50000), retentionOf 50000 none) =
      (some 984, some 922, some 799, none) := by decide +kernel

/-! ## Limits, trips and the hall stop (07) -/

/-- The trip record of 07 section 7.9. -/
def cellLow : State :=
  trip 2 { cause := .limit, detail := 3, value := some 27950, threshold := some 28000, stepIndex := some 60 }
    { busy with msTime := 8412300 }

theorem test_trip_record :
    ((cellLow.chan 2).tripRecord, (cellLow.chan 2).status, cellLow.grants) =
      (some { cause := .limit, detail := 3, value := some 27950, threshold := some 28000, stepIndex := some 60, cycleNumber := 0,
              timeMs := 8412300, stateAtTrip := .running }, .tripped, []) := by decide +kernel

/-- The trip's event stands ahead of the STEP_END raised before it (R178). -/
theorem test_trip_events : cellLow.eventQueue.map Event.cause = [.limit, .stepEnd] := by decide +kernel

theorem test_stale_expiry :
    after (exec (.staleTimerExpiry 2) { busy with msTime := 500 }) (fun t => (t.chan 2).tripRecord.map TripRecord.cause) =
      some (some .anchorTimeout) := by decide +kernel

theorem test_contactor_expiry :
    after (exec (.contactorTimerExpiry 2) ((status 2 .connecting { locked with msTime := 251000 }).modChan 2
        (fun ch => { ch with contactorTimer := some { startedAt := 250000, length := 1000 }, closeCount := 3 })))
      (fun t => (t.chan 2).tripRecord.map (fun r => (r.cause, r.value, r.threshold))) =
      some (some (.connectTimeout, some 3, some 3)) := by decide +kernel

/-- 07 section 7.10: one asserted sample is not enough, the second trips the running channels. -/
theorem test_hall_stop_sample :
    after (exec (.hstopNSample true []) busy) (fun t => (t.hallStop, t.previousSample, t.msTime)) = some (false, true, 1) := by
  decide +kernel

theorem test_hall_stop_asserted :
    after (exec (.hallStopAsserted [3]) { busy with previousSample := true })
      (fun t => (t.hallStop, (t.chan 2).status, (t.chan 3).status, (t.chan 4).tripRecord)) =
      some (true, .tripped, .tripped, none) := by decide +kernel

theorem test_hall_stop_released :
    after (exec .hallStopReleased { busy with hallStop := true }) (fun t => (t.hallStop, t.deviceCauses)) =
      some (false, [.hallStopReleased]) := by decide +kernel

/-! ## The Power Budget Arbiter (08 sections 8.8 and 8.9) -/

/-- Channels 0, 1 and 2 CONNECTING with priorities 2, 1 and 3. -/
def hall : State :=
  let prio (c : Channel) (p : Fin 4) (s : State) : State :=
    (status c .connecting s).modChan c (fun ch => { ch with config := { ch.config with priority := p } })
  prio 0 2 (prio 1 1 (prio 2 3 { locked with importCap := 60000, exportCap := 20000 }))

/-- What an action leaves: the grants, the waiting channels and the net. -/
def lists (s : State) : List (Channel × Int) × List Channel × Int :=
  (s.grants.map (fun g => (g.channel, g.watts)), s.waits.map WaitEntry.channel, s.net)

def hall3 : State :=
  requestAction 2 45000 (some 2) (requestAction 1 (-30000) (some 1) (requestAction 0 40000 (some 0) hall))

theorem test_arbiter_requests : lists hall3 = ([(0, 40000), (1, -30000), (2, 45000)], [], 55000) := by decide +kernel
theorem test_arbiter_shed : lists (regrantAction 1 0 hall3) = ([(2, 45000)], [0], 45000) := by decide +kernel

theorem test_arbiter_scan_again :
    lists (regrantAction 2 (-25000) (regrantAction 1 0 hall3)) = ([(0, 40000), (2, -25000)], [], 15000) := by decide +kernel

theorem test_arbiter_cap_change :
    (let done := capChange 10000 20000 (regrantAction 2 (-25000) (regrantAction 1 0 hall3)); (lists done.1, done.2)) =
      (([], [2, 0], 0), 2) := by decide +kernel

def prefixHall : State :=
  let prio (c : Channel) (p : Fin 4) (st : Status) (s : State) : State :=
    (status c st s).modChan c (fun ch => { ch with config := { ch.config with priority := p } })
  prio 4 0 .running (prio 5 1 .running (prio 6 0 .running (prio 7 2 .connecting
    { locked with importCap := 50000, grants := [⟨4, 20000⟩, ⟨5, 15000⟩, ⟨6, 10000⟩] })))

theorem test_arbiter_shortest_prefix :
    lists (requestAction 7 25000 (some 7) prefixHall) = ([(5, 15000), (7, 25000), (6, 10000)], [4], 50000) := by decide +kernel

/-! ## Counters and events (09) -/

/-- The close of cycle 0 in 09 section 9.6. -/
def cycled : ChannelState :=
  closeCounters { ChannelState.initial with cycle := foldCycle (-49800) (-17100000) 4150 (foldCycle 50210 18300000 4200 .zero) }

theorem test_cycle_close :
    (cycled.history, cycled.reference, cycled.lastClosedOut, cycled.cycleCount, retentionNow cycled) =
      ([⟨0, ⟨50210, 49800, 18300000, 17100000, 8350⟩, none⟩], some 49800, some 49800, 1, some 1000) := by decide +kernel

def eventOf (cause : Cause) (c : Channel) : Event :=
  { cls := cause.cls, cause := cause, channel := some c, timeMs := 0, stepIndex := none, cycleNumber := none, valueA := none,
    valueB := none, detail := 0 }

/-- The full queue of 09 section 9.7: 2 of class 3, 5 of class 1, 25 of class 0. -/
def fullQueue : State :=
  { locked with eventQueue := List.replicate 2 (eventOf .limit 1) ++ List.replicate 5 (eventOf .stepEnd 1) ++
      List.replicate 25 (eventOf .readingInvalid 1) }

/-- How many entries of classes 3, 2, 1 and 0 a queue holds, and the overflow flag. -/
def classCounts (s : State) : List Nat × Bool :=
  ([3, 2, 1, 0].map (fun k => (s.eventQueue.filter (fun e => e.cls == k)).length), s.eventOverflow)

theorem test_full_queue_higher : classCounts (offerEvent (eventOf .granted 2) fullQueue) = ([2, 1, 5, 24], true) := by decide +kernel
theorem test_full_queue_equal : classCounts (offerEvent (eventOf .saturated 5) fullQueue) = ([2, 0, 5, 25], true) := by decide +kernel

/-! ## Requests -/

theorem test_unknown_request : reply (exec .unknownRequest (serving 0x7F [] locked)) = some (some (.unknownRequest, [])) := by
  decide +kernel

/-- The refusal an outcome is. -/
def refusal (o : Host.Outcome State Fault Refusal) : Option Refusal :=
  match o with
  | .next _ => none
  | .fault _ => none
  | .refused r => some r

theorem test_request_of_another_row : refusal (exec .hold (serving 0x15 [2] locked)) = some .notAtHead := by decide +kernel

theorem test_identify :
    reply (exec .identify (serving 0x01 [] locked)) =
      some (some (.ok, [0x0B1D, 2408, 3, 12, 8, 512, 2048, 32, 4, 4, 16, 4, 8])) := by decide +kernel

theorem test_read_device_status :
    reply (exec .readDeviceStatus (serving 0x02 [1] busy)) = some (some (.ok, [0, 5000, 1, 2, 0, 5000])) := by decide +kernel

theorem test_read_wait_list :
    reply (exec .readDeviceStatus (serving 0x02 [2] busy)) =
      some (some (.ok, [0, 60000, 0, 20000, 1, 1, 3, 1, 4464, 0])) := by decide +kernel

theorem test_set_device_config :
    after (exec .setDeviceConfig (serving 0x03 [40, 3] locked)) (fun t => (t.eventDestination, t.deviceReportLevel)) =
      some (40, 3) := by decide +kernel

theorem test_set_device_config_range : reply (exec .setDeviceConfig (serving 0x03 [63, 0] locked)) = some (some (.range, [])) := by
  decide +kernel

theorem test_clear_device_flags :
    reply (exec .clearDeviceFlags (serving 0x04 [] { locked with requestOverrun := true })) = some (some (.ok, [1, 0])) := by
  decide +kernel

/-- 10 section 10.7: the channels that were not IDLE, ascending, in the only reply. -/
theorem test_reset_device :
    reply (exec .resetDevice (serving 0x05 [] busy)) = some (some (.ok, [3, 2, 3, 4])) := by decide +kernel

theorem test_reset_device_state :
    after (exec .resetDevice (serving 0x05 [] busy))
      (fun t => ((t.chan 2).runOutcome, (t.chan 2).outbox.map OutboxEntry.urgent, (t.chan 1).outbox, t.grants, t.importCap)) =
      some (.reset, some true, none, [], 60000) := by decide +kernel

theorem test_set_hall_budget :
    reply (exec .setHallBudget (serving 0x06 [0, 4000, 0, 20000] busy)) = some (some (.ok, [0, 0, 1])) := by decide +kernel

theorem test_set_hall_budget_range :
    reply (exec .setHallBudget (serving 0x06 [61, 2305, 0, 0] busy)) = some (some (.range, [])) := by decide +kernel

/-- A configuration record within every range, for the channel of its first word. -/
def configWords (c : Word) : List Word := [c, 20, 1, 24, 4, 20000, 2, 3, 0, 40, 500, 1000, 3, 4, 2000]

theorem test_write_channel_config :
    after (exec .writeChannelConfig (serving 0x10 (configWords 1) busy))
      (fun t => ((t.chan 1).config.rounding, (t.chan 1).config.entryStep, (t.chan 1).config.maxInterval)) =
      some (.upward, some 40, 2000) := by decide +kernel

theorem test_write_channel_config_in_use :
    reply (exec .writeChannelConfig (serving 0x10 (configWords 2) busy)) = some (some (.inUse, [])) := by decide +kernel

theorem test_read_channel_config :
    reply (exec .readChannelConfig (serving 0x11 [2] busy)) =
      some (some (.ok, [20, 0, 1, 0, 20000, 0, 0, 1, 60, 500, 1000, 3, 4, 2000])) := by decide +kernel

theorem test_read_channel :
    reply (exec .readChannel (serving 0x12 [2, 0] busy)) =
      some (some (.ok, [3, 0, 0, 0, 0, 1, 60, 0, 0, 0, 0, 0, 0, 0, 0, 0, 0, 0, 0, 0, 0])) := by decide +kernel

/-- Channel 5 with everything START asks for. -/
def ready : State :=
  let s : State := { twoPhase with routes := [⟨20, 0, 5, 224⟩] }
  s.modChan 5 (fun ch => { ch with
    config := { ch.config with converterAddress := some 20, cellCount := 24 }, limitsLoaded := true, refreshCount := 17 })

theorem test_start_incomplete :
    reply (exec .start (serving 0x13 [5, 0] { ready with routes := [] })) = some (some (.incomplete, [5])) := by decide +kernel

theorem test_start_begins_walk :
    after (exec .start (serving 0x13 [5, 1] ready)) (fun t => (t.walk.map Walk.toVisit, t.replyQueue.length)) =
      some (some [40], 0) := by decide +kernel

def walking : State := { serving 0x13 [5, 1] ready with walk := some { walkOf 5 40 with mode := .continue } }

/-- The START of 05 section 5.8: urgent OFF/CLOSE, refresh 18, clamp 0. -/
theorem test_program_check_completion :
    after (exec .programCheckCompletion walking)
      (fun t => ((t.chan 5).status, (t.chan 5).outbox.map (fun e => (e.urgent, e.setpoint.refresh, e.setpoint.clamp,
        e.setpoint.contactor)))) = some (.connecting, some (true, 18, 0, .close)) := by decide +kernel

theorem test_program_check_fault :
    reply (exec .programCheckCompletion { walking with steps := walking.steps.set 45 .free }) =
      some (some (.programFault, [45, 1])) := by decide +kernel

theorem test_hold_running :
    after (exec .hold (serving 0x14 [2] busy)) (fun t => ((t.chan 2).status, (t.chan 2).holdPending)) = some (.running, true) := by
  decide +kernel

theorem test_hold_waiting :
    after (exec .hold (serving 0x14 [3] busy)) (fun t => ((t.chan 3).status, t.waits, (t.chan 3).causes)) =
      some (.holding, [], [.holdTaken]) := by decide +kernel

theorem test_resume_rest :
    after (exec .resume (serving 0x15 [1] (status 1 .holding busy))) (fun t => (t.chan 1).status) = some .running := by
  decide +kernel

theorem test_resume_hall_stop :
    reply (exec .resume (serving 0x15 [1] { status 1 .holding busy with hallStop := true })) = some (some (.hallStopped, [])) := by
  decide +kernel

theorem test_skip_step :
    after (exec .skipStep (serving 0x16 [2] busy)) (fun t => (t.chan 2).skipPending) = some true := by decide +kernel

theorem test_skip_step_wrong_state : reply (exec .skipStep (serving 0x16 [3] busy)) = some (some (.wrongState, [])) := by
  decide +kernel

theorem test_stop :
    after (exec .stop (serving 0x17 [2] busy)) (fun t => ((t.chan 2).status, (t.chan 2).runOutcome, t.grants, (t.chan 2).causes)) =
      some (.disconnecting, .stopped, [], [.stepEnd]) := by decide +kernel

theorem test_stop_tripped : reply (exec .stop (serving 0x17 [4] busy)) = some (some (.wrongState, [])) := by decide +kernel

theorem test_clear_trip :
    after (exec .clearTrip (serving 0x18 [4] (busy.modChan 4 (fun ch => { ch with openConfirmed := true }))))
      (fun t => ((t.chan 4).status, t.tripLineLow)) = some (.idle, false) := by decide +kernel

theorem test_clear_trip_not_safe : reply (exec .clearTrip (serving 0x18 [4] busy)) = some (some (.notSafe, [])) := by
  decide +kernel

/-- Record 42 of 04 section 4.5, written in two parts. -/
def record42 : List Word :=
  [42, 5, 0, 1, 43, 1, 0, 12000, 0, 0, 1, 0, 45000, 1, 2, 1, 3, 2, 0, 30000, 3, 0, 0]

theorem test_write_step_staged :
    after (exec .writeStepPart0 (serving 0x20 record42 locked))
      (fun t => (t.staged.map StagedWrite.count, (t.record 42).owner, t.replyQueue.map Reply.results)) =
      some (some 2, none, [[1]]) := by decide +kernel

theorem test_write_step_completed :
    after (exec .writeStepPart1 (serving 0x20 [42, 5, 1, 1, 8, 0, 0, 450, 2, 1, 47]
        { locked with staged := (readStepHead record42) }))
      (fun t => (t.record 42, t.staged)) =
      some ({ owner := some 5, body := .sample .dischargeCC 43 {
        level := some 12000, clamp := none, budget := some 45000
        terminations := some [predicateOf .packVoltage .le 30000 3 .next, predicateOf .tempMax .ge 450 2 (.goto 47)] } }, none) := by
  decide +kernel

theorem test_write_step_owned :
    reply (exec .writeStepPart0 (serving 0x20 [60, 1, 0, 6] busy)) = some (some (.owned, [])) := by decide +kernel

theorem test_write_step_part1_not_found :
    reply (exec .writeStepPart1 (serving 0x20 [42, 5, 1, 1, 8, 0, 0, 450, 2, 1, 47] locked)) = some (some (.notFound, [])) := by
  decide +kernel

theorem test_read_step :
    reply (exec .readStep (serving 0x21 [60, 0] busy)) =
      some (some (.ok, [2, 0, 61, 1, 0, 12000, 1, 40000, 1, 0, 5000, 1, 0, 0])) := by decide +kernel

theorem test_free_steps :
    reply (exec .freeSteps (serving 0x22 [5] twoPhase)) = some (some (.ok, [7])) := by decide +kernel

theorem test_write_route :
    reply (exec .writeRoute (serving 0x28 [20, 4, 1, 224] routed)) = some (some (.ok, [1, 1, 1, 224, 4])) := by decide +kernel

theorem test_write_route_duplicate :
    reply (exec .writeRoute (serving 0x28 [20, 9, 1, 224] routed)) = some (some (.duplicate, [])) := by decide +kernel

theorem test_remove_route :
    after (exec .removeRoute (serving 0x29 [20, 1] routed)) (fun t => t.routes.map Route.index) = some [0, 4, 5] := by
  decide +kernel

theorem test_remove_route_in_use : reply (exec .removeRoute (serving 0x29 [20, 1] busy)) = some (some (.inUse, [])) := by
  decide +kernel

theorem test_read_routes :
    reply (exec .readRoutes (serving 0x2A [1, 20, 0] routed)) =
      some (some (.ok, [0, 4, 2, 20, 4, 1, 224, 20, 5, 1, 225])) := by decide +kernel

/-- Limits within every range, with TEMP_LOW at -100 and the other optional entries absent. -/
def limitWords (c : Word) : List Word :=
  [c, 40000, 1, 28000, 2, 42000, 3, 28000, 3, 550, 1, 13000, 1, 65535, 0, 65436, 8, 60001, 0]

theorem test_write_limits :
    after (exec .writeLimits (serving 0x30 (limitWords 2) busy))
      (fun t => ((t.chan 2).limits.get 3, (t.chan 2).limits.get 7, (t.chan 2).limits.get 8)) =
      some (some ⟨28000, 3⟩, some ⟨-100, 8⟩, none) := by decide +kernel

theorem test_write_limits_incomplete :
    reply (exec .writeLimits (serving 0x30 [2, 40000, 1, 28000, 0] busy)) = some (some (.incomplete, [1])) := by decide +kernel

theorem test_read_limits :
    reply (exec .readLimits (serving 0x31 [1] busy)) = some (some (.ok, List.replicate 19 0)) := by decide +kernel

theorem test_read_trip :
    reply (exec .readTrip (serving 0x32 [2] cellLow)) =
      some (some (.ok, [1, 2, 3, 1, 0, 27950, 1, 0, 28000, 1, 60, 0, 0, 128, 23692, 3])) := by decide +kernel

theorem test_read_counters :
    reply (exec .readCounters (serving 0x38 [6, 0] (locked.modChan 6 (fun _ => cycled)))) =
      some (some (.ok, [0, 0, 0, 0, 0, 0, 0, 0, 0, 0, 0, 0, 0, 0, 0, 1, 1, 0, 49800, 1, 0, 49800, 1])) := by decide +kernel

theorem test_read_history :
    reply (exec .readHistory (serving 0x39 [6, 0] (locked.modChan 6 (fun _ => cycled)))) =
      some (some (.ok, [0, 0, 1, 0, 50210, 0, 49800, 279, 15456, 260, 60640, 0, 8350, 0, 0])) := by decide +kernel

theorem test_clear_counters :
    after (exec .clearCounters (serving 0x3A [6, 1] (locked.modChan 6 (fun _ => cycled))))
      (fun t => ((t.chan 6).history, (t.chan 6).cycleCount)) = some ([], 1) := by decide +kernel

/-- LIMIT named twice is listed once; STEP_END is kept (R175). -/
theorem test_clear_causes :
    (reply (exec .clearCauses (serving 0x3B [2, 3, 2, 2, 0x30] cellLow)),
      after (exec .clearCauses (serving 0x3B [2, 3, 2, 2, 0x30] cellLow)) (fun t => (t.chan 2).causes)) =
      (some (some (.ok, [1, 2])), some [.stepEnd]) := by decide +kernel

theorem test_clear_causes_of_another_target :
    reply (exec .clearCauses (serving 0x3B [8, 1, 2] cellLow)) = some (some (.range, [])) := by decide +kernel


/-! ## Witnesses: concrete states and operands that meet the hypotheses of each statement, clause by clause -/

/-- The part with commands waiting. -/
def commanded (cs : List Instr) (s : State) : State := { s with pending := cs }

theorem taken (kind : Nat) (args : List Word) (s : State) (hq : s.replyQueue.length < 4) (hw : s.walk = none) :
    Taken (serving kind args s) (request kind args) [] := ⟨rfl, hq, hw⟩

theorem witness_StepRunsFrontCommand :
    (commanded [.hold, .stop] locked).pending = .hold :: [.stop] ∧ locked.pending = [] := ⟨rfl, rfl⟩

/-- An outcome is a next state. -/
def answersNext (o : Host.Outcome State Fault Refusal) : Bool :=
  match o with
  | .next _ => true
  | .fault _ => false
  | .refused _ => false

theorem next_of {o : Host.Outcome State Fault Refusal} (h : answersNext o = true) : ∃ t, o = .next t :=
  match o, h with
  | .next t, _ => ⟨t, rfl⟩

theorem serving_channels (kind : Nat) (args : List Word) (s : State) : (serving kind args s).channels = s.channels := rfl

theorem channels_congr {s t : State} (h : ChannelsOk s) (ht : t.channels = s.channels) : ChannelsOk t := by
  intro c; simp only [State.chan, ht]; exact h c

/-! ### Invariants -/

theorem busy_queues : QueuesOk busy :=
  { events := by decide +kernel, order := by unfold EventsOrdered; decide +kernel, requests := by decide +kernel
    replies := by decide +kernel, walk := by decide +kernel }

theorem busy_routes : RoutesOk busy.routes :=
  { count := by decide +kernel, order := by decide +kernel, targets := by decide +kernel, keys := by decide +kernel }

theorem charge_body : BodyOk 4 (sampleBody .chargeCC 61 12000 5000 []) := by
  simp only [BodyOk, sampleBody, PredicatesOk, Option.mem_def, Option.some.injEq, forall_eq', List.not_mem_nil, false_implies,
    implies_true, and_true]
  decide

/-- Two owned records in an empty store. -/
theorem two_records : StoreOk
    ((locked.setRecord 60 { owner := some 2, body := sampleBody .chargeCC 61 12000 5000 [] }).setRecord 61
      { owner := some 2, body := .finish }) :=
  ((StoreOk.allFree (s := locked) rfl rfl).setRecord 60 (fun h => absurd h (by decide)) charge_body).setRecord 61 (fun _ => rfl) trivial

theorem busy_store : StoreOk busy := two_records.congr rfl rfl

theorem busy_points (c : Channel) : (busy.chan c).points = Vector.replicate 228 Point.initial := by
  fin_cases c <;> rfl

theorem busy_channels : ChannelsOk busy := fun c =>
  { config := by
      revert c
      exact fun c => { currentMaximum := by revert c; decide +kernel, maxInterval := by revert c; decide +kernel
                       maxPointAge := by revert c; decide +kernel, confirmCount := by revert c; decide +kernel }
    counts := by revert c; decide +kernel, charge := by revert c; decide +kernel, energy := by revert c; decide +kernel
    fine := by revert c; decide +kernel, coarse := by revert c; decide +kernel, magnitude := by revert c; decide +kernel
    outbox := by revert c; decide +kernel, refresh := by revert c; decide +kernel
    stack := by revert c; unfold StackOk; decide +kernel
    lifetime := by revert c; unfold LifetimeOk; decide +kernel, cycle := by revert c; unfold TotalsOk; decide +kernel
    cycleCount := by revert c; decide +kernel, history := by revert c; decide +kernel, ages := fun p => by
      simp only [ChannelState.point, busy_points c]
      rw [show (Vector.replicate 228 Point.initial).get p = Point.initial from by simp [Vector.get]]
      decide
    unloaded := by revert c; decide +kernel }

/-- With no limit entry, no predicate and every counter 0 only the configured times and the timers are left to see. -/
abbrev MonitorSeen (ch : ChannelState) : Prop :=
  (10 ≤ ch.config.staleTime ∧ ch.config.staleTime ≤ 10000 ∧ 50 ≤ ch.config.contactorTime ∧ ch.config.contactorTime ≤ 5000) ∧
    (ch.limits = Vector.replicate 9 none ∧ ch.limitCounters = Vector.replicate 9 0) ∧
    (ch.effective.terminations.getD [] = [] ∧ ch.persistence = Vector.replicate 4 0) ∧
    (∀ t ∈ ch.contactorTimer, 50 ≤ t.length ∧ t.length ≤ 5000) ∧ ∀ t ∈ ch.staleTimer, 10 ≤ t.length ∧ t.length ≤ 10000

theorem monitorOk_of (ch : ChannelState) : MonitorSeen ch → MonitorOk ch := by
  rintro ⟨times, ⟨limits, counters⟩, ⟨list, judged⟩, timers⟩
  have noEntry : ∀ id, ch.limits.get id = none := fun id => by simp [limits, Vector.get]
  have zero : ∀ id, ch.limitCounters.get id = 0 := fun id => by simp [counters, Vector.get]
  have still : ∀ k, ch.persistence.get k = 0 := fun k => by simp [judged, Vector.get]
  have nil : ∀ ps ∈ ch.effective.terminations, ps = [] := fun ps h => by
    rw [Option.mem_def] at h; rw [h] at list; exact list
  exact {
    times := times, timers := timers
    entries := fun id e h => by simp [noEntry] at h
    counters := fun id => ⟨by simp [zero], fun _ => zero id, fun e h => by simp [noEntry] at h⟩
    list := fun ps h => by rw [nil ps h]; exact ⟨by decide, by simp⟩
    judged := fun k => ⟨by simp [still], fun _ ps h p hp => by rw [nil ps h] at hp; simp at hp⟩ }

/-- What PowerOk asks of a part with no program check in flight, as one condition that can be decided. -/
abbrev PowerSeen (s : State) : Prop :=
  (s.inCaps s.net = true ∧ s.walk = none) ∧
    ((s.grants.map Grant.channel).Nodup ∧ ∀ g ∈ s.grants, g.watts ≠ 0) ∧
    ((s.waits.map WaitEntry.channel).Nodup ∧ (∀ w ∈ s.waits, w.request ≠ 0) ∧
      s.waits.Pairwise (fun a b => b.priority ≤ a.priority)) ∧
    (∀ c, c ∈ s.grants.map Grant.channel → (s.chan c).status = .running) ∧
    ∀ c, c ∈ s.waits.map WaitEntry.channel ↔ ((s.chan c).status = .waitBudget ∨ (s.chan c).status = .displaced)

theorem powerOk_of (s : State) : PowerSeen s → PowerOk s :=
  fun ⟨⟨caps, walk⟩, ⟨grantOnce, grantNot0⟩, ⟨waitOnce, waitNot0, bands⟩, granted, waiting⟩ =>
    { caps, grantOnce, waitOnce, grantNot0, waitNot0, granted, waiting, bands, walk := by rw [walk]; exact fun _ h => nomatch h }

theorem busy_power : PowerOk busy :=
  powerOk_of busy (by decide +kernel)

theorem locked_power : PowerOk locked :=
  powerOk_of locked (by decide +kernel)

theorem busy_quiet : QuietOk busy := by
  unfold QuietOk; decide +kernel

/-- One step of the busy part: its first command answers a next state. -/
def stepping : State := commanded [.staleTimerExpiry 2] { busy with msTime := 500 }

theorem stepping_next : ∃ t, step stepping = .next t := next_of (by decide +kernel)

theorem stepping_power : PowerOk stepping :=
  powerOk_of stepping (by decide +kernel)

theorem stepping_channels : ChannelsOk stepping := channels_congr busy_channels rfl

theorem stepping_routes : RoutesOk stepping.routes :=
  { count := by decide +kernel, order := by decide +kernel, targets := by decide +kernel, keys := by decide +kernel }

theorem stepping_store : StoreOk stepping := busy_store.congr rfl rfl

theorem witness_StepKeepsQueues : QueuesOk stepping ∧ ∃ t, step stepping = .next t :=
  ⟨{ events := by decide +kernel, order := by unfold EventsOrdered; decide +kernel, requests := by decide +kernel
     replies := by decide +kernel, walk := by decide +kernel }, stepping_next⟩

theorem witness_StepKeepsRouteMap : RoutesOk stepping.routes ∧ ∃ t, step stepping = .next t := ⟨stepping_routes, stepping_next⟩

theorem witness_StepKeepsStepStore : StoreOk stepping ∧ ∃ t, step stepping = .next t := ⟨stepping_store, stepping_next⟩

theorem stepping_monitors : MonitorsOk stepping := fun c => monitorOk_of _ (by revert c; decide +kernel)

theorem witness_StepKeepsChannelRanges :
    StoreOk stepping ∧ ChannelsOk stepping ∧ MonitorsOk stepping ∧ ∃ t, step stepping = .next t :=
  ⟨stepping_store, stepping_channels, stepping_monitors, stepping_next⟩

theorem witness_StepKeepsPower : PowerOk stepping ∧ ∃ t, step stepping = .next t := ⟨stepping_power, stepping_next⟩

/-- The hall stop is about to be asserted over running channels. -/
def stopping : State := commanded [.hallStopAsserted [3]] { busy with previousSample := true }

theorem witness_StepKeepsQuiet : PowerOk stopping ∧ QuietOk stopping ∧ ∃ t, step stopping = .next t :=
  ⟨powerOk_of stopping (by decide +kernel), by unfold QuietOk; decide +kernel, next_of (by decide +kernel)⟩

theorem witness_BusyChannelTablesKept :
    stepping.pending = .staleTimerExpiry 2 :: [] ∧ (∀ period, Instr.staleTimerExpiry 2 ≠ .powerOnReset period) ∧
      RoutesOk stepping.routes ∧ (∃ t, step stepping = .next t) ∧ (stepping.chan 2).atRest = false ∧
      (stepping.record 60).owner = some 2 :=
  ⟨rfl, fun _ => Instr.noConfusion, stepping_routes, stepping_next, by decide +kernel⟩

theorem witness_LifetimeCountersNeverFall :
    stepping.pending = .staleTimerExpiry 2 :: [] ∧ Instr.staleTimerExpiry 2 ≠ .clearCounters ∧
      (∀ period, Instr.staleTimerExpiry 2 ≠ .powerOnReset period) ∧ StoreOk stepping ∧ ChannelsOk stepping ∧
      ∃ t, step stepping = .next t :=
  ⟨rfl, by decide, fun _ => Instr.noConfusion, stepping_store, stepping_channels, stepping_next⟩

/-- A refused SKIP_STEP, and requests that wait for room in the reply queue and for the end of a program check. -/
theorem witness_RefusedRequestChangesNothing :
    (Instr.skipStep ∈ requestRows ∧ Taken (serving 0x16 [3] busy) (request 0x16 [3]) [] ∧ busy.replyQueue = [] ∧
      reply (exec .skipStep (serving 0x16 [3] busy)) = some (some (.wrongState, []))) ∧
    (serving 0x16 [2] { busy with replyQueue := List.replicate 4 (replyTo (request 0x12 []) .ok [] busy.deviceFlags)
      }).replyQueue.length = 4 ∧
    walking.walk.isSome = true ∧ walking.requestQueue = request 0x13 [5, 1] :: [] :=
  ⟨⟨by decide, taken _ _ _ (by decide +kernel) (by decide +kernel), by decide +kernel⟩, by decide +kernel⟩

/-! ### The Ring Port -/

/-- A match at the end of the bits, the earlier bits from before this event; and bits with no match. -/
theorem witness_SyncFoundEntersConfirm :
    (let s : State := { State.reset with receiver := { Receiver.initial with lastBits := (ringBits syncPattern).take 17 } };
      let bits := (ringBits syncPattern).drop 17;
      s.receiver.mode = .search ∧ bits ≠ [] ∧ bits.length = 1 ∧ ringBits syncPattern <:+ s.receiver.lastBits ++ bits) ∧
    (let bits := ringBits syncPattern;
      (∀ k, k < 18 → 0 < k → ¬ ringBits syncPattern <:+ State.reset.receiver.lastBits ++ bits.take k) ∧
        ringBits syncPattern <:+ State.reset.receiver.lastBits ++ bits) ∧
    ¬ ringBits syncPattern <:+ State.reset.receiver.lastBits ++ [true, false] := by decide +kernel

theorem witness_ConfirmSyncLocksOrSearches :
    confirming.receiver.mode = .confirm ∧ syncPattern = syncPattern ∧ (0 : RingWord) ≠ syncPattern := by decide +kernel

/-- The third miss in a row, and the fourth with running and waiting channels. -/
theorem witness_MissedSlotsLoseLock :
    missed.get 0 ≠ syncPattern ∧
    (let s : State := { busy with receiver := { busy.receiver with missCount := 2 } };
      s.receiver.mode = .locked ∧ s.receiver.missCount < 3) ∧
    (let s : State := { busy with receiver := { busy.receiver with missCount := 3 } };
      s.receiver.mode = .locked ∧ PowerOk s ∧ 3 ≤ s.receiver.missCount) :=
  ⟨by decide +kernel, by decide +kernel, rfl,
    powerOk_of _ (by decide +kernel), by decide⟩

/-- A slot whose damaged flag is set and whose parity is correct. -/
def flagged : Slot := (slot 1 9 0 []).set 1 (ringWord 0x1800)

theorem witness_DamagedSlotIsMarked :
    locked.receiver.mode = .locked ∧ flagged.get 0 = syncPattern ∧ damagedFlag flagged = true ∧
      parityGood (flagged.get 1) = true ∧
    ((slot 1 9 0 []).set 31 1).get 0 = syncPattern ∧ damagedFlag ((slot 1 9 0 []).set 31 1) = false ∧
      parityGood (((slot 1 9 0 []).set 31 1).get 31) = false ∧
    parityGood (((slot 1 9 0 []).set 1 1).get 1) = false := by decide +kernel

/-- What every undamaged slot of a statement meets. -/
def sound (s : Slot) : Bool := decide (s.get 0 = syncPattern) && !slotDamaged s

/-- A request to another node, one to this address at node 63, a setpoint of another node, one from node 63, and an unknown kind. -/
theorem witness_ForwardedSlotIsUnchanged :
    sound (slot 3 12 30 []) = true ∧ slotKindCode (slot 3 12 30 []) = 3 ∧ slotDestination (slot 3 12 30 []) ≠ locked.nodeAddress ∧
    sound (slot 3 0 63 []) = true ∧ ({ locked with nodeAddress := 63 } : State).nodeAddress = 63 ∧
    sound (slot 2 11 0 []) = true ∧ slotKindCode (slot 2 11 0 []) = 2 ∧ slotSource (slot 2 11 0 []) ≠ locked.nodeAddress ∧
    sound (slot 5 63 0 []) = true ∧ slotKindCode (slot 5 63 0 []) = 5 ∧
    sound (slot 15 12 12 []) = true ∧ slotKindCode (slot 15 12 12 []) = 15 := by decide +kernel

/-- A slot of zeros: none of its bits is set, so the sync pattern is nowhere in it. -/
def blank : Slot := Vector.replicate 32 0

theorem blank_bits : ∀ b ∈ blank.toList.flatMap ringBits, b = false := by decide +kernel

theorem blank_unmatched (k : Nat) : ¬ringBits syncPattern <:+ ([] : List Bool) ++ (blank.toList.flatMap ringBits).take k := fun h =>
  absurd (blank_bits true (List.mem_of_mem_take (h.subset (by decide +kernel)))) (by decide)

/-- A search with no match, and one whose first match is at the 18th bit; a compare due at the 1st, the 18th and the last of the slot's
bits, one that matches and one that does not. -/
theorem witness_UnlockedReceiverRepeatsSlots :
    State.reset.receiver.mode = .search ∧ State.reset.receiver.lastBits = [] ∧
    (let bits := (slot 3 12 30 []).toList.flatMap ringBits;
      ringBits syncPattern <:+ [] ++ bits.take 18 ∧ (∀ j, j < 18 → 0 < j → ¬ringBits syncPattern <:+ [] ++ bits.take j) ∧
      confirmDue.receiver.mode = .confirm ∧ confirmDue.receiver.position = 0 ∧ (confirmDue.receiver.position + 18) % 576 = 18 ∧
      lastEighteen (confirmDue.receiver.lastBits ++ bits.take 18) = ringBits syncPattern) ∧
    lastEighteen (confirmDue.receiver.lastBits ++ (blank.toList.flatMap ringBits).take 18) ≠ ringBits syncPattern ∧
    (17 + 1) % 576 = 18 ∧ (18 + 576) % 576 = 18 := by decide +kernel

/-- Counts 0 and 13, one reading without a route, and one with a route to the pack current of an idle channel and of a running one. -/
theorem witness_SampleSlotTurnEffect :
    locked.receiver.mode = .locked ∧ PowerOk locked ∧
    sound (slot 1 20 0 []) = true ∧ slotKindCode (slot 1 20 0 []) = 1 ∧ (slotWord (slot 1 20 0 []) 5).toNat = 0 ∧
    sound (slot 1 20 0 [0, 0, 13]) = true ∧ 12 < (slotWord (slot 1 20 0 [0, 0, 13]) 5).toNat ∧
    sound (slot 1 20 0 [0, 0, 1, 0x0900]) = true ∧
      (∀ k, k < (slotWord (slot 1 20 0 [0, 0, 1, 0x0900]) 5).toNat → findRoute routed.routes
        (slotSource (slot 1 20 0 [0, 0, 1, 0x0900])).toNat ((slotWord (slot 1 20 0 [0, 0, 1, 0x0900]) (6 + 2 * k)).toNat / 256) =
        none) ∧ (routed.chan 0).status = .idle ∧
    sampleReadings (slot 1 20 0 [0, 0, 1, 1, 100]) = [{ index := 0, valid := true, value := 100 }] ∧
      findRoute routed.routes 20 0 = some ⟨20, 0, 0, 224⟩ ∧ findRoute busy.routes 20 0 = some ⟨20, 0, 2, 224⟩ ∧
      busy.receiver.mode = .locked ∧ (busy.chan 2).status = .running :=
  ⟨rfl, locked_power, by decide +kernel⟩

/-- A reading with no route, a valid one, one with the invalid mark, and a current out of range, whose mark is clear and set. -/
theorem witness_ReadingReachesItsPoint :
    findRoute routed.routes 20 9 = none ∧
    findRoute routed.routes 20 0 = some ⟨20, 0, 0, 224⟩ ∧ valueInRange (pointKind 224) (readingValue (pointKind 224) 53536) = true ∧
    (routed.chan 0).invalidReported = false ∧
    valueInRange (pointKind 224) (readingValue (pointKind 224) 0x7FFF) = false ∧
    ((routed.modChan 0 (fun ch => { ch with invalidReported := true })).chan 0).invalidReported = true := by decide +kernel

/-- Channel 2 RUNNING with every configured point but the cell fresh, the contactor's feedback fresh and closed, and a limit on the
current that the next violation trips. -/
def watched : State :=
  busy.modChan 2 (fun ch => setPoint 225 36250 (setPoint 226 1 (setPoint 227 0 { ch with
    limits := ch.limits.set 5 (some { threshold := 13000, persistence := 1 }), closeCount := 2 })))

theorem watched_limit : LimitTrips watched 2 13001 5 { threshold := 13000, persistence := 1 } 13001 :=
  ⟨⟨by decide +kernel, rfl, by decide +kernel, fun h => absurd h (by decide)⟩, by decide +kernel⟩

/-- No other entry is present, so no other trips; and 13000 complies. -/
theorem watched_entry {current : Int} {id : Fin 9} {e : LimitEntry} {v : Int} (h : LimitTrips watched 2 current id e v) :
    id = 5 ∧ e = { threshold := 13000, persistence := 1 } ∧ 13000 < v := by
  obtain ⟨⟨he, _, hv, _⟩, _⟩ := h
  have none_at : ∀ j : Fin 9, j ≠ 5 → (watched.chan 2).limits.get j = none := by decide +kernel
  have hid : id = 5 := by
    by_contra hn
    rw [none_at id hn] at he; exact nomatch he
  subst hid
  have h5 : (watched.chan 2).limits.get 5 = some { threshold := 13000, persistence := 1 } := by decide +kernel
  rw [h5] at he
  obtain rfl := Option.some.inj he
  exact ⟨rfl, rfl, by simpa using hv⟩

/-- An idle channel, an anchor repeated, the first anchor, an interval of exactly 2000, and one of 2001; the stages of a running
channel and of a TRIPPED one; a fault code, a limit that trips and one that complies, a stale cell and a CONNECTING channel; a close
count that reaches the confirm count and one that does not, in the states that judge it. -/
theorem witness_AnchorIntervalAndClose :
    ((locked.chan 4).status = .idle ∧ ((paced (some 9)).chan 4).lastStamp = some 9 ∧ ((paced none).chan 4).lastStamp = none ∧
      ((paced none).chan 4).status ≠ .idle ∧ ((paced (some 9)).chan 4).config.maxInterval = 2000 ∧
      ((2009 : BitVec 32) - 9).toNat ≤ 2000 ∧ 2000 < ((2010 : BitVec 32) - 9).toNat) ∧
    ((busy.chan 2).status = .running ∧ (busy.chan 4).status = .tripped) ∧
    (let faulted := busy.modChan 2 (setPoint 227 9);
      ((faulted.chan 2).point 227).age < 255 ∧ ((faulted.chan 2).point 227).value ≠ 0) ∧
    ConverterFine (watched.chan 2) ∧ LimitTrips watched 2 13001 5 { threshold := 13000, persistence := 1 } 13001 ∧
    (∀ j e v, j < 5 → ¬LimitTrips watched 2 13001 j e v) ∧ (∀ id e v, ¬LimitTrips watched 2 13000 id e v) ∧
    (Configured (watched.chan 2).config 0 ∧ (watched.chan 2).config.maxPointAge < ((watched.chan 2).point 0).age) ∧
    ((status 2 .connecting watched).chan 2).status = .connecting ∧
    AllFresh ((watched.modChan 2 (setPoint 0 36000)).chan 2) ∧
    (watched.chan 2).config.confirmCount ≤ countedClosed (watched.chan 2) ∧ (watched.chan 2).config.entryStep = some 60 ∧
    countedOpen (watched.chan 2) < (watched.chan 2).config.confirmCount ∧
    (watched.chan 2).config.confirmCount ≤ countedOpen (((watched.modChan 2 (fun ch => { ch with openCount := 8 })).modChan 2
      (setPoint 226 0)).chan 2) := by
  refine ⟨by decide +kernel, by decide +kernel, by decide +kernel, Or.inr (by decide +kernel), watched_limit, ?_, ?_, ?_, by decide +kernel,
    ?_, by decide +kernel⟩
  · intro j e v hj h
    obtain ⟨rfl, -⟩ := watched_entry h
    exact absurd hj (lt_irrefl _)
  · intro id e v h
    obtain ⟨rfl, -, hlt⟩ := watched_entry h
    have : v = 13000 := h.1.2.1
    omega
  · unfold Configured; decide +kernel
  · unfold AllFresh Configured; decide +kernel

/-- The fourth request has room; the fifth finds the flag clear, then set. -/
theorem witness_RequestIsQueuedOrDropped :
    sound (slot 3 0 12 []) = true ∧ slotKindCode (slot 3 0 12 []) = 3 ∧ slotDestination (slot 3 0 12 []) = locked.nodeAddress ∧
    locked.nodeAddress ≠ 63 ∧
    ({ locked with requestQueue := List.replicate 3 (request 1 []) } : State).requestQueue.length < 4 ∧
    4 ≤ ({ locked with requestQueue := List.replicate 4 (request 1 []), requestOverrun := true } : State).requestQueue.length ∧
    locked.requestOverrun = false := by decide +kernel

theorem witness_EmptySlotsAreOffered :
    sound (slot 2 12 0 []) = true ∧ slotKindCode (slot 2 12 0 []) = 2 ∧ slotSource (slot 2 12 0 []) = locked.nodeAddress ∧
    sound (slot 5 12 0 []) = true ∧ slotKindCode (slot 5 12 0 []) = 5 ∧
    sound (slot 0 63 63 []) = true ∧ slotKindCode (slot 0 63 63 []) = 0 ∧ locked.nodeAddress ≠ 63 := by decide +kernel

/-- Addresses at their ends: converter 62 and NONE, event destination 62 (R17, R25, R187). Channel 5 is the first urgent claimant; without it channel 6 is before channel 2 after the last setpoint channel 5, with class B
served last; then class B is due; then an unaddressed setpoint and nothing else. -/
theorem witness_OutputArbiterChoice :
    ((some 62 : Option Nat).getD 63 < 64 ∧ (none : Option Nat).getD 63 < 64 ∧ (62 : Nat) < 64) ∧ claimants.nodeAddress ≠ 63 ∧
    (claimants.chan 5).outbox = some (outboxOf true 0) ∧
    (∀ d, ∀ e ∈ (claimants.chan d).outbox, e.urgent = true → e.setpoint.address ≠ none →
      (5 - claimants.lastSetpointChannel - 1 : Channel).val ≤ (d - claimants.lastSetpointChannel - 1).val) ∧
    (let s := decideSlot freedSlot claimants;
      (∀ d, ∀ e ∈ (s.chan d).outbox, e.urgent = false) ∧ (s.chan 6).outbox = some (outboxOf false 0) ∧ s.lastClass = .b ∧
      (∀ d, ∀ e ∈ (s.chan d).outbox, e.setpoint.address ≠ none →
        (6 - s.lastSetpointChannel - 1 : Channel).val ≤ (d - s.lastSetpointChannel - 1).val)) ∧
    (let s := decideSlot freedSlot (decideSlot freedSlot claimants);
      (∀ d, ∀ e ∈ (s.chan d).outbox, e.urgent = false) ∧ s.replyQueue ≠ [] ∧ s.lastClass = .a) ∧
    (let s := locked.modChan 1 (fun ch => { ch with outbox := some { outboxOf false 0 with
        setpoint := { (outboxOf false 0).setpoint with address := none } } });
      (s.chan 1).outbox.map (fun e => e.setpoint.address) = some none ∧ s.replyQueue = [] ∧ s.eventQueue = []) ∧
    ({ locked with eventQueue := [eventOf .gap 1] } : State).eventQueue ≠ [] := by decide +kernel

/-! ### Timers, trips and the hall stop -/

/-- Timers at their very length, one tick before it, and stopped. -/
theorem witness_TimerExpiriesTrip :
    (let s : State := { busy with msTime := 500 };
      ∃ tm, (s.chan 2).staleTimer = some tm ∧ tm.length ≤ (s.msTime - tm.startedAt).toNat) ∧
    (let s : State := { busy with msTime := 499 };
      ∀ tm ∈ (s.chan 2).staleTimer, (s.msTime - tm.startedAt).toNat < tm.length) ∧
    (∀ st ∈ [Status.connecting, .disconnecting],
      let s := (status 2 st { locked with msTime := 251000 }).modChan 2
        (fun ch => { ch with contactorTimer := some { startedAt := 250000, length := 1000 } });
      (s.chan 2).status = st ∧ ∃ tm, (s.chan 2).contactorTimer = some tm ∧ tm.length ≤ (s.msTime - tm.startedAt).toNat) ∧
    (∀ tm ∈ (locked.chan 2).contactorTimer, (locked.msTime - tm.startedAt).toNat < tm.length) := by
  refine ⟨⟨_, rfl, by decide +kernel⟩, by decide +kernel, ?_, by decide +kernel⟩
  intro st h
  simp only [List.mem_cons, List.not_mem_nil, or_false] at h
  rcases h with rfl | rfl <;> exact ⟨by decide +kernel, _, rfl, by decide +kernel⟩

/-- Channel 4 is TRIPPED; channel 2 runs step 60 with report level 1, and its trip finds room for both events. -/
theorem witness_TripHandling :
    PowerOk busy ∧ (busy.chan 4).atRest = true ∧ (busy.chan 2).atRest = false ∧ Cause.limit.cls = 3 ∧ cellLow.eventOverflow = false ∧
      (busy.chan 2).currentStep = some 60 ∧ (busy.chan 2).config.reportLevel.val ≤ 1 :=
  ⟨busy_power, by decide +kernel, by decide +kernel, by decide, by decide +kernel⟩

theorem witness_HallStopAssertionTripsChannels :
    PowerOk stopping ∧ stopping.hallStop = false ∧ stopping.previousSample = true ∧ (stopping.chan 2).atRest = false :=
  ⟨witness_StepKeepsQuiet.1, by decide +kernel⟩

/-- A first asserted sample, a repeated released one, and a second released one after an asserted state. -/
theorem witness_HallStopSampleAndRelease :
    true ≠ busy.previousSample ∧ false = busy.hallStop ∧
      ({ busy with hallStop := true } : State).hallStop = true ∧ ({ busy with hallStop := true } : State).previousSample = false := by
  decide +kernel

/-! ### Requests -/

theorem witness_UnknownRequestIsAnswered :
    Taken (serving 0x07 [] locked) (request 0x07 []) [] ∧ (request 0x07 []).kind ∉ [0x01, 0x02, 0x03, 0x04, 0x05, 0x06] :=
  ⟨taken _ _ _ (by decide +kernel) (by decide +kernel), by decide⟩

theorem witness_IdentifyAnswersIdentity :
    Taken (serving 0x01 [] locked) (request 0x01 []) [] ∧
      (∃ t, exec (.requestConsumed (slot 0 1 63 [])) { State.reset with nodeAddress := 63 } = .next t) :=
  ⟨taken _ _ _ (by decide +kernel) (by decide +kernel), next_of (by decide +kernel)⟩

/-- Destination 62 and level 3 are the greatest; 63 and 4 are beyond. -/
theorem witness_DeviceSettingRequests :
    Taken (serving 0x03 [62, 3] locked) (request 0x03 [62, 3]) [] ∧ argNat [62, 3] 0 ≤ 62 ∧ argNat [62, 3] 1 = (3 : Fin 4).val ∧
      62 < argNat [63, 0] 0 ∧ 3 < argNat [0, 4] 1 ∧ Taken (serving 0x04 [] locked) (request 0x04 []) [] :=
  ⟨taken _ _ _ (by decide +kernel) (by decide +kernel), by decide, by decide, by decide, by decide, taken _ _ _ (by decide +kernel) (by decide +kernel)⟩

theorem witness_ResetDeviceEffect :
    Taken (serving 0x05 [] busy) (request 0x05 []) [] ∧ (busy.chan 2).status ≠ .idle ∧ (busy.chan 2).currentStep ≠ none :=
  ⟨taken _ _ _ (by decide +kernel) (by decide +kernel), by decide +kernel⟩

/-- Caps of 4,000,000 and 4,000,001; caps that hold the present net of 5000 and caps that do not. -/
theorem witness_SetHallBudgetEffect :
    Taken (serving 0x06 [61, 2304, 61, 2304] busy) (request 0x06 [61, 2304, 61, 2304]) [] ∧
    PowerOk (serving 0x06 [61, 2304, 61, 2304] busy) ∧ arg32 [61, 2304, 61, 2304] 0 = 4000000 ∧
    arg32 [61, 2304, 61, 2304] 2 ≤ 4000000 ∧ 4000000 < arg32 [61, 2305, 0, 0] 0 ∧ 4000000 < arg32 [0, 0, 61, 2305] 2 ∧
    busy.net = 5000 ∧ ¬ busy.net ≤ (arg32 [0, 4999, 0, 0] 0 : Int) :=
  ⟨taken _ _ _ (by decide +kernel) (by decide +kernel),
    powerOk_of _ (by decide +kernel),
    by decide, by decide, by decide, by decide, by decide +kernel⟩

/-- The other clauses of SET_HALL_BUDGET: a net outside the caps; a grant taken from a channel with and without hold-pending, its event
queued; entries of a scan displaced, blocked, fitting, granted by displacing two, and failing; a channel that holds a grant, that waits,
and in neither list; regrants within the caps and outside. -/
theorem witness_SetHallBudgetEffect_clauses :
    (({ busy with importCap := 4999 } : State).inCaps busy.net = false ∧ busy.inCaps busy.net = true) ∧
    (PowerOk busy ∧ (⟨2, 5000⟩ : Grant) ∈ busy.grants ∧ (busy.chan 2).holdPending = false ∧ (busy.chan 2).config.reportLevel.val ≤ 2 ∧
      (takeGrant ⟨2, 5000⟩ 8 busy).eventOverflow = false ∧
      ((busy.modChan 2 (fun ch => { ch with holdPending := true })).chan 2).holdPending = true) ∧
    (let fits := fun k : Nat => prefixHall.inCaps
        (prefixHall.net - ((([⟨6, 10000⟩, ⟨4, 20000⟩, ⟨5, 15000⟩] : List Grant).take k).map Grant.watts).sum + 25000);
      prefixHall.inCaps (prefixHall.net + 25000) = false ∧ fits 1 = false ∧ fits 2 = true ∧
      takeOrder prefixHall (fun _ => true) = [⟨6, 10000⟩, ⟨4, 20000⟩, ⟨5, 15000⟩]) ∧
    busy.inCaps (busy.net + 55000) = true ∧ busy.inCaps (busy.net + 55001) = false ∧
    ((busy.chan 3).config.reportLevel.val ≤ 2 ∧ (grantEntry none ⟨3, 55000, 0⟩ busy).eventOverflow = false) ∧
    (HoldsGrant busy 2 ∧ Waits busy 3 ∧ NoPower busy 1) ∧
    busy.inCaps (busy.net - 5000 + 60000) = true ∧ busy.inCaps (busy.net - 5000 + 60001) = false := by
  refine ⟨by decide +kernel, ⟨busy_power, by decide +kernel⟩, by decide +kernel, by decide +kernel, by decide +kernel, by decide +kernel, ?_,
    by decide +kernel⟩
  unfold NoPower HoldsGrant Waits; decide +kernel

/-- Every field at its greatest value, and each boundary passed; channel 2 is running, channel 4 is TRIPPED. -/
theorem witness_WriteChannelConfigEffect :
    (let args : List Word := [4, 63, 3, 192, 32, 30000, 3, 3, 3, 0xFFFF, 10000, 5000, 8, 254, 10000];
      Taken (serving 0x10 args busy) (request 0x10 args) [] ∧ argNat args 0 = (4 : Channel).val ∧ argNat args 3 ≤ 192 ∧
      argNat args 9 = 0xFFFF ∧ argNat args 10 ≤ 10000 ∧ argNat args 14 ≤ 10000) ∧
    (busy.chan 2).atRest = false ∧ (busy.chan 4).atRest = true ∧
    reply (exec .writeChannelConfig (serving 0x10 [4, 63, 3, 192, 32, 30000, 3, 3, 3, 0xFFFF, 10000, 5000, 8, 254, 10000] busy)) =
      some (some (.ok, [])) ∧
    reply (exec .writeChannelConfig (serving 0x10 [4, 63, 3, 193, 32, 30000, 3, 3, 3, 0xFFFF, 10000, 5000, 8, 254, 10000] busy)) =
      some (some (.range, [])) :=
  ⟨⟨taken _ _ _ (by decide +kernel) (by decide +kernel), by decide, by decide, by decide, by decide, by decide⟩, by decide +kernel⟩

theorem witness_ReadChannelConfigResults :
    Taken (serving 0x11 [7] busy) (request 0x11 [7]) [] ∧ argNat [7] 0 = (7 : Channel).val ∧ 7 < argNat [8] 0 :=
  ⟨taken _ _ _ (by decide +kernel) (by decide +kernel), by decide, by decide⟩

/-- A complete channel, one without an anchor route, one not idle. -/
theorem witness_StartBeginsProgramCheck :
    Taken (serving 0x13 [5, 1] ready) (request 0x13 [5, 1]) [] ∧ argNat [5, 1] 0 = (5 : Channel).val ∧ argNat [5, 1] 1 ≤ 1 ∧
    (ready.chan 5).status = .idle ∧ (ready.chan 5).config.entryStep = some 40 ∧ (ready.chan 5).config.converterAddress ≠ none ∧
    (ready.chan 5).config.cellCount ≠ 0 ∧ (ready.chan 5).limitsLoaded = true ∧
    ready.routes.any (fun q => q.channel == 5 && q.point == 224) = true ∧
    (({ ready with routes := [] } : State).routes.any (fun q => q.channel == 5 && q.point == 224)) = false ∧
    (busy.chan 2).status ≠ .idle ∧ 1 < argNat [5, 2] 1 :=
  ⟨taken _ _ _ (by decide +kernel) (by decide +kernel), by decide, by decide, by decide +kernel⟩

/-- A check that finds a fault, and one that passes: with the hall stop, without lock, and with neither. -/
theorem witness_ProgramCheckCompletionEffect :
    walking.walk = some { walkOf 5 40 with mode := .continue } ∧ walking.requestQueue = request 0x13 [5, 1] :: [] ∧
    programCheck (walking.setRecord 45 .free) { walkOf 5 40 with mode := .continue } = some (45, .badLink) ∧
    programCheck walking { walkOf 5 40 with mode := .continue } = none ∧ walking.hallStop = false ∧
    walking.receiver.mode = .locked ∧
    ({ walking with receiver := State.reset.receiver } : State).receiver.mode ≠ .locked := by decide +kernel

theorem witness_ProgramCheckIsSound :
    (twoPhase.chan 5).config.entryStep = some 40 ∧
      programCheck twoPhase { channel := 5, mode := .fresh, visited := [], toVisit := [40] } = none := by decide +kernel

/-- HOLD in its states, and a pending hold at stage 5 in RUNNING, in WAIT_BUDGET and in TRIPPED. -/
theorem witness_HoldEffect :
    Taken (serving 0x14 [3] busy) (request 0x14 [3]) [] ∧ argNat [3] 0 = (3 : Channel).val ∧ 7 < argNat [8] 0 ∧
    PowerOk (serving 0x14 [3] busy) ∧ (busy.chan 3).status = .waitBudget ∧ (busy.chan 2).status = .running ∧
    (busy.chan 4).status ∉ [Status.running, .waitBudget, .displaced] ∧
    (∀ c ∈ [(2 : Channel), 3, 4],
      let s := busy.modChan c (fun ch => { ch with holdPending := true })
      (s.chan c).holdPending = true ∧ (s.chan c).status = (busy.chan c).status ∧ PowerOk s) ∧ (busy.chan 2).holdPending = false := by
  refine ⟨taken _ _ _ (by decide +kernel) (by decide +kernel), by decide, by decide,
    powerOk_of _ (by decide +kernel),
    by decide +kernel, by decide +kernel, by decide +kernel, ?_, by decide +kernel⟩
  intro c hc
  simp only [List.mem_cons, List.not_mem_nil, or_false] at hc
  rcases hc with rfl | rfl | rfl <;>
    exact ⟨by decide +kernel, by decide +kernel, powerOk_of _ (by decide +kernel)⟩

/-- Channel 1 HOLDING at step 60 of its own kind with a budget of 5000 W. -/
def holding : State := (busy.modChan 1 (fun ch => { ch with
  status := .holding, currentStep := some 60
  effective := { level := some 1, clamp := some 1, budget := some 5000, terminations := some [] } }))

theorem witness_ResumeEffect :
    Taken (serving 0x15 [1] holding) (request 0x15 [1]) [] ∧ argNat [1] 0 = (1 : Channel).val ∧ 7 < argNat [8] 0 ∧
    holding.hallStop = false ∧ PowerOk (serving 0x15 [1] holding) ∧ (holding.chan 1).status = .holding ∧
    (holding.chan 1).holdPending = false ∧ stepRequest (serving 0x15 [1] holding) 1 ≠ 0 ∧
    stepRequest (serving 0x15 [1] (status 1 .holding busy)) 1 = 0 ∧ ({ holding with hallStop := true } : State).hallStop = true ∧
    (busy.chan 2).holdPending = false ∧
    ((busy.modChan 2 (fun ch => { ch with holdPending := true })).chan 2).holdPending = true ∧
    (holding.chan 1).currentStep = some 60 ∧ ∃ kind next parts, (holding.record 60).body = .sample kind next parts :=
  ⟨taken _ _ _ (by decide +kernel) (by decide +kernel), by decide, by decide, by decide +kernel,
    powerOk_of _ (by decide +kernel),
    by decide +kernel, by decide +kernel, by decide +kernel, by decide +kernel, rfl, by decide +kernel, by decide +kernel,
    by decide +kernel, .chargeCC, 61, { level := some 12000, clamp := some 40000, budget := some 5000, terminations := some [] },
    by decide +kernel⟩

theorem witness_SkipStepEffect :
    Taken (serving 0x16 [2] busy) (request 0x16 [2]) [] ∧ argNat [2] 0 = (2 : Channel).val ∧ 7 < argNat [8] 0 ∧
      (busy.chan 2).status = .running ∧ (busy.chan 3).status ≠ .running :=
  ⟨taken _ _ _ (by decide +kernel) (by decide +kernel), by decide, by decide, by decide +kernel⟩

/-- STOP of a running channel with a current step, of a waiting one without, of an idle one and of a TRIPPED one. -/
theorem witness_StopEffect :
    Taken (serving 0x17 [2] busy) (request 0x17 [2]) [] ∧ argNat [2] 0 = (2 : Channel).val ∧ 7 < argNat [8] 0 ∧
    PowerOk (serving 0x17 [2] busy) ∧ (busy.chan 2).status = .running ∧ (busy.chan 2).currentStep = some 60 ∧
    (busy.chan 3).status = .waitBudget ∧ (busy.chan 3).currentStep = none ∧ (busy.chan 1).status = .idle ∧
    (busy.chan 4).status = .tripped :=
  ⟨taken _ _ _ (by decide +kernel) (by decide +kernel), by decide, by decide,
    powerOk_of _ (by decide +kernel),
    by decide +kernel⟩

theorem witness_ClearTripEffect :
    Taken (serving 0x18 [4] busy) (request 0x18 [4]) [] ∧ argNat [4] 0 = (4 : Channel).val ∧ 7 < argNat [8] 0 ∧
      (busy.chan 4).status = .tripped ∧ (busy.chan 4).openConfirmed = false ∧
      ((busy.modChan 4 (fun ch => { ch with openConfirmed := true })).chan 4).openConfirmed = true ∧
      (busy.chan 2).status ≠ .tripped :=
  ⟨taken _ _ _ (by decide +kernel) (by decide +kernel), by decide, by decide, by decide +kernel⟩

/-- A head with two predicates to come, a complete END record, and an index out of range; FREE, owned and foreign records. -/
theorem witness_WriteStepPart0Effect :
    Taken (serving 0x20 record42 locked) (request 0x20 record42) [] ∧ argNat record42 2 ≠ 1 ∧
    (StepHeadFits (argNat record42) ∧ StepHeadFits (argNat [511, 7, 0, 6]) ∧ ¬StepHeadFits (argNat [512, 7, 0, 6])) ∧
    (readStepHead record42).map StagedWrite.count = some 2 ∧ (readStepHead record42).map StagedWrite.owner = some 5 ∧
    (readStepHead [511, 7, 0, 6]).map (fun h => (h.index, h.owner, h.count)) = some (511, 7, 0) ∧
    (locked.record 42).owner = none ∧ (locked.chan 5).atRest = true ∧
    (busy.record 60).owner = some 2 ∧ (busy.chan 2).atRest = false :=
  ⟨taken _ _ _ (by decide +kernel) (by decide +kernel), by decide,
    ⟨by unfold StepHeadFits PredicateFits; decide +kernel, by unfold StepHeadFits PredicateFits; decide +kernel,
      by unfold StepHeadFits; simp [argNat, argWord]⟩, by decide +kernel⟩

/-- Part 1 of record 42 with its one predicate, after the head that waits for it. -/
def rest42 : List Word := [42, 5, 1, 1, 8, 0, 0, 450, 2, 1, 47]

theorem witness_WriteStepPart1Effect :
    (let s : State := { locked with staged := readStepHead record42 };
      Taken (serving 0x20 rest42 s) (request 0x20 rest42) [] ∧ argNat rest42 2 ≠ 0 ∧
      s.staged.map (fun h => (h.index, h.owner, h.count)) = some (42, 5, 2) ∧ (s.record 42).owner = none ∧
      (s.chan 5).atRest = true) ∧
    (StepRestFits (argNat rest42) ∧ ¬StepRestFits (argNat [42, 5, 1, 0])) ∧
    (readStepRest rest42).map (fun p => (p.1, p.2.1, p.2.2.length)) = some (42, 5, 1) ∧ locked.staged = none ∧
    (((busy.record 60).owner, (busy.chan 2).atRest) = (some 2, false)) :=
  ⟨⟨taken _ _ _ (by decide +kernel) (by decide +kernel), by decide, by decide +kernel⟩,
    by unfold StepRestFits PredicateFits; decide +kernel, by decide +kernel⟩

/-- Index 511, and a body with two predicates. -/
theorem witness_StepHeadRoundTrip :
    let body := sampleBody .chargeCP 511 200000 200000
      [predicateOf .tempMax .le (-2147483648) 15 (.goto 511), predicateOf .packCurrent .ne 2147483647 1 .fault]
    511 ≤ 511 ∧ BodyOk 4 body ∧ 2 ≤ body.predicates.length := by
  refine ⟨le_refl _, ?_, by decide⟩
  simp only [BodyOk, sampleBody, PredicatesOk, PredicateOk, predicateOf, OutcomeOk, Option.mem_def, Option.some.injEq,
    List.mem_cons, List.not_mem_nil, or_false, forall_eq', forall_eq_or_imp, forall_eq]
  decide

theorem witness_FreeStepsEffect :
    Taken (serving 0x22 [5] twoPhase) (request 0x22 [5]) [] ∧ argNat [5] 0 = (5 : Channel).val ∧ 7 < argNat [8] 0 ∧
      (twoPhase.chan 5).atRest = true ∧ (twoPhase.record 40).owner = some 5 ∧ (busy.chan 2).atRest = false :=
  ⟨taken _ _ _ (by decide +kernel) (by decide +kernel), by decide, by decide, by decide +kernel⟩

theorem routed_routes : RoutesOk routed.routes :=
  { count := by decide +kernel, order := by decide +kernel, targets := by decide +kernel, keys := by decide +kernel }

/-- Keys and targets at their greatest values; a new key, a key that moves, another route's target, a channel in use. -/
theorem witness_WriteRouteEffect :
    RoutesOk routed.routes ∧ Taken (serving 0x28 [62, 255, 7, 227] routed) (request 0x28 [62, 255, 7, 227]) [] ∧
    (let new : Route := ⟨62, 255, 7, 227⟩;
      new.source = argNat [62, 255, 7, 227] 0 ∧ new.point.val = argNat [62, 255, 7, 227] 3 ∧
      (∀ q ∈ routed.routes, ¬(q.source = new.source ∧ q.index = new.index)) ∧
      (∀ q ∈ routed.routes, ¬(q.channel = new.channel ∧ q.point = new.point)) ∧ (routed.chan 7).atRest = true) ∧
    (∃ q ∈ routed.routes, q.source = 20 ∧ q.index = 0 ∧ (routed.chan q.channel).atRest = true) ∧
    (∃ q ∈ routed.routes, ¬(q.source = 20 ∧ q.index = 9) ∧ q.channel = 1 ∧ q.point = 224) ∧
    62 < argNat [63, 0, 0, 0] 0 ∧ 227 < argNat [0, 0, 0, 228] 3 ∧ (busy.chan 2).atRest = false :=
  ⟨routed_routes, taken _ _ _ (by decide +kernel) (by decide +kernel), by decide +kernel, by decide +kernel, by decide +kernel, by decide, by decide,
    by decide +kernel⟩

theorem witness_RemoveRouteEffect :
    RoutesOk routed.routes ∧ Taken (serving 0x29 [20, 5] routed) (request 0x29 [20, 5]) [] ∧
    routed.routes = [⟨20, 0, 0, 224⟩, ⟨20, 1, 0, 225⟩, ⟨20, 4, 1, 224⟩] ++ ⟨20, 5, 1, 225⟩ :: [] ∧ (routed.chan 1).atRest = true ∧
    (∀ q ∈ routed.routes, ¬(q.source = 62 ∧ q.index = 255)) ∧
    busy.routes = [] ++ ⟨20, 0, 2, 224⟩ :: [⟨20, 1, 2, 225⟩] ∧ (busy.chan 2).atRest = false ∧ 255 < argNat [0, 256] 1 :=
  ⟨routed_routes, taken _ _ _ (by decide +kernel) (by decide +kernel), rfl, by decide +kernel, by decide +kernel, rfl, by decide +kernel, by decide⟩

theorem witness_ReadRoutesListing :
    RoutesOk routed.routes ∧ Taken (serving 0x2A [8, 62, 255] routed) (request 0x2A [8, 62, 255]) [] ∧ argNat [8, 62, 255] 0 ≤ 8 ∧
      argNat [8, 62, 255] 1 ≤ 62 ∧ argNat [8, 62, 255] 2 ≤ 255 ∧ 8 < argNat [9, 0, 0] 0 :=
  ⟨routed_routes, taken _ _ _ (by decide +kernel) (by decide +kernel), by decide, by decide, by decide, by decide⟩

/-- Every entry present at its greatest values, one absent, one out of range. -/
theorem witness_WriteLimitsEffect :
    (let args : List Word := [7, 60000, 8, 60000, 8, 65535, 8, 65535, 8, 1500, 8, 30000, 8, 65535, 8, 65136, 8, 30000, 8];
      Taken (serving 0x30 args busy) (request 0x30 args) [] ∧
        reply (exec .writeLimits (serving 0x30 args busy)) = some (some (.ok, []))) ∧
    argNat [2, 40000, 1, 28000, 0] 4 = 0 ∧
    reply (exec .writeLimits (serving 0x30 [2, 60001, 1] busy)) = some (some (.range, [])) :=
  ⟨⟨taken _ _ _ (by decide +kernel) (by decide +kernel), by decide +kernel⟩, by decide, by decide +kernel⟩

theorem witness_ReadLimitsResults :
    ChannelsOk (serving 0x31 [2] busy) ∧ Taken (serving 0x31 [2] busy) (request 0x31 [2]) [] ∧ argNat [2] 0 = (2 : Channel).val ∧
      (busy.chan 2).limitsLoaded = true ∧ (busy.chan 1).limitsLoaded = false ∧ 7 < argNat [8] 0 :=
  ⟨channels_congr busy_channels (serving_channels _ _ _), taken _ _ _ (by decide +kernel) (by decide +kernel), by decide, by decide +kernel⟩

theorem witness_ReadTripResults :
    Taken (serving 0x32 [2] cellLow) (request 0x32 [2]) [] ∧ argNat [2] 0 = (2 : Channel).val ∧
      (cellLow.chan 2).tripRecord.isSome = true ∧ (busy.chan 2).tripRecord = none ∧ 7 < argNat [8] 0 :=
  ⟨taken _ _ _ (by decide +kernel) (by decide +kernel), by decide, by decide +kernel⟩

theorem busy_record60 : ∃ kind next parts, (busy.record 60).body = .sample kind next parts :=
  ⟨.chargeCC, 61, { level := some 12000, clamp := some 40000, budget := some 5000, terminations := some [] }, by decide +kernel⟩

theorem twoPhase_record44 : ∃ target next count flag ps, (twoPhase.record 44).body = .loop target next count flag ps :=
  ⟨40, 45, 500, true, [predicateOf .retention .lt 800 1 .finish], by decide +kernel⟩

/-- Every selector at its greatest value and one beyond; a record of each kind. -/
theorem witness_ReadRequestsAnswerState :
    Taken (serving 0x02 [3] busy) (request 0x02 [3]) [] ∧ 3 < argNat [4] 0 ∧
    Taken (serving 0x12 [7, 2] busy) (request 0x12 [7, 2]) [] ∧ 2 < argNat [7, 3] 1 ∧
    Taken (serving 0x21 [511, 1] busy) (request 0x21 [511, 1]) [] ∧ 511 < argNat [512, 0] 0 ∧
    Taken (serving 0x38 [7, 1] busy) (request 0x38 [7, 1]) [] ∧ 1 < argNat [7, 2] 1 ∧
    Taken (serving 0x39 [7, 15] busy) (request 0x39 [7, 15]) [] ∧ 15 < argNat [7, 16] 1 ∧
    (∃ kind next parts, (busy.record 60).body = .sample kind next parts) ∧
    (∃ target next count cycle ps, (twoPhase.record 44).body = .loop target next count cycle ps) ∧
    (busy.record 61).body = .finish :=
  ⟨taken _ _ _ (by decide +kernel) (by decide +kernel), by decide, taken _ _ _ (by decide +kernel) (by decide +kernel), by decide, taken _ _ _ (by decide +kernel) (by decide +kernel), by decide,
    taken _ _ _ (by decide +kernel) (by decide +kernel), by decide, taken _ _ _ (by decide +kernel) (by decide +kernel), by decide,
    busy_record60, twoPhase_record44, by decide +kernel⟩

/-- Channel 7 with all three selectors; causes of a channel and of the device, each in its own target. -/
theorem witness_ClearingRequests :
    Taken (serving 0x3A [7, 2] busy) (request 0x3A [7, 2]) [] ∧ 2 < argNat [7, 3] 1 ∧
    Taken (serving 0x3B [8, 1, 0x20] locked) (request 0x3B [8, 1, 0x20]) [] ∧ argNat [8, 1, 0x20] 0 = 8 ∧
    (∃ cause : Cause, cause.code = 0x20 ∧ cause.ofDevice = false) ∧ (∃ cause : Cause, cause.code = 2 ∧ cause.ofDevice = false) ∧
    (∃ cause : Cause, cause.code = Cause.linkLocked.code ∧ cause.ofDevice = true) ∧ 22 < argNat [8, 23] 1 :=
  ⟨taken _ _ _ (by decide +kernel) (by decide +kernel), by decide, taken _ _ _ (by decide +kernel) (by decide +kernel), by decide, ⟨.displaced, by decide⟩, ⟨.limit, by decide⟩,
    ⟨.linkLocked, by decide⟩, by decide⟩

/-! ### Arithmetic and queues -/

theorem witness_RoundingFunction : (0 : Int) < 3600000 ∧ (3600000 : Int) ∣ 7200000 ∧ ¬ (3600000 : Int) ∣ 1800000 := by decide

/-- The greatest interval, a step time at its bound and below it, a pack voltage old and fresh. -/
theorem witness_IntegrationAddsInterval :
    ChannelOk (busy.chan 2) ∧ 10000 ≤ 10000 ∧ (busy.chan 2).config.maxPointAge < ((busy.chan 2).point 225).age ∧
    (((powered 36250 .nearestEven 0 0 0 0).chan 2).point 225).age ≤ ((powered 36250 .nearestEven 0 0 0 0).chan 2).config.maxPointAge ∧
    (busy.chan 2).timeCoarse < 4294967295 ∧ 10000 ≤ (busy.chan 2).timeFine + 10000 :=
  ⟨busy_channels 2, le_refl _, by decide +kernel⟩

theorem witness_EventQueuePolicy :
    EventsOrdered fullQueue.eventQueue ∧ fullQueue.eventQueue.length = 32 ∧
      fullQueue.eventQueue = fullQueue.eventQueue.dropLast ++ [eventOf .readingInvalid 1] ∧
      fullQueue.eventQueue.dropLast.length = 31 ∧
      (eventOf .readingInvalid 1).cls < (eventOf .granted 2).cls ∧ (eventOf .saturated 5).cls ≤ (eventOf .readingInvalid 1).cls ∧
      locked.eventQueue.length < 32 :=
  ⟨by unfold EventsOrdered; decide +kernel, by decide +kernel, by decide +kernel, by decide +kernel, by decide, by decide, by decide⟩

/-- Channel 2 RUNNING its CC step at a pack voltage: none received, and exactly 100. -/
def driving (v : Int) : State := busy.modChan 2 (setPoint 225 v)

theorem busy_drives : Drives busy 2 .chargeCC :=
  ⟨by decide +kernel, by decide, 60, 61,
    { level := some 12000, clamp := some 40000, budget := some 5000, terminations := some [] }, by decide +kernel⟩

/-- The last magnitude within the current maximum; a CC step with no pack voltage and with one of exactly 100, where the budget sets the
magnitude and where it does not; channel 3 waits. -/
theorem witness_SetpointProduction :
    Drives busy 2 .chargeCC ∧ (∀ kind, ¬Drives busy 3 kind) ∧
    ((busy.chan 2).point 225).age > (busy.chan 2).config.maxPointAge ∧
    (let ch := (driving 100).chan 2;
      ch.lastMagnitude ≤ ch.config.currentMaximum ∧ (ch.point 225).age ≤ ch.config.maxPointAge ∧ (ch.point 225).value = (100 : Nat)) ∧
    (let ch := (driving 40000).chan 2;
      (ch.point 225).value = (40000 : Nat) ∧ 5000 * 10000 / 40000 < 12000 ∧ 5000 * 10000 / 40000 ≤ ch.config.currentMaximum ∧
        ch.budgetLimited = false) :=
  ⟨busy_drives, fun _ h => absurd h.1 (by decide +kernel), by decide +kernel⟩

/-- Channel 2 RUNNING step 60 with one predicate on the step time, which stands at 0. -/
def judging (threshold : Int) (persistence : Nat) : State :=
  busy.modChan 2 (fun ch => { ch with
    effective := { ch.effective with terminations := some [predicateOf .stepTime .ge threshold persistence .next] } })

theorem judging_fires : Fires ((judging 0 1).chan 2) 0 0 (predicateOf .stepTime .ge 0 1 .next) 0 :=
  ⟨by decide +kernel,
    ⟨show (0 : Int) = ((judging 0 1).chan 2).timeCoarse by decide +kernel, show (0 : Int) ≤ 0 from le_refl 0⟩, by decide +kernel⟩

theorem judging_waits (threshold : Int) (persistence : Nat) (h : 0 < threshold ∨ 1 < persistence) (k : Nat) (p : Predicate) (v : Int) :
    ¬Fires ((judging threshold persistence).chan 2) 0 k p v := by
  rintro ⟨hp, ⟨hq, hc⟩, hn⟩
  have hl : effectiveList ((judging threshold persistence).chan 2) = [predicateOf .stepTime .ge threshold persistence .next] := by
    simp [effectiveList, judging]
  have ht : ((judging threshold persistence).chan 2).timeCoarse = 0 := by
    simp only [judging, State.chan_modChan_self]; decide +kernel
  have hs : ((judging threshold persistence).chan 2).persistence = (busy.chan 2).persistence := by
    simp only [judging, State.chan_modChan_self]
  have hz : (busy.chan 2).persistence[0]?.getD 0 = 0 := by decide +kernel
  rw [hl] at hp
  match k, hp with
  | 0, hp =>
    obtain rfl := Option.some.inj hp
    simp only [predicateOf, QuantityIs, ht, hs, hz] at hq hc hn
    rcases h with h | h <;> omega

/-- A predicate that fires, one that is false and one that waits for its persistence; a LOOP record's list that fires and one that does not; a
record of each kind to move to; a program that ends; a traversal count of 15 and of 16; a history of 15 and of 16 records; and the count: count 1; count 2 with three entries; count 2 with four; a record found
under another with 1 and with 2 left. -/
theorem witness_LoopCounting :
    ((busy.chan 2).currentStep = some 60 ∧ Fires ((judging 0 1).chan 2) 0 0 (predicateOf .stepTime .ge 0 1 .next) 0 ∧
      (∀ k p v, ¬Fires ((judging 1 1).chan 2) 0 k p v) ∧ ∀ k p v, ¬Fires ((judging 0 2).chan 2) 0 k p v) ∧
    (LoopFires ((judging 0 1).chan 2) 0 [predicateOf .stepTime .ge 0 1 .next] 0 (predicateOf .stepTime .ge 0 1 .next) 0 ∧
      ∀ k p v, ¬LoopFires ((judging 0 1).chan 2) 0 [] k p v) ∧
    (PowerOk busy ∧ (endProgram 2 61 busy).eventOverflow = false) ∧
    ((∃ kind next parts, (busy.record 60).body = .sample kind next parts) ∧ (busy.record 61).body = .finish ∧ (busy.record 61).owner ≠ none ∧
      (∃ target next count flag ps, (twoPhase.record 44).body = .loop target next count flag ps) ∧ 15 < 16 ∧ 16 ≤ 16) ∧
    ((busy.chan 2).currentStep ≠ none ∧ (busy.chan 3).currentStep = none ∧ (busy.chan 2).config.reportLevel.val ≤ 1 ∧
      (endStep 2 4 busy).eventOverflow = false ∧ (closeCycle 2 44 busy).eventOverflow = false ∧ (busy.chan 2).history.length ≤ 16) ∧
    (∀ e ∈ [LoopEntry.mk 1 1, ⟨2, 1⟩, ⟨3, 1⟩], e.index ≠ 9) ∧ [LoopEntry.mk 1 1, ⟨2, 1⟩, ⟨3, 1⟩].length < 4 ∧
    4 ≤ [LoopEntry.mk 1 1, ⟨2, 1⟩, ⟨3, 1⟩, ⟨4, 1⟩].length ∧
    [LoopEntry.mk 1 1, ⟨9, 2⟩, ⟨3, 1⟩] = [⟨1, 1⟩] ++ ⟨9, 2⟩ :: [⟨3, 1⟩] ∧
    [LoopEntry.mk 1 1, ⟨9, 1⟩] = [⟨1, 1⟩] ++ ⟨9, 1⟩ :: [] ∧ (∀ e ∈ [LoopEntry.mk 1 1], e.index ≠ 9) := by
  refine ⟨⟨by decide +kernel, judging_fires, judging_waits 1 1 (.inl (by decide)), judging_waits 0 2 (.inr (by decide))⟩,
    ⟨⟨by decide, judging_fires.2.1⟩, fun _ _ _ h => by simp [LoopFires] at h⟩, ⟨busy_power, by decide +kernel⟩,
    ⟨busy_record60, by decide +kernel, by decide +kernel, twoPhase_record44, by decide, le_refl _⟩, by decide +kernel,
    by decide, by decide, by decide, by decide, by decide, by decide⟩

end Sys2Proof.Tests
end

section
/-! PROOF. The turn of a slot in LOCKED: which row the slot falls to (R5, R7, R8, R13), and what a device cause leaves (R174). -/

namespace Sys2Proof.Proofs

open Sys2Proof.Machine Sys2Proof.Safety Sys2Proof.Laws

/-! ## The row a slot falls to -/

section
variable {s : State} {slot : Slot}

theorem slotEvent_missed (h : slot.get 0 ≠ syncPattern) : slotEvent s slot = .missed := by
  simp [slotEvent, syncGood, h]

theorem slotEvent_damaged (h : slot.get 0 = syncPattern) (hd : slotDamaged slot = true) : slotEvent s slot = .damaged := by
  simp [slotEvent, syncGood, h, hd]

variable (h : slot.get 0 = syncPattern) (hd : slotDamaged slot = false)
include h hd

theorem slotEvent_empty (hk : slotKindCode slot = 0) : slotEvent s slot = .empty := by
  simp [slotEvent, syncGood, h, hd, hk]

theorem slotEvent_sample (hk : slotKindCode slot = 1) : slotEvent s slot = .sample := by
  simp [slotEvent, syncGood, h, hd, hk]

theorem slotEvent_request (hk : slotKindCode slot = 3) :
    slotEvent s slot = if slotDestination slot = s.nodeAddress ∧ s.nodeAddress ≠ 63 then .consumed else .forwarded := by
  simp [slotEvent, syncGood, h, hd, hk, State.takesPart, and_comm]

theorem slotEvent_own (hk : slotKindCode slot = 2 ∨ slotKindCode slot = 4 ∨ slotKindCode slot = 5) :
    slotEvent s slot = if slotSource slot = s.nodeAddress ∧ s.nodeAddress ≠ 63 then .stripped else .forwarded := by
  rcases hk with hk | hk | hk <;> simp [slotEvent, syncGood, h, hd, hk, State.takesPart, and_comm]

theorem slotEvent_unknown (hk : 5 < slotKindCode slot) : slotEvent s slot = .forwarded := by
  obtain ⟨n, hn⟩ : ∃ n, slotKindCode slot = n + 6 := ⟨slotKindCode slot - 6, by omega⟩
  simp [slotEvent, syncGood, h, hd, hn]

end

/-- In LOCKED the command that names the slot's own row has that row's effect. -/
theorem atTurn_own {event : SlotEvent} {slot : Slot} {s : State} (effect : State → State) (hm : s.receiver.mode = .locked)
    (he : slotEvent s slot = event) : atTurn event slot effect s = .next (effect s) := by
  rw [atTurn_locked _ _ _ _ hm, takeTurn, if_pos he]

/-! ## Device causes -/

theorem mem_withCause (cause : Cause) (flags : List Cause) : cause ∈ withCause cause flags := by
  have hall : cause ∈ allCauses := by cases cause <;> decide
  simp [withCause, hall]

theorem mem_deviceCauses_raiseDevice (cause : Cause) (s : State) : cause ∈ (raiseDevice cause s).deviceCauses := by
  obtain ⟨q, o, h⟩ := raiseDevice_eq cause s
  rw [h]; exact mem_withCause cause _

@[simp] theorem receiver_raiseDevice (cause : Cause) (s : State) : (raiseDevice cause s).receiver = s.receiver := by
  obtain ⟨q, o, h⟩ := raiseDevice_eq cause s
  rw [h]

end Sys2Proof.Proofs
end

section
/-! PROOF. The receiver's two synchronising rows, SYNC_FOUND and CONFIRM_SYNC (R3, R4). -/

namespace Sys2Proof.Proofs

open Sys2Proof.Machine Sys2Proof.Safety Sys2Proof.Laws

/-! ## The search over the bits of SYNC_FOUND (R3) -/

/-- The pattern is not the last received after any of the first `n` bits. -/
def UnmatchedBelow (n : Nat) (last bits : List Bool) : Prop :=
  ∀ k, 0 < k → k < n → ¬ringBits syncPattern <:+ last ++ bits.take k

/-- Matches further on are the same whether all bits received before are remembered or the last 18 of them. -/
theorem suffix_lastEighteen_append (w : RingWord) (l m : List Bool) :
    ringBits w <:+ lastEighteen l ++ m ↔ ringBits w <:+ l ++ m := by
  rw [← lastEighteen_eq_iff, ← lastEighteen_eq_iff, lastEighteen_append]

theorem UnmatchedBelow.head {n : Nat} {last rest : List Bool} {b : Bool} (h : UnmatchedBelow n last (b :: rest)) (hn : 1 < n) :
    shiftIn last b ≠ ringBits syncPattern := by
  rw [shiftIn_eq, Ne, lastEighteen_eq_iff]
  exact h 1 Nat.one_pos hn

theorem UnmatchedBelow.tail {n : Nat} {last rest : List Bool} {b : Bool} (h : UnmatchedBelow (n + 1) last (b :: rest)) :
    UnmatchedBelow n (shiftIn last b) rest := by
  intro k hk hkn hsuf
  rw [shiftIn_eq, suffix_lastEighteen_append, List.append_assoc, List.singleton_append] at hsuf
  exact h (k + 1) (Nat.succ_pos k) (by omega) hsuf

/-- A search that matches nowhere remembers the last 18 bits. -/
theorem searchSync_unmatched {last bits : List Bool} (hne : bits ≠ [] ∨ last.length ≤ 18)
    (h : UnmatchedBelow (bits.length + 1) last bits) : searchSync last bits = (none, lastEighteen (last ++ bits)) := by
  induction bits generalizing last with
  | nil =>
    have hl : last.length ≤ 18 := by simpa using hne
    simp [searchSync, lastEighteen_of_short hl]
  | cons b rest ih =>
    have hshort : (shiftIn last b).length ≤ 18 := by rw [shiftIn_eq]; exact lastEighteen_length _
    rw [searchSync, if_neg (h.head (by simp)), ih (.inr hshort) h.tail, shiftIn_eq, lastEighteen_append, List.append_assoc,
      List.singleton_append]

/-- A search whose first match is at the end of the bits leaves none of them over. -/
theorem searchSync_matched {last bits : List Bool} (hne : bits ≠ []) (h : UnmatchedBelow bits.length last bits)
    (hmatch : ringBits syncPattern <:+ last ++ bits) : searchSync last bits = (some [], ringBits syncPattern) := by
  induction bits generalizing last with
  | nil => exact absurd rfl hne
  | cons b rest ih =>
    cases rest with
    | nil =>
      have hb : shiftIn last b = ringBits syncPattern := by rw [shiftIn_eq]; exact (lastEighteen_eq_iff _).mpr hmatch
      rw [searchSync, if_pos hb, hb]
    | cons b' rest =>
      have hlater : ringBits syncPattern <:+ shiftIn last b ++ b' :: rest := by
        rw [shiftIn_eq, suffix_lastEighteen_append, List.append_assoc]; exact hmatch
      rw [searchSync, if_neg (h.head (by simp)), ih (List.cons_ne_nil _ _) h.tail hlater]

/-- Settles O13: the search's two outcomes, a first match at the end of the bits and none at all. -/
theorem syncFoundEntersConfirm : Obligations.SyncFoundEntersConfirm := by
  intro position bits s hmode hne hearlier
  have hsearch : exec (.syncFound position bits) s = execSyncFound position bits s := rfl
  have hnot : ¬s.receiver.mode ≠ .search := not_not_intro hmode
  constructor
  · intro hmatch
    rw [hsearch, execSyncFound, if_neg hnot, searchSync_matched hne hearlier hmatch]
  · intro hmiss
    have hnowhere : UnmatchedBelow (bits.length + 1) s.receiver.lastBits bits := by
      intro k hk hkl
      rcases Nat.lt_succ_iff_lt_or_eq.mp hkl with hlt | rfl
      · exact hearlier k hk hlt
      · rw [List.take_length]; exact hmiss
    rw [hsearch, execSyncFound, if_neg hnot, searchSync_unmatched (.inl hne) hnowhere]
    rfl

/-! ## The compare of CONFIRM_SYNC (R4) -/

/-- Settles O14: the compare's two outcomes. -/
theorem confirmSyncLocksOrSearches : Obligations.ConfirmSyncLocksOrSearches := by
  intro rest sync s hmode
  have hnot : ¬s.receiver.mode ≠ .confirm := not_not_intro hmode
  have hconfirm : exec (.confirmSync rest sync) s = execConfirmSync rest sync s := rfl
  constructor
  · intro hmatch
    refine ⟨_, by rw [hconfirm, execConfirmSync, if_neg hnot, if_pos hmatch], rfl, ?_, mem_deviceCauses_raiseDevice _ _⟩
    rw [receiver_raiseDevice]
  · intro hmiss
    rw [hconfirm, execConfirmSync, if_neg hnot, if_neg hmiss]
    rfl

end Sys2Proof.Proofs
end

section
/-! PROOF. Words and frames (R2, R7, R20, R21): what a word with correct parity holds, what a written frame reads as. -/

namespace Sys2Proof.Proofs

open Sys2Proof.Machine Sys2Proof.Safety Sys2Proof.Laws

/-! ## Words with parity -/

/-- The 18 bits of a word as the part writes it: each byte stands over its parity bit. -/
theorem getLsbD_ringWord (w : Word) (i : Nat) : (ringWord w).getLsbD i =
    if i < 9 then (if i = 0 then parityBit (w.extractLsb' 0 8) else w.getLsbD (i - 1))
    else if i = 9 then parityBit (w.extractLsb' 8 8) else i < 18 && w.getLsbD (i - 2) := by
  unfold ringWord
  simp only [BitVec.getLsbD_append, BitVec.getLsbD_ofBool, BitVec.getLsbD_extractLsb']
  by_cases h9 : i < 9
  · by_cases h0 : i = 0
    · simp [h0]
    · have h1 : ¬i < 1 := by omega
      have h8 : i - 1 < 8 := by omega
      simp [h9, h0, h1, h8]
  · by_cases h : i = 9
    · simp [h]
    · have h1 : ¬i - 9 < 1 := by omega
      have h8 : i - 9 - 1 < 8 ↔ i < 18 := by omega
      have h2 : 8 + (i - 9 - 1) = i - 2 := by omega
      simp [h9, h, h1, h8, h2]

theorem getLsbD_dataOf (w : RingWord) (i : Nat) : (dataOf w).getLsbD i =
    if i < 8 then w.getLsbD (1 + i) else i < 16 && w.getLsbD (2 + i) := by
  unfold dataOf highByte lowByte
  simp only [BitVec.getLsbD_append, BitVec.getLsbD_extractLsb']
  by_cases h : i < 8
  · simp [h]
  · have h8 : i - 8 < 8 ↔ i < 16 := by omega
    have h2 : 10 + (i - 8) = 2 + i := by omega
    simp [h, h8, h2]

/-- A word survives the addition of its parity bits. -/
@[simp] theorem dataOf_ringWord (w : Word) : dataOf (ringWord w) = w := by
  apply BitVec.eq_of_getLsbD_eq
  intro i hi
  rw [getLsbD_dataOf, getLsbD_ringWord, getLsbD_ringWord]
  by_cases h : i < 8
  · have h9 : 1 + i < 9 := by omega
    simp [h, h9]
  · have h9 : ¬2 + i < 9 := by omega
    have h9' : 2 + i ≠ 9 := by omega
    have h18 : 2 + i < 18 := by omega
    simp [h, h9, h9', hi, h18]

theorem highByte_eq (w : RingWord) : highByte w = (dataOf w).extractLsb' 8 8 := by
  apply BitVec.eq_of_getLsbD_eq
  intro i hi
  have h8 : ¬8 + i < 8 := by omega
  have h16 : 8 + i < 16 := by omega
  have h10 : 2 + (8 + i) = 10 + i := by omega
  rw [highByte, BitVec.getLsbD_extractLsb', BitVec.getLsbD_extractLsb', getLsbD_dataOf, if_neg h8, h10]
  simp [h16]

theorem lowByte_eq (w : RingWord) : lowByte w = (dataOf w).extractLsb' 0 8 := by
  apply BitVec.eq_of_getLsbD_eq
  intro i hi
  simp [lowByte, getLsbD_dataOf, hi]

/-- The part writes correct parity in both characters (R2). -/
@[simp] theorem parityGood_ringWord (w : Word) : parityGood (ringWord w) = true := by
  simp only [parityGood, highByte_eq, lowByte_eq, dataOf_ringWord, getLsbD_ringWord]
  simp

/-- A word received with correct parity is the one its data gives (R2). -/
theorem ringWord_dataOf {w : RingWord} (h : parityGood w = true) : ringWord (dataOf w) = w := by
  obtain ⟨hhigh, hlow⟩ : w.getLsbD 9 = parityBit (highByte w) ∧ w.getLsbD 0 = parityBit (lowByte w) := by
    simpa only [parityGood, Bool.and_eq_true, beq_iff_eq] using h
  apply BitVec.eq_of_getLsbD_eq
  intro i hi
  rw [getLsbD_ringWord, getLsbD_dataOf, getLsbD_dataOf, ← highByte_eq, ← lowByte_eq, ← hhigh, ← hlow]
  by_cases h0 : i = 0
  · simp [h0]
  by_cases h9 : i = 9
  · simp [h9]
  by_cases hlt : i < 9
  · have h8 : i - 1 < 8 := by omega
    have h1 : 1 + (i - 1) = i := by omega
    simp [h0, hlt, h8, h1]
  · have h8 : ¬i - 2 < 8 := by omega
    have h16 : i - 2 < 16 := by omega
    have h2 : 2 + (i - 2) = i := by omega
    simp [h9, hlt, h8, h16, h2, hi]

/-! ## Slots -/

theorem slotWord_get (slot : Slot) (i : Fin 32) : slotWord slot i.val = dataOf (slot.get i) := by
  simp [slotWord, Vector.get_eq_getElem]

/-- A slot with the words given, zero in every other word and correct parity in every character (R2, R20, R21). -/
structure Holds (slot : Slot) (words : List Nat) : Prop where
  sync   : slot.get 0 = syncPattern
  parity : ∀ i : Fin 32, parityGood (slot.get i) = true
  words  : ∀ i, i < 32 → slotWord slot i = BitVec.ofNat 16 (words.getD i 0)

theorem get_slotOfWords (ws : List Word) (i : Fin 32) : (slotOfWords ws).get i = ringWord (ws.getD i.val 0) := by
  simp [slotOfWords, Vector.get_eq_getElem]

/-- A slot written from data words that begin with the sync word. -/
theorem holds_slotOfWords {ws : List Word} {words : List Nat} (hsync : ws.getD 0 0 = syncWord)
    (h : ws = words.map (BitVec.ofNat 16)) : Holds (slotOfWords ws) words where
  sync := by rw [get_slotOfWords]; exact congrArg ringWord hsync
  parity := fun i => by rw [get_slotOfWords, parityGood_ringWord]
  words := fun i hi => by
    rw [slotWord_get (slotOfWords ws) ⟨i, hi⟩, get_slotOfWords, dataOf_ringWord, h]
    exact List.getD_map words 0 (BitVec.ofNat 16)

/-- A frame the part writes holds the sync word, the kind with a clear damaged flag, the addresses and its contents (R20). -/
theorem holds_frame {kind : Nat} {source destination : NodeAddress} {contents : List Word} {words : List Nat}
    (h : contents = words.map (BitVec.ofNat 16)) : Holds (frame kind source destination contents)
      (0x5CA3 :: kind * 4096 :: (source.toNat * 256 + destination.toNat) :: words) :=
  holds_slotOfWords rfl (by rw [h]; rfl)

/-- A word of 1 to 31 with a parity error damages its slot (R7). -/
theorem slotDamaged_of_parity {slot : Slot} {i : Fin 32} (hi : 1 ≤ i.val) (h : parityGood (slot.get i) = false) :
    slotDamaged slot = true := by
  have hmem : slot.get i ∈ slot.toList.drop 1 := by
    rw [List.mem_drop_iff_getElem]
    exact ⟨i.val - 1, by simp; omega, by simp [Vector.get_eq_getElem, Nat.add_sub_cancel' hi]⟩
  unfold slotDamaged
  rw [Bool.or_eq_true, List.any_eq_true]
  exact .inl ⟨_, hmem, by rw [h]; rfl⟩

/-! ## The damage marking (R7) -/

section
variable (slot : Slot)

theorem get_markDamaged_ne {i : Fin 32} (h : i ≠ 1) : (markDamaged slot).get i = slot.get i := by
  have hv : 1 ≠ i.val := fun e => h (Fin.ext e.symm)
  simp only [markDamaged, Vector.get_eq_getElem]
  exact Vector.getElem_set_ne _ _ hv

theorem get_markDamaged_header : (markDamaged slot).get 1 = ringWord (slotWord slot 1 ||| 0x0800) := by
  simp only [markDamaged, Vector.get_eq_getElem]
  exact Vector.getElem_set_self _

theorem slotWord_markDamaged : slotWord (markDamaged slot) 1 = slotWord slot 1 ||| 0x0800 := by
  have h := slotWord_get (markDamaged slot) 1
  rwa [get_markDamaged_header, dataOf_ringWord] at h

theorem damagedFlag_markDamaged : damagedFlag (markDamaged slot) = true := by
  rw [damagedFlag, slotWord_markDamaged, BitVec.getLsbD_or]
  simp

/-- A slot that came with the flag set and a good header leaves as it came. -/
theorem markDamaged_of_flagged {slot : Slot} (hf : damagedFlag slot = true) (hp : parityGood (slot.get 1) = true) :
    markDamaged slot = slot := by
  have hflag : slotWord slot 1 ||| 0x0800 = slotWord slot 1 := by
    apply BitVec.eq_of_getLsbD_eq
    intro i hi
    by_cases h : i = 11
    · subst h; simp only [damagedFlag] at hf; simp [hf]
    · have hclear : ∀ j : Fin 16, j.val ≠ 11 → (0x0800 : Word).getLsbD j.val = false := by decide
      rw [BitVec.getLsbD_or, hclear ⟨i, hi⟩ h, Bool.or_false]
  have hheader : (markDamaged slot).get 1 = slot.get 1 := by
    rw [get_markDamaged_header, hflag]
    exact (congrArg ringWord (slotWord_get slot 1)).trans (ringWord_dataOf hp)
  apply Vector.ext
  intro i hi
  by_cases h : (⟨i, hi⟩ : Fin 32) = 1
  · have := hheader; rw [← h] at this; exact this
  · exact get_markDamaged_ne slot h

end

end Sys2Proof.Proofs
end

section
/-! PROOF. The Output Arbiter: the words of the slots it sends (R23 to R26), its turn order and its choice (R14 to R17). -/

namespace Sys2Proof.Proofs

open Sys2Proof.Machine Sys2Proof.Safety Sys2Proof.Laws

/-! ## The words of the slots the part writes -/

theorem toNat_address {n : Nat} (h : n < 64) : (BitVec.ofNat 6 n).toNat = n := by
  rw [BitVec.toNat_ofNat]; exact Nat.mod_eq_of_lt h

/-- The low word of a 32-bit field may be given by the whole number. -/
theorem ofNat_mod_word (n : Nat) : BitVec.ofNat 16 (n % 65536) = BitVec.ofNat 16 n :=
  BitVec.eq_of_toNat_eq (by simp)

theorem pack32_eq (n : Nat) : pack32 n = [n / 65536, n % 65536].map (BitVec.ofNat 16) := by
  simp [pack32, ofNat_mod_word]

theorem fieldWords_pack16 (n : Option Nat) : fieldWords 1 pack16 n = [n.getD 0].map (BitVec.ofNat 16) := by
  cases n <;> rfl

theorem fieldWords_pack32 (n : Option Nat) :
    fieldWords 2 pack32 n = [n.getD 0 / 65536, n.getD 0 % 65536].map (BitVec.ofNat 16) := by
  cases n with
  | none => rfl
  | some n => exact pack32_eq n

theorem fieldWords_packS32 (v : Option Int) : fieldWords 2 packS32 v =
    [(BitVec.ofInt 32 (v.getD 0)).toNat / 65536, (BitVec.ofInt 32 (v.getD 0)).toNat % 65536].map (BitVec.ofNat 16) := by
  cases v with
  | none => rfl
  | some v => exact pack32_eq _

/-- The words of a setpoint slot (R25). -/
theorem holds_setpointSlot (source : NodeAddress) {sp : Setpoint} (h : sp.address.getD 63 < 64) :
    Holds (setpointSlot source sp) [0x5CA3, 0x2000, source.toNat * 256 + sp.address.getD 63,
      sp.output.val * 256 + sp.mode.code * 16 + sp.contactor.code, sp.magnitude, sp.clamp, sp.refresh] := by
  have := holds_frame (kind := kindSetpoint) (source := source) (destination := BitVec.ofNat 6 (addressCode sp.address))
    (words := [sp.output.val * 256 + sp.mode.code * 16 + sp.contactor.code, sp.magnitude, sp.clamp, sp.refresh]) rfl
  rwa [addressCode, toNat_address h] at this

/-- The words of a reply slot (R24). -/
theorem holds_replySlot (source : NodeAddress) (r : Reply) : Holds (replySlot source r)
    ([0x5CA3, 0x4000, source.toNat * 256 + r.destination.toNat, r.kind * 256 + r.outcome.code * 16 + flagBits r.flags,
      r.tag.toNat] ++ r.results.map BitVec.toNat) :=
  holds_frame (words := (r.kind * 256 + r.outcome.code * 16 + flagBits r.flags) :: r.tag.toNat :: r.results.map BitVec.toNat)
    (by simp [pack16, List.map_map, Function.comp_def])

/-- The words of an event slot (R26). -/
theorem holds_eventSlot (source : NodeAddress) {destination : Nat} (h : destination < 64) (e : Event) :
    Holds (eventSlot source destination e) [0x5CA3, 0x5000, source.toNat * 256 + destination,
      e.cls * 4096 + eventChannelCode e.channel * 256 + bit e.stepIndex.isSome 8 + bit e.cycleNumber.isSome 4 +
        bit e.valueA.isSome 2 + bit e.valueB.isSome 1,
      e.cause.code, e.timeMs.toNat / 65536, e.timeMs.toNat % 65536, e.stepIndex.getD 0, e.cycleNumber.getD 0 / 65536,
      e.cycleNumber.getD 0 % 65536, (BitVec.ofInt 32 (e.valueA.getD 0)).toNat / 65536,
      (BitVec.ofInt 32 (e.valueA.getD 0)).toNat % 65536, (BitVec.ofInt 32 (e.valueB.getD 0)).toNat / 65536,
      (BitVec.ofInt 32 (e.valueB.getD 0)).toNat % 65536, e.detail] := by
  have := holds_frame (kind := kindEvent) (source := source) (destination := BitVec.ofNat 6 destination)
    (words := _ :: _ :: _ :: _ :: _ :: _ :: _ :: _ :: _ :: _ :: _ :: [e.detail])
    (show pack16 (e.cls * 4096 + eventChannelCode e.channel * 256 + bit e.stepIndex.isSome 8 + bit e.cycleNumber.isSome 4 +
        bit e.valueA.isSome 2 + bit e.valueB.isSome 1) ++
      pack16 e.cause.code ++ pack32 e.timeMs.toNat ++ fieldWords 1 pack16 e.stepIndex ++ fieldWords 2 pack32 e.cycleNumber ++
      fieldWords 2 packS32 e.valueA ++ fieldWords 2 packS32 e.valueB ++ pack16 e.detail = _ by
        rw [pack32_eq, fieldWords_pack16, fieldWords_pack32, fieldWords_packS32, fieldWords_packS32]; rfl)
  rwa [toNat_address h] at this

/-! ## The turn order (R16) -/

/-- How far a channel's turn is behind the one after the last setpoint channel. -/
def turnDistance (last c : Channel) : Nat := (c - last - 1).val

theorem turnOrder_get (last : Channel) (i : Nat) (h : i < (turnOrder last).length) :
    turnDistance last (turnOrder last)[i] = i := by
  simp [turnDistance, turnOrder, allChannels, sub_sub]

theorem mem_turnOrder (last c : Channel) : c ∈ turnOrder last :=
  List.mem_map.mpr ⟨c - (last + 1), List.mem_finRange _, by abel⟩

/-- The channel whose turn it is: of those that hold such a setpoint, the least far behind (R16). -/
theorem nextSetpoint_eq_some {s : State} {urgent : Bool} {c : Channel} : nextSetpoint s urgent = some c ↔
    holdsSetpoint s urgent c = true ∧ ∀ d, holdsSetpoint s urgent d = true →
      turnDistance s.lastSetpointChannel c ≤ turnDistance s.lastSetpointChannel d := by
  rw [nextSetpoint, List.find?_eq_some_iff_getElem]
  refine and_congr_right fun hc => ⟨?_, fun hmin => ?_⟩
  · rintro ⟨i, hi, rfl, hbefore⟩ d hd
    obtain ⟨j, hj, rfl⟩ := List.getElem_of_mem (mem_turnOrder s.lastSetpointChannel d)
    rw [turnOrder_get, turnOrder_get]
    by_contra hlt
    have := hbefore j (by omega)
    simp [hd] at this
  · obtain ⟨i, hi, rfl⟩ := List.getElem_of_mem (mem_turnOrder s.lastSetpointChannel c)
    refine ⟨i, hi, rfl, fun j hji => ?_⟩
    rw [Bool.not_eq_true']
    by_contra hj
    have := hmin _ (by simpa using hj)
    rw [turnOrder_get, turnOrder_get] at this
    omega

theorem nextSetpoint_eq_none {s : State} {urgent : Bool} : nextSetpoint s urgent = none ↔
    ∀ c, holdsSetpoint s urgent c = false := by
  simp only [nextSetpoint, List.find?_eq_none, Bool.not_eq_true]
  exact ⟨fun h c => h c (mem_turnOrder _ c), fun h c _ => h c⟩

/-! ## Claimants (R16, R17) -/

/-- The part with every setpoint that has no address removed unsent (R17). -/
def claimantsOnly (s : State) : State := { s with channels := s.channels.map discardUnaddressed }

/-- A channel claims with the entry of its outbox when the converter address is not NONE. -/
def Claims (s : State) (urgent : Bool) (c : Channel) (e : OutboxEntry) : Prop :=
  (s.chan c).outbox = some e ∧ e.urgent = urgent ∧ e.setpoint.address ≠ none

/-- The claimant whose turn comes first. -/
def FirstClaim (s : State) (urgent : Bool) (c : Channel) (e : OutboxEntry) : Prop :=
  Claims s urgent c e ∧ ∀ d e', Claims s urgent d e' →
    turnDistance s.lastSetpointChannel c ≤ turnDistance s.lastSetpointChannel d

/-- Nothing in the channel's outbox is without an address. -/
def Addressed (s : State) (c : Channel) : Prop := ∀ e, (s.chan c).outbox = some e → e.setpoint.address ≠ none

theorem chan_claimantsOnly (s : State) (c : Channel) : (claimantsOnly s).chan c = discardUnaddressed (s.chan c) := by
  simp [claimantsOnly, State.chan, Vector.get_eq_getElem]

theorem chan_claimantsOnly_addressed {s : State} {c : Channel} (h : Addressed s c) : (claimantsOnly s).chan c = s.chan c := by
  rw [chan_claimantsOnly, discardUnaddressed]
  split
  · next e he => exact if_neg (h e he)
  · rfl

theorem chan_claimantsOnly_unaddressed {s : State} {c : Channel} {e : OutboxEntry} (he : (s.chan c).outbox = some e)
    (h : e.setpoint.address = none) : (claimantsOnly s).chan c = { s.chan c with outbox := none } := by
  rw [chan_claimantsOnly, discardUnaddressed, he]
  exact if_pos h

theorem Claims.addressed {s : State} {urgent : Bool} {c : Channel} {e : OutboxEntry} (h : Claims s urgent c e) :
    Addressed s c := by
  obtain ⟨he, -, ha⟩ := h
  intro e' he'
  rw [he] at he'
  exact Option.some.inj he' ▸ ha

theorem holdsSetpoint_claimantsOnly {s : State} {urgent : Bool} {c : Channel} :
    holdsSetpoint (claimantsOnly s) urgent c = true ↔ ∃ e, Claims s urgent c e := by
  constructor
  · intro h
    by_cases ha : Addressed s c
    · rw [holdsSetpoint, chan_claimantsOnly_addressed ha] at h
      split at h
      · next e he => exact ⟨e, he, by simpa using h, ha e he⟩
      · cases h
    · simp only [Addressed, not_forall, not_not] at ha
      obtain ⟨e, he, hnone⟩ := ha
      rw [holdsSetpoint, chan_claimantsOnly_unaddressed he hnone] at h
      cases h
  · rintro ⟨e, h⟩
    have ⟨he, hu, _⟩ := h
    simp [holdsSetpoint, chan_claimantsOnly_addressed h.addressed, he, hu]

theorem nextSetpoint_of_first {s : State} {urgent : Bool} {c : Channel} {e : OutboxEntry} (h : FirstClaim s urgent c e) :
    nextSetpoint (claimantsOnly s) urgent = some c := by
  obtain ⟨hc, hmin⟩ := h
  refine nextSetpoint_eq_some.mpr ⟨holdsSetpoint_claimantsOnly.mpr ⟨e, hc⟩, fun d hd => ?_⟩
  obtain ⟨e', he'⟩ := holdsSetpoint_claimantsOnly.mp hd
  exact hmin d e' he'

theorem nextSetpoint_of_noClaim {s : State} {urgent : Bool} (h : ∀ c e, ¬Claims s urgent c e) :
    nextSetpoint (claimantsOnly s) urgent = none := by
  refine nextSetpoint_eq_none.mpr fun c => ?_
  rw [← Bool.not_eq_true, holdsSetpoint_claimantsOnly]
  exact fun ⟨e, he⟩ => h c e he

/-! ## What is sent leaves its place (R16, R17) -/

theorem sendSetpoint_of_outbox {c : Channel} {s : State} {e : OutboxEntry} (h : (s.chan c).outbox = some e) :
    sendSetpoint c s = { s.modChan c (fun ch => { ch with outbox := none }) with
      lastSetpointChannel := c, ringOut := .slot (setpointSlot s.nodeAddress e.setpoint) } := by
  rw [sendSetpoint, h]; rfl

theorem sendSetpoint_of_none {c : Channel} {s : State} (h : (s.chan c).outbox = none) : sendSetpoint c s = s := by
  rw [sendSetpoint, h]

theorem emptied_of_none {ch : ChannelState} (h : ch.outbox = none) : { ch with outbox := none } = ch := by
  cases ch; cases h; rfl

theorem chan_sendSetpoint (c d : Channel) (s : State) :
    (sendSetpoint c s).chan d = if d = c then { s.chan d with outbox := none } else s.chan d := by
  cases h : (s.chan c).outbox with
  | none =>
    rw [sendSetpoint_of_none h]
    by_cases hd : d = c
    · rw [if_pos hd, hd, emptied_of_none h]
    · rw [if_neg hd]
  | some e =>
    rw [sendSetpoint_of_outbox h]
    show (s.modChan c (fun ch => { ch with outbox := none })).chan d = _
    rw [State.chan_modChan]
    by_cases hd : d = c
    · rw [if_pos hd, if_pos hd, hd]
    · rw [if_neg hd, if_neg hd]

/-- What a decision may touch. -/
def Offered (s t : State) : Prop := t = { s with
  channels := t.channels, lastSetpointChannel := t.lastSetpointChannel, lastClass := t.lastClass, ringOut := t.ringOut
  replyQueue := t.replyQueue, eventQueue := t.eventQueue }

theorem offered_sendSetpoint (c : Channel) (s : State) : Offered s (sendSetpoint c s) := by
  unfold sendSetpoint
  split <;> rfl

theorem serveB_reply {s : State} {r : Reply} {rest : List Reply} (h : s.replyQueue = r :: rest) :
    serveB s = { s with replyQueue := rest, lastClass := .b, ringOut := .slot (replySlot s.nodeAddress r) } := by
  rw [serveB, h]

theorem serveB_event {s : State} {e : Event} {rest : List Event} (hr : s.replyQueue = []) (h : s.eventQueue = e :: rest) :
    serveB s = { s with
      eventQueue := rest, lastClass := .b, ringOut := .slot (eventSlot s.nodeAddress s.eventDestination e) } := by
  rw [serveB, hr, h]

theorem serveB_frame (s : State) : ∃ replies events cls out,
    serveB s = { s with replyQueue := replies, eventQueue := events, lastClass := cls, ringOut := out } := by
  unfold serveB
  split
  · exact ⟨_, _, _, _, rfl⟩
  · split
    · exact ⟨_, _, _, _, rfl⟩
    · exact ⟨s.replyQueue, s.eventQueue, s.lastClass, s.ringOut, rfl⟩

@[simp] theorem chan_serveB (s : State) (c : Channel) : (serveB s).chan c = s.chan c := by
  obtain ⟨_, _, _, _, h⟩ := serveB_frame s
  rw [h]; rfl

theorem lastSetpointChannel_serveB (s : State) : (serveB s).lastSetpointChannel = s.lastSetpointChannel := by
  obtain ⟨_, _, _, _, h⟩ := serveB_frame s
  rw [h]

theorem lastClass_serveB {s : State} (h : s.replyQueue ≠ [] ∨ s.eventQueue ≠ []) : (serveB s).lastClass = .b := by
  unfold serveB
  split
  · rfl
  · next hr =>
    split
    · rfl
    · next he => exact absurd he (h.resolve_left (not_not_intro hr))

theorem offered_serveB (s : State) : Offered s (serveB s) := by
  obtain ⟨_, _, _, _, h⟩ := serveB_frame s
  rw [h]; rfl

theorem classBPending_iff {s : State} : classBPending s = true ↔ s.replyQueue ≠ [] ∨ s.eventQueue ≠ [] := by
  simp [classBPending]

/-! ## The decision (R16) -/

/-- Everything a choice can be. -/
theorem chooseItem_cases (empty : Slot) (s : State) : chooseItem empty s = { s with ringOut := .slot empty } ∨
    chooseItem empty s = serveB s ∨ ∃ c, chooseItem empty s = sendSetpoint c s ∨ chooseItem empty s = serveA c s := by
  unfold chooseItem
  split
  · next c _ => exact .inr (.inr ⟨c, .inl rfl⟩)
  · split
    · split
      · exact .inr (.inl rfl)
      · exact .inl rfl
    · next c _ =>
      split
      · split
        · exact .inr (.inl rfl)
        · exact .inr (.inr ⟨c, .inr rfl⟩)
      · exact .inr (.inr ⟨c, .inr rfl⟩)

theorem offered_chooseItem (empty : Slot) (s : State) : Offered s (chooseItem empty s) := by
  rcases chooseItem_cases empty s with h | h | ⟨c, h | h⟩
  · rw [h]; rfl
  · rw [h]; exact offered_serveB s
  · rw [h]; exact offered_sendSetpoint c s
  · rw [h, serveA, offered_sendSetpoint c s]; rfl

/-- A decision leaves the requests, the tables, the arbiter and the device settings as they were. -/
theorem offered_decideSlot (empty : Slot) (s : State) : Offered s (decideSlot empty s) := by
  unfold decideSlot
  split
  · rfl
  · have h := offered_chooseItem empty (claimantsOnly s)
    exact h

theorem decideSlot_eq (empty : Slot) {s : State} (h : s.nodeAddress ≠ 63) :
    decideSlot empty s = chooseItem empty (claimantsOnly s) := if_neg h

/-- A decision leaves a channel as the removal of unaddressed setpoints does, but for an outbox it empties. -/
theorem chan_decideSlot (empty : Slot) {s : State} (h : s.nodeAddress ≠ 63) (c : Channel) :
    (decideSlot empty s).chan c = (claimantsOnly s).chan c ∨
      (decideSlot empty s).chan c = { (claimantsOnly s).chan c with outbox := none } := by
  rw [decideSlot_eq empty h]
  rcases chooseItem_cases empty (claimantsOnly s) with h | h | ⟨d, h | h⟩
  · rw [h]; exact .inl rfl
  · rw [h, chan_serveB]; exact .inl rfl
  all_goals
    rw [h]
    show (sendSetpoint d _).chan c = _ ∨ (sendSetpoint d _).chan c = _
    rw [chan_sendSetpoint]
    split
    · exact .inr rfl
    · exact .inl rfl

section
variable {s : State} (empty : Slot) (h : s.nodeAddress ≠ 63)
include h

theorem decideSlot_urgent {c : Channel} {e : OutboxEntry} (hf : FirstClaim s true c e) :
    decideSlot empty s = sendSetpoint c (claimantsOnly s) := by
  rw [decideSlot_eq empty h, chooseItem, nextSetpoint_of_first hf]

variable (hu : ∀ c e, ¬Claims s true c e)
include hu

theorem decideSlot_classA {c : Channel} {e : OutboxEntry} (hf : FirstClaim s false c e)
    (hb : ¬(s.replyQueue ≠ [] ∨ s.eventQueue ≠ []) ∨ s.lastClass = .b) :
    decideSlot empty s = serveA c (claimantsOnly s) := by
  rw [decideSlot_eq empty h, chooseItem, nextSetpoint_of_noClaim hu, nextSetpoint_of_first hf]
  simp only
  split
  · next hp =>
    have hlast : (claimantsOnly s).lastClass = .b := hb.resolve_left (not_not_intro (classBPending_iff.mp hp))
    rw [hlast]
  · rfl

theorem decideSlot_classB (hb : s.replyQueue ≠ [] ∨ s.eventQueue ≠ [])
    (ha : ¬(∃ c e, Claims s false c e) ∨ s.lastClass = .a) : decideSlot empty s = serveB (claimantsOnly s) := by
  have hpending : classBPending (claimantsOnly s) = true := classBPending_iff.mpr hb
  rw [decideSlot_eq empty h, chooseItem, nextSetpoint_of_noClaim hu]
  simp only [hpending, if_true]
  rcases ha with ha | ha
  · rw [nextSetpoint_of_noClaim (fun c e hc => ha ⟨c, e, hc⟩)]
  · have hlast : (claimantsOnly s).lastClass = .a := ha
    rw [hlast]
    split <;> rfl

theorem decideSlot_nothing (ha : ¬∃ c e, Claims s false c e) (hb : ¬(s.replyQueue ≠ [] ∨ s.eventQueue ≠ [])) :
    decideSlot empty s = { claimantsOnly s with ringOut := .slot empty } := by
  have hpending : ¬classBPending (claimantsOnly s) = true := fun hp => hb (classBPending_iff.mp hp)
  rw [decideSlot_eq empty h, chooseItem, nextSetpoint_of_noClaim hu, nextSetpoint_of_noClaim (fun c e hc => ha ⟨c, e, hc⟩)]
  simp only [if_neg hpending]

end

/-- The setpoint with this entry left its outbox for the ring, and every other addressed one stayed (R16, R17). -/
def SentSetpoint (s t : State) (c : Channel) (e : OutboxEntry) : Prop :=
  t.ringOut = .slot (setpointSlot s.nodeAddress e.setpoint) ∧ t.lastSetpointChannel = c ∧
    t.chan c = { s.chan c with outbox := none } ∧ (∀ d, d ≠ c → Addressed s d → t.chan d = s.chan d) ∧
    t.replyQueue = s.replyQueue ∧ t.eventQueue = s.eventQueue

theorem sentSetpoint_of_claim {s : State} {urgent : Bool} {c : Channel} {e : OutboxEntry} (h : Claims s urgent c e) :
    SentSetpoint s (sendSetpoint c (claimantsOnly s)) c e ∧
      (sendSetpoint c (claimantsOnly s)).lastClass = s.lastClass := by
  have hchan := chan_claimantsOnly_addressed h.addressed
  have hsend := sendSetpoint_of_outbox ((congrArg ChannelState.outbox hchan).trans h.1)
  refine ⟨⟨by rw [hsend]; rfl, by rw [hsend], ?_, fun d hd ha => ?_, by rw [hsend]; rfl, by rw [hsend]; rfl⟩,
    by rw [hsend]; rfl⟩
  · rw [chan_sendSetpoint, if_pos rfl, hchan]
  · rw [chan_sendSetpoint, if_neg hd, chan_claimantsOnly_addressed ha]

/-- Settles O24: the words of the three kinds of slot the part sends, then the decision's four outcomes and its frame. -/
theorem outputArbiterChoice : Obligations.OutputArbiterChoice := by
  refine ⟨fun source => ⟨fun sp hsp => ?_, fun r => ?_, fun destination e hd => ?_⟩, fun empty s h63 => ?_⟩
  · obtain ⟨hs, hp, hw⟩ := holds_setpointSlot source hsp
    refine ⟨hs, hp, ?_⟩
    cases hm : sp.mode <;> cases hc : sp.contactor <;> simpa only [SetpointMode.code, Contactor.code, hm, hc] using hw
  · obtain ⟨hs, hp, hw⟩ := holds_replySlot source r
    exact ⟨hs, hp, by simpa only [flagBits, bit, ← Nat.add_assoc] using hw⟩
  · obtain ⟨hs, hp, hw⟩ := holds_eventSlot source hd e
    refine ⟨hs, hp, ?_⟩
    cases hc : e.channel <;> simpa only [bit, eventChannelCode, hc] using hw
  refine ⟨fun c e hf => ?_, fun hu => ⟨fun c e hf hb => ?_, fun hb ha => ?_, fun ha hb => ?_⟩, fun c e he hn => ?_,
    offered_decideSlot empty s⟩
  · rw [decideSlot_urgent empty h63 hf]
    exact sentSetpoint_of_claim hf.1
  · rw [decideSlot_classA empty h63 hu hf hb]
    exact ⟨(sentSetpoint_of_claim hf.1).1, rfl⟩
  · have hchan : ∀ d, Addressed s d → (decideSlot empty s).chan d = s.chan d := fun d hd => by
      rw [decideSlot_classB empty h63 hu hb ha, chan_serveB, chan_claimantsOnly_addressed hd]
    rw [decideSlot_classB empty h63 hu hb ha] at hchan ⊢
    refine ⟨?_, lastSetpointChannel_serveB _, hchan, fun r rest hr => ?_, fun e rest hr he => ?_⟩
    · exact lastClass_serveB hb
    · rw [serveB_reply (show (claimantsOnly s).replyQueue = r :: rest from hr)]
      exact ⟨rfl, rfl, rfl⟩
    · rw [serveB_event (show (claimantsOnly s).replyQueue = [] from hr) (show (claimantsOnly s).eventQueue = e :: rest from he)]
      exact ⟨rfl, rfl, hr⟩
  · rw [decideSlot_nothing empty h63 hu ha hb]
    simp only [not_or, not_not] at hb
    exact ⟨rfl, rfl, rfl, hb.1, hb.2, fun d hd => chan_claimantsOnly_addressed hd⟩
  · have hgone := chan_claimantsOnly_unaddressed he hn
    rcases chan_decideSlot empty h63 c with h | h
    · exact h.trans hgone
    · rw [hgone] at h; exact h

end Sys2Proof.Proofs
end

section
/-! PROOF. The turns of damaged, forwarded, consumed, stripped and empty slots in LOCKED (R7, R8, R10 to R15). -/

namespace Sys2Proof.Proofs

open Sys2Proof.Machine Sys2Proof.Safety Sys2Proof.Laws

/-! ## Damaged and forwarded slots (R7, R8, R13) -/

/-- Settles O16: the slot leaves with the damage marking. -/
theorem damagedSlotIsMarked : Obligations.DamagedSlotIsMarked := by
  intro slot s hm hsync hfault
  have hd : slotDamaged slot = true := by
    rcases hfault with hf | ⟨i, hi, hp⟩
    · rw [slotDamaged, hf, Bool.or_true]
    · exact slotDamaged_of_parity hi hp
  refine ⟨markDamaged slot, atTurn_own _ hm (slotEvent_damaged hsync hd), fun i hi => get_markDamaged_ne slot hi,
    slotWord_markDamaged slot, damagedFlag_markDamaged slot, ?_, markDamaged_of_flagged⟩
  rw [get_markDamaged_header, parityGood_ringWord]

/-- Settles O17: each kind that R8 or R13 forwards falls to the row that leaves the slot as it is. -/
theorem forwardedSlotIsUnchanged : Obligations.ForwardedSlotIsUnchanged := by
  intro slot s hm hsync hd h0 h1 hrequest hown
  refine atTurn_own _ hm ?_
  by_cases h3 : slotKindCode slot = 3
  · rw [slotEvent_request hsync hd h3, if_neg]
    rintro ⟨hdest, h63⟩
    exact (hrequest h3).elim (fun h => h hdest) h63
  by_cases hk : slotKindCode slot = 2 ∨ slotKindCode slot = 4 ∨ slotKindCode slot = 5
  · rw [slotEvent_own hsync hd hk, if_neg]
    rintro ⟨hsource, h63⟩
    exact (hown hk).elim (fun h => h hsource) h63
  · exact slotEvent_unknown hsync hd (by omega)

/-! ## Requests (R10, R11, R23) -/

theorem captureRequest_eq (slot : Slot) : captureRequest slot =
    { source := slotSource slot, tag := slotWord slot 4, kind := (slotWord slot 3).toNat / 256,
      args := (List.range 27).map (fun i => slotWord slot (5 + i)) } := by
  have hkind : ((slotWord slot 3).extractLsb' 8 8).toNat = (slotWord slot 3).toNat / 256 := by
    rw [BitVec.extractLsb'_toNat, Nat.shiftRight_eq_div_pow]; omega
  rw [captureRequest, hkind]

theorem queueRequest_room {r : Request} {s : State} (h : s.requestQueue.length < 4) :
    queueRequest r s = { s with requestQueue := s.requestQueue ++ [r] } := if_pos h

theorem queueRequest_full {r : Request} {s : State} (h : 4 ≤ s.requestQueue.length) : queueRequest r s = dropRequest s :=
  if_neg (Nat.not_lt.mpr h)

theorem dropRequest_again {s : State} (h : s.requestOverrun = true) : dropRequest s = s := by
  rw [dropRequest, if_pos h]
  cases s; cases h; rfl

theorem dropRequest_first {s : State} (h : s.requestOverrun = false) :
    dropRequest s = raiseDevice .requestOverrun { s with requestOverrun := true } :=
  if_neg (ne_true_of_eq_false h)

/-- A drop sets the flag, and may raise the device cause. -/
theorem dropRequest_eq (s : State) : ∃ causes q o, dropRequest s =
    { s with requestOverrun := true, deviceCauses := causes, eventQueue := q, eventOverflow := o } := by
  cases h : s.requestOverrun with
  | true => exact ⟨s.deviceCauses, s.eventQueue, s.eventOverflow, by rw [dropRequest_again h, ← h]⟩
  | false =>
    obtain ⟨q, o, hraise⟩ := raiseDevice_eq .requestOverrun { s with requestOverrun := true }
    exact ⟨_, q, o, by rw [dropRequest_first h, hraise]⟩

/-- What the arrival of a request may touch before its slot is offered. -/
theorem queueRequest_frame (r : Request) (s : State) : queueRequest r s = { s with
    requestQueue := (queueRequest r s).requestQueue, requestOverrun := (queueRequest r s).requestOverrun
    deviceCauses := (queueRequest r s).deviceCauses, eventQueue := (queueRequest r s).eventQueue
    eventOverflow := (queueRequest r s).eventOverflow } := by
  rcases Nat.lt_or_ge s.requestQueue.length 4 with h | h
  · rw [queueRequest_room h]
  · obtain ⟨causes, q, o, hdrop⟩ := dropRequest_eq s
    rw [queueRequest_full h, hdrop]

/-- Settles O22: capture, the queue's three cases, and the offer of the freed slot. -/
theorem requestIsQueuedOrDropped : Obligations.RequestIsQueuedOrDropped := by
  intro slot s hm hsync hd hk hdest h63 request
  have hrow : slotEvent s slot = .consumed := by rw [slotEvent_request hsync hd hk, if_pos ⟨hdest, h63⟩]
  have hrequest : captureRequest slot = request := captureRequest_eq slot
  have hoffer := offered_decideSlot freedSlot (queueRequest request (goodTurn s))
  refine ⟨queueRequest request (goodTurn s), _, ?_, rfl, queueRequest_frame request (goodTurn s), ?_, ?_, fun hroom => ?_,
    fun hfull => ?_⟩
  · rw [← hrequest]; exact atTurn_own _ hm hrow
  · rw [hoffer]
  · rw [hoffer]
  · rw [queueRequest_room (s := goodTurn s) hroom]
    exact ⟨rfl, rfl, rfl, rfl, rfl⟩
  · obtain ⟨causes, q, o, hdrop⟩ := dropRequest_eq (goodTurn s)
    rw [queueRequest_full (s := goodTurn s) hfull]
    refine ⟨by rw [hdrop]; rfl, by rw [hdrop], fun ho => ?_, fun ho => ?_⟩
    · rw [dropRequest_again (s := goodTurn s) ho]
      exact ⟨rfl, rfl, rfl⟩
    · rw [dropRequest_first (s := goodTurn s) ho]
      exact ⟨mem_deviceCauses_raiseDevice _ _, rfl⟩

/-! ## Stripped and empty slots (R12, R13, R15) -/

/-- Settles O23: a stripped slot is offered as freed, an EMPTY one as it arrived, and at node address 63 no decision is made. -/
theorem emptySlotsAreOffered : Obligations.EmptySlotsAreOffered := by
  intro slot s hm hsync hd turned
  have hempty : slotKindCode slot = 0 → exec (.emptySlotTurn slot) s = .next (decideSlot slot turned) := fun h0 =>
    atTurn_own _ hm (slotEvent_empty hsync hd h0)
  refine ⟨fun hk hsource h63 => atTurn_own _ hm ?_, hempty, fun h0 h63 => ?_⟩
  · rw [slotEvent_own hsync hd hk, if_pos ⟨hsource, h63⟩]
  · rw [hempty h0, decideSlot, if_pos (show turned.nodeAddress = 63 from h63)]

end Sys2Proof.Proofs
end

section
/-! PROOF. A slot command while the receiver is not LOCKED: its bits pass and are heard (R3, R4, R15). -/

namespace Sys2Proof.Proofs

open Sys2Proof.Machine Sys2Proof.Safety Sys2Proof.Laws

/-! ## The compare of CONFIRM (R4) -/

theorem length_slotBits (slot : Slot) : (slotBits slot).length = 576 := by
  simp [slotBits, List.length_flatMap, ringBits_length]

/-- The bits of CONFIRM up to the one at which the compare falls due: they have been counted and remembered, and the compare is made over
the last 18. -/
theorem hearBits_compare {bits : List Bool} {passed : Nat} {r : Receiver} (hm : r.mode = .confirm) (hp : r.position < 576)
    (hne : bits ≠ []) (hlen : bits.length ≤ 576) (hdue : (r.position + bits.length) % 576 = 18) :
    hearBits passed bits r =
      if lastEighteen (r.lastBits ++ bits) = ringBits syncPattern
      then { r with mode := .locked, position := 18, missCount := 0, lastBits := lastEighteen (r.lastBits ++ bits) }
      else backToSearch (lastEighteen (r.lastBits ++ bits)) { r with position := 18 } := by
  obtain ⟨before, b, rfl⟩ : ∃ before b, bits = before ++ [b] := ⟨_, _, (List.dropLast_append_getLast hne).symm⟩
  rw [List.length_append, List.length_singleton] at hlen hdue
  -- the bits before the last are only counted
  obtain ⟨last, hcounted, hshift⟩ : ∃ last,
      hearBits passed before r = { r with position := (r.position + before.length) % 576, lastBits := last } ∧
        shiftIn last b = lastEighteen (r.lastBits ++ (before ++ [b])) := by
    by_cases h0 : before = []
    · subst h0
      exact ⟨r.lastBits, by simp [hearBits, Nat.mod_eq_of_lt hp], shiftIn_eq _ _⟩
    · refine ⟨_, hearBits_counting before passed r hm hp (.inl h0) (fun k _ hk => by omega), ?_⟩
      rw [shiftIn_eq, lastEighteen_append, List.append_assoc]
  have hposition : ((r.position + before.length) % 576 + 1) % 576 = 18 := by omega
  rw [hearBits_append, hcounted]
  simp only [hearBits, hearBit, hm, hposition, hshift, ne_eq, not_true_eq_false, if_false, backToSearch]

/-- A compare that matches inside a slot's bits locks the receiver; the rest of the bits are counted. -/
theorem hearBits_locks {bits : List Bool} {n : Nat} {r : Receiver} (hm : r.mode = .confirm) (hp : r.position < 576)
    (hlen : bits.length = 576) (hn : 1 ≤ n) (hn' : n ≤ 576) (hdue : (r.position + n) % 576 = 18)
    (hmatch : lastEighteen (r.lastBits ++ bits.take n) = ringBits syncPattern) :
    hearBits 0 bits r =
      { r with mode := .locked, missCount := 0, lastBits := lastEighteen (r.lastBits ++ bits.take n) } := by
  have htake : (bits.take n).length = n := by rw [List.length_take]; omega
  have hne : bits.take n ≠ [] := List.ne_nil_of_length_pos (by omega)
  conv_lhs => rw [← List.take_append_drop n bits]
  rw [hearBits_append, hearBits_compare hm hp hne (by omega) (by omega), if_pos hmatch,
    hearBits_locked _ _ _ rfl (show 18 < 576 by decide)]
  have hposition : (18 + (bits.drop n).length) % 576 = r.position := by rw [List.length_drop]; omega
  simp only [hposition]

/-- A compare that does not match inside a slot's bits searches on from the bits compared. -/
theorem hearBits_searches {bits : List Bool} {n : Nat} {r : Receiver} (hm : r.mode = .confirm) (hp : r.position < 576)
    (hlen : bits.length = 576) (hn : 1 ≤ n) (hn' : n ≤ 576) (hdue : (r.position + n) % 576 = 18)
    (hmiss : lastEighteen (r.lastBits ++ bits.take n) ≠ ringBits syncPattern) :
    Searched n (bits.drop n)
      { r with
        mode := .search, framing := none, missCount := 0, position := 18
        lastBits := lastEighteen (r.lastBits ++ bits.take n) }
      (hearBits 0 bits r) := by
  have htake : (bits.take n).length = n := by rw [List.length_take]; omega
  have hne : bits.take n ≠ [] := List.ne_nil_of_length_pos (by omega)
  have hheard : hearBits 0 bits r = hearBits n (bits.drop n)
      (backToSearch (lastEighteen (r.lastBits ++ bits.take n)) { r with position := 18 }) := by
    conv_lhs => rw [← List.take_append_drop n bits]
    rw [hearBits_append, hearBits_compare hm hp hne (by omega) (by omega), if_neg hmiss, htake, Nat.zero_add]
  rw [hheard]
  exact hearBits_search _ _ _ rfl (.inr (lastEighteen_length _)) (by rw [List.length_drop]; omega)

/-! ## The command (R4, R15) -/

/-- The part once a slot has passed with the receiver as heard. -/
def afterPassing (slot : Slot) (s : State) : State :=
  { s with receiver := hearBits 0 (slotBits slot) s.receiver, ringOut := .slot slot }

theorem passSlot_eq (slot : Slot) (s : State) : passSlot slot s =
    if (afterPassing slot s).receiver.mode = .locked then raiseDevice .linkLocked (afterPassing slot s) else afterPassing slot s := rfl

section
variable {event : SlotEvent} {slot : Slot} {effect : State → State} {s : State} (hm : s.receiver.mode ≠ .locked)
include hm

theorem atTurn_unheard (h : (afterPassing slot s).receiver.mode ≠ .locked) :
    atTurn event slot effect s = .next (afterPassing slot s) := by
  rw [atTurn_unlocked _ _ _ _ hm, passSlot_eq, if_neg h, if_neg (fun hl => h hl.1)]

theorem atTurn_arriving (h : (afterPassing slot s).receiver.mode = .locked) (hp : (afterPassing slot s).receiver.position ≠ 0) :
    atTurn event slot effect s = .next (raiseDevice .linkLocked (afterPassing slot s)) := by
  rw [atTurn_unlocked _ _ _ _ hm, passSlot_eq, if_pos h, receiver_raiseDevice, if_neg (fun hl => hp hl.2)]

theorem atTurn_first (h : (afterPassing slot s).receiver.mode = .locked) (hp : (afterPassing slot s).receiver.position = 0) :
    atTurn event slot effect s = atTurn event slot effect (raiseDevice .linkLocked (afterPassing slot s)) := by
  rw [atTurn_unlocked _ _ _ _ hm, passSlot_eq, if_pos h, receiver_raiseDevice, if_pos ⟨h, hp⟩]

end

/-- Each of the seven slot commands is a turn of its slot. -/
theorem exec_slotCommand {slot : Slot} {order : List Channel} {c : Instr}
    (hc : c ∈ [Instr.missedSlot slot order, .damagedSlot slot, .slotForwarded slot, .sampleSlotTurn slot order,
      .requestConsumed slot, .slotStripped slot, .emptySlotTurn slot]) :
    ∃ event effect, ∀ s, exec c s = atTurn event slot effect s := by
  simp only [List.mem_cons, List.not_mem_nil, or_false] at hc
  rcases hc with rfl | rfl | rfl | rfl | rfl | rfl | rfl <;> exact ⟨_, _, fun _ => rfl⟩

/-- Settles O18: what the command does by how its bits leave the receiver, and what they make of it in SEARCH and in CONFIRM. -/
theorem unlockedReceiverRepeatsSlots : Obligations.UnlockedReceiverRepeatsSlots := by
  intro slot order s hm c hc bits
  obtain ⟨event, effect, hexec⟩ := exec_slotCommand hc
  have hlen : bits.length = 576 := length_slotBits slot
  simp only [hexec]
  refine ⟨hearBits 0 bits s.receiver, atTurn_unheard hm, atTurn_arriving hm, atTurn_first hm, fun hsearch => ?_,
    fun n hconfirm hp hn hn' hdue =>
      ⟨hearBits_locks hconfirm hp hlen hn hn' hdue, hearBits_searches hconfirm hp hlen hn hn' hdue⟩⟩
  exact hearBits_search bits 0 _ hsearch (.inl (List.ne_nil_of_length_pos (by omega))) (by omega)

end Sys2Proof.Proofs
end

section
/-! PROOF. A SAMPLE slot's turn (R9, R22, R35 to R38): the readings it hands over, the order of its anchors, and what it leaves of an
IDLE channel. -/

namespace Sys2Proof.Proofs

open Sys2Proof.Machine Sys2Proof.Safety Sys2Proof.Laws

/-! ## What the slot's words hand over (R22) -/

theorem sampleStamp_eq (slot : Slot) :
    sampleStamp slot = BitVec.ofNat 32 ((slotWord slot 3).toNat * 65536 + (slotWord slot 4).toNat) := by
  apply BitVec.eq_of_toNat_eq
  have h4 := (slotWord slot 4).isLt
  rw [sampleStamp, BitVec.toNat_append, ← Nat.shiftLeft_add_eq_or_of_lt h4, Nat.shiftLeft_eq, BitVec.toNat_ofNat]
  omega

/-- The reading of one pair of words: index, valid mark, value. -/
def readingOf (head value : Word) : Reading :=
  { index := head.toNat / 256, valid := decide (head.toNat % 2 = 1), value := value }

theorem sampleReadings_eq (slot : Slot) : sampleReadings slot =
    if (slotWord slot 5).toNat ≤ 12 then
      (List.range (slotWord slot 5).toNat).map (fun k => readingOf (slotWord slot (6 + 2 * k)) (slotWord slot (7 + 2 * k)))
    else [] := by
  have hindex : ∀ w : Word, (w.extractLsb' 8 8).toNat = w.toNat / 256 := fun w => by
    rw [BitVec.extractLsb'_toNat, Nat.shiftRight_eq_div_pow]; omega
  have hvalid : ∀ w : Word, w.getLsbD 0 = decide (w.toNat % 2 = 1) := fun w => by
    rw [BitVec.getLsbD, Nat.testBit_zero]
  simp only [sampleReadings, readingOf, hindex, hvalid]

/-! ## The channels anchored (R38) -/

/-- A reading gives the channel an anchor: it is routed to the channel's pack current, and valid there (R36, R38). -/
def Reaches (s : State) (source : NodeAddress) (rd : Reading) (c : Channel) : Prop :=
  ∃ r, findRoute s.routes source.toNat rd.index = some r ∧ r.channel = c ∧ r.point = 224 ∧ rd.valid = true ∧
    -30000 ≤ rd.value.toInt ∧ rd.value.toInt ≤ 30000

theorem readingValid_packCurrent (rd : Reading) : readingValid packCurrentPoint rd = true ↔
    rd.valid = true ∧ -30000 ≤ rd.value.toInt ∧ rd.value.toInt ≤ 30000 := by
  have hkind : pointKind packCurrentPoint = .packCurrent := by decide
  simp [readingValid, hkind, valueInRange, readingValue]

theorem mem_anchored {s : State} {source : NodeAddress} {readings : List Reading} {c : Channel} :
    c ∈ anchored s.routes source readings ↔ ∃ rd ∈ readings, Reaches s source rd c := by
  simp only [anchored, allChannels, List.mem_filter, List.mem_finRange, true_and, List.any_eq_true]
  refine exists_congr fun rd => and_congr_right fun _ => ?_
  cases hr : findRoute s.routes source.toNat rd.index with
  | none => simp [Reaches, hr]
  | some r =>
    simp only [Reaches, hr, Option.some.injEq, exists_eq_left', Bool.and_eq_true, beq_iff_eq, and_assoc]
    refine and_congr_right fun _ => and_congr_right fun hp => ?_
    rw [hp]; exact readingValid_packCurrent rd

/-! ## The order of separate events (log entry 5) -/

theorem nodup_inOrder (order : List Channel) {chosen : List Channel} (h : chosen.Nodup) : (inOrder order chosen).Nodup := by
  refine List.nodup_append'.mpr ⟨List.nodup_dedup _, h.filter _, fun c hc hc' => ?_⟩
  have hin : c ∈ order := (List.mem_filter.mp (List.mem_dedup.mp hc)).1
  simp [hin] at hc'

/-- Channels the operand names come first in its order, the others ascending. -/
theorem inOrder_eq (order : List Channel) {chosen : List Channel} (h : chosen.Pairwise (fun a b => a < b)) :
    ∃ rest, inOrder order chosen = (order.filter (fun c => (inOrder order chosen).contains c)).dedup ++ rest ∧
      rest.Pairwise (fun a b => a < b) := by
  refine ⟨chosen.filter (fun c => !order.contains c), ?_, h.filter _⟩
  have hcontains : (fun c => (inOrder order chosen).contains c) = chosen.contains := by
    funext c
    rw [Bool.eq_iff_iff, List.contains_iff_mem, List.contains_iff_mem, mem_inOrder]
  rw [hcontains, inOrder]

theorem inOrder_nil (order : List Channel) : inOrder order [] = [] :=
  List.eq_nil_iff_forall_not_mem.mpr fun c hc => List.not_mem_nil ((mem_inOrder order [] c).mp hc)

theorem anchored_ascending (routes : List Route) (source : NodeAddress) (readings : List Reading) :
    (anchored routes source readings).Pairwise (fun a b => a < b) :=
  (List.pairwise_lt_finRange 8).filter _

/-! ## Readings without a route (R35) -/

theorem applyReading_unrouted {source : NodeAddress} {s : State} {rd : Reading}
    (h : findRoute s.routes source.toNat rd.index = none) : applyReading source s rd = s := by
  rw [applyReading, h]

theorem applySample_unrouted {source : NodeAddress} {readings : List Reading} {s : State} (stamp : BitVec 32)
    (order : List Channel) (h : ∀ rd ∈ readings, findRoute s.routes source.toNat rd.index = none) :
    applySample source stamp readings order s = s := by
  have hnone : anchored s.routes source readings = [] := by
    refine List.eq_nil_iff_forall_not_mem.mpr fun c hc => ?_
    obtain ⟨rd, hrd, r, hr, -⟩ := mem_anchored.mp hc
    rw [h rd hrd] at hr; cases hr
  have hreadings : readings.foldl (applyReading source) s = s := by
    clear hnone
    induction readings with
    | nil => rfl
    | cons rd rest ih =>
      rw [List.foldl_cons, applyReading_unrouted (h rd List.mem_cons_self)]
      exact ih fun r hr => h r (List.mem_cons_of_mem rd hr)
  rw [applySample, hnone, hreadings, inOrder_nil]
  rfl

/-! ## An IDLE channel (R36 to R38) -/

/-- The channel changed at most in its points and in its report of an invalid reading. -/
def OnlyPoints (before after : ChannelState) : Prop :=
  ∃ points reported flags, after = { before with points := points, invalidReported := reported, causes := flags }

theorem OnlyPoints.refl (ch : ChannelState) : OnlyPoints ch ch := ⟨_, _, _, rfl⟩

theorem OnlyPoints.trans {a b c : ChannelState} (h₁ : OnlyPoints a b) (h₂ : OnlyPoints b c) : OnlyPoints a c := by
  obtain ⟨_, _, _, rfl⟩ := h₁
  obtain ⟨_, _, _, rfl⟩ := h₂
  exact ⟨_, _, _, rfl⟩

theorem reportInvalid_onlyPoints (c d : Channel) (p : PointNumber) (rd : Reading) (s : State) :
    OnlyPoints (s.chan d) ((reportInvalid c p rd s).chan d) := by
  unfold reportInvalid
  split
  · exact .refl _
  · simp only [State.chan_modChan, chan_raiseChannel]
    by_cases hd : d = c
    · subst hd; rw [if_pos rfl]; exact ⟨_, _, _, rfl⟩
    · rw [if_neg hd, if_neg hd]; exact .refl _

/-- A reading changes a channel in its points or its report of an invalid reading, and in nothing else. -/
theorem applyReading_onlyPoints (source : NodeAddress) (s : State) (rd : Reading) (d : Channel) :
    OnlyPoints (s.chan d) ((applyReading source s rd).chan d) := by
  unfold applyReading
  split
  · exact .refl _
  · next r _ =>
    split
    · rw [State.chan_modChan]
      split
      · next hd => rw [hd]; exact ⟨_, _, _, rfl⟩
      · exact .refl _
    · exact reportInvalid_onlyPoints _ _ _ _ _

theorem readings_onlyPoints (source : NodeAddress) (readings : List Reading) (s : State) (d : Channel) :
    OnlyPoints (s.chan d) ((readings.foldl (applyReading source) s).chan d) := by
  induction readings generalizing s with
  | nil => exact .refl _
  | cons rd rest ih => exact (applyReading_onlyPoints source s rd d).trans (ih _)

/-- Anchors leave an IDLE channel as it is: its own does nothing, and those of others do not reach it (R38). -/
theorem anchors_keep_idle (stamp : BitVec 32) (anchors : List Channel) {s : State} (hg : Good s) {d : Channel}
    (hd : (s.chan d).status = .idle) : (anchors.foldl (anchorEvent stamp) s).chan d = s.chan d := by
  induction anchors generalizing s with
  | nil => rfl
  | cons c rest ih =>
    have hkeep : (anchorEvent stamp s c).chan d = s.chan d := by
      by_cases hdc : d = c
      · subst hdc; rw [anchorEvent_of_idle hd]
      · exact ((atChannel_anchorEvent stamp s c).but hg d hdc (hg.idle_noPower hd)).1
    have hidle : ((anchorEvent stamp s c).chan d).status = .idle := by rw [hkeep]; exact hd
    rw [List.foldl_cons, ih ((atChannel_anchorEvent stamp s c).good hg) hidle, hkeep]

theorem OnlyPoints.status {a b : ChannelState} (h : OnlyPoints a b) : b.status = a.status := by
  obtain ⟨_, _, _, rfl⟩ := h; rfl

theorem applySample_idle (source : NodeAddress) (stamp : BitVec 32) (readings : List Reading) (order : List Channel) {s : State}
    (hg : Good s) {d : Channel} (hd : (s.chan d).status = .idle) :
    OnlyPoints (s.chan d) ((applySample source stamp readings order s).chan d) := by
  have hpoints := readings_onlyPoints source readings s d
  have hgood : Good (readings.foldl (applyReading source) s) :=
    (events_foldl _ (fun s rd => events_applyReading source s rd) readings s).good hg
  rw [applySample, anchors_keep_idle stamp _ hgood (hpoints.status.trans hd)]
  exact hpoints

/-! ## The turn -/

/-- Settles O19: the turn is `applySample` over the slot's own words, whose anchors are the channels its readings reach. -/
theorem sampleSlotTurnEffect : Obligations.SampleSlotTurnEffect := by
  intro slot order s hm hsync hd hk passed count stamp reading readings reaches
  have hreadings : sampleReadings slot = readings := sampleReadings_eq slot
  have hturn : exec (.sampleSlotTurn slot order) s = .next (applySample (slotSource slot) stamp readings order passed) := by
    rw [← hreadings, ← show sampleStamp slot = stamp from sampleStamp_eq slot]
    exact atTurn_own _ hm (slotEvent_sample hsync hd hk)
  refine ⟨fun hnothing => ?_, inOrder order (anchored s.routes (slotSource slot) readings), ?_, fun c => ?_, ?_, hturn, ?_,
    fun hpower c hidle => ?_⟩
  · rw [hturn, applySample_unrouted]
    intro rd hrd
    by_cases hcount : count ≤ 12
    · rw [show readings = (List.range count).map reading from if_pos hcount, List.mem_map] at hrd
      obtain ⟨k, hk, rfl⟩ := hrd
      have hk := List.mem_range.mp hk
      rcases hnothing with h0 | h12 | hnone
      · omega
      · omega
      · exact hnone k hk
    · rw [show readings = [] from if_neg hcount] at hrd
      cases hrd
  · exact nodup_inOrder order ((anchored_ascending _ _ _).imp fun h => h.ne)
  · rw [mem_inOrder]; exact mem_anchored
  · exact inOrder_eq order (anchored_ascending _ _ _)
  · exact (events_applySample (slotSource slot) stamp readings order passed).work.same
  · have hgood : Good passed := good_of_powerOk { hpower with }
    exact applySample_idle (slotSource slot) stamp readings order hgood hidle

end Sys2Proof.Proofs
end

section
/-! PROOF. What the arbiter's work changes in a channel, what a trip leaves at its channel, and link loss (R5, R135, R139 to R141, R149 to
R161). -/

namespace Sys2Proof.Proofs

open Sys2Proof.Machine Sys2Proof.Safety Sys2Proof.Laws

/-! ## The production of a setpoint at its channel (R102 to R104, R120, R121) -/

theorem computeMagnitude_chan (c : Channel) (kind : SampleKind) (s : State) : ∃ limited flags,
    (computeMagnitude c kind s).2.chan c = { s.chan c with budgetLimited := limited, causes := flags } := by
  unfold computeMagnitude
  simp only
  split
  · exact ⟨_, _, by rw [chan_raiseChannel, if_pos rfl]⟩
  · simp only
    split
    · exact ⟨_, _, rfl⟩
    · split
      · exact ⟨_, _, rfl⟩
      · exact ⟨_, _, by rw [chan_raiseChannel, if_pos rfl, State.chan_modChan_self]⟩

/-- A production changes its channel in the outbox, the last setpoint, the refresh count, the magnitude, and the marks of its causes. -/
theorem produceSetpoint_chan (c : Channel) (urgent : Bool) (s : State) : ∃ limited flags magnitude outbox refresh last,
    (produceSetpoint c urgent s).chan c = { s.chan c with
      budgetLimited := limited, causes := flags, lastMagnitude := magnitude, outbox := outbox, refreshCount := refresh
      lastSetpoint := last } := by
  unfold produceSetpoint
  split
  · exact ⟨_, _, _, _, _, _, by rw [State.chan_modChan_self]; rfl⟩
  · next kind _ =>
    obtain ⟨limited, flags, h⟩ := computeMagnitude_chan c kind s
    exact ⟨_, _, _, _, _, _, by rw [State.chan_modChan_self, h]; rfl⟩

/-! ## The arbiter's work at any channel (R149 to R161) -/

/-- A channel after work of the arbiter: its state, its pendings, its setpoints and its cause flags may have changed, and if it was
neither IDLE nor TRIPPED it still is neither. -/
def Arbitrated (before after : ChannelState) : Prop :=
  (∃ status hold skip limited flags magnitude outbox refresh last, after = { before with
    status := status, holdPending := hold, skipPending := skip, budgetLimited := limited, causes := flags
    lastMagnitude := magnitude, outbox := outbox, refreshCount := refresh, lastSetpoint := last }) ∧
  (before.atRest = false → after.atRest = false)

/-- The arbiter's work as it shows in the channels. -/
def ArbiterWork (s t : State) : Prop := ∀ d, Arbitrated (s.chan d) (t.chan d)

theorem Arbitrated.refl (ch : ChannelState) : Arbitrated ch ch := ⟨⟨_, _, _, _, _, _, _, _, _, rfl⟩, id⟩

theorem ArbiterWork.refl (s : State) : ArbiterWork s s := fun d => .refl (s.chan d)

theorem ArbiterWork.trans {s t u : State} (h₁ : ArbiterWork s t) (h₂ : ArbiterWork t u) : ArbiterWork s u := fun d => by
  obtain ⟨⟨_, _, _, _, _, _, _, _, _, e₁⟩, a₁⟩ := h₁ d
  obtain ⟨⟨_, _, _, _, _, _, _, _, _, e₂⟩, a₂⟩ := h₂ d
  exact ⟨⟨_, _, _, _, _, _, _, _, _, by rw [e₂, e₁]⟩, a₂ ∘ a₁⟩

/-- Work at one channel, when it is the arbiter's there. -/
theorem arbiterWork_at {c : Channel} {s t : State} (hc : Arbitrated (s.chan c) (t.chan c))
    (ho : ∀ d, d ≠ c → t.chan d = s.chan d) : ArbiterWork s t := fun d => by
  by_cases hd : d = c
  · rw [hd]; exact hc
  · rw [ho d hd]; exact .refl _

theorem arbiterWork_modChan {s : State} {c : Channel} {f : ChannelState → ChannelState}
    (h : Arbitrated (s.chan c) (f (s.chan c))) : ArbiterWork s (s.modChan c f) :=
  arbiterWork_at (c := c) (by rw [State.chan_modChan_self]; exact h) (fun _ hd => State.chan_modChan_ne s f hd)

theorem arbiterWork_raiseChannel (c : Channel) (cause : Cause) (f : EventFields) (s : State) :
    ArbiterWork s (raiseChannel c cause f s) :=
  arbiterWork_at (c := c) (by rw [chan_raiseChannel, if_pos rfl]; exact ⟨⟨_, _, _, _, _, _, _, _, _, rfl⟩, id⟩)
    (fun _ hd => chan_raiseChannel_ne hd cause f s)

theorem arbiterWork_produceSetpoint (c : Channel) (urgent : Bool) (s : State) : ArbiterWork s (produceSetpoint c urgent s) := by
  obtain ⟨_, _, _, _, _, _, h⟩ := produceSetpoint_chan c urgent s
  refine arbiterWork_at (c := c) ?_ (local_produceSetpoint c urgent s).others
  rw [h]; exact ⟨⟨_, _, _, _, _, _, _, _, _, rfl⟩, id⟩

theorem arbiterWork_enterHolding (c : Channel) (s : State) : ArbiterWork s (enterHolding c s) := by
  unfold enterHolding
  exact ((arbiterWork_modChan ⟨⟨_, _, _, _, _, _, _, _, _, rfl⟩, fun _ => rfl⟩).trans (arbiterWork_raiseChannel _ _ _ _)).trans
    (arbiterWork_produceSetpoint c true _)

theorem arbiterWork_takeGrant (g : Grant) (detail : Nat) (s : State) : ArbiterWork s (takeGrant g detail s) := by
  have hskip : ArbiterWork s ((s.dropGrant g.channel).modChan g.channel (fun ch => { ch with skipPending := false })) :=
    arbiterWork_modChan (s := s.dropGrant g.channel) ⟨⟨_, _, _, _, _, _, _, _, _, rfl⟩, id⟩
  unfold takeGrant
  simp only
  split
  · exact (hskip.trans (arbiterWork_raiseChannel _ _ _ _)).trans (arbiterWork_enterHolding _ _)
  · have hjoin : ArbiterWork s ((((s.dropGrant g.channel).modChan g.channel (fun ch => { ch with skipPending := false })).joinWait
        g.channel g.watts).modChan g.channel (fun ch => { ch with status := .displaced })) :=
      hskip.trans (arbiterWork_modChan (s := State.joinWait _ _ _) ⟨⟨_, _, _, _, _, _, _, _, _, rfl⟩, fun _ => rfl⟩)
    exact (hjoin.trans (arbiterWork_raiseChannel _ _ _ _)).trans (arbiterWork_produceSetpoint _ _ _)

theorem arbiterWork_shed (s : State) : ArbiterWork s (shed s) := by
  unfold shed
  generalize s.grants.length = fuel
  induction fuel generalizing s with
  | zero => exact .refl s
  | succ n ih =>
    unfold shedAtMost
    split
    · exact .refl s
    · split
      · exact .refl s
      · exact (arbiterWork_takeGrant _ _ _).trans (ih _)

theorem arbiterWork_grantEntry (silent : Option Channel) (w : WaitEntry) (s : State) :
    ArbiterWork s (grantEntry silent w s) := by
  have hrun : ArbiterWork s (State.modChan { s.dropWait w.channel with
      grants := s.grants ++ [({ channel := w.channel, watts := w.request } : Grant)] } w.channel
      (fun ch => { ch with status := .running })) :=
    arbiterWork_modChan (s := { s.dropWait w.channel with
      grants := s.grants ++ [({ channel := w.channel, watts := w.request } : Grant)] })
      ⟨⟨_, _, _, _, _, _, _, _, _, rfl⟩, fun _ => rfl⟩
  unfold grantEntry
  simp only
  split
  · exact hrun.trans (arbiterWork_raiseChannel _ _ _ _)
  · exact (hrun.trans (arbiterWork_raiseChannel _ _ _ _)).trans (arbiterWork_produceSetpoint _ _ _)

theorem arbiterWork_takeAll (detail : Nat) (gs : List Grant) (s : State) :
    ArbiterWork s (gs.foldl (fun s g => takeGrant g detail s) s) := by
  induction gs generalizing s with
  | nil => exact .refl s
  | cons g rest ih => exact (arbiterWork_takeGrant g detail s).trans (ih _)

theorem arbiterWork_scanEntry (silent : Option Channel) (w : WaitEntry) (memo : ScanMemo) (s : State) :
    ArbiterWork s (scanEntry silent w memo s).2 := by
  unfold scanEntry
  split
  · exact .refl s
  · split
    · exact .refl s
    · split
      · exact arbiterWork_grantEntry _ _ _
      · split
        · exact (arbiterWork_takeAll _ _ _).trans (arbiterWork_grantEntry _ _ _)
        · exact .refl s

theorem arbiterWork_scanWalk (silent : Option Channel) (ws : List WaitEntry) (memo : ScanMemo) (s : State) :
    ArbiterWork s (scanWalk silent ws memo s).2 := by
  induction ws generalizing memo s with
  | nil => exact .refl s
  | cons w rest ih => exact (arbiterWork_scanEntry silent w memo s).trans (ih _ _)

theorem arbiterWork_scan (silent : Option Channel) (s : State) : ArbiterWork s (scan silent s) := by
  unfold scan
  generalize Config.scanBound = fuel
  induction fuel generalizing s with
  | zero => exact .refl s
  | succ n ih =>
    have hwalk := arbiterWork_scanWalk silent s.waits { displaced := [], failed := [], granted := false } s
    unfold scanAtMost
    simp only
    split
    · exact hwalk.trans (ih _)
    · exact hwalk

theorem arbiterWork_settlePower (c : Channel) (s : State) : ArbiterWork s (settlePower c s) := by
  unfold settlePower
  split
  · exact (arbiterWork_shed (s.dropGrant c)).trans (arbiterWork_scan _ _)
  · split
    · exact arbiterWork_scan none (s.dropWait c)
    · exact .refl s

/-! ## A trip at its channel and at the others (R139 to R141) -/

/-- The record of a trip (R141): `before` is the channel when the trip reached it. -/
def tripRecordOf (t : Trip) (now : BitVec 32) (before : ChannelState) : TripRecord :=
  { cause := t.cause, detail := t.detail, value := t.value, threshold := t.threshold, stepIndex := t.stepIndex,
    cycleNumber := before.cycleCount, timeMs := now, stateAtTrip := before.status }

theorem msTime_trip (c : Channel) (t : Trip) (s : State) : (trip c t s).msTime = s.msTime :=
  (atChannel_trip c t s).work.same.msTime

/-- A trip that reaches its channel leaves it TRIPPED, with the record of the trip. -/
theorem trip_chan {c : Channel} {s : State} (h : (s.chan c).atRest = false) (t : Trip) :
    ((trip c t s).chan c).status = .tripped ∧ ((trip c t s).chan c).runOutcome = .tripped ∧
      ((trip c t s).chan c).tripRecord = some (tripRecordOf t s.msTime (s.chan c)) := by
  have hnow : (produceSetpoint c true ((settlePower c (endStep c detailTripped s)).modChan c enterTripped)).msTime = s.msTime :=
    ((((local_endStep c detailTripped s).toWork.trans (work_settlePower c _)).trans (work_enterTripped _ c)).trans
      (local_produceSetpoint c true _).toWork).same.msTime
  obtain ⟨_, _, _, _, _, _, hproduced⟩ :=
    produceSetpoint_chan c true ((settlePower c (endStep c detailTripped s)).modChan c enterTripped)
  rw [State.chan_modChan_self] at hproduced
  unfold trip
  simp only [h, Bool.false_eq_true, if_false, chan_raiseChannel, if_true, State.chan_modChan_self, hproduced, hnow]
  exact ⟨rfl, rfl, rfl⟩

/-- A trip does at every other channel what the arbiter does there. -/
theorem trip_others {c d : Channel} (hd : d ≠ c) (t : Trip) (s : State) : Arbitrated (s.chan d) ((trip c t s).chan d) := by
  unfold trip
  simp only
  split
  · exact .refl _
  · rw [chan_raiseChannel_ne hd, State.chan_modChan_ne _ _ hd, (local_produceSetpoint _ _ _).others d hd,
      State.chan_modChan_ne _ _ hd, ← (local_endStep c detailTripped s).others d hd]
    exact arbiterWork_settlePower c _ d

/-! ## Trips of every channel (R135, R137) -/

/-- A row of trips leaves each channel it reaches TRIPPED with the cause, its record as of the row's beginning: trips taken earlier in the
row leave the channel's step and cycle number as they were. -/
theorem tripFold_trips (cause : Cause) (cs : List Channel) {s : State} (hg : Good s) {d : Channel} (hmem : d ∈ cs)
    (hrun : (s.chan d).atRest = false) : ∃ state,
      ((cs.foldl (tripFor cause) s).chan d).status = .tripped ∧ ((cs.foldl (tripFor cause) s).chan d).runOutcome = .tripped ∧
      ((cs.foldl (tripFor cause) s).chan d).tripRecord = some
        { tripRecordOf { cause := cause, stepIndex := (s.chan d).currentStep } s.msTime (s.chan d) with stateAtTrip := state } := by
  induction cs generalizing s with
  | nil => cases hmem
  | cons c rest ih =>
    have hg' : Good (tripFor cause s c) := (events_trip c _ s).good hg
    rw [List.foldl_cons]
    by_cases hdc : d = c
    · subst hdc
      have hrest : ((tripFor cause s d).chan d).atRest = true := trip_atRest _ _ _
      rw [tripFold_atRest cause rest hg' hrest]
      obtain ⟨hstatus, houtcome, hrecord⟩ := trip_chan hrun { cause := cause, stepIndex := (s.chan d).currentStep }
      exact ⟨_, hstatus, houtcome, hrecord⟩
    · obtain ⟨⟨_, _, _, _, _, _, _, _, _, hd⟩, hactive⟩ := trip_others hdc { cause := cause, stepIndex := (s.chan c).currentStep } s
      obtain ⟨state, hstatus, houtcome, hrecord⟩ :=
        ih hg' ((List.mem_cons.mp hmem).resolve_left hdc) (hactive hrun)
      refine ⟨state, hstatus, houtcome, ?_⟩
      rw [hrecord, show (tripFor cause s c).msTime = s.msTime from msTime_trip c _ s,
        show (tripFor cause s c).chan d = _ from hd]
      rfl

/-- A hall-wide event leaves every channel IDLE or TRIPPED: those at rest before it as they were, the others with its cause. -/
theorem allTripped_tripAll (cause : Cause) (order : List Channel) {s : State} (hg : Good s) :
    AllTripped cause s.msTime s (tripAll cause order s) := fun c => by
  refine ⟨tripAll_atRest cause order hg c, fun hrest => tripFold_atRest cause _ hg hrest, fun hrun => ?_⟩
  have hmem : c ∈ inOrder order allChannels := (mem_inOrder _ _ c).mpr (List.mem_finRange c)
  obtain ⟨state, hstatus, houtcome, hrecord⟩ := tripFold_trips cause _ hg hmem hrun
  exact ⟨hstatus, houtcome, _, hrecord, rfl, rfl, rfl, rfl, rfl, rfl, rfl⟩

/-! ## Missed slots (R5, R135) -/

theorem good_raiseDevice (cause : Cause) {s : State} (h : Good s) : Good (raiseDevice cause s) := by
  obtain ⟨q, o, hraise⟩ := raiseDevice_eq cause s
  rw [hraise]
  exact ⟨{ h.lists with }, h.caps⟩

/-- The part at the fourth miss, back in SEARCH before LINK_LOST and the trips. -/
def searching (slot : Slot) (s : State) : State :=
  { s with receiver := backToSearch (ringBits (slot.get 0)) s.receiver, ringOut := .slot slot }

theorem missedTurn_counts (slot : Slot) (order : List Channel) {s : State} (h : s.receiver.missCount < 3) :
    missedTurn slot order s = { s with
      receiver := { s.receiver with missCount := s.receiver.missCount + 1, position := 0 }, ringOut := .slot slot } := if_pos h

theorem missedTurn_loses (slot : Slot) (order : List Channel) {s : State} (h : 3 ≤ s.receiver.missCount) :
    missedTurn slot order s = tripAll .linkLoss order (raiseDevice .linkLost (searching slot s)) := if_neg (Nat.not_lt.mpr h)

/-- Settles O15: below the fourth miss the count rises; at it the receiver searches, LINK_LOST is raised and link loss trips. -/
theorem missedSlotsLoseLock : Obligations.MissedSlotsLoseLock := by
  intro slot order s hm hsync
  have hturn : exec (.missedSlot slot order) s = .next (missedTurn slot order s) := atTurn_own _ hm (slotEvent_missed hsync)
  refine ⟨fun hfew => ?_, fun hpower hfour => ⟨_, hturn, ?_⟩⟩
  · rw [hturn, missedTurn_counts slot order hfew]
  · have hgood : Good (searching slot s) := good_of_powerOk { hpower with }
    have hcause := mem_deviceCauses_raiseDevice .linkLost (searching slot s)
    have hall := allTripped_tripAll .linkLoss order (good_raiseDevice .linkLost hgood)
    have hsame := (events_tripAll .linkLoss order (raiseDevice .linkLost (searching slot s))).work.same
    obtain ⟨q, o, hraise⟩ := raiseDevice_eq .linkLost (searching slot s)
    rw [missedTurn_loses slot order hfour]
    rw [hraise] at hcause hall hsame ⊢
    exact ⟨hsame.receiver, hsame.ringOut, hsame.deviceCauses ▸ hcause, hall, hsame.routes, hsame.steps, hsame.staged,
      hsame.requestQueue, hsame.replyQueue, hsame.walk, hsame.msTime, hsame.hallStop, hsame.importCap, hsame.exportCap⟩

end Sys2Proof.Proofs
end

section
/-! PROOF. The words of step records: what READ_STEP packs (R63), WRITE_STEP reads back (R59, R62). -/

namespace Sys2Proof.Proofs

open Sys2Proof.Machine Sys2Proof.Safety Sys2Proof.Laws

/-! ## Words that stand in a request's arguments (R23) -/

/-- These words stand in the arguments from word `i` on, whatever is behind them. -/
def StandAt (args : List Word) (i : Nat) (ws : List Word) : Prop := ws <+: args.drop i

/-- Words stand one part behind the other. -/
theorem standAt_append {args : List Word} {i : Nat} {xs ys : List Word} :
    StandAt args i (xs ++ ys) ↔ StandAt args i xs ∧ StandAt args (i + xs.length) ys := by
  unfold StandAt
  rw [← List.drop_drop]
  constructor
  · rintro ⟨behind, h⟩
    rw [← h, List.append_assoc]
    exact ⟨List.prefix_append _ _, by simp⟩
  · rintro ⟨⟨behind, h⟩, hys⟩
    rw [← h, List.drop_left] at hys
    rw [← h]
    exact (List.prefix_append_right_inj xs).mpr hys

theorem standAt_of_eq {args ws : List Word} (h : ws = args) : StandAt args 0 ws := h ▸ List.prefix_rfl

section Readers

variable {args : List Word} {i : Nat}

theorem argWord_of_standAt {w : Word} (h : StandAt args i [w]) : argWord args i = w := by
  obtain ⟨behind, h⟩ := h
  have hget : (args.drop i)[0]? = some w := by simp [← h]
  simp_all [argWord]

theorem argNat_of_standAt {n : Nat} (h : StandAt args i (pack16 n)) (hn : n ≤ 65535) : argNat args i = n := by
  rw [argNat, argWord_of_standAt h, BitVec.toNat_ofNat]
  exact Nat.mod_eq_of_lt (by omega)

theorem arg32_of_standAt {n : Nat} (h : StandAt args i (pack32 n)) (hn : n < 4294967296) : arg32 args i = n := by
  obtain ⟨hhigh, hlow⟩ := standAt_append (xs := [BitVec.ofNat 16 (n / 65536)]).mp h
  rw [List.length_singleton] at hlow
  rw [arg32, argNat, argNat, argWord_of_standAt hhigh, argWord_of_standAt hlow, BitVec.toNat_ofNat, BitVec.toNat_ofNat]
  omega

theorem argS32_of_standAt {v : Int} (h : StandAt args i (packS32 v)) (hlo : -2147483648 ≤ v) (hhi : v ≤ 2147483647) :
    argS32 args i = v := by
  rw [argS32, arg32_of_standAt h (BitVec.isLt _), BitVec.ofNat_toNat, BitVec.setWidth_eq, BitVec.toInt_ofInt]
  exact Int.bmod_eq_of_le (by omega) (by omega)

theorem within_eq_some {lo hi n : Nat} (hlo : lo ≤ n) (hhi : n ≤ hi) : within lo hi n = some n := if_pos ⟨hlo, hhi⟩

theorem argIn_of_standAt {lo hi n : Nat} (h : StandAt args i (pack16 n)) (hlo : lo ≤ n) (hhi : n ≤ hi) (hn : n ≤ 65535) :
    argIn lo hi args i = some n := by
  rw [argIn, argNat_of_standAt h hn, within_eq_some hlo hhi]

theorem argChannel_of_standAt {c : Channel} (h : StandAt args i (pack16 c.val)) : argChannel args i = some c := by
  have hc : argNat args i = c.val := argNat_of_standAt h (by omega)
  simp [argChannel, hc]

theorem argFlag_of_standAt {b : Bool} (h : StandAt args i (packFlag b)) : argFlag args i = some b := by
  have hb : argNat args i = b.toNat := by rw [argNat, argWord_of_standAt h]; cases b <;> rfl
  cases b <;> simp [argFlag, hb]

/-- An optional field is read back when its reader reads the words of a present value back (R23). -/
theorem argOptional_of_standAt {α : Type} {width : Nat} {pack : α → List Word} {o field : Option α}
    (h : StandAt args i (packOption width pack o)) (hfield : ∀ a ∈ o, StandAt args (i + 1) (pack a) → field = some a) :
    argOptional args i field = some o := by
  cases o with
  | none =>
    have hflag : argFlag args i = some false := argFlag_of_standAt (standAt_append (xs := packFlag false).mp h).1
    simp [argOptional, hflag]
  | some a =>
    obtain ⟨hpresent, hvalue⟩ := standAt_append (xs := packFlag true).mp h
    simp [argOptional, argFlag_of_standAt hpresent, hfield a rfl hvalue]

end Readers

/-! ## How many words a field takes -/

theorem length_pack16 (n : Nat) : (pack16 n).length = 1 := rfl

theorem length_packFlag (b : Bool) : (packFlag b).length = 1 := rfl

theorem length_pack32 (n : Nat) : (pack32 n).length = 2 := rfl

theorem length_packS32 (v : Int) : (packS32 v).length = 2 := rfl

theorem length_packOption_pack16 (o : Option Nat) : (packOption 1 pack16 o).length = 2 := by cases o <;> rfl

theorem length_packOption_pack32 (o : Option Nat) : (packOption 2 pack32 o).length = 3 := by cases o <;> rfl

theorem length_packPredicate (p : Predicate) : (packPredicate p).length = 7 := rfl

/-! ## Codes (02 section 2.6) -/

theorem quantity_ofCode_code (q : Quantity) : Quantity.ofCode q.code = some q := by cases q <;> rfl

theorem comparison_ofCode_code (k : Comparison) : Comparison.ofCode k.code = some k := by cases k <;> rfl

theorem sampleKind_ofCode_code (k : SampleKind) : SampleKind.ofCode k.code = some k := by cases k <;> rfl

theorem readOutcome_code (o : PredicateOutcome) : readOutcome o.code o.targetWord = some o := by cases o <;> rfl

theorem quantity_code_le (q : Quantity) : q.code ≤ 65535 := by cases q <;> decide

theorem comparison_code_le (k : Comparison) : k.code ≤ 65535 := by cases k <;> decide

theorem outcome_code_le (o : PredicateOutcome) : o.code ≤ 65535 := by cases o <;> simp [PredicateOutcome.code]

theorem sampleKind_code_le (k : SampleKind) : k.code ≤ 65535 := by cases k <;> decide

theorem kindCode_le (body : StepBody) : body.kindCode ≤ 65535 := by
  cases body with
  | sample kind next parts => exact sampleKind_code_le kind
  | loop target next count flag predicates => exact (by decide : loopKindCode ≤ 65535)
  | finish => exact (by decide : endKindCode ≤ 65535)

/-- The target word of any outcome in range is one word; it is 0 but for GOTO (log entries 13 and 14). -/
theorem targetWord_le {o : PredicateOutcome} (h : OutcomeOk o) : o.targetWord ≤ 65535 := by
  cases o with
  | goto target => exact h
  | _ => exact Nat.zero_le _

/-! ## Predicates (R51, R59, R62) -/

section Predicates

variable {args : List Word} {i : Nat}

theorem readPredicate_of_standAt {p : Predicate} (h : StandAt args i (packPredicate p)) (hp : PredicateOk p) :
    readPredicate args i = some p := by
  obtain ⟨hpers, hpers', hlo, hhi, hout⟩ := hp
  simp only [packPredicate, standAt_append, List.length_append, length_pack16, length_packS32, Nat.reduceAdd] at h
  obtain ⟨⟨⟨⟨⟨hquantity, hcomparison⟩, hthreshold⟩, hpersistence⟩, hcode⟩, htarget⟩ := h
  simp [readPredicate, argNat_of_standAt hquantity (quantity_code_le _), quantity_ofCode_code,
    argNat_of_standAt hcomparison (comparison_code_le _), comparison_ofCode_code, argS32_of_standAt hthreshold hlo hhi,
    argIn_of_standAt hpersistence hpers hpers' (by omega), argNat_of_standAt hcode (outcome_code_le _),
    argNat_of_standAt htarget (targetWord_le hout), readOutcome_code]

theorem readPredicates_of_standAt {ps : List Predicate} (h : StandAt args i (ps.flatMap packPredicate))
    (hps : ∀ p ∈ ps, PredicateOk p) : readPredicates args ps.length i = some ps := by
  induction ps generalizing i with
  | nil => rfl
  | cons p ps ih =>
    rw [List.flatMap_cons, standAt_append, length_packPredicate] at h
    obtain ⟨hhead, htail⟩ := h
    obtain ⟨hp, hrest⟩ := List.forall_mem_cons.mp hps
    simp [readPredicates, readPredicate_of_standAt hhead hp, ih htail hrest]

/-- The first-predicate list of part 0 (R59). -/
theorem readFirst_of_standAt {most : Nat} {ps : List Predicate} (h : StandAt args i (packList packPredicate (ps.take 1)))
    (hps : PredicatesOk most ps) : readFirst args i ps.length = some (ps.take 1) := by
  obtain ⟨hcount, hfirst⟩ := standAt_append.mp h
  have hlen : (ps.take 1).length = min ps.length 1 := by rw [List.length_take, Nat.min_comm]
  have hpreds := readPredicates_of_standAt hfirst fun p hp => hps.2 p (List.mem_of_mem_take hp)
  rw [hlen] at hcount hpreds
  rw [length_pack16] at hpreds
  simp [readFirst, argNat_of_standAt hcount (by omega), within_eq_some, hpreds]

end Predicates

/-! ## Record contents (R47, R48, R59, R63) -/

/-- The contents part 0 carries: those of a record with its first predicate at most (R59). -/
def firstOnly : StepBody → StepBody
  | .sample kind next parts => .sample kind next { parts with terminations := parts.terminations.map (·.take 1) }
  | .loop target next count flag predicates => .loop target next count flag (predicates.take 1)
  | .finish => .finish

theorem firstOnly_addPredicates (body : StepBody) : (firstOnly body).addPredicates (body.predicates.drop 1) = body := by
  cases body with
  | sample kind next parts =>
    obtain ⟨level, clamp, budget, terminations⟩ := parts
    cases terminations with
    | none => rfl
    | some ps =>
      simp only [firstOnly, StepBody.addPredicates, StepBody.predicates, Option.map_some, Option.getD_some,
        List.take_append_drop]
  | loop target next count flag predicates =>
    simp only [firstOnly, StepBody.addPredicates, StepBody.predicates, List.take_append_drop]
  | finish => rfl

theorem levelBound_eq (kind : SampleKind) :
    levelBound kind = if kind = .chargeCC ∨ kind = .dischargeCC then 30000 else 200000 := by cases kind <;> rfl

theorem predicatesOk_predicates {most : Nat} {body : StepBody} (h : BodyOk most body) : PredicatesOk most body.predicates := by
  cases body with
  | sample kind next parts =>
    obtain ⟨-, -, -, -, hlist⟩ := h
    obtain ⟨level, clamp, budget, terminations⟩ := parts
    cases terminations with
    | none => exact ⟨Nat.zero_le _, by simp [StepBody.predicates]⟩
    | some ps => exact hlist ps rfl
  | loop target next count flag predicates =>
    obtain ⟨-, -, -, -, hlist⟩ := h
    exact hlist
  | finish => exact ⟨Nat.zero_le _, by simp [StepBody.predicates]⟩

section Bodies

variable {args : List Word}

theorem readSampleHead_of_standAt {kind : SampleKind} {next : Nat} {parts : Parts}
    (h : StandAt args 4 (packBody (.sample kind next parts))) (hb : BodyOk 4 (.sample kind next parts)) :
    readSampleHead kind args =
      some (firstOnly (.sample kind next parts), (StepBody.sample kind next parts).predicates.length) := by
  have hlist : PredicatesOk 4 (parts.terminations.getD []) := predicatesOk_predicates hb
  obtain ⟨hnext, hlevel, hclamp, hbudget, -⟩ := hb
  rw [← levelBound_eq] at hlevel
  have hbound : levelBound kind ≤ 200000 := by cases kind <;> decide
  simp only [packBody, standAt_append, List.length_append, length_pack16, length_packFlag, length_packOption_pack16,
    length_packOption_pack32, Nat.reduceAdd] at h
  obtain ⟨⟨⟨⟨⟨⟨atNext, atLevel⟩, atClamp⟩, atBudget⟩, atPresent⟩, atCount⟩, atFirst⟩ := h
  have readLevel : argOptional args 5 (within 0 (levelBound kind) (arg32 args 6)) = some parts.level :=
    argOptional_of_standAt atLevel fun v hv at6 => by
      have := hlevel v hv
      rw [arg32_of_standAt at6 (by omega), within_eq_some (Nat.zero_le _) this]
  have readClamp : argOptional args 8 (argIn 0 60000 args 9) = some parts.clamp :=
    argOptional_of_standAt atClamp fun v hv at9 => by
      have := hclamp v hv
      exact argIn_of_standAt at9 (Nat.zero_le _) this (by omega)
  have readBudget : argOptional args 10 (within 0 200000 (arg32 args 11)) = some parts.budget :=
    argOptional_of_standAt atBudget fun v hv at11 => by
      have := hbudget v hv
      rw [arg32_of_standAt at11 (by omega), within_eq_some (Nat.zero_le _) this]
  have hmost : (parts.terminations.getD []).length ≤ if parts.terminations.isSome = true then 4 else 0 := by
    cases hterm : parts.terminations with
    | none => simp
    | some ps => simpa [hterm] using hlist.1
  have readCount := argIn_of_standAt atCount (Nat.zero_le _) hmost (by have := hlist.1; omega)
  have hkept : (if parts.terminations.isSome = true then some ((parts.terminations.getD []).take 1) else none) =
      parts.terminations.map (·.take 1) := by cases parts.terminations <;> rfl
  simp [readSampleHead, readLevel, readClamp, readBudget, argFlag_of_standAt atPresent, readCount,
    readFirst_of_standAt atFirst hlist, argNat_of_standAt atNext hnext, hkept, firstOnly, StepBody.predicates]

theorem readLoopHead_of_standAt {target next count : Nat} {flag : Bool} {predicates : List Predicate}
    (h : StandAt args 4 (packBody (.loop target next count flag predicates)))
    (hb : BodyOk 4 (.loop target next count flag predicates)) :
    readLoopHead args = some (firstOnly (.loop target next count flag predicates), predicates.length) := by
  obtain ⟨htarget, hnext, hone, hcount, hlist⟩ := hb
  have hmost : predicates.length ≤ 4 := hlist.1
  simp only [packBody, standAt_append, List.length_append, length_pack16, length_packFlag, Nat.reduceAdd] at h
  obtain ⟨⟨⟨⟨⟨atNext, atTarget⟩, atCount⟩, atFlag⟩, atNumber⟩, atFirst⟩ := h
  simp [readLoopHead, argIn_of_standAt atCount hone hcount hcount, argFlag_of_standAt atFlag,
    argIn_of_standAt atNumber (Nat.zero_le _) hmost (by omega), readFirst_of_standAt atFirst hlist,
    argNat_of_standAt atTarget htarget, argNat_of_standAt atNext hnext, firstOnly]

theorem readBody_of_standAt {body : StepBody} (hkind : StandAt args 3 (pack16 body.kindCode))
    (hfields : StandAt args 4 (packBody body)) (hb : BodyOk 4 body) :
    readBody args = some (firstOnly body, body.predicates.length) := by
  have hcode := argNat_of_standAt hkind (kindCode_le body)
  cases body with
  | sample kind next parts =>
    have hsample : SampleKind.ofCode (argNat args 3) = some kind := by rw [hcode]; exact sampleKind_ofCode_code kind
    rw [readBody, hsample]
    exact readSampleHead_of_standAt hfields hb
  | loop target next count flag predicates =>
    have hloop : argNat args 3 = loopKindCode := hcode
    rw [readBody, hloop]
    exact readLoopHead_of_standAt hfields hb
  | finish =>
    have hend : argNat args 3 = endKindCode := hcode
    rw [readBody, hend]
    rfl

end Bodies

/-! ## The two parts of WRITE_STEP (R59, R62) -/

theorem readStepHead_packBody {index : Nat} (owner : Channel) {body : StepBody} (behind : List Word) (hi : index ≤ 511)
    (hb : BodyOk 4 body) :
    readStepHead (pack16 index ++ pack16 owner.val ++ pack16 0 ++ pack16 body.kindCode ++ packBody body ++ behind) =
      some { index := index, owner := owner, body := firstOnly body, count := body.predicates.length } := by
  generalize hargs : pack16 index ++ pack16 owner.val ++ pack16 0 ++ pack16 body.kindCode ++ packBody body ++ behind = args
  have h := standAt_of_eq hargs
  simp only [standAt_append, List.length_append, length_pack16, Nat.reduceAdd] at h
  obtain ⟨⟨⟨⟨⟨atIndex, atOwner⟩, atPart⟩, atKind⟩, atFields⟩, -⟩ := h
  simp [readStepHead, argIn_of_standAt atIndex (Nat.zero_le _) hi (by omega), argChannel_of_standAt atOwner,
    argIn_of_standAt (lo := 0) (hi := 0) atPart (Nat.le_refl _) (Nat.le_refl _) (by omega),
    readBody_of_standAt atKind atFields hb]

theorem readStepRest_packList {index : Nat} (owner : Channel) {ps : List Predicate} (behind : List Word) (hi : index ≤ 511)
    (hone : 1 ≤ ps.length) (hps : PredicatesOk 3 ps) :
    readStepRest (pack16 index ++ pack16 owner.val ++ pack16 1 ++ packList packPredicate ps ++ behind) =
      some (index, owner, ps) := by
  obtain ⟨hthree, hfits⟩ := hps
  generalize hargs : pack16 index ++ pack16 owner.val ++ pack16 1 ++ packList packPredicate ps ++ behind = args
  have h := standAt_of_eq hargs
  simp only [packList, standAt_append, List.length_append, length_pack16, Nat.reduceAdd] at h
  obtain ⟨⟨⟨⟨atIndex, atOwner⟩, atPart⟩, atCount, atList⟩, -⟩ := h
  simp [readStepRest, argIn_of_standAt atIndex (Nat.zero_le _) hi (by omega), argChannel_of_standAt atOwner,
    argIn_of_standAt (lo := 1) (hi := 1) atPart (Nat.le_refl _) (Nat.le_refl _) (by omega),
    argIn_of_standAt atCount hone hthree (by omega), readPredicates_of_standAt atList hfits]

/-- Of a list of at most four predicates, part 1 carries at most three (R62). -/
theorem predicatesOk_drop {ps : List Predicate} (h : PredicatesOk 4 ps) : PredicatesOk 3 (ps.drop 1) := by
  obtain ⟨hfour, hfits⟩ := h
  refine ⟨?_, fun p hp => hfits p (List.mem_of_mem_drop hp)⟩
  rw [List.length_drop]
  omega

/-- Settles O46: each packed field is read back at the word where it stands; the first predicate and the rest make the list again. -/
theorem stepHeadRoundTrip : Obligations.StepHeadRoundTrip := by
  intro index owner body behind hi hb
  refine ⟨readStepHead_packBody owner behind hi hb, fun htwo => ?_, firstOnly_addPredicates body⟩
  have hone : 1 ≤ (body.predicates.drop 1).length := by rw [List.length_drop]; omega
  exact readStepRest_packList owner behind hi hone (predicatesOk_drop (predicatesOk_predicates hb))

end Sys2Proof.Proofs
end

section
/-! PROOF. The step (R80), a request's turn in the Request Engine (R182, R184), and the channel requests that touch no power: SKIP_STEP,
CLEAR_TRIP and READ_CHANNEL_CONFIG (R77, R85, R87). -/

namespace Sys2Proof.Proofs

open Sys2Proof.Machine Sys2Proof.Safety Sys2Proof.Laws

/-! ## The step -/

/-- Settles O1: the step's two cases are those of the queue. -/
theorem stepRunsFrontCommand : Obligations.StepRunsFrontCommand := by
  refine ⟨fun c rest s h => ?_, fun s h => ?_⟩
  · rw [step, h]
  · rw [step, h]

/-! ## A request's turn (R182, R184) -/

theorem finishRequest_eq {r : Request} {rest : List Request} {s : State} (a : Answer) (h : s.requestQueue = r :: rest) :
    finishRequest r a s = answered r rest a.outcome a.results s := by
  simp [finishRequest, produceReply, answered, replyTo, h]

section
variable {s t : State} {r : Request} {rest : List Request} {mine : Request → Bool} {a : Answer}
variable {body : List Word → State → Option Answer × State} (ht : Taken s r rest) (hm : mine r = true)
include ht hm

/-- A taken request that ends at once is answered. -/
theorem serve_answered (hb : body r.args s = (some a, t)) (hq : t.requestQueue = s.requestQueue) :
    serve mine body s = .next (answered r rest a.outcome a.results t) := by
  obtain ⟨hhead, hroom, hwalk⟩ := ht
  have hready : s.engineReady = true := by simp [State.engineReady, Config.replyCapacity, hroom, hwalk]
  simp only [serve, hhead, hm, hready, if_true, hb]
  rw [finishRequest_eq a (hq.trans hhead)]

/-- A taken START whose walk begins is not answered yet (R183). -/
theorem serve_begun (hb : body r.args s = (none, t)) : serve mine body s = .next t := by
  obtain ⟨hhead, hroom, hwalk⟩ := ht
  have hready : s.engineReady = true := by simp [State.engineReady, Config.replyCapacity, hroom, hwalk]
  simp only [serve, hhead, hm, hready, if_true, hb]

end

/-! ## The channel operand (05 section 5.4) -/

theorem argChannel_above {args : List Word} {i : Nat} (h : 7 < argNat args i) : argChannel args i = none := dif_neg (by omega)

theorem argChannel_eq {args : List Word} {i : Nat} {c : Channel} (h : argNat args i = c.val) : argChannel args i = some c := by
  simp [argChannel, h]

/-- The row is a channel request of this kind, with this execution at its channel. -/
def ChannelRow (row : Instr) (kind : Nat) (body : List Word → Channel → State → Answer × State) : Prop :=
  ∀ s, exec row s = serveWhole kind (fun args s => onChannel args s fun c => body args c s) s

section
variable {row : Instr} {kind : Nat} {body : List Word → Channel → State → Answer × State} (hrow : ChannelRow row kind body)
variable {s t : State} {r : Request} {rest : List Request} {a : Answer} (ht : Taken s r rest) (hk : r.kind = kind)
include hrow ht hk

/-- With a channel above 7 the request is refused, whatever it would do. -/
theorem ChannelRow.range (h : 7 < argNat r.args 0) : exec row s = .next (answered r rest .range [] s) := by
  rw [hrow]
  exact serve_answered (a := Answer.refuse .range) ht (beq_iff_eq.mpr hk)
    (by simp only [onChannel, argChannel_above h, inRangeOr]) rfl

variable {c : Channel} (h : argNat r.args 0 = c.val)
include h

theorem ChannelRow.reply (hb : body r.args c s = (a, t)) (hq : t.requestQueue = s.requestQueue) :
    exec row s = .next (answered r rest a.outcome a.results t) := by
  rw [hrow]
  exact serve_answered ht (beq_iff_eq.mpr hk) (by simp only [onChannel, argChannel_eq h, inRangeOr, hb]) hq

theorem ChannelRow.refused {code : ReplyCode} (hb : body r.args c s = refuseWith code s) :
    exec row s = .next (answered r rest code [] s) := hrow.reply ht hk h hb rfl

theorem ChannelRow.ok (hb : body r.args c s = okWith t) (hq : t.requestQueue = s.requestQueue) :
    exec row s = .next (answered r rest .ok [] t) := hrow.reply ht hk h hb hq

end

/-! ## SKIP_STEP, CLEAR_TRIP (R85, R87) -/

theorem channelRow_skipStep : ChannelRow .skipStep 0x16 (fun _ c => skipRequest c) := fun _ => rfl

theorem channelRow_clearTrip : ChannelRow .clearTrip 0x18 (fun _ c => clearTripRequest c) := fun _ => rfl

/-- Settles O41: the request's two cases by the channel's state. -/
theorem skipStepEffect : Obligations.SkipStepEffect := by
  intro s r rest ht hk
  refine ⟨channelRow_skipStep.range ht hk, fun c hc => ⟨fun hrun => ?_, fun hrun => ?_⟩⟩
  · exact channelRow_skipStep.ok ht hk hc (if_pos hrun) rfl
  · exact channelRow_skipStep.refused ht hk hc (if_neg hrun)

/-- Settles O43: the request's three cases by the channel's state and open-confirmed. -/
theorem clearTripEffect : Obligations.ClearTripEffect := by
  intro s r rest ht hk
  refine ⟨channelRow_clearTrip.range ht hk, fun c hc => ⟨fun hst => ?_, fun hst hopen => ?_, fun hst hopen => ?_⟩⟩
  · exact channelRow_clearTrip.refused ht hk hc (if_pos hst)
  · exact channelRow_clearTrip.refused ht hk hc (by simp [clearTripRequest, hst, hopen])
  · exact channelRow_clearTrip.ok ht hk hc (by simp only [clearTripRequest, hst, hopen, ne_eq, not_true, if_false, if_true]) rfl

/-! ## READ_CHANNEL_CONFIG (R77) -/

theorem channelRow_readChannelConfig : ChannelRow .readChannelConfig 0x11
    (fun _ c s => (Answer.done (packConfig (s.chan c).config), s)) := fun _ => rfl

/-- Settles O35: the record packed field by field. -/
theorem readChannelConfigResults : Obligations.ReadChannelConfigResults := by
  intro s r rest ht hk
  refine ⟨channelRow_readChannelConfig.range ht hk, fun c hc => ?_⟩
  rw [channelRow_readChannelConfig.reply ht hk hc rfl rfl]
  cases hrounding : (s.chan c).config.rounding <;> simp only [Answer.done, packConfig, hrounding] <;> rfl

end Sys2Proof.Proofs
end

section
/-! PROOF. WRITE_CHANNEL_CONFIG (R76), START up to its program check (R65, R81), and the timers' expiries (R95, R134, R196). -/

namespace Sys2Proof.Proofs

open Sys2Proof.Machine Sys2Proof.Safety Sys2Proof.Laws

/-! ## The readers of configuration fields: the value in its range, none outside (R76) -/

section
variable (args : List Word) (i : Nat)

theorem argIn_eq (lo hi : Nat) : argIn lo hi args i =
    if lo ≤ argNat args i ∧ argNat args i ≤ hi then some (argNat args i) else none := rfl

theorem argIn_zero (hi : Nat) : argIn 0 hi args i = if argNat args i ≤ hi then some (argNat args i) else none := by
  simp [argIn_eq]

theorem argAddress_eq : argAddress args i =
    if argNat args i ≤ 63 then some (if argNat args i = 63 then none else some (argNat args i)) else none := by
  rw [argAddress, argIn_zero]
  rcases Nat.lt_trichotomy (argNat args i) 63 with h | h | h
  · rw [if_neg h.ne, if_pos (by omega), if_pos (by omega), if_neg h.ne]; rfl
  · simp [h]
  · rw [if_neg h.ne', if_neg (by omega), if_neg (by omega)]; rfl

theorem argEntryStep_eq : argEntryStep args i =
    if argNat args i ≤ 511 ∨ argNat args i = 0xFFFF then some (if argNat args i = 0xFFFF then none else some (argNat args i))
    else none := by
  rw [argEntryStep, argIn_zero]
  by_cases h : argNat args i = 0xFFFF
  · simp [h]
  · by_cases h' : argNat args i ≤ 511 <;> simp [h, h']

theorem argFour_eq : argFour args i = if argNat args i ≤ 3 then some (Fin.ofNat 4 (argNat args i)) else none := by
  by_cases h : argNat args i ≤ 3
  · have hlt : argNat args i < 4 := by omega
    rw [argFour, dif_pos hlt, if_pos h]
    exact congrArg some (Fin.ext (Nat.mod_eq_of_lt hlt).symm)
  · rw [argFour, dif_neg (by omega), if_neg h]

end

theorem rounding_ofCode_eq (n : Nat) : RoundingMode.ofCode n =
    if n ≤ 3 then some (if n = 0 then .nearestEven else if n = 1 then .towardZero else if n = 2 then .upward else .downward)
    else none := by
  match n with
  | 0 | 1 | 2 | 3 => rfl
  | n + 4 => rw [if_neg (by omega)]; rfl

theorem guarded_bind {α β : Type} {p : Prop} [Decidable p] (a : α) (f : α → Option β) :
    ((if p then some a else none) >>= f) = if p then f a else none := by split <;> rfl

/-- The ranges of the fourteen fields, word by word (R76). -/
abbrev ConfigInRange (a : Nat → Nat) : Prop :=
  a 1 ≤ 63 ∧ a 2 ≤ 3 ∧ a 3 ≤ 192 ∧ a 4 ≤ 32 ∧ a 5 ≤ 30000 ∧ a 6 ≤ 3 ∧ a 7 ≤ 3 ∧ a 8 ≤ 3 ∧
    (a 9 ≤ 511 ∨ a 9 = 0xFFFF) ∧ (10 ≤ a 10 ∧ a 10 ≤ 10000) ∧ (50 ≤ a 11 ∧ a 11 ≤ 5000) ∧ (1 ≤ a 12 ∧ a 12 ≤ 8) ∧
    (1 ≤ a 13 ∧ a 13 ≤ 254) ∧ (1 ≤ a 14 ∧ a 14 ≤ 10000)

/-- The record that words in range write (R76). -/
def writtenConfig (a : Nat → Nat) : ChannelConfig :=
  { converterAddress := if a 1 = 63 then none else some (a 1), converterOutput := Fin.ofNat 4 (a 2), cellCount := a 3,
    temperatureCount := a 4, currentMaximum := a 5,
    rounding := if a 6 = 0 then .nearestEven else if a 6 = 1 then .towardZero else if a 6 = 2 then .upward else .downward,
    priority := Fin.ofNat 4 (a 7), reportLevel := Fin.ofNat 4 (a 8), entryStep := if a 9 = 0xFFFF then none else some (a 9),
    staleTime := a 10, contactorTime := a 11, confirmCount := a 12, maxPointAge := a 13, maxInterval := a 14 }

theorem readConfig_eq (args : List Word) :
    readConfig args = if ConfigInRange (argNat args) then some (writtenConfig (argNat args)) else none := by
  simp only [readConfig, argAddress_eq, argFour_eq, argIn_eq, rounding_ofCode_eq, argEntryStep_eq, guarded_bind, ← ite_and,
    Nat.zero_le, true_and]
  rfl

/-! ## WRITE_CHANNEL_CONFIG (R76) -/

theorem channelRow_writeChannelConfig : ChannelRow .writeChannelConfig 0x10 (fun args c s =>
    inRangeOr (readConfig args) s fun config =>
      if (s.chan c).atRest then okWith (s.modChan c (fun ch => { ch with config := config })) else refuseWith .inUse s) :=
  fun _ => rfl

/-- Settles O34: the fields are read whole or the request is out of range; then the channel's state decides. -/
theorem writeChannelConfigEffect : Obligations.WriteChannelConfigEffect := by
  intro s r rest ht hk a inRange written
  have hread : readConfig r.args = if inRange then some written else none := readConfig_eq r.args
  refine ⟨fun h => ?_, fun c hc hin => ⟨fun hrest => ?_, fun hrest => ?_⟩⟩
  · rcases Nat.lt_or_ge 7 (a 0) with h7 | h7
    · exact channelRow_writeChannelConfig.range ht hk h7
    · have hout : readConfig r.args = none := hread.trans (if_neg (h.resolve_left (Nat.not_lt.mpr h7)))
      exact channelRow_writeChannelConfig.refused ht hk (c := ⟨a 0, by omega⟩) rfl (by rw [hout]; rfl)
  · rw [if_pos hin] at hread
    exact channelRow_writeChannelConfig.refused ht hk hc (by simp only [hread, inRangeOr, hrest, Bool.false_eq_true, if_false])
  · rw [if_pos hin] at hread
    exact channelRow_writeChannelConfig.ok ht hk hc (by simp only [hread, inRangeOr, hrest, if_true]) rfl

/-! ## START (R65, R81) -/

/-- The five items START needs, in the order of R81: whether each is missing. -/
def missingItems (s : State) (c : Channel) : List Bool :=
  [(s.chan c).config.converterAddress == none, (s.chan c).config.cellCount == 0, (s.chan c).config.entryStep == none,
   (s.chan c).limitsLoaded == false, !(s.routes.any (fun q => q.channel == c && q.point == 224))]

theorem missingItem_eq (s : State) (c : Channel) : missingItem s c = ((missingItems s c).findIdx? id).map (· + 1) := by
  have hroute : (s.routes.any fun q => q.channel == c && q.point == 224) = hasAnchorRoute s.routes c := rfl
  unfold missingItem missingItems
  simp only [hroute, List.findIdx?_cons, List.findIdx?_nil]
  by_cases h1 : (s.chan c).config.converterAddress = none
  · simp [h1]
  by_cases h2 : (s.chan c).config.cellCount = 0
  · simp [h1, h2]
  by_cases h3 : (s.chan c).config.entryStep = none
  · simp [h1, h2, h3]
  by_cases h4 : (s.chan c).limitsLoaded = false
  · simp [h1, h2, h3, h4]
  by_cases h5 : hasAnchorRoute s.routes c = false <;> simp [h1, h2, h3, h4, h5]

theorem missingItem_first {s : State} {c : Channel} {k : Nat} (h : (missingItems s c)[k]? = some true)
    (hbefore : ∀ j, j < k → (missingItems s c)[j]? = some false) : missingItem s c = some (k + 1) := by
  obtain ⟨hlt, hk⟩ := List.getElem?_eq_some_iff.mp h
  have hfirst : (missingItems s c).findIdx? id = some k := List.findIdx?_eq_some_iff_getElem.mpr ⟨hlt, hk, fun j hj => by
    obtain ⟨_, hfalse⟩ := List.getElem?_eq_some_iff.mp (hbefore j hj)
    simp [hfalse]⟩
  rw [missingItem_eq, hfirst]
  rfl

theorem missingItem_none {s : State} {c : Channel} (h : ∀ b ∈ missingItems s c, b = false) : missingItem s c = none := by
  have hnone : (missingItems s c).findIdx? id = none := List.findIdx?_eq_none_iff.mpr h
  rw [missingItem_eq, hnone]
  rfl

theorem startMode_ofCode_eq {n : Nat} (h : n ≤ 1) : StartMode.ofCode n = some (if n = 0 then .fresh else .continue) := by
  match n with
  | 0 | 1 => rfl

theorem startMode_ofCode_above {n : Nat} (h : 1 < n) : StartMode.ofCode n = none := by
  match n with
  | n + 2 => rfl

theorem startCheck_range {args : List Word} (h : 7 < argNat args 0 ∨ 1 < argNat args 1) (s : State) :
    startCheck args s = (some (Answer.refuse .range), s) := by
  rcases h with h | h
  · simp only [startCheck, argChannel_above h]
  · cases hc : argChannel args 0 <;> simp only [startCheck, hc, startMode_ofCode_above h]

section
variable {args : List Word} {c : Channel} (hc : argNat args 0 = c.val) (hm : argNat args 1 ≤ 1) {s : State}
include hc hm

theorem startCheck_wrongState (h : (s.chan c).status ≠ .idle) : startCheck args s = (some (Answer.refuse .wrongState), s) := by
  simp only [startCheck, argChannel_eq hc, startMode_ofCode_eq hm, h, ne_eq, not_false_eq_true, if_true]

variable (h : (s.chan c).status = .idle)
include h

theorem startCheck_incomplete {item : Nat} (hmiss : missingItem s c = some item) :
    startCheck args s = (some { outcome := .incomplete, results := pack16 item }, s) := by
  simp only [startCheck, argChannel_eq hc, startMode_ofCode_eq hm, h, ne_eq, not_true, if_false, hmiss]

theorem startCheck_begins (hall : missingItem s c = none) :
    startCheck args s = (none, beginWalk c (if argNat args 1 = 0 then .fresh else .continue) s) := by
  simp only [startCheck, argChannel_eq hc, startMode_ofCode_eq hm, h, ne_eq, not_true, if_false, hall]

end

/-- Settles O36: the operands, the channel's state, the first item missing, or the walk. -/
theorem startBeginsProgramCheck : Obligations.StartBeginsProgramCheck := by
  intro s r rest ht hk
  have hrow : exec .start s = serve (fun r => r.kind == 0x13) startCheck s := rfl
  have hmine : (r.kind == 0x13) = true := beq_iff_eq.mpr hk
  simp only [hrow]
  refine ⟨fun hout => ?_, fun c hc hm => ⟨fun hst => ?_, fun k _ hst hmiss hbefore => ?_, fun entry hst hall hentry => ?_⟩⟩
  · exact serve_answered ht hmine (startCheck_range hout s) rfl
  · exact serve_answered ht hmine (startCheck_wrongState hc hm hst) rfl
  · exact serve_answered ht hmine (startCheck_incomplete hc hm hst (missingItem_first hmiss hbefore)) rfl
  · rw [serve_begun ht hmine (startCheck_begins hc hm hst (missingItem_none hall)), beginWalk, hentry]
    rfl

/-! ## The timers (R95, R134, R196) -/

section
variable {tm : Timer} {now : BitVec 32}

theorem expired_of_due (h : tm.length ≤ (now - tm.startedAt).toNat) : tm.expired now = true := decide_eq_true h

theorem not_expired_of_early (h : (now - tm.startedAt).toNat < tm.length) : tm.expired now = false :=
  decide_eq_false (Nat.not_le.mpr h)

end

theorem staleExpiry_early {c : Channel} {s : State}
    (h : ∀ tm ∈ (s.chan c).staleTimer, (s.msTime - tm.startedAt).toNat < tm.length) : staleExpiry c s = s := by
  cases htm : (s.chan c).staleTimer with
  | none => simp only [staleExpiry, htm]
  | some tm => simp only [staleExpiry, htm, not_expired_of_early (h tm htm), Bool.false_eq_true, if_false]

theorem contactorExpiry_early {c : Channel} {s : State}
    (h : ∀ tm ∈ (s.chan c).contactorTimer, (s.msTime - tm.startedAt).toNat < tm.length) : contactorExpiry c s = s := by
  cases htm : (s.chan c).contactorTimer with
  | none => simp only [contactorExpiry, htm]
  | some tm => simp only [contactorExpiry, htm, not_expired_of_early (h tm htm), Bool.false_eq_true, if_false]

/-- Settles O25: a timer that is due trips with its cause, any other does nothing. -/
theorem timerExpiriesTrip : Obligations.TimerExpiriesTrip := by
  intro c s
  have hstale : exec (.staleTimerExpiry c) s = .next (staleExpiry c s) := rfl
  have hcontactor : exec (.contactorTimerExpiry c) s = .next (contactorExpiry c s) := rfl
  simp only [hstale, hcontactor]
  refine ⟨fun tm htm hdue => ?_, fun tm htm hdue => ⟨fun hst => ?_, fun hst => ?_⟩, fun h => ?_, fun h => ?_⟩
  · simp only [staleExpiry, htm, expired_of_due hdue, if_true]
  · simp only [contactorExpiry, htm, expired_of_due hdue, if_true, hst]
  · simp only [contactorExpiry, htm, expired_of_due hdue, if_true, hst]
  · rw [staleExpiry_early h]
  · rw [contactorExpiry_early h]

end Sys2Proof.Proofs
end

section
/-! PROOF. The production of a setpoint (R102 to R104, R114 to R121): its mode by the step driven, its magnitude by the pack voltage, the
level, the budget and the current maximum, and the marks and causes it leaves. -/

namespace Sys2Proof.Proofs

open Sys2Proof.Machine Sys2Proof.Safety Sys2Proof.Laws

/-! ## The step driven (R114) -/

theorem currentKind_eq_some_iff {s : State} {c : Channel} {kind : SampleKind} : currentKind s c = some kind ↔
    ∃ i next parts, (s.chan c).currentStep = some i ∧ (s.record i).body = .sample kind next parts := by
  unfold currentKind
  cases hstep : (s.chan c).currentStep with
  | none => simp
  | some i => cases hbody : (s.record i).body <;> simp [hbody]

theorem mode_ne_off_iff (kind : SampleKind) : kind.mode ≠ .off ↔ kind ≠ .rest := by cases kind <;> decide

theorem driveKind_eq_some_iff {s : State} {c : Channel} {kind : SampleKind} : driveKind s c = some kind ↔ Drives s c kind := by
  unfold driveKind Drives
  by_cases hrun : (s.chan c).status = .running
  · simp only [hrun, if_true, true_and, Option.filter_eq_some_iff, currentKind_eq_some_iff, bne_iff_ne, mode_ne_off_iff, and_comm]
  · simp [hrun]

theorem driveKind_eq_none_iff {s : State} {c : Channel} : driveKind s c = none ↔ ∀ kind, ¬Drives s c kind := by
  simp only [Option.eq_none_iff_forall_ne_some, ne_eq, driveKind_eq_some_iff]

theorem mode_eq {kind : SampleKind} (h : kind ≠ .rest) :
    kind.mode = if kind = .chargeCC ∨ kind = .chargeCP then .charge else .discharge := by
  cases kind with
  | rest => exact absurd rfl h
  | _ => rfl

theorem contactorCommand_eq (status : Status) :
    contactorCommand status = if status ∈ [Status.idle, .disconnecting, .tripped] then .open else .close := by
  cases status <;> rfl

/-! ## The voltage (R105, R116, R118) -/

section
variable {ch : ChannelState}

theorem usableVoltage_eq {v : Nat} (hage : (ch.point packVoltagePoint).age ≤ ch.config.maxPointAge)
    (hvalue : (ch.point packVoltagePoint).value = v) (h : 100 ≤ v) : usableVoltage ch = some v := by
  have hint : (100 : Int) ≤ v := by omega
  simp only [usableVoltage, packVoltage, hage, if_true, hvalue, hint, Int.toNat_natCast]

theorem usableVoltage_none
    (h : (ch.point packVoltagePoint).age ≤ ch.config.maxPointAge → (ch.point packVoltagePoint).value < 100) :
    usableVoltage ch = none := by
  unfold usableVoltage packVoltage
  by_cases hage : (ch.point packVoltagePoint).age ≤ ch.config.maxPointAge
  · have := h hage
    simp only [hage, if_true, if_neg (Int.not_le.mpr this)]
  · simp only [hage, if_false]

/-! ## The magnitude with a usable voltage (R115 to R120) -/

variable {v : Nat} (hv : usableVoltage ch = some v)
include hv

theorem rawMagnitude_usable {kind : SampleKind} (hk : kind ≠ .rest) : rawMagnitude kind ch =
    some (if kind = .chargeCC ∨ kind = .dischargeCC then ch.effective.level.getD 0
      else (roundQuotient ch.config.rounding (ch.effective.level.getD 0 * 10000) v).toNat) := by
  cases kind <;> simp_all [rawMagnitude]

theorem budgetCurrent_usable : budgetCurrent ch = some (ch.effective.budget.getD 0 * 10000 / v) := by
  rw [budgetCurrent, hv]; rfl

theorem limitedMagnitude_usable (raw : Nat) : limitedMagnitude ch raw =
    min raw (min (ch.effective.budget.getD 0 * 10000 / v) ch.config.currentMaximum) := by
  rw [limitedMagnitude, budgetCurrent_usable hv]; rfl

theorem budgetLimits_usable (raw : Nat) : budgetLimits ch raw =
    if ch.effective.budget.getD 0 * 10000 / v < raw ∧ ch.effective.budget.getD 0 * 10000 / v ≤ ch.config.currentMaximum
    then some (ch.effective.budget.getD 0 * 10000 / v) else none := by
  simp only [budgetLimits, budgetCurrent_usable hv]

/-- The magnitude asks for no more power than the budget (R118). -/
theorem limitedMagnitude_power (raw : Nat) : limitedMagnitude ch raw * v ≤ 10000 * ch.effective.budget.getD 0 := by
  have hle : limitedMagnitude ch raw ≤ ch.effective.budget.getD 0 * 10000 / v := by rw [limitedMagnitude_usable hv]; omega
  calc limitedMagnitude ch raw * v ≤ ch.effective.budget.getD 0 * 10000 / v * v := Nat.mul_le_mul_right v hle
    _ ≤ ch.effective.budget.getD 0 * 10000 := Nat.div_mul_le_self _ _
    _ = 10000 * ch.effective.budget.getD 0 := Nat.mul_comm _ _

end

/-! ## The magnitude without one (R115, R117, R118) -/

theorem rawMagnitude_current {kind : SampleKind} (hk : kind = .chargeCC ∨ kind = .dischargeCC) (ch : ChannelState) :
    rawMagnitude kind ch = some (ch.effective.level.getD 0) := by
  rcases hk with rfl | rfl <;> rfl

section
variable {ch : ChannelState} (hv : usableVoltage ch = none)
include hv

theorem rawMagnitude_unusable_power {kind : SampleKind} (hr : kind ≠ .rest) (hk : ¬(kind = .chargeCC ∨ kind = .dischargeCC)) :
    rawMagnitude kind ch = none := by
  cases kind <;> simp_all [rawMagnitude]

theorem limitedMagnitude_unusable (raw : Nat) : limitedMagnitude ch raw = min raw ch.config.currentMaximum := by
  simp [limitedMagnitude, budgetCurrent, hv]

theorem budgetLimits_unusable (raw : Nat) : budgetLimits ch raw = none := by
  simp [budgetLimits, budgetCurrent, hv]

end

/-! ## What the computation leaves at the channel (R117, R120) -/

section
variable {c : Channel} {kind : SampleKind} {s : State}

theorem computeMagnitude_held (h : rawMagnitude kind (s.chan c) = none) :
    (computeMagnitude c kind s).1 = (s.chan c).lastMagnitude ∧
    (computeMagnitude c kind s).2.chan c = { s.chan c with causes := withCause .arithInvalid (s.chan c).causes } := by
  simp only [computeMagnitude, h, chan_raiseChannel, if_true, and_self]

variable {raw : Nat} (h : rawMagnitude kind (s.chan c) = some raw)
include h

theorem computeMagnitude_raw : (computeMagnitude c kind s).1 = limitedMagnitude (s.chan c) raw := by
  simp only [computeMagnitude, h]

/-- The budget sets the magnitude for the first time in the step. -/
theorem computeMagnitude_marks {bud : Nat} (hb : budgetLimits (s.chan c) raw = some bud) (hm : (s.chan c).budgetLimited = false) :
    (computeMagnitude c kind s).2.chan c =
      { s.chan c with budgetLimited := true, causes := withCause .budgetLimited (s.chan c).causes } := by
  simp only [computeMagnitude, h, hb, hm, Bool.false_eq_true, if_false, chan_raiseChannel, if_true, State.chan_modChan_self]

theorem computeMagnitude_unmarked (hb : budgetLimits (s.chan c) raw = none ∨ (s.chan c).budgetLimited = true) :
    (computeMagnitude c kind s).2 = s := by
  rcases hb with hb | hb
  · simp only [computeMagnitude, h, hb]
  · simp only [computeMagnitude, h, hb, if_true]
    split <;> rfl

end

/-! ## The production (R102, R104, R121) -/

theorem computeMagnitude_le_maximum (c : Channel) (kind : SampleKind) {s : State}
    (h : (s.chan c).lastMagnitude ≤ (s.chan c).config.currentMaximum) :
    (computeMagnitude c kind s).1 ≤ (s.chan c).config.currentMaximum := by
  cases hraw : rawMagnitude kind (s.chan c) with
  | none => rw [(computeMagnitude_held hraw).1]; exact h
  | some raw => rw [computeMagnitude_raw hraw]; exact limitedMagnitude_le _ _

/-- What a production places at its channel: mode OFF and magnitude 0, or the mode of the step driven and the magnitude computed, with
the marks and causes of the computation. -/
theorem produceSetpoint_places (c : Channel) (urgent : Bool) (s : State) : ∃ mode magnitude limited flags,
    (produceSetpoint c urgent s).chan c =
      placeSetpoint mode magnitude urgent { s.chan c with budgetLimited := limited, causes := flags } ∧
    ((∀ kind, ¬Drives s c kind) →
      mode = .off ∧ magnitude = 0 ∧ limited = (s.chan c).budgetLimited ∧ flags = (s.chan c).causes) ∧
    ∀ kind, Drives s c kind →
      mode = kind.mode ∧ magnitude = (computeMagnitude c kind s).1 ∧
      (computeMagnitude c kind s).2.chan c = { s.chan c with budgetLimited := limited, causes := flags } := by
  cases hdrive : driveKind s c with
  | none =>
    have hnot := driveKind_eq_none_iff.mp hdrive
    exact ⟨.off, 0, _, _, by rw [produceSetpoint_off hdrive, State.chan_modChan_self], fun _ => ⟨rfl, rfl, rfl, rfl⟩,
      fun kind hkind => absurd hkind (hnot kind)⟩
  | some kind =>
    obtain ⟨limited, flags, hchan⟩ := computeMagnitude_chan c kind s
    refine ⟨kind.mode, (computeMagnitude c kind s).1, limited, flags, ?_,
      fun hnot => absurd (driveKind_eq_some_iff.mp hdrive) (hnot kind), fun other hother => ?_⟩
    · rw [produceSetpoint, hdrive]
      simp only [State.chan_modChan_self, hchan]
    · obtain rfl : kind = other := Option.some.inj (hdrive.symm.trans (driveKind_eq_some_iff.mpr hother))
      exact ⟨rfl, rfl, hchan⟩

theorem marks_inj {ch : ChannelState} {a b : Bool} {x y : List Cause}
    (h : ({ ch with budgetLimited := a, causes := x } : ChannelState) = { ch with budgetLimited := b, causes := y }) :
    a = b ∧ x = y :=
  ⟨congrArg ChannelState.budgetLimited h, congrArg ChannelState.causes h⟩

section
variable {c : Channel} {kind : SampleKind} {s : State} {limited : Bool} {flags : List Cause}
variable (hleft : (computeMagnitude c kind s).2.chan c = { s.chan c with budgetLimited := limited, causes := flags })
include hleft

/-- R117: without a usable voltage a CP step raises ARITH_INVALID and leaves the mark. -/
theorem marks_held (h : rawMagnitude kind (s.chan c) = none) : limited = (s.chan c).budgetLimited ∧ .arithInvalid ∈ flags := by
  obtain ⟨hlimited, hflags⟩ := marks_inj (hleft.symm.trans (computeMagnitude_held h).2)
  exact ⟨hlimited, hflags ▸ mem_withCause _ _⟩

variable {raw : Nat} (h : rawMagnitude kind (s.chan c) = some raw)
include h

theorem marks_unmarked (hb : budgetLimits (s.chan c) raw = none ∨ (s.chan c).budgetLimited = true) :
    limited = (s.chan c).budgetLimited ∧ flags = (s.chan c).causes := by
  rw [computeMagnitude_unmarked h hb] at hleft
  exact marks_inj hleft.symm

/-- R120: the mark is set when the budget sets the magnitude, and BUDGET_LIMITED raised when it was not set before. -/
theorem marks_limited {bud : Nat} (hb : budgetLimits (s.chan c) raw = some bud) :
    limited = true ∧ ((s.chan c).budgetLimited = false → .budgetLimited ∈ flags) := by
  cases hm : (s.chan c).budgetLimited with
  | true => exact ⟨(marks_unmarked hleft h (.inr hm)).1.trans hm, nofun⟩
  | false =>
    obtain ⟨hlimited, hflags⟩ := marks_inj (hleft.symm.trans (computeMagnitude_marks h hb hm))
    exact ⟨hlimited, fun _ => hflags ▸ mem_withCause _ _⟩

end

/-- Settles O59: what the production places, then the magnitude with a usable voltage and without one. -/
theorem setpointProduction : Obligations.SetpointProduction := by
  intro c urgent s before t after level budget current voltage
  obtain ⟨mode, magnitude, limited, flags, hafter, hoff, hdrive⟩ := produceSetpoint_places c urgent s
  change after = placeSetpoint mode magnitude urgent { before with budgetLimited := limited, causes := flags } at hafter
  have hlocal := local_produceSetpoint c urgent s
  refine ⟨formSetpoint before mode magnitude, by rw [hafter]; rfl, by rw [hafter]; rfl, by rw [hafter]; rfl, by rw [hafter]; rfl,
    rfl, rfl, rfl, contactorCommand_eq _, fun hnot => ?_, fun kind hkind => ?_, by rw [hafter]; rfl, hlocal.others, hlocal.grants,
    hlocal.waits⟩
  · obtain ⟨rfl, rfl, rfl, rfl⟩ := hoff hnot
    rw [hafter]
    exact ⟨rfl, rfl, rfl, rfl, rfl⟩
  · obtain ⟨rfl, rfl, hmarks⟩ := hdrive kind hkind
    have hrest : kind ≠ .rest := hkind.2.1
    rw [hafter]
    refine ⟨mode_eq hrest, if_neg ((mode_ne_off_iff kind).mpr hrest), computeMagnitude_le_maximum c kind, fun v hvolt h100 => ?_,
      fun hlow => ?_⟩
    · have husable : usableVoltage before = some v := usableVoltage_eq hvolt.1 hvolt.2 h100
      have hraw := rawMagnitude_usable husable hrest
      intro raw bud byBudget
      have hbudget : budgetLimits before raw = if byBudget then some bud else none := budgetLimits_usable husable raw
      have hmagnitude : (computeMagnitude c kind s).1 = limitedMagnitude before raw := computeMagnitude_raw hraw
      refine ⟨hmagnitude.trans (limitedMagnitude_usable husable raw), ?_, fun hby => ?_, fun hby => ?_, fun hnot => ?_⟩
      · exact (congrArg (· * v) hmagnitude).trans_le (limitedMagnitude_power husable raw)
      · exact (marks_limited hmarks hraw (hbudget.trans (if_pos hby))).1
      · exact (marks_limited hmarks hraw (hbudget.trans (if_pos hby))).2
      · exact marks_unmarked hmarks hraw (hnot.imp_left fun hnot => hbudget.trans (if_neg hnot))
    · have husable : usableVoltage before = none := usableVoltage_none fun hage => hlow _ ⟨hage, rfl⟩
      by_cases hcurrent : current kind
      · have hraw := rawMagnitude_current hcurrent before
        obtain ⟨hlimited, hflags⟩ := marks_unmarked hmarks hraw (.inl (budgetLimits_unusable husable _))
        exact ⟨hlimited, fun _ => ⟨(computeMagnitude_raw hraw).trans (limitedMagnitude_unusable husable _), hflags⟩,
          fun hnot => absurd hcurrent hnot⟩
      · have hraw := rawMagnitude_unusable_power husable hrest hcurrent
        obtain ⟨hlimited, hflags⟩ := marks_held hmarks hraw
        exact ⟨hlimited, fun h => absurd h hcurrent, fun _ => ⟨(computeMagnitude_held hraw).1, hflags⟩⟩

end Sys2Proof.Proofs
end

section
/-! PROOF. What a request action leaves at the channel that asks: its grant or its place in the wait list (R150, R156 to R160). -/

namespace Sys2Proof.Proofs

open Sys2Proof.Machine Sys2Proof.Safety Sys2Proof.Laws

/-! ## The scan as takings and grants (R157 to R159) -/

section
variable {P : State → Prop} (htake : ∀ g detail s, P s → P (takeGrant g detail s))
include htake

theorem takeAll_keeps (detail : Nat) (gs : List Grant) {s : State} (h : P s) :
    P (gs.foldl (fun s g => takeGrant g detail s) s) := by
  induction gs generalizing s with
  | nil => exact h
  | cons g rest ih => exact ih (htake g detail s h)

variable (hgrant : ∀ silent w s, P s → P (grantEntry silent w s))
include hgrant

theorem scanEntry_keeps (silent : Option Channel) (w : WaitEntry) (memo : ScanMemo) {s : State} (h : P s) :
    P (scanEntry silent w memo s).2 := by
  unfold scanEntry
  split
  · exact h
  · split
    · exact h
    · split
      · exact hgrant silent w s h
      · split
        · exact hgrant silent w _ (takeAll_keeps htake _ _ h)
        · exact h

theorem scanWalk_keeps (silent : Option Channel) (ws : List WaitEntry) (memo : ScanMemo) {s : State} (h : P s) :
    P (scanWalk silent ws memo s).2 := by
  induction ws generalizing memo s with
  | nil => exact h
  | cons w rest ih => exact ih _ (scanEntry_keeps htake hgrant silent w memo h)

/-- What every taking and every grant keeps, the scans that end an action keep. -/
theorem scan_keeps (silent : Option Channel) {s : State} (h : P s) : P (scan silent s) := by
  unfold scan
  generalize Config.scanBound = fuel
  induction fuel generalizing s with
  | zero => exact h
  | succ n ih =>
    have hwalk := scanWalk_keeps htake hgrant silent s.waits { displaced := [], failed := [], granted := false } h
    unfold scanAtMost
    simp only
    split
    · exact ih hwalk
    · exact hwalk

end

/-! ## A channel that asks for power and has no hold pending (R150, R156, R160) -/

/-- The channel has an entry in the grant list or in the wait list, and no hold pending. -/
structure Asking (c : Channel) (s : State) : Prop where
  pending : (s.chan c).holdPending = false
  entry   : HoldsGrant s c ∨ Waits s c

/-- The pending hold of a channel stands as it was, and its entries are still there. -/
structure KeepsEntry (c : Channel) (s t : State) : Prop where
  pending : (t.chan c).holdPending = (s.chan c).holdPending
  grant   : HoldsGrant s c → HoldsGrant t c
  wait    : Waits s c → Waits t c

theorem KeepsEntry.asking {c : Channel} {s t : State} (h : KeepsEntry c s t) (ha : Asking c s) : Asking c t :=
  ⟨h.pending.trans ha.pending, ha.entry.imp h.grant h.wait⟩

theorem KeepsEntry.trans {c : Channel} {s t u : State} (h₁ : KeepsEntry c s t) (h₂ : KeepsEntry c t u) : KeepsEntry c s u :=
  ⟨h₂.pending.trans h₁.pending, h₂.grant ∘ h₁.grant, h₂.wait ∘ h₁.wait⟩

section
variable (c d : Channel)

theorem keepsEntry_local {s t : State} (h : LocalWork c s t)
    (hp : (t.chan c).holdPending = (s.chan c).holdPending) : KeepsEntry d s t :=
  { pending := by
      by_cases hd : d = c
      · rw [hd, hp]
      · rw [h.others d hd]
    grant := by simp only [HoldsGrant, h.grants, imp_self]
    wait := by simp only [Waits, h.waits, imp_self] }

variable (s : State)

theorem keepsEntry_raiseChannel (cause : Cause) (f : EventFields) : KeepsEntry d s (raiseChannel c cause f s) :=
  keepsEntry_local c d (local_raiseChannel c cause f s) (by rw [chan_raiseChannel, if_pos rfl])

theorem keepsEntry_produceSetpoint (urgent : Bool) : KeepsEntry d s (produceSetpoint c urgent s) :=
  keepsEntry_local c d (local_produceSetpoint c urgent s) (by
    obtain ⟨_, _, _, _, _, _, hchan⟩ := produceSetpoint_chan c urgent s
    rw [hchan])

theorem keepsEntry_modChan (f : ChannelState → ChannelState) (h : d = c → (f (s.chan c)).holdPending = (s.chan c).holdPending) :
    KeepsEntry d s (s.modChan c f) :=
  { pending := by
      rw [State.chan_modChan]
      split
      · next hd => rw [h hd, hd]
      · rfl
    grant := id, wait := id }

theorem keepsEntry_joinWait (r : Int) : KeepsEntry d s (s.joinWait c r) :=
  ⟨rfl, id, fun h => (waits_join_iff s c d r).mpr (.inr h)⟩

variable {c d} (hd : d ≠ c)
include hd

theorem keepsEntry_dropGrant_ne : KeepsEntry d s (s.dropGrant c) := ⟨rfl, fun h => (holds_drop_iff s c d).mpr ⟨hd, h⟩, id⟩

theorem keepsEntry_enterHolding_ne : KeepsEntry d s (enterHolding c s) :=
  { pending := by rw [enterHolding_others c s hd]
    grant := by simp only [HoldsGrant, enterHolding_grants, imp_self]
    wait := by simp only [Waits, enterHolding_waits, imp_self] }

end

theorem takeGrant_asking (c : Channel) (g : Grant) (detail : Nat) (s : State) (h : Asking c s) :
    Asking c (takeGrant g detail s) := by
  have hskip := fun t : State => keepsEntry_modChan g.channel c t (fun ch => { ch with skipPending := false }) (fun _ => rfl)
  have hstatus := fun t : State => keepsEntry_modChan g.channel c t (fun ch => { ch with status := .displaced }) (fun _ => rfl)
  by_cases hc : c = g.channel
  · -- its own grant is taken: it waits
    subst hc
    have hjoined := fun t : State => (waits_join_iff t g.channel g.channel g.watts).mpr (.inl rfl)
    unfold takeGrant
    simp only [h.pending, Bool.false_eq_true, if_false]
    refine ((hstatus _).trans ((keepsEntry_raiseChannel _ _ _ _ _).trans (keepsEntry_produceSetpoint _ _ _ _))).asking
      ⟨?_, .inr (hjoined _)⟩
    rw [State.chan_joinWait, State.chan_modChan_self]
    exact h.pending
  · -- another channel's grant is taken
    have hdrop := (keepsEntry_dropGrant_ne s hc).trans (hskip _)
    refine KeepsEntry.asking ?_ h
    unfold takeGrant
    simp only
    split
    · exact hdrop.trans ((keepsEntry_raiseChannel _ _ _ _ _).trans (keepsEntry_enterHolding_ne _ hc))
    · exact hdrop.trans ((keepsEntry_joinWait _ _ _ _).trans ((hstatus _).trans
        ((keepsEntry_raiseChannel _ _ _ _ _).trans (keepsEntry_produceSetpoint _ _ _ _))))

theorem grantEntry_asking (c : Channel) (silent : Option Channel) (w : WaitEntry) (s : State) (h : Asking c s) :
    Asking c (grantEntry silent w s) := by
  have hlisted : Asking c { s.dropWait w.channel with
      grants := s.grants ++ [({ channel := w.channel, watts := w.request } : Grant)] } := by
    refine ⟨h.pending, ?_⟩
    by_cases hc : c = w.channel
    · exact .inl (by simp [HoldsGrant, hc])
    · refine h.entry.imp (fun hg => ?_) (fun hw => (waits_drop_iff s w.channel c).mpr ⟨hc, hw⟩)
      simp only [HoldsGrant, List.map_append, List.mem_append]
      exact .inl hg
  have hrun := (keepsEntry_modChan w.channel c _ (fun ch => { ch with status := .running }) (fun _ => rfl)).asking hlisted
  unfold grantEntry
  simp only
  split
  · exact (keepsEntry_raiseChannel _ _ _ _ _).asking hrun
  · exact ((keepsEntry_raiseChannel _ _ _ _ _).trans (keepsEntry_produceSetpoint _ _ _ _)).asking hrun

/-- The scans leave a channel that asks with its grant or waiting. -/
theorem scan_asking (c : Channel) (silent : Option Channel) {s : State} (h : Asking c s) : Asking c (scan silent s) :=
  scan_keeps (takeGrant_asking c) (grantEntry_asking c) silent h

theorem requestAction_asking {c : Channel} {s : State} (h : (s.chan c).holdPending = false) (request : Int)
    (silent : Option Channel) : Asking c (requestAction c request silent s) :=
  scan_asking c silent ((keepsEntry_modChan c c _ _ (fun _ => rfl)).asking
    ⟨h, .inr ((waits_join_iff s c c request).mpr (.inl rfl))⟩)

/-- Where the lists agree with the channel states, a channel that asks runs with its grant, or waits. -/
theorem Asking.settled {c : Channel} {s : State} (h : Asking c s) (hg : Good s) :
    ((s.chan c).status = .running ∧ HoldsGrant s c ∧ ¬Waits s c) ∨
      (WaitStatus (s.chan c).status ∧ Waits s c ∧ ¬HoldsGrant s c) := by
  rcases h.entry with hgrant | hwait
  · exact .inl ⟨hg.lists.granted c not_false hgrant, hgrant, hg.lists.apart c hgrant⟩
  · exact .inr ⟨(hg.lists.waiting c not_false).mp hwait, hwait, fun hgrant => hg.lists.apart c hgrant hwait⟩

theorem arbiterWork_requestAction (c : Channel) (request : Int) (silent : Option Channel) (s : State) :
    ArbiterWork s (requestAction c request silent s) :=
  (arbiterWork_modChan (s := s.joinWait c request) ⟨⟨_, _, _, _, _, _, _, _, _, rfl⟩, fun _ => rfl⟩).trans
    (arbiterWork_scan silent _)

end Sys2Proof.Proofs
end

section
/-! PROOF. HOLD with the pending hold of stage 5, RESUME and STOP (R83, R84, R86, R97, R98). -/

namespace Sys2Proof.Proofs

open Sys2Proof.Machine Sys2Proof.Safety Sys2Proof.Laws

/-! ## A hold (R83, R97) -/

/-- A channel that a hold has taken, with these cause flags: HOLDING, and an urgent OFF/CLOSE setpoint (R83, R103). -/
def heldChannel (before : ChannelState) (flags : List Cause) : ChannelState :=
  { before with
    status := .holding, holdPending := false, causes := flags
    outbox := some { setpoint := offSetpoint before .close, urgent := true }
    lastSetpoint := some (offSetpoint before .close)
    refreshCount := (before.refreshCount + 1) % 256 }

theorem enterHolding_chan (c : Channel) (s : State) :
    (enterHolding c s).chan c = heldChannel (s.chan c) (withCause .holdTaken (s.chan c).causes) := by
  unfold enterHolding
  simp only
  rw [produceSetpoint_off (driveKind_eq_none (by simp [chan_raiseChannel])), State.chan_modChan_self, chan_raiseChannel, if_pos rfl,
    State.chan_modChan_self]
  rfl

theorem settlePower_chan {s : State} (h : Good s) (c : Channel) :
    (settlePower c s).chan c = s.chan c ∧ NoPower (settlePower c s) c := by
  obtain ⟨-, hno, hchan⟩ := settlePower_spec (h.lists.leave c) h.caps
  exact ⟨hchan, hno⟩

/-- A hold that is taken: the entry is given up, other channels without one stand, and the channel is HOLDING. -/
theorem hold_taken {s : State} (h : PowerOk s) (c : Channel) :
    let u := enterHolding c (settlePower c s)
    NoPower u c ∧ BystandersKept c s u ∧ ChannelWork s u ∧ u.inCaps u.net = true ∧ .holdTaken ∈ (u.chan c).causes ∧
      u.chan c = heldChannel (s.chan c) (u.chan c).causes := by
  intro u
  have hgood := good_of_powerOk h
  obtain ⟨hchan, hno⟩ := settlePower_chan hgood c
  have hheld : u.chan c = heldChannel (s.chan c) (withCause .holdTaken (s.chan c).causes) := by rw [enterHolding_chan, hchan]
  have hevent := atChannel_hold c s
  refine ⟨?_, fun d hd hn => (hevent.but hgood d hd hn).1, hevent.work.same, (hevent.good hgood).caps, ?_, ?_⟩
  · simpa only [NoPower, HoldsGrant, Waits, u, enterHolding_grants, enterHolding_waits] using hno
  · rw [hheld]; exact mem_withCause _ _
  · rw [hheld]; rfl

theorem channelRow_hold : ChannelRow .hold 0x14 (fun _ c => holdRequest c) := fun _ => rfl

section
variable {c : Channel} {s : State}

theorem holdRequest_running (h : (s.chan c).status = .running) :
    holdRequest c s = okWith (s.modChan c (fun ch => { ch with holdPending := true })) := by
  simp only [holdRequest, h]

theorem holdRequest_waiting (h : (s.chan c).status ∈ [Status.waitBudget, .displaced]) :
    holdRequest c s = okWith (enterHolding c (settlePower c s)) := by
  simp only [List.mem_cons, List.not_mem_nil, or_false] at h
  rcases h with h | h <;> simp only [holdRequest, h]

theorem holdRequest_elsewhere (h : (s.chan c).status ∉ [Status.running, .waitBudget, .displaced]) :
    holdRequest c s = refuseWith .wrongState s := by
  cases hst : (s.chan c).status <;> simp_all [holdRequest]

theorem holdStage_none (h : (s.chan c).holdPending = false) : holdStage c s = s := by
  simp only [holdStage, h, Bool.false_eq_true, if_false]

variable (h : (s.chan c).holdPending = true)
include h

theorem holdStage_taken (hst : (s.chan c).status ∈ [Status.running, .waitBudget]) :
    holdStage c s = enterHolding c (settlePower c s) := by
  simp only [List.mem_cons, List.not_mem_nil, or_false] at hst
  simp only [holdStage, h, hst, if_true]

theorem holdStage_discarded (hst : (s.chan c).status ∉ [Status.running, .waitBudget]) :
    holdStage c s = s.modChan c (fun ch => { ch with holdPending := false }) := by
  simp only [List.mem_cons, List.not_mem_nil, or_false] at hst
  simp only [holdStage, h, hst, if_true, if_false]

end

/-- Settles O39: stage 5 and the request take a hold in the same way. -/
theorem holdEffect : Obligations.HoldEffect := by
  refine ⟨fun c s => ⟨holdStage_none, fun hp => ⟨holdStage_discarded hp, fun hpower hst => ?_⟩⟩, fun s r rest ht hk =>
    ⟨channelRow_hold.range ht hk, fun c hc => ⟨fun hrun => ?_, fun hst => ?_, fun hpower hst => ?_⟩⟩⟩
  · rw [holdStage_taken hp hst]
    exact hold_taken hpower c
  · exact channelRow_hold.ok ht hk hc (holdRequest_running hrun) rfl
  · exact channelRow_hold.refused ht hk hc (holdRequest_elsewhere hst)
  · obtain ⟨hno, hkept, hwork, hcaps, hcause, hheld⟩ := hold_taken hpower c
    exact ⟨_, channelRow_hold.ok ht hk hc (holdRequest_waiting hst) (atChannel_hold c s).work.same.requestQueue, hno, hkept, hwork,
      hcaps, hcause, _, hheld⟩

/-! ## RESUME (R84) -/

theorem channelRow_resume : ChannelRow .resume 0x15 (fun _ c => resumeRequest c) := fun _ => rfl

theorem stepRequest_eq {s : State} {c : Channel} {i next : Nat} {kind : SampleKind} {parts : Parts}
    (hstep : (s.chan c).currentStep = some i) (hbody : (s.record i).body = .sample kind next parts) :
    stepRequest s c = if kind = .rest then 0
      else if kind = .chargeCC ∨ kind = .chargeCP then (((s.chan c).effective.budget.getD 0 : Nat) : Int)
      else -(((s.chan c).effective.budget.getD 0 : Nat) : Int) := by
  have hkind : currentKind s c = some kind := currentKind_eq_some_iff.mpr ⟨i, next, parts, hstep, hbody⟩
  simp only [stepRequest, hkind]
  cases kind <;> rfl

section
variable {c : Channel} {s : State} (h : s.hallStop = false)
include h

theorem resumeRequest_elsewhere (hst : (s.chan c).status ≠ .holding)
    (hp : ¬((s.chan c).status = .running ∧ (s.chan c).holdPending = true)) : resumeRequest c s = refuseWith .wrongState s := by
  cases hcase : (s.chan c).status <;> simp_all [resumeRequest]

theorem resumeRequest_running (hst : (s.chan c).status = .running) (hp : (s.chan c).holdPending = true) :
    resumeRequest c s = okWith (s.modChan c (fun ch => { ch with holdPending := false })) := by
  simp only [resumeRequest, h, Bool.false_eq_true, if_false, hst, hp, if_true]

theorem resumeRequest_holding (hst : (s.chan c).status = .holding) : resumeRequest c s = okWith (resumeHeld c s) := by
  simp only [resumeRequest, h, Bool.false_eq_true, if_false, hst]

end

/-- Settles O40: the channel's state decides, then the step's request; its action leaves the channel running or waiting. -/
theorem resumeEffect : Obligations.ResumeEffect := by
  intro s r rest ht hk
  refine ⟨channelRow_resume.range ht hk, fun c hc => ⟨fun hstop => ?_, fun hstop => ⟨fun hst hp => ?_, fun hst hp => ?_,
    fun hst hzero => ?_, fun i kind next parts hstep hbody => stepRequest_eq hstep hbody, fun hst hzero => ?_,
    fun hpower hst hp hzero => ⟨_, rfl, ?_⟩⟩⟩⟩
  · exact channelRow_resume.refused ht hk hc (if_pos hstop)
  · exact channelRow_resume.refused ht hk hc (resumeRequest_elsewhere hstop hst hp)
  · exact channelRow_resume.ok ht hk hc (resumeRequest_running hstop hst hp) rfl
  · exact channelRow_resume.ok ht hk hc (by rw [resumeRequest_holding hstop hst, resumeHeld, if_pos hzero]) rfl
  · exact channelRow_resume.ok ht hk hc (by rw [resumeRequest_holding hstop hst, resumeHeld, if_neg hzero])
      (work_requestAction _ _ _ _).same.requestQueue
  · have hgood := good_of_powerOk hpower
    have hevent := (atChannel_begin (c := c) (by rw [hst]; exact ⟨nofun, nofun⟩) none).2 hzero
    obtain ⟨⟨_, _, _, _, _, _, _, _, _, hchan⟩, -⟩ := arbiterWork_requestAction c (stepRequest s c) none s c
    refine ⟨hevent.work.same, fun d hd hn => (hevent.but hgood d hd hn).1, (hevent.good hgood).caps,
      (requestAction_asking hp _ _).settled (hevent.good hgood), ?_⟩
    rw [hchan]
    exact ⟨rfl, rfl, rfl, rfl, rfl, rfl⟩

/-! ## Step end (R98, R165) -/

theorem raises_chan {α : Type} (c : Channel) (cause : Cause) (fields : α → EventFields) (xs : List α) (s : State) : ∃ flags,
    (xs.foldl (fun s x => raiseChannel c cause (fields x) s) s).chan c = { s.chan c with causes := flags } := by
  induction xs generalizing s with
  | nil => exact ⟨_, rfl⟩
  | cons x rest ih =>
    obtain ⟨flags, h⟩ := ih (raiseChannel c cause (fields x) s)
    exact ⟨flags, by rw [List.foldl_cons, h, chan_raiseChannel, if_pos rfl]⟩

theorem foldStep_chan (c : Channel) (i : Option Nat) (rq re : Int) (seconds : Nat) (s : State) : ∃ flags,
    (foldStep c i rq re seconds s).chan c = { foldCounters rq re seconds (s.chan c) with causes := flags } := by
  obtain ⟨flags, h⟩ := raises_chan c .saturated
    (fun x : Nat × Nat => { detail := x.1, valueA := some ((min x.2 Config.valueCap : Nat) : Int), stepIndex := i,
                            cycleNumber := some (s.chan c).cycleCount })
    (lifetimeLosses rq re (s.chan c).lifetime) (s.modChan c (foldCounters rq re seconds))
  rw [State.chan_modChan_self] at h
  unfold foldStep
  simp only
  split
  · exact ⟨_, by rw [chan_raiseChannel, if_pos rfl, h]⟩
  · exact ⟨flags, h⟩

/-- A step's end leaves its channel without a current step, and the step folded into the counters if there was one (R98, R165). -/
theorem endStep_chan (c : Channel) (detail : Nat) (s : State) : ∃ lifetime cycle flags,
    (endStep c detail s).chan c =
      { s.chan c with lifetime := lifetime, cycle := cycle, causes := flags, currentStep := none } ∧
    ((s.chan c).currentStep = none → lifetime = (s.chan c).lifetime ∧ cycle = (s.chan c).cycle) ∧
    ∀ i, (s.chan c).currentStep = some i → .stepEnd ∈ flags ∧
      lifetime = foldLifetime (reportedCharge (s.chan c)) (reportedEnergy (s.chan c)) (s.chan c).lifetime ∧
      cycle = foldCycle (reportedCharge (s.chan c)) (reportedEnergy (s.chan c)) (s.chan c).timeCoarse (s.chan c).cycle := by
  cases hstep : (s.chan c).currentStep with
  | none =>
    have hsame : endStep c detail s = s := by simp only [endStep, hstep]
    exact ⟨_, _, _, by rw [hsame, ← hstep], fun _ => ⟨rfl, rfl⟩, nofun⟩
  | some i =>
    obtain ⟨flags, hfold⟩ := foldStep_chan c (some i) (reportedCharge (s.chan c)) (reportedEnergy (s.chan c))
      (s.chan c).timeCoarse s
    have hchan : (endStep c detail s).chan c =
        { foldCounters (reportedCharge (s.chan c)) (reportedEnergy (s.chan c)) (s.chan c).timeCoarse (s.chan c) with
          causes := withCause .stepEnd flags, currentStep := none } := by
      simp only [endStep, hstep, State.chan_modChan_self, chan_raiseChannel, if_true, hfold]
    exact ⟨_, _, _, hchan, nofun, fun _ _ => ⟨mem_withCause _ _, rfl, rfl⟩⟩

/-! ## STOP (R86) -/

/-- Steps 3 and 4 of STOP at the channel: pendings clear, DISCONNECTING with its timer started at `now`. -/
def stoppedChannel (now : BitVec 32) (ch : ChannelState) : ChannelState :=
  { ch with
    holdPending := false, skipPending := false, status := .disconnecting, runOutcome := .stopped, closeCount := 0, openCount := 0
    contactorTimer := some { startedAt := now, length := ch.config.contactorTime } }

theorem modChan_modChan (s : State) (c : Channel) (f g : ChannelState → ChannelState) :
    (s.modChan c f).modChan c g = s.modChan c (fun ch => g (f ch)) := by
  simp only [State.modChan, State.chan, Vector.get_eq_getElem, Vector.getElem_set_self, Vector.set_set]

theorem stopRun_eq (c : Channel) (s : State) : stopRun c s =
    produceSetpoint c true ((settlePower c (endStep c detailStopped s)).modChan c (stoppedChannel s.msTime)) := by
  have hnow : (settlePower c (endStep c detailStopped s)).msTime = s.msTime :=
    ((local_endStep c detailStopped s).toWork.trans (work_settlePower c _)).same.msTime
  simp only [stopRun, enterDisconnecting, modChan_modChan, State.timer, State.modChan_msTime, hnow]
  rfl

theorem work_stopped (s : State) (c : Channel) (now : BitVec 32) : Work s (s.modChan c (stoppedChannel now)) :=
  work_modChan s c _ rfl ⟨rfl, rfl⟩ fun _ h => { h with counts := ⟨Nat.zero_le _, Nat.zero_le _⟩ }

theorem atChannel_stopRun (c : Channel) (s : State) : AtChannel c s (stopRun c s) := by
  rw [stopRun_eq]
  exact (atChannel_local (local_endStep c detailStopped s)).trans
    (atChannel_settled (work_settlePower c _) settlePower_acted _ (local_produceSetpoint c true _) (work_stopped _ c s.msTime)
      (by simp [stoppedChannel, WaitStatus]))

/-- A STOP gives up the channel's entry, and leaves the channel as its step's end did but DISCONNECTING, with an urgent OFF/OPEN
setpoint. -/
theorem stopRun_chan {s : State} (h : Good s) (c : Channel) : NoPower (stopRun c s) c ∧
    (stopRun c s).chan c = placeSetpoint .off 0 true (stoppedChannel s.msTime ((endStep c detailStopped s).chan c)) := by
  obtain ⟨hchan, hno⟩ := settlePower_chan (good_local (local_endStep c detailStopped s) h) c
  rw [stopRun_eq]
  refine ⟨(noPower_local (local_produceSetpoint c true _)).mpr hno, ?_⟩
  rw [produceSetpoint_off (driveKind_eq_none (by simp [stoppedChannel])), State.chan_modChan_self, State.chan_modChan_self, hchan]

theorem channelRow_stop : ChannelRow .stop 0x17 (fun _ c => stopRequest c) := fun _ => rfl

section
variable {c : Channel} {s : State}

theorem stopRequest_ended (h : (s.chan c).status ∈ [Status.idle, .disconnecting]) : stopRequest c s = okWith s := by
  simp only [List.mem_cons, List.not_mem_nil, or_false] at h
  rcases h with h | h <;> simp only [stopRequest, h]

theorem stopRequest_tripped (h : (s.chan c).status = .tripped) : stopRequest c s = refuseWith .wrongState s := by
  simp only [stopRequest, h]

theorem stopRequest_active (h : (s.chan c).status ∈ [Status.connecting, .waitBudget, .running, .displaced, .holding]) :
    stopRequest c s = okWith (stopRun c s) := by
  simp only [List.mem_cons, List.not_mem_nil, or_false] at h
  rcases h with h | h | h | h | h <;> simp only [stopRequest, h]

end

/-- Settles O42: the channel's state decides; a run that ends is its step's end, its entry given up, and DISCONNECTING. -/
theorem stopEffect : Obligations.StopEffect := by
  intro s r rest ht hk
  refine ⟨channelRow_stop.range ht hk, fun c hc => ⟨fun hst => ?_, fun hst => ?_, fun hpower hst => ?_⟩⟩
  · exact channelRow_stop.ok ht hk hc (stopRequest_ended hst) rfl
  · exact channelRow_stop.refused ht hk hc (stopRequest_tripped hst)
  · have hgood := good_of_powerOk hpower
    have hevent := atChannel_stopRun c s
    obtain ⟨hno, hchan⟩ := stopRun_chan hgood c
    obtain ⟨lifetime, cycle, flags, hended, hunfolded, hfolded⟩ := endStep_chan c detailStopped s
    refine ⟨stopRun c s, channelRow_stop.ok ht hk hc (stopRequest_active hst) hevent.work.same.requestQueue, hno,
      fun d hd hn => (hevent.but hgood d hd hn).1, hevent.work.same, (hevent.good hgood).caps, ?_⟩
    rw [hchan, hended]
    exact ⟨rfl, rfl, rfl, rfl, rfl, rfl, rfl, rfl, rfl, rfl, rfl, rfl, rfl, rfl, rfl, rfl, hunfolded, hfolded⟩

end Sys2Proof.Proofs
end

section
/-! PROOF. The rounding function (R111): its quotient and remainder toward zero, then each mode by the sign of the numerator. -/

namespace Sys2Proof.Proofs

open Sys2Proof.Machine Sys2Proof.Safety Sys2Proof.Laws

/-! ## The exact case and the inexact mark -/

theorem inexact_eq_false_iff {n d : Int} : inexact n d = false ↔ d ∣ n := by
  simp [inexact, Int.dvd_iff_tmod_eq_zero]

theorem roundQuotient_exact {n d : Int} (mode : RoundingMode) (h : d ∣ n) : roundQuotient mode n d = n.tdiv d := by
  simp only [roundQuotient, Int.dvd_iff_tmod_eq_zero.mp h, if_true]

/-! ## The modes at an inexact quotient -/

theorem roundQuotient_towardZero (n d : Int) : roundQuotient .towardZero n d = n.tdiv d := by
  simp only [roundQuotient, ite_self]

theorem tdiv_mul_self_nonneg (n : Int) {d : Int} (hd : 0 < d) : 0 ≤ n.tdiv d * n := by
  rcases le_total 0 n with hn | hn
  · exact mul_nonneg (Int.tdiv_nonneg hn hd.le) hn
  · have hq : 0 ≤ (-n).tdiv d := Int.tdiv_nonneg (neg_nonneg.mpr hn) hd.le
    rw [Int.neg_tdiv] at hq
    exact mul_nonneg_of_nonpos_of_nonpos (neg_nonneg.mp hq) hn

section
variable {n d : Int} (h : ¬d ∣ n)
include h

theorem roundQuotient_upward : roundQuotient .upward n d = if 0 < n then n.tdiv d + 1 else n.tdiv d := by
  simp only [roundQuotient, mt Int.dvd_iff_tmod_eq_zero.mpr h, if_false]

theorem roundQuotient_downward : roundQuotient .downward n d = if 0 < n then n.tdiv d else n.tdiv d - 1 := by
  simp only [roundQuotient, mt Int.dvd_iff_tmod_eq_zero.mpr h, if_false]

/-- The nearer neighbour; at equal distance the one that is even. -/
theorem roundQuotient_nearestEven : roundQuotient .nearestEven n d =
    if 2 * (n.tmod d).natAbs < d.natAbs ∨ 2 * (n.tmod d).natAbs = d.natAbs ∧ n.tdiv d % 2 = 0 then n.tdiv d
    else if 0 < n then n.tdiv d + 1 else n.tdiv d - 1 := by
  simp only [roundQuotient, mt Int.dvd_iff_tmod_eq_zero.mpr h, if_false]
  grind

variable (hd : 0 < d)
include hd

/-- The remainder of an inexact quotient lies strictly between 0 and the divisor, on the numerator's side. -/
theorem tmod_side : (0 < n → 0 < n.tmod d ∧ n.tmod d < d) ∧ (¬0 < n → n.tmod d < 0 ∧ -d < n.tmod d) := by
  have hne : n.tmod d ≠ 0 := mt Int.dvd_iff_tmod_eq_zero.mpr h
  refine ⟨fun hn => ?_, fun hn => ?_⟩
  · have hnonneg : 0 ≤ n.tmod d := Int.tmod_nonneg d hn.le
    have hlt : n.tmod d < d := Int.tmod_lt_of_pos n hd
    omega
  · have hnonpos : 0 ≤ -n.tmod d := Int.neg_tmod n d ▸ Int.tmod_nonneg d (show 0 ≤ -n by omega)
    have hlt : -n.tmod d < d := Int.neg_tmod n d ▸ Int.tmod_lt_of_pos (-n) hd
    omega

/-- In magnitude, the quotient toward zero falls short of the numerator by less than one divisor. -/
theorem natAbs_tdiv_between : (n.tdiv d).natAbs * d.natAbs < n.natAbs ∧ n.natAbs < ((n.tdiv d).natAbs + 1) * d.natAbs := by
  have hrem : 0 < n.natAbs % d.natAbs := Nat.emod_pos_of_not_dvd (mt Int.natAbs_dvd_natAbs.mp h)
  have hlt : n.natAbs % d.natAbs < d.natAbs := Nat.mod_lt _ (Int.natAbs_pos.mpr hd.ne')
  have hsum : n.natAbs / d.natAbs * d.natAbs + n.natAbs % d.natAbs = n.natAbs := Nat.div_add_mod' _ _
  rw [show (n.tdiv d).natAbs = n.natAbs / d.natAbs from Int.natAbs_tdiv n d, Nat.add_mul]
  omega

theorem upward_between : n < roundQuotient .upward n d * d ∧ roundQuotient .upward n d * d < n + d := by
  have hsum : n.tdiv d * d + n.tmod d = n := Int.tdiv_mul_add_tmod n d
  obtain ⟨hpos, hneg⟩ := tmod_side h hd
  rw [roundQuotient_upward h]
  split
  · rw [add_mul]; omega
  · omega

theorem downward_between : n - d < roundQuotient .downward n d * d ∧ roundQuotient .downward n d * d < n := by
  have hsum : n.tdiv d * d + n.tmod d = n := Int.tdiv_mul_add_tmod n d
  obtain ⟨hpos, hneg⟩ := tmod_side h hd
  rw [roundQuotient_downward h]
  split
  · omega
  · rw [sub_mul]; omega

/-- The distance to the quotient toward zero is the remainder's magnitude, to the other neighbour what it lacks to the divisor. -/
theorem nearestEven_within : 2 * (n - roundQuotient .nearestEven n d * d).natAbs ≤ d.natAbs ∧
    (2 * (n - roundQuotient .nearestEven n d * d).natAbs = d.natAbs → roundQuotient .nearestEven n d % 2 = 0) := by
  have hsum : n.tdiv d * d + n.tmod d = n := Int.tdiv_mul_add_tmod n d
  obtain ⟨hpos, hneg⟩ := tmod_side h hd
  rw [roundQuotient_nearestEven h]
  split
  · omega
  · split
    · rw [add_mul]; omega
    · rw [sub_mul]; omega

end

/-- Settles O56: the exact case, then each mode from the side and the size of the remainder. -/
theorem roundingFunction : Obligations.RoundingFunction := by
  intro mode n d hd q
  refine ⟨fun h => ⟨?_, inexact_eq_false_iff.mpr h⟩, fun h => ⟨Bool.eq_true_of_not_eq_false (mt inexact_eq_false_iff.mp h), ?_⟩⟩
  · exact (congrArg (· * d) (roundQuotient_exact mode h)).trans (Int.tdiv_mul_cancel h)
  · cases mode with
    | towardZero =>
      obtain ⟨hbelow, habove⟩ := natAbs_tdiv_between h hd
      rw [show q = n.tdiv d from roundQuotient_towardZero n d]
      exact ⟨hbelow, habove, tdiv_mul_self_nonneg n hd⟩
    | upward => exact upward_between h hd
    | downward => exact downward_between h hd
    | nearestEven => exact nearestEven_within h hd

end Sys2Proof.Proofs
end

section
/-! PROOF. Stage 1 in RUNNING (R105 to R110): what it raises, and what it then books at its channel. Booking commutes with raising a cause,
so the interval is the causes told in order, then one change of the channel. -/

namespace Sys2Proof.Proofs

open Sys2Proof.Machine Sys2Proof.Safety Sys2Proof.Laws

/-! ## Booking a channel and raising its causes -/

/-- A change of a channel that neither reads nor changes its cause flags, and keeps its configuration. -/
structure Bookkeeping (f : ChannelState → ChannelState) : Prop where
  config : ∀ ch, (f ch).config = ch.config
  causes : ∀ ch, (f ch).causes = ch.causes
  blind  : ∀ ch flags, f { ch with causes := flags } = { f ch with causes := flags }

theorem offerEvent_modChan (e : Event) (c : Channel) (f : ChannelState → ChannelState) (s : State) :
    offerEvent e (s.modChan c f) = (offerEvent e s).modChan c f := by
  unfold offerEvent
  rw [State.modChan_eventQueue]
  split
  · rfl
  · split
    · split <;> rfl
    · rfl

theorem raiseChannel_modChan {f : ChannelState → ChannelState} (hf : Bookkeeping f) (c : Channel) (cause : Cause) (fields : EventFields)
    (s : State) : raiseChannel c cause fields (s.modChan c f) = (raiseChannel c cause fields s).modChan c f := by
  have hflags : (s.modChan c f).modChan c (fun ch => { ch with causes := withCause cause ch.causes }) =
      (s.modChan c (fun ch => { ch with causes := withCause cause ch.causes })).modChan c f := by
    rw [modChan_modChan, modChan_modChan]
    exact congrArg (s.modChan c) (funext fun ch => by rw [hf.causes]; exact (hf.blind ch _).symm)
  simp only [raiseChannel, hflags]
  rw [State.chan_modChan_self, hf.config]
  split
  · exact offerEvent_modChan _ c f _
  · rfl

/-! ## A total that passes its bound (R109) -/

abbrev Passes (bound sum : Int) : Prop := bound < sum ∨ sum < -bound

theorem passedBound_eq (bound sum : Int) :
    passedBound bound sum = if Passes bound sum then some (if bound < sum then 1 else -1) else none := by
  unfold passedBound Passes
  grind

/-- The fields of a SATURATED of stage 1 but its side (R109). -/
def totalFields (ch : ChannelState) (detail : Nat) : EventFields :=
  { detail := detail, stepIndex := ch.currentStep, cycleNumber := some ch.cycleCount }

/-- The SATURATED of a step total that passes its bound while its mark is clear, with the side passed (R109). -/
def tellSaturated (c : Channel) (fields : EventFields) (marked : Bool) (bound sum : Int) (s : State) : State :=
  if marked = false ∧ Passes bound sum then
    raiseChannel c .saturated { fields with valueA := some (if bound < sum then 1 else -1) } s
  else s

section
variable {c : Channel} {fields : EventFields} {marked : Bool} {bound sum : Int} {s : State}

theorem tellSaturated_modChan {f : ChannelState → ChannelState} (hf : Bookkeeping f) :
    tellSaturated c fields marked bound sum (s.modChan c f) = (tellSaturated c fields marked bound sum s).modChan c f := by
  unfold tellSaturated
  split
  · exact raiseChannel_modChan hf c _ _ s
  · rfl

theorem tellSaturated_chan : ∃ flags, (tellSaturated c fields marked bound sum s).chan c = { s.chan c with causes := flags } := by
  unfold tellSaturated
  split
  · exact ⟨_, by rw [chan_raiseChannel, if_pos rfl]⟩
  · exact ⟨_, rfl⟩

theorem local_tellSaturated : LocalWork c s (tellSaturated c fields marked bound sum s) := by
  unfold tellSaturated
  split
  · exact local_raiseChannel c _ _ s
  · exact .refl c s

end

/-! ## Charge and energy (R107, R108) -/

/-- The one shape of the model's `addCharge` and `addEnergy`: the total is set, and where its sum passes the bound unmarked, the mark is
set and the event raised. -/
def accumulate (c : Channel) (marked : Bool) (bound sum : Int) (fields : EventFields) (total mark : ChannelState → ChannelState)
    (s : State) : State :=
  match passedBound bound sum with
  | none => s.modChan c total
  | some side =>
    if marked then s.modChan c total
    else raiseChannel c .saturated { fields with valueA := some side } ((s.modChan c total).modChan c mark)

theorem modChan_congr {s : State} {c : Channel} {f g : ChannelState → ChannelState} (h : f (s.chan c) = g (s.chan c)) :
    s.modChan c f = s.modChan c g := by
  simp only [State.modChan, h]

/-- The event told first, then the total and its mark booked together by `book`. -/
theorem accumulate_eq {c : Channel} {marked : Bool} {bound sum : Int} {fields : EventFields} {s : State}
    {total mark : ChannelState → ChannelState} (book : Bool → ChannelState → ChannelState) (hbook : ∀ b, Bookkeeping (book b))
    (htotal : total (s.chan c) = book marked (s.chan c)) (hmark : ∀ ch, mark (total ch) = book true ch) :
    accumulate c marked bound sum fields total mark s =
      (tellSaturated c fields marked bound sum s).modChan c (book (marked || decide (Passes bound sum))) := by
  simp only [accumulate, passedBound_eq, tellSaturated]
  by_cases hp : Passes bound sum
  · cases marked with
    | false => simpa [hp, modChan_modChan, hmark] using raiseChannel_modChan (hbook true) c _ _ s
    | true => simpa [hp] using modChan_congr htotal
  · simpa [hp] using modChan_congr htotal

def bookCharge (total : Int) (marked : Bool) (ch : ChannelState) : ChannelState := { ch with qs := total, chargeSaturated := marked }

def bookEnergy (total : Int) (marked : Bool) (ch : ChannelState) : ChannelState := { ch with es := total, energySaturated := marked }

theorem bookkeeping_bookCharge (total : Int) (marked : Bool) : Bookkeeping (bookCharge total marked) :=
  ⟨fun _ => rfl, fun _ => rfl, fun _ _ => rfl⟩

theorem bookkeeping_bookEnergy (total : Int) (marked : Bool) : Bookkeeping (bookEnergy total marked) :=
  ⟨fun _ => rfl, fun _ => rfl, fun _ _ => rfl⟩

/-- The charge of an interval: SATURATED if its bound is first passed, then the total and its mark (R107, R109). -/
theorem addCharge_eq (c : Channel) (q : Int) (s : State) : addCharge c q s =
    (tellSaturated c (totalFields (s.chan c) 1) (s.chan c).chargeSaturated Config.chargeBound ((s.chan c).qs + q) s).modChan c
      (bookCharge (saturate Config.chargeBound ((s.chan c).qs + q))
        ((s.chan c).chargeSaturated || decide (Passes Config.chargeBound ((s.chan c).qs + q)))) :=
  accumulate_eq (fields := totalFields (s.chan c) 1) (total := fun ch => { ch with qs := saturate Config.chargeBound ((s.chan c).qs + q) })
    (mark := fun ch => { ch with chargeSaturated := true }) (bookCharge _) (bookkeeping_bookCharge _) rfl fun _ => rfl

/-- The energy of an interval, as its charge (R108, R109). -/
theorem addEnergy_eq (c : Channel) (e : Int) (s : State) : addEnergy c e s =
    (tellSaturated c (totalFields (s.chan c) 2) (s.chan c).energySaturated Config.energyBound ((s.chan c).es + e) s).modChan c
      (bookEnergy (saturate Config.energyBound ((s.chan c).es + e))
        ((s.chan c).energySaturated || decide (Passes Config.energyBound ((s.chan c).es + e)))) :=
  accumulate_eq (fields := totalFields (s.chan c) 2) (total := fun ch => { ch with es := saturate Config.energyBound ((s.chan c).es + e) })
    (mark := fun ch => { ch with energySaturated := true }) (bookEnergy _) (bookkeeping_bookEnergy _) rfl fun _ => rfl

/-! ## The interval (R105 to R110) -/

/-- The pack voltage is young enough to integrate energy (R105). -/
abbrev VoltageFresh (ch : ChannelState) : Prop := (ch.point packVoltagePoint).age ≤ ch.config.maxPointAge

def chargeSum (dt : Nat) (current : Int) (ch : ChannelState) : Int := ch.qs + current * dt

def energySum (dt : Nat) (current : Int) (ch : ChannelState) : Int := ch.es + (ch.point packVoltagePoint).value * current * dt

/-- The causes of an interval, in the order raised (R105, R109, log entry 15). -/
def tellInterval (c : Channel) (dt : Nat) (current : Int) (s : State) : State :=
  let ch := s.chan c
  let s := tellSaturated c (totalFields ch 1) ch.chargeSaturated Config.chargeBound (chargeSum dt current ch) s
  if VoltageFresh ch then tellSaturated c (totalFields ch 2) ch.energySaturated Config.energyBound (energySum dt current ch) s
  else raiseChannel c .arithInvalid
    { detail := 17, stepIndex := ch.currentStep, valueA := some ((ch.point packVoltagePoint).age : Int) } s

/-- What an interval books that begins in `before`: the charge, the energy at a fresh voltage, and the step time, each total with its
mark. -/
def bookInterval (dt : Nat) (current : Int) (before : ChannelState) : ChannelState → ChannelState :=
  advanceTime dt ∘
  (if VoltageFresh before then bookEnergy (saturate Config.energyBound (energySum dt current before))
      (before.energySaturated || decide (Passes Config.energyBound (energySum dt current before)))
    else id) ∘
  bookCharge (saturate Config.chargeBound (chargeSum dt current before))
    (before.chargeSaturated || decide (Passes Config.chargeBound (chargeSum dt current before)))

/-- Stage 1 in RUNNING: the causes, then the booking. -/
theorem integrate_eq (c : Channel) (dt : Nat) (current : Int) (s : State) :
    integrate c dt current s = (tellInterval c dt current s).modChan c (bookInterval dt current (s.chan c)) := by
  by_cases hfresh : VoltageFresh (s.chan c)
  · have hvolt : packVoltage (s.chan c) = some ((s.chan c).point packVoltagePoint).value := if_pos hfresh
    obtain ⟨flags, hflags⟩ := tellSaturated_chan (c := c) (fields := totalFields (s.chan c) 1)
      (marked := (s.chan c).chargeSaturated) (bound := Config.chargeBound) (sum := (s.chan c).qs + current * dt) (s := s)
    simp only [integrate, hvolt, tellInterval, bookInterval, if_pos hfresh]
    rw [addEnergy_eq, addCharge_eq, tellSaturated_modChan (bookkeeping_bookCharge _ _), modChan_modChan, modChan_modChan,
      State.chan_modChan_self, hflags]
    rfl
  · have hvolt : packVoltage (s.chan c) = none := if_neg hfresh
    simp only [integrate, hvolt, tellInterval, bookInterval, if_neg hfresh]
    rw [addCharge_eq, raiseChannel_modChan (bookkeeping_bookCharge _ _), modChan_modChan]
    rfl

/-- The advance writes the clock alone, and reads nothing but the clock. -/
theorem advanceTime_eq {dt : Nat} {x ch : ChannelState} (hfine : x.timeFine = ch.timeFine) (hcoarse : x.timeCoarse = ch.timeCoarse) :
    advanceTime dt x =
      { x with timeFine := (advanceTime dt ch).timeFine, timeCoarse := (advanceTime dt ch).timeCoarse } := by
  unfold advanceTime
  rw [hfine, hcoarse]
  by_cases hcarry : ch.timeFine + dt < 10000
  · simp only [if_pos hcarry, ← hcoarse]
  · simp only [if_neg hcarry]

/-- A booking changes six fields of the channel, to values that its cause flags have no part in. -/
theorem bookInterval_eq (dt : Nat) (current : Int) (before ch : ChannelState) : bookInterval dt current before ch =
    { ch with
      qs := saturate Config.chargeBound (chargeSum dt current before)
      es := if VoltageFresh before then saturate Config.energyBound (energySum dt current before) else ch.es
      timeFine := (advanceTime dt ch).timeFine, timeCoarse := (advanceTime dt ch).timeCoarse
      chargeSaturated := before.chargeSaturated || decide (Passes Config.chargeBound (chargeSum dt current before))
      energySaturated := if VoltageFresh before
        then before.energySaturated || decide (Passes Config.energyBound (energySum dt current before))
        else ch.energySaturated } := by
  unfold bookInterval
  by_cases hfresh : VoltageFresh before
  · simp only [if_pos hfresh]
    exact advanceTime_eq rfl rfl
  · simp only [if_neg hfresh]
    exact advanceTime_eq rfl rfl

theorem local_tellInterval (c : Channel) (dt : Nat) (current : Int) (s : State) : LocalWork c s (tellInterval c dt current s) := by
  unfold tellInterval
  simp only
  split
  · exact local_tellSaturated.trans local_tellSaturated
  · exact local_tellSaturated.trans (local_raiseChannel c _ _ _)

/-- Telling an interval changes its channel in its cause flags only; an old pack voltage leaves ARITH_INVALID there (R105). -/
theorem tellInterval_chan (c : Channel) (dt : Nat) (current : Int) (s : State) : ∃ flags,
    (tellInterval c dt current s).chan c = { s.chan c with causes := flags } ∧
    (¬VoltageFresh (s.chan c) → .arithInvalid ∈ flags) := by
  obtain ⟨flags, hcharge⟩ := tellSaturated_chan (c := c) (fields := totalFields (s.chan c) 1)
    (marked := (s.chan c).chargeSaturated) (bound := Config.chargeBound) (sum := chargeSum dt current (s.chan c)) (s := s)
  unfold tellInterval
  simp only
  split
  · next hfresh =>
    obtain ⟨flags', henergy⟩ := tellSaturated_chan (c := c) (fields := totalFields (s.chan c) 2)
      (marked := (s.chan c).energySaturated) (bound := Config.energyBound) (sum := energySum dt current (s.chan c))
    exact ⟨flags', by rw [henergy, hcharge], fun hold => absurd hfresh hold⟩
  · exact ⟨withCause .arithInvalid flags, by rw [chan_raiseChannel, if_pos rfl, hcharge], fun _ => mem_withCause _ _⟩

/-- The step time advances by the interval in a fine part below 10000, its coarse part stopping at its bound (R110). -/
theorem advanceTime_clock {dt : Nat} {ch : ChannelState} (hdt : dt ≤ 10000) (hf : ch.timeFine ≤ 9999) :
    (advanceTime dt ch).timeFine ≤ 9999 ∧
    (ch.timeCoarse < 4294967295 ∨ ch.timeFine + dt < 10000 →
      (advanceTime dt ch).timeCoarse * 10000 + (advanceTime dt ch).timeFine = ch.timeCoarse * 10000 + ch.timeFine + dt) ∧
    (ch.timeCoarse = 4294967295 → 10000 ≤ ch.timeFine + dt →
      (advanceTime dt ch).timeCoarse = 4294967295 ∧ (advanceTime dt ch).timeFine = ch.timeFine + dt - 10000) := by
  by_cases hcarry : ch.timeFine + dt < 10000
  · rw [advanceTime_noCarry hcarry]
    exact ⟨by dsimp only; omega, fun _ => by dsimp only; omega, by omega⟩
  · rw [advanceTime_carry hcarry]
    refine ⟨by dsimp only; omega, fun h => ?_, fun hfull _ => ⟨?_, rfl⟩⟩ <;> dsimp only [Config.counterMax32] <;> omega

/-- Settles O57: the interval is its causes told, then its booking, whose fields are read off. -/
theorem integrationAddsInterval : Obligations.IntegrationAddsInterval := by
  intro c dt current s hok hdt before t after
  obtain ⟨flags, htold, hinvalid⟩ := tellInterval_chan c dt current s
  have hlocal := local_tellInterval c dt current s
  have ht : t = (tellInterval c dt current s).modChan c (bookInterval dt current before) := integrate_eq c dt current s
  have hafter : after = bookInterval dt current before { before with causes := flags } := by
    rw [← htold]; exact (congrArg (·.chan c) ht).trans (State.chan_modChan_self _ c _)
  have hbooked := hafter.trans (bookInterval_eq dt current before _)
  obtain ⟨hfine, hbelow, hfull⟩ := advanceTime_clock (ch := { before with causes := flags }) hdt hok.fine
  refine ⟨by rw [hbooked]; rfl, fun hfresh => ?_, fun hold => ?_, ⟨?_, ?_, ?_⟩, by rw [hbooked]; exact hfine,
    by rw [hbooked]; exact hbelow, by rw [hbooked]; exact hfull, by rw [hbooked], by rw [hbooked],
    fun d hd => ?_, ?_, ?_⟩
  · rw [hbooked]; exact if_pos hfresh
  · rw [hbooked]; exact ⟨if_neg (Nat.not_le.mpr hold), hinvalid (Nat.not_le.mpr hold)⟩
  · rw [hbooked]; simp only [Bool.or_eq_true, decide_eq_true_eq]; rfl
  · rw [hbooked]
    by_cases hfresh : VoltageFresh before
    · simp only [if_pos hfresh, Bool.or_eq_true, decide_eq_true_eq]
      exact or_congr_right (and_iff_right hfresh).symm
    · simp only [if_neg hfresh]
      exact (or_iff_left fun h => hfresh h.1).symm
  · refine ht.trans (modChan_congr ?_)
    rw [htold, ← hafter, hbooked]
  · rw [ht, State.chan_modChan_ne _ _ hd]; exact hlocal.others d hd
  · rw [ht]; exact hlocal.grants
  · rw [ht]; exact hlocal.waits

end Sys2Proof.Proofs
end

section
/-! PROOF. The hall stop's sample of a millisecond: no change, assertion and release (R136 to R138, R196). -/

namespace Sys2Proof.Proofs

open Sys2Proof.Machine Sys2Proof.Safety Sys2Proof.Laws

/-! ## What a device cause leaves (R174) -/

@[simp] theorem hallStop_raiseDevice (cause : Cause) (s : State) : (raiseDevice cause s).hallStop = s.hallStop := by
  obtain ⟨_, _, h⟩ := raiseDevice_eq cause s; rw [h]

@[simp] theorem channels_raiseDevice (cause : Cause) (s : State) : (raiseDevice cause s).channels = s.channels := by
  obtain ⟨_, _, h⟩ := raiseDevice_eq cause s; rw [h]

@[simp] theorem grants_raiseDevice (cause : Cause) (s : State) : (raiseDevice cause s).grants = s.grants := by
  obtain ⟨_, _, h⟩ := raiseDevice_eq cause s; rw [h]

@[simp] theorem waits_raiseDevice (cause : Cause) (s : State) : (raiseDevice cause s).waits = s.waits := by
  obtain ⟨_, _, h⟩ := raiseDevice_eq cause s; rw [h]

/-! ## What a sample does (R136) -/

/-- A millisecond's sample as it is taken, before any change it makes: ms time has risen, and the sample is the previous one to come. -/
def sampled (asserted : Bool) (s : State) : State := { s with msTime := s.msTime + 1, previousSample := asserted }

section
variable {s : State}

/-- A sample that repeats the debounced state, or is the first of its kind, makes no change. -/
theorem sampleHallStop_unchanged {asserted : Bool} (order : List Channel) (h : asserted = s.hallStop ∨ asserted ≠ s.previousSample) :
    sampleHallStop asserted order s = sampled asserted s := by
  unfold sampleHallStop
  rcases h with hsame | hfirst
  · simp [hsame, State.tick, sampled]
  · rw [Bool.eq_not_of_ne hfirst]
    cases hprev : s.previousSample <;> simp [hprev, State.tick, sampled]

theorem sampleHallStop_asserts (order : List Channel) (hstop : s.hallStop = false) (hprev : s.previousSample = true) :
    sampleHallStop true order s = assertHallStop order (sampled true s) := by
  simp only [sampleHallStop, State.tick, hstop, hprev]
  rfl

theorem sampleHallStop_releases (order : List Channel) (hstop : s.hallStop = true) (hprev : s.previousSample = false) :
    sampleHallStop false order s = releaseHallStop (sampled false s) := by
  simp only [sampleHallStop, State.tick, hstop, hprev]
  rfl

end

/-- The three outcomes of a sample are all there are. -/
theorem sampleHallStop_cases (asserted : Bool) (order : List Channel) (s : State) :
    sampleHallStop asserted order s = sampled asserted s ∨
      sampleHallStop asserted order s = assertHallStop order (sampled asserted s) ∨
      sampleHallStop asserted order s = releaseHallStop (sampled asserted s) := by
  unfold sampleHallStop
  simp only
  split
  · exact .inr (.inl rfl)
  · split
    · exact .inr (.inr rfl)
    · exact .inl rfl

/-! ## Assertion and release (R137, R138) -/

/-- Settles O27: the second asserted sample is the assertion, whose trips reach every channel that is not at rest. -/
theorem hallStopAssertionTripsChannels : Obligations.HallStopAssertionTripsChannels := by
  intro order s hpower hstop hprev
  have hexec : exec (.hallStopAsserted order) s = .next (assertHallStop order (sampled true s)) := by
    rw [← sampleHallStop_asserts order hstop hprev]
    exact if_pos ⟨hstop, hprev⟩
  have hsample : exec (.hstopNSample true order) s = .next (assertHallStop order (sampled true s)) := by
    rw [← sampleHallStop_asserts order hstop hprev]
    rfl
  have hgood : Good { sampled true s with hallStop := true } := good_of_powerOk { hpower with }
  have hcause := mem_deviceCauses_raiseDevice .hallStopAsserted { sampled true s with hallStop := true }
  have hall := allTripped_tripAll .hallStop order (good_raiseDevice .hallStopAsserted hgood)
  have hsame := (events_tripAll .hallStop order (raiseDevice .hallStopAsserted { sampled true s with hallStop := true })).work.same
  refine ⟨_, hexec, hsample, ?_⟩
  obtain ⟨q, o, hraise⟩ := raiseDevice_eq .hallStopAsserted { sampled true s with hallStop := true }
  unfold assertHallStop
  rw [hraise] at hcause hall hsame ⊢
  exact ⟨hsame.hallStop, hsame.previousSample, hsame.msTime, hsame.deviceCauses ▸ hcause, hall, hsame.receiver, hsame.routes,
    hsame.steps, hsame.staged, hsame.requestQueue, hsame.replyQueue, hsame.walk, hsame.importCap, hsame.exportCap⟩

/-- Settles O28: a sample without a change, and the release. -/
theorem hallStopSampleAndRelease : Obligations.HallStopSampleAndRelease := by
  intro asserted order s
  refine ⟨fun h => congrArg _ (sampleHallStop_unchanged order h), fun hstop hprev => ?_⟩
  have hreleased : ∀ order, sampleHallStop false order s = releaseHallStop (sampled false s) :=
    fun order => sampleHallStop_releases order hstop hprev
  have hexec : exec .hallStopReleased s = .next (releaseHallStop (sampled false s)) := by
    rw [← hreleased []]
    exact if_pos ⟨hstop, hprev⟩
  exact ⟨hexec, congrArg _ (hreleased order), hallStop_raiseDevice _ _, mem_deviceCauses_raiseDevice _ _,
    channels_raiseDevice _ _, grants_raiseDevice _ _, waits_raiseDevice _ _⟩

end Sys2Proof.Proofs
end

section
/-! PROOF. Which events stay queued through the work of channels and of the arbiter (R178, R179), and trip handling (R98, R139 to
R141). -/

namespace Sys2Proof.Proofs

open Sys2Proof.Machine Sys2Proof.Safety Sys2Proof.Laws

/-! ## Events stay queued while the queue does not overflow (R178, R179) -/

/-- Where the queue has not overflowed by the end, it had not before, and no event of it is lost. -/
def EventsKept (s t : State) : Prop := t.eventOverflow = false →
  s.eventOverflow = false ∧ ∀ e ∈ s.eventQueue, e ∈ t.eventQueue

theorem EventsKept.refl (s : State) : EventsKept s s := fun h => ⟨h, fun _ => id⟩

theorem EventsKept.trans {s t u : State} (h₁ : EventsKept s t) (h₂ : EventsKept t u) : EventsKept s u := fun h => by
  obtain ⟨ht, htu⟩ := h₂ h
  obtain ⟨hs, hst⟩ := h₁ ht
  exact ⟨hs, fun e he => htu e (hst e he)⟩

/-- An event is in the queue, unless the queue has overflowed. -/
def Queued (e : Event) (s : State) : Prop := s.eventOverflow = false → e ∈ s.eventQueue

theorem Queued.kept {e : Event} {s t : State} (h : Queued e s) (hk : EventsKept s t) : Queued e t := fun ht => by
  obtain ⟨hs, hsub⟩ := hk ht
  exact hsub e (h hs)

/-- An offer that does not overflow the queue finds room in it. -/
theorem offerEvent_room {e : Event} {s : State} (h : (offerEvent e s).eventOverflow = false) :
    offerEvent e s = { s with eventQueue := insertEvent e s.eventQueue } := by
  unfold offerEvent at h ⊢
  split
  · rfl
  · next hfull =>
    rw [if_neg hfull] at h
    split at h
    · split at h <;> cases h
    · cases h

theorem queued_offerEvent (e : Event) (s : State) : Queued e (offerEvent e s) := fun h => by
  rw [offerEvent_room h]
  exact mem_insertEvent.mpr (.inl rfl)

theorem eventsKept_offerEvent (e : Event) (s : State) : EventsKept s (offerEvent e s) := fun h => by
  have hroom := offerEvent_room h
  rw [hroom] at h ⊢
  exact ⟨h, fun _ hx => mem_insertEvent.mpr (.inr hx)⟩

theorem eventsKept_modChan (s : State) (c : Channel) (f : ChannelState → ChannelState) : EventsKept s (s.modChan c f) :=
  EventsKept.refl s

theorem eventsKept_raiseChannel (c : Channel) (cause : Cause) (f : EventFields) (s : State) :
    EventsKept s (raiseChannel c cause f s) := by
  unfold raiseChannel
  simp only
  split
  · exact (eventsKept_modChan s c _).trans (eventsKept_offerEvent _ _)
  · exact eventsKept_modChan s c _

/-- A cause at or above the channel's report level becomes an event (R176). -/
theorem queued_raiseChannel {c : Channel} {cause : Cause} {s : State} (h : (s.chan c).config.reportLevel.val ≤ cause.cls)
    (f : EventFields) : Queued (formEvent cause (some c) f s) (raiseChannel c cause f s) := by
  unfold raiseChannel
  simp only [State.chan_modChan_self, h, if_true]
  exact queued_offerEvent _ _

/-! ## Setpoints and the arbiter (R102, R149 to R161) -/

theorem eventsKept_computeMagnitude (c : Channel) (kind : SampleKind) (s : State) :
    EventsKept s (computeMagnitude c kind s).2 := by
  unfold computeMagnitude
  simp only
  split
  · exact eventsKept_raiseChannel _ _ _ _
  · simp only
    split
    · exact .refl s
    · split
      · exact .refl s
      · exact (eventsKept_modChan s c _).trans (eventsKept_raiseChannel _ _ _ _)

theorem eventsKept_produceSetpoint (c : Channel) (urgent : Bool) (s : State) : EventsKept s (produceSetpoint c urgent s) := by
  unfold produceSetpoint
  split
  · exact eventsKept_modChan s c _
  · exact (eventsKept_computeMagnitude c _ s).trans (eventsKept_modChan _ c _)

theorem eventsKept_enterHolding (c : Channel) (s : State) : EventsKept s (enterHolding c s) :=
  ((eventsKept_modChan s c _).trans (eventsKept_raiseChannel _ _ _ _)).trans (eventsKept_produceSetpoint c true _)

theorem eventsKept_takeGrant (g : Grant) (detail : Nat) (s : State) : EventsKept s (takeGrant g detail s) := by
  have hdropped : EventsKept s ((s.dropGrant g.channel).modChan g.channel (fun ch => { ch with skipPending := false })) :=
    EventsKept.refl s
  unfold takeGrant
  simp only
  split
  · exact (hdropped.trans (eventsKept_raiseChannel _ _ _ _)).trans (eventsKept_enterHolding _ _)
  · have hjoined : EventsKept s ((((s.dropGrant g.channel).modChan g.channel (fun ch => { ch with skipPending := false })).joinWait
        g.channel g.watts).modChan g.channel (fun ch => { ch with status := .displaced })) := EventsKept.refl s
    exact (hjoined.trans (eventsKept_raiseChannel _ _ _ _)).trans (eventsKept_produceSetpoint _ _ _)

theorem eventsKept_shed (s : State) : EventsKept s (shed s) := by
  unfold shed
  generalize s.grants.length = fuel
  induction fuel generalizing s with
  | zero => exact .refl s
  | succ n ih =>
    unfold shedAtMost
    split
    · exact .refl s
    · split
      · exact .refl s
      · exact (eventsKept_takeGrant _ _ _).trans (ih _)

theorem eventsKept_grantEntry (silent : Option Channel) (w : WaitEntry) (s : State) : EventsKept s (grantEntry silent w s) := by
  have hgranted : EventsKept s (State.modChan { s.dropWait w.channel with
      grants := s.grants ++ [({ channel := w.channel, watts := w.request } : Grant)] } w.channel
      (fun ch => { ch with status := .running })) := EventsKept.refl s
  unfold grantEntry
  simp only
  split
  · exact hgranted.trans (eventsKept_raiseChannel _ _ _ _)
  · exact (hgranted.trans (eventsKept_raiseChannel _ _ _ _)).trans (eventsKept_produceSetpoint _ _ _)

theorem eventsKept_scan (silent : Option Channel) (s : State) : EventsKept s (scan silent s) :=
  scan_keeps (P := EventsKept s) (fun g detail _ h => h.trans (eventsKept_takeGrant g detail _))
    (fun silent w _ h => h.trans (eventsKept_grantEntry silent w _)) silent (.refl s)

theorem eventsKept_settlePower (c : Channel) (s : State) : EventsKept s (settlePower c s) := by
  unfold settlePower
  split
  · have hdropped : EventsKept s (s.dropGrant c) := EventsKept.refl s
    exact (hdropped.trans (eventsKept_shed _)).trans (eventsKept_scan none _)
  · split
    · have hdropped : EventsKept s (s.dropWait c) := EventsKept.refl s
      exact hdropped.trans (eventsKept_scan none _)
    · exact .refl s

/-! ## The event of a step's end (R98) -/

/-- STEP_END as the channel stands when its step ends (R98). -/
def stepEndEvent (c : Channel) (i detail : Nat) (s : State) : Event :=
  { cls := 1, cause := .stepEnd, channel := some c, timeMs := s.msTime, stepIndex := some i,
    cycleNumber := some (s.chan c).cycleCount, valueA := some (reportedCharge (s.chan c)),
    valueB := some (reportedEnergy (s.chan c)), detail := detail }

theorem queued_endStep {c : Channel} {s : State} {i : Nat} (hstep : (s.chan c).currentStep = some i)
    (hlevel : (s.chan c).config.reportLevel.val ≤ 1) (detail : Nat) :
    Queued (stepEndEvent c i detail s) (endStep c detail s) := by
  have hfold := local_foldStep c (some i) (reportedCharge (s.chan c)) (reportedEnergy (s.chan c)) (s.chan c).timeCoarse s
  have hraised := queued_raiseChannel (cause := .stepEnd) (by rw [hfold.config]; exact hlevel)
    { stepIndex := some i, cycleNumber := some (s.chan c).cycleCount, valueA := some (reportedCharge (s.chan c)),
      valueB := some (reportedEnergy (s.chan c)), detail := detail }
  rw [formEvent, hfold.same.msTime] at hraised
  unfold endStep
  simp only [hstep]
  exact hraised.kept (eventsKept_modChan _ c _)

/-! ## Trip handling (R139 to R141) -/

/-- The channel after a trip, but for the flag of its cause: `before` is the channel once its step has ended. -/
def trippedChannel (record : TripRecord) (before : ChannelState) : ChannelState :=
  { placeSetpoint .off 0 true (enterTripped before) with tripRecord := some record }

/-- The fields of a trip's event (R139). -/
def tripFields (t : Trip) (before : ChannelState) : EventFields :=
  { stepIndex := t.stepIndex, cycleNumber := some before.cycleCount, valueA := t.value, valueB := t.threshold, detail := t.detail }

/-- A trip of a channel that is not at rest: its step ends, its entry is given up, the channel is TRIPPED, and the cause is raised. -/
theorem trip_eq {c : Channel} {s : State} (h : (s.chan c).atRest = false) (t : Trip) :
    trip c t s = raiseChannel c t.cause (tripFields t (s.chan c))
      ((settlePower c (endStep c detailTripped s)).modChan c (trippedChannel (tripRecordOf t s.msTime (s.chan c)))) := by
  have hnow : (settlePower c (endStep c detailTripped s)).msTime = s.msTime :=
    ((local_endStep c detailTripped s).toWork.trans (work_settlePower c _)).same.msTime
  have hoff : produceSetpoint c true ((settlePower c (endStep c detailTripped s)).modChan c enterTripped) =
      ((settlePower c (endStep c detailTripped s)).modChan c enterTripped).modChan c (placeSetpoint .off 0 true) :=
    produceSetpoint_off (driveKind_eq_none (by simp [enterTripped])) true
  simp only [trip, h, Bool.false_eq_true, if_false, hoff, modChan_modChan, State.modChan_msTime, hnow]
  rfl

/-- The channel of a trip: its step ended and folded, then TRIPPED, its arbiter's entry given up. -/
theorem trip_leaves {c : Channel} {s : State} (hg : Good s) (h : (s.chan c).atRest = false) (t : Trip) :
    NoPower (trip c t s) c ∧ (trip c t s).chan c =
      { trippedChannel (tripRecordOf t s.msTime (s.chan c)) ((endStep c detailTripped s).chan c) with
        causes := withCause t.cause ((endStep c detailTripped s).chan c).causes } := by
  obtain ⟨hchan, hno⟩ := settlePower_chan (good_local (local_endStep c detailTripped s) hg) c
  rw [trip_eq h, chan_raiseChannel, if_pos rfl, State.chan_modChan_self, hchan]
  exact ⟨(noPower_local (local_raiseChannel c t.cause _ _)).mpr hno, rfl⟩

theorem mem_withCause_of_mem {x : Cause} {flags : List Cause} (h : x ∈ flags) (cause : Cause) : x ∈ withCause cause flags := by
  have hall : x ∈ allCauses := by cases x <;> decide
  simp [withCause, hall, h]

theorem tripped_trip {c : Channel} {s : State} (hg : Good s) (h : (s.chan c).atRest = false) (t : Trip) :
    TrippedChannel t s.msTime (s.chan c) ((trip c t s).chan c) := by
  obtain ⟨lifetime, cycle, flags, hended, hunfolded, hfolded⟩ := endStep_chan c detailTripped s
  rw [(trip_leaves hg h t).2, hended]
  exact {
    state := ⟨rfl, rfl⟩, pendings := ⟨rfl, rfl, rfl⟩, counts := ⟨rfl, rfl, rfl⟩, timers := ⟨rfl, rfl⟩, step := rfl, outbox := rfl
    record := rfl, cause := mem_withCause _ _, kept := ⟨rfl, rfl, rfl, rfl, rfl, rfl, rfl, rfl, rfl⟩, cycles := ⟨rfl, rfl, rfl, rfl⟩
    unfolded := hunfolded
    fold := fun hstep => by
      obtain ⟨i, hi⟩ := Option.ne_none_iff_exists'.mp hstep
      obtain ⟨hflag, hlifetime, hcycle⟩ := hfolded i hi
      exact ⟨mem_withCause_of_mem hflag t.cause, hlifetime, hcycle⟩ }

/-- The event of a trip (R139, R177). -/
def tripEvent (c : Channel) (t : Trip) (s : State) : Event :=
  { cls := t.cause.cls, cause := t.cause, channel := some c, timeMs := s.msTime, stepIndex := t.stepIndex,
    cycleNumber := some (s.chan c).cycleCount, valueA := t.value, valueB := t.threshold, detail := t.detail }

/-- No report level keeps back an event of class 3 (R176). -/
theorem queued_tripEvent {c : Channel} {s : State} (h : (s.chan c).atRest = false) {t : Trip} (hcls : t.cause.cls = 3) :
    Queued (tripEvent c t s) (trip c t s) := by
  have hnow : (settlePower c (endStep c detailTripped s)).msTime = s.msTime :=
    ((local_endStep c detailTripped s).toWork.trans (work_settlePower c _)).same.msTime
  rw [trip_eq h]
  have hraised := queued_raiseChannel (c := c) (cause := t.cause) (s := (settlePower c (endStep c detailTripped s)).modChan c
    (trippedChannel (tripRecordOf t s.msTime (s.chan c)))) (by rw [hcls]; omega) (tripFields t (s.chan c))
  rw [formEvent, State.modChan_msTime, hnow] at hraised
  exact hraised

/-- What the step's end queued, the rest of the trip keeps. -/
theorem eventsKept_trip_endStep {c : Channel} {s : State} (h : (s.chan c).atRest = false) (t : Trip) :
    EventsKept (endStep c detailTripped s) (trip c t s) := by
  rw [trip_eq h]
  exact ((eventsKept_settlePower c _).trans (eventsKept_modChan _ c _)).trans (eventsKept_raiseChannel _ _ _ _)

/-- Settles O26: the trip's parts one by one; at a channel at rest there are none. -/
theorem tripHandling : Obligations.TripHandling := by
  intro c t s hpower
  have hgood := good_of_powerOk hpower
  have hevent := atChannel_trip c t s
  refine ⟨fun hrest => trip_of_atRest hrest t, fun hrun hcls => ⟨tripped_trip hgood hrun t, (trip_leaves hgood hrun t).1,
    (hevent.good hgood).caps, hevent.work.same, fun d hd hn => (hevent.but hgood d hd hn).1, ?_, fun i hstep hlevel => ?_⟩⟩
  · have hqueued := queued_tripEvent hrun hcls
    rw [tripEvent, hcls] at hqueued
    exact hqueued
  · exact (queued_endStep hstep hlevel detailTripped).kept (eventsKept_trip_endStep hrun t)

end Sys2Proof.Proofs
end

section
/-! PROOF. While the hall stop is asserted or the receiver is not LOCKED, no command takes a channel out of IDLE or TRIPPED, and the
commands that assert it or lose lock leave every channel there (R67, R84, R135, R137). -/

namespace Sys2Proof.Proofs

open Sys2Proof.Machine Sys2Proof.Safety Sys2Proof.Laws

/-! ## What keeps a part quiet -/

/-- The hall stop is asserted, or the receiver is not LOCKED. -/
def Troubled (s : State) : Prop := s.hallStop = true ∨ s.receiver.mode ≠ .locked

/-- Every channel is IDLE or TRIPPED. -/
def Resting (s : State) : Prop := ∀ c, (s.chan c).atRest = true

theorem quietOk_iff {s : State} : QuietOk s ↔ (Troubled s → Resting s) := Iff.rfl

theorem Resting.quiet {s : State} (h : Resting s) : QuietOk s := fun _ => h

theorem atRest_of_status {before after : ChannelState} (h : after.status = before.status) : after.atRest = before.atRest := by
  unfold ChannelState.atRest; rw [h]

theorem active_of_status {ch : ChannelState} {status : Status} (h : ch.status = status) (hs : status ≠ .idle ∧ status ≠ .tripped) :
    ¬ch.atRest = true := by
  simp only [ChannelState.atRest, h, Bool.or_eq_true, beq_iff_eq]
  tauto

section
variable {s t : State} (hq : QuietOk s)
include hq

/-- No new trouble, and channels at rest stay so. -/
theorem quiet_keeps (htrouble : Troubled t → Troubled s) (hrest : Resting s → Resting t) : QuietOk t :=
  quietOk_iff.mpr fun ht => hrest (quietOk_iff.mp hq (htrouble ht))

/-- Work of channels or of the arbiter is no trouble of its own. -/
theorem quiet_work (hw : SameElsewhere s t) (hrest : Resting s → Resting t) : QuietOk t :=
  quiet_keeps hq (fun ht => by unfold Troubled at ht; rwa [hw.hallStop, hw.receiver] at ht) hrest

/-- Work that begins at a channel only when it is not at rest. -/
theorem quiet_workWhenActive (hw : SameElsewhere s t) {c : Channel} (h : (s.chan c).atRest = true → t = s) : QuietOk t :=
  quiet_work hq hw fun hrest => by rw [h (hrest c)]; exact hrest

/-- A change of one channel that does not take it out of IDLE or TRIPPED. -/
theorem quiet_modChan (c : Channel) {f : ChannelState → ChannelState} (hf : (s.chan c).atRest = true → (f (s.chan c)).atRest = true) :
    QuietOk (s.modChan c f) :=
  quiet_keeps hq id fun hrest d => by
    rw [State.chan_modChan]
    split
    · exact hf (hrest c)
    · exact hrest d

theorem quiet_raiseDevice (cause : Cause) : QuietOk (raiseDevice cause s) := by
  obtain ⟨_, _, h⟩ := raiseDevice_eq cause s
  rw [h]; exact hq

/-- A trip begins nothing at a channel at rest (R140). -/
theorem quiet_trip (c : Channel) (t : Trip) : QuietOk (trip c t s) :=
  quiet_workWhenActive hq (atChannel_trip c t s).work.same fun h => trip_of_atRest h t

end

/-! ## Timers and the hall stop (R95, R134 to R138) -/

theorem quiet_staleExpiry {s : State} (hq : QuietOk s) (c : Channel) : QuietOk (staleExpiry c s) := by
  unfold staleExpiry
  simp only
  split
  · exact hq
  · split
    · exact quiet_trip hq c _
    · exact hq

theorem quiet_contactorExpiry {s : State} (hq : QuietOk s) (c : Channel) : QuietOk (contactorExpiry c s) := by
  unfold contactorExpiry
  simp only
  split
  · exact hq
  · split
    · split
      · exact quiet_trip hq c _
      · exact quiet_trip hq c _
      · exact hq
    · exact hq

/-- A hall-wide event trips every channel that is not at rest (R135, R137). -/
theorem quiet_tripAll {s : State} (hg : Good s) (cause : Cause) (order : List Channel) : QuietOk (tripAll cause order s) :=
  Resting.quiet fun d => tripAll_atRest cause order hg d

theorem quiet_sampleHallStop {s : State} (hg : Good s) (hq : QuietOk s) (asserted : Bool) (order : List Channel) :
    QuietOk (sampleHallStop asserted order s) := by
  rcases sampleHallStop_cases asserted order s with h | h | h <;> rw [h]
  · exact hq
  · have hasserted : Good { sampled asserted s with hallStop := true } := ⟨{ hg.lists with }, hg.caps⟩
    exact quiet_tripAll (good_raiseDevice .hallStopAsserted hasserted) .hallStop order
  · have hreleased : QuietOk { sampled asserted s with hallStop := false } :=
      quiet_keeps hq (fun ht => .inr (ht.resolve_left Bool.false_ne_true)) id
    exact quiet_raiseDevice hreleased .hallStopReleased

/-! ## The receiver (R1, R3, R4) -/

theorem resting_powerOn (period : ResetPeriod) (s : State) :
    Resting { heldInReset period.bits s with nodeAddress := period.straps } := fun c => by
  show (State.reset.chan c).atRest = true
  rw [State.chan_reset]; rfl

theorem quiet_syncFound {s t : State} (hq : QuietOk s) {position : Fin 576} {bits : List Bool}
    (h : execSyncFound position bits s = .next t) : QuietOk t := by
  unfold execSyncFound at h
  split at h
  · cases h
  · next hmode =>
    have hrest : Resting s := hq (.inr (by rw [Decidable.not_not.mp hmode]; decide))
    split at h <;> cases h <;> exact Resting.quiet hrest

theorem quiet_confirmSync {s t : State} (hq : QuietOk s) {rest : Vector RingWord 31} {sync : RingWord}
    (h : execConfirmSync rest sync s = .next t) : QuietOk t := by
  unfold execConfirmSync at h
  split at h
  · cases h
  · next hmode =>
    have hrest : Resting s := hq (.inr (by rw [Decidable.not_not.mp hmode]; decide))
    simp only at h
    split at h <;> cases h
    · have hlocked : QuietOk { s with
        receiver := { s.receiver with mode := .locked, missCount := 0, position := 18 }
        ringOut := .words (rest.toList ++ [sync]) } := Resting.quiet hrest
      exact quiet_raiseDevice hlocked .linkLocked
    · exact Resting.quiet hrest

/-! ## Slots (R5 to R15) -/

theorem good_passSlot {s : State} (hg : Good s) (slot : Slot) : Good (passSlot slot s) := by
  have hpassed : Good (afterPassing slot s) := ⟨{ hg.lists with }, hg.caps⟩
  rw [passSlot_eq]
  split
  · exact good_raiseDevice .linkLocked hpassed
  · exact hpassed

/-- Outside LOCKED every channel is at rest, so that the slot that locks the receiver finds them so (R4). -/
theorem quiet_passSlot {s : State} (hq : QuietOk s) (hm : s.receiver.mode ≠ .locked) (slot : Slot) : QuietOk (passSlot slot s) := by
  have hpassed : QuietOk (afterPassing slot s) := Resting.quiet (hq (.inr hm))
  rw [passSlot_eq]
  split
  · exact quiet_raiseDevice hpassed .linkLocked
  · exact hpassed

/-- A slot command keeps the part quiet when the effect of its turn does. -/
theorem quiet_atTurn {event : SlotEvent} {slot : Slot} {effect : State → State} {s t : State} (hg : Good s) (hq : QuietOk s)
    (h : atTurn event slot effect s = .next t) (heffect : ∀ u, Good u → QuietOk u → QuietOk (effect u)) : QuietOk t := by
  have hturn : ∀ u, Good u → QuietOk u → takeTurn event slot effect u = .next t → QuietOk t := fun u hgu hqu hu => by
    obtain ⟨-, rfl⟩ := takeTurn_next hu
    exact heffect u hgu hqu
  by_cases hm : s.receiver.mode = .locked
  · rw [atTurn_locked _ _ _ _ hm] at h
    exact hturn s hg hq h
  · have hpassed := quiet_passSlot hq hm slot
    rw [atTurn_unlocked _ _ _ _ hm] at h
    split at h
    · next hlocked =>
      rw [atTurn_locked _ _ _ _ hlocked.1] at h
      exact hturn _ (good_passSlot hg slot) hpassed h
    · cases h; exact hpassed

theorem quiet_missedTurn {s : State} (hg : Good s) (hq : QuietOk s) (slot : Slot) (order : List Channel) :
    QuietOk (missedTurn slot order s) := by
  rcases Nat.lt_or_ge s.receiver.missCount 3 with h | h
  · rw [missedTurn_counts slot order h]; exact hq
  · have hsearching : Good (searching slot s) := ⟨{ hg.lists with }, hg.caps⟩
    rw [missedTurn_loses slot order h]
    exact quiet_tripAll (good_raiseDevice .linkLost hsearching) .linkLoss order

/-- Readings and anchors leave channels at rest at rest (R38, R143). -/
theorem quiet_applySample {s : State} (hq : QuietOk s) (source : NodeAddress) (stamp : BitVec 32) (readings : List Reading)
    (order : List Channel) : QuietOk (applySample source stamp readings order s) :=
  quiet_work hq (events_applySample source stamp readings order s).work.same fun hrest d => by
    rw [atRest_of_status (applySample_atRest source stamp readings order hrest d)]; exact hrest d

theorem status_discardUnaddressed (ch : ChannelState) : (discardUnaddressed ch).status = ch.status := by
  unfold discardUnaddressed
  split
  · split <;> rfl
  · rfl

/-- A decision of the Output Arbiter changes no channel's state. -/
theorem status_decideSlot (empty : Slot) (s : State) (c : Channel) :
    ((decideSlot empty s).chan c).status = (s.chan c).status := by
  by_cases h63 : s.nodeAddress = 63
  · rw [decideSlot, if_pos h63]; rfl
  · have hclaims : ((claimantsOnly s).chan c).status = (s.chan c).status := by
      rw [chan_claimantsOnly, status_discardUnaddressed]
    rcases chan_decideSlot empty h63 c with h | h <;> rw [h] <;> exact hclaims

theorem quiet_decideSlot {s : State} (hq : QuietOk s) (empty : Slot) : QuietOk (decideSlot empty s) := by
  have hframe := offered_decideSlot empty s
  refine quiet_keeps hq (fun ht => ?_) fun hrest c => by rw [atRest_of_status (status_decideSlot empty s c)]; exact hrest c
  unfold Troubled at ht
  rw [hframe] at ht
  exact ht

theorem quiet_queueRequest {s : State} (hq : QuietOk s) (r : Request) : QuietOk (queueRequest r s) := by
  rw [queueRequest_frame]; exact hq

/-! ## Requests (R182) -/

/-- A request keeps the part quiet when its execution does. -/
theorem quiet_serve {mine : Request → Bool} {body : List Word → State → Option Answer × State} {s t : State} (hq : QuietOk s)
    (h : serve mine body s = .next t) (hbody : ∀ args, QuietOk (body args s).2) : QuietOk t := by
  unfold serve at h
  split at h
  · cases h
  · next r _ _ =>
    have hdone := hbody r.args
    split at h
    · split at h
      · split at h
        · next heq => rw [heq] at hdone; cases h; exact hdone
        · next heq => rw [heq] at hdone; cases h; exact hdone
      · cases h; exact hq
    · cases h

theorem quiet_serveWhole {kind : Nat} {body : List Word → State → Answer × State} {s t : State} (hq : QuietOk s)
    (h : serveWhole kind body s = .next t) (hbody : ∀ args, QuietOk (body args s).2) : QuietOk t :=
  quiet_serve hq h hbody

theorem quiet_inRangeOr {α : Type} {field : Option α} {body : α → Answer × State} {s : State} (hq : QuietOk s)
    (hbody : ∀ a, QuietOk (body a).2) : QuietOk (inRangeOr field s body).2 := by
  unfold inRangeOr
  split
  · exact hq
  · exact hbody _

/-! ## Channel requests (R81 to R87) -/

theorem work_resumeHeld (c : Channel) (s : State) : Work s (resumeHeld c s) := by
  unfold resumeHeld
  split
  · exact work_modChan s c _ rfl ⟨rfl, rfl⟩ (fun _ h => { h with })
  · exact work_requestAction c _ none s

/-- A run's beginning moves neither the hall stop nor the receiver (R82). -/
theorem beginRun_frame (c : Channel) (mode : StartMode) (s : State) :
    (beginRun c mode s).hallStop = s.hallStop ∧ (beginRun c mode s).receiver = s.receiver := by
  unfold beginRun
  simp only
  rw [(local_produceSetpoint c true _).same.hallStop, (local_produceSetpoint c true _).same.receiver]
  cases mode <;> exact ⟨rfl, rfl⟩

section
variable {s : State} (hq : QuietOk s)
include hq

theorem quiet_okWith : QuietOk (okWith s).2 := hq

theorem quiet_holdRequest (c : Channel) : QuietOk (holdRequest c s).2 := by
  have htaken := (atChannel_hold c s).work.same
  have hheld (h : ¬(s.chan c).atRest = true) : QuietOk (enterHolding c (settlePower c s)) :=
    quiet_workWhenActive hq htaken fun hrest => absurd hrest h
  unfold holdRequest
  split
  · exact quiet_modChan hq c id
  · next h => exact quiet_okWith (hheld (active_of_status h (by decide)))
  · next h => exact quiet_okWith (hheld (active_of_status h (by decide)))
  all_goals exact hq

theorem quiet_resumeRequest (c : Channel) : QuietOk (resumeRequest c s).2 := by
  unfold resumeRequest
  split
  · exact hq
  · split
    · next h =>
      exact quiet_okWith
        (quiet_workWhenActive hq (work_resumeHeld c s).same fun hrest => absurd hrest (active_of_status h (by decide)))
    · split
      · exact quiet_modChan hq c id
      · exact hq
    all_goals exact hq

theorem quiet_skipRequest (c : Channel) : QuietOk (skipRequest c s).2 := by
  unfold skipRequest
  split
  · exact quiet_modChan hq c id
  · exact hq

theorem quiet_stopRequest (c : Channel) : QuietOk (stopRequest c s).2 := by
  have hstopped (h : ¬(s.chan c).atRest = true) : QuietOk (stopRun c s) :=
    quiet_workWhenActive hq (atChannel_stopRun c s).work.same fun hrest => absurd hrest h
  unfold stopRequest
  split
  · exact hq
  · exact hq
  · exact hq
  all_goals
    next h => exact quiet_okWith (hstopped (active_of_status h (by decide)))

theorem quiet_clearTripRequest (c : Channel) : QuietOk (clearTripRequest c s).2 := by
  unfold clearTripRequest
  split
  · exact hq
  · split
    · exact quiet_modChan hq c fun _ => rfl
    · exact hq

/-- START's checks change no channel (R81). -/
theorem quiet_startCheck (args : List Word) : QuietOk (startCheck args s).2 := by
  unfold startCheck
  split
  · split
    · exact hq
    · split <;> exact hq
  · exact hq

/-- A run begins only while the hall stop is released and the receiver LOCKED (R67). -/
theorem quiet_completeStart (w : Walk) : QuietOk (completeStart w s).2 := by
  unfold completeStart
  split
  · exact hq
  · split
    · exact hq
    · next hstop =>
      split
      · exact hq
      · next hmode =>
        obtain ⟨hhall, hreceiver⟩ := beginRun_frame w.channel w.mode s
        intro ht
        rw [okWith, hhall, hreceiver] at ht
        exact absurd ht (not_or.mpr ⟨hstop, hmode⟩)

theorem quiet_programCheckCompletion {t : State} (h : execProgramCheckCompletion s = .next t) : QuietOk t := by
  unfold execProgramCheckCompletion at h
  split at h
  · cases h
  · next w _ =>
    split at h
    · cases h
    · cases h
      have hidle : QuietOk { s with walk := none } := hq
      exact quiet_completeStart hidle w

end

/-! ## Requests on the loaded tables, the counters and the causes (R28, R29, R59 to R64, R125, R173, R175) -/

section
variable {s : State} (hq : QuietOk s)
include hq

theorem quiet_writeStepHead (args : List Word) : QuietOk (writeStepHead args s).2 := by
  refine quiet_inRangeOr hq fun head => ?_
  split
  · exact hq
  · unfold acceptHead
    split <;> exact hq

theorem quiet_writeStepTail (index : Nat) (owner : Channel) (more : List Predicate) :
    QuietOk (writeStepTail index owner more s).2 := by
  unfold writeStepTail
  split
  · exact hq
  · split
    · exact hq
    · split
      · exact hq
      · split <;> exact hq

theorem quiet_writeStepRest (args : List Word) : QuietOk (writeStepRest args s).2 :=
  quiet_inRangeOr hq fun (index, owner, more) => quiet_writeStepTail hq index owner more

theorem quiet_freeSteps (c : Channel) : QuietOk (freeSteps c s).2 := by
  unfold freeSteps
  split <;> exact hq

theorem quiet_putRouteRequest (r : Route) : QuietOk (putRouteRequest r s).2 := by
  unfold putRouteRequest
  split <;> exact hq

theorem quiet_removeRoute (source index : Nat) : QuietOk (removeRoute source index s).2 := by
  unfold removeRoute
  split
  · exact hq
  · split <;> exact hq

theorem quiet_writeLimits (args : List Word) : QuietOk (writeLimits args s).2 :=
  quiet_inRangeOr hq fun c => quiet_inRangeOr hq fun limits => by
    split
    · exact hq
    · exact quiet_modChan hq c id

theorem quiet_writeChannelConfig (args : List Word) : QuietOk (writeChannelConfig args s).2 :=
  quiet_inRangeOr hq fun c => quiet_inRangeOr hq fun config => by
    split
    · exact quiet_modChan hq c id
    · exact hq

theorem quiet_clearCounters (args : List Word) : QuietOk (clearCounters args s).2 :=
  quiet_inRangeOr hq fun c => quiet_inRangeOr hq fun selector => quiet_modChan hq c fun hrest => by
    unfold clearCountersOf
    split <;> exact hrest

theorem quiet_clearCauses (args : List Word) : QuietOk (clearCauses args s).2 :=
  quiet_inRangeOr hq fun target => quiet_inRangeOr hq fun _ => quiet_inRangeOr hq fun named => by
    cases target with
    | none => exact hq
    | some c => exact quiet_modChan hq c id

end

/-! ## Device requests (R146, R191, R192) -/

theorem resetChannel_others (s : State) {c d : Channel} (hd : d ≠ c) : (resetChannel s c).chan d = s.chan d := by
  unfold resetChannel
  simp only
  rw [State.chan_modChan_ne _ _ hd]
  split
  · rfl
  · rw [(local_produceSetpoint c true _).others d hd, State.chan_modChan_ne _ _ hd]

theorem resetChannel_status (s : State) (c : Channel) : ((resetChannel s c).chan c).status = .idle := by
  unfold resetChannel
  simp only
  rw [State.chan_modChan_self]
  split
  · next h => exact h
  · have hproduced := (local_produceSetpoint c true
      (s.modChan c (fun ch => { resetFold ch with currentStep := none, status := .idle, runOutcome := .reset }))).status
    rw [State.chan_modChan_self] at hproduced
    exact hproduced

/-- Device reset takes every channel it reaches to IDLE (R191, R192). -/
theorem resetFold_idle (cs : List Channel) {s : State} {d : Channel} (h : d ∈ cs ∨ (s.chan d).status = .idle) :
    ((cs.foldl resetChannel s).chan d).status = .idle := by
  induction cs generalizing s with
  | nil => exact h.resolve_left List.not_mem_nil
  | cons c rest ih =>
    refine ih ?_
    by_cases hdc : d = c
    · subst hdc; exact .inr (resetChannel_status s d)
    · rw [resetChannel_others s hdc]
      exact h.imp_left fun hd => (List.mem_cons.mp hd).resolve_left hdc

@[simp] theorem chan_resetShared (s : State) (c : Channel) : (resetShared s).chan c = s.chan c := rfl

theorem quiet_deviceReset (s : State) : QuietOk (deviceReset s).2 :=
  Resting.quiet fun d => by
    have hidle : ((allChannels.foldl resetChannel s).chan d).status = .idle := resetFold_idle _ (.inl (List.mem_finRange d))
    simp [deviceReset, ChannelState.atRest, hidle]

/-- A cap change reaches channels with an entry only, and none at rest has one (R146, R149). -/
theorem quiet_capChange {s : State} (hg : Good s) (hq : QuietOk s) (importCap exportCap : Nat) :
    QuietOk (capChange importCap exportCap s).1 := by
  have hcapped : QuietOk { s with importCap := importCap, exportCap := exportCap } := hq
  have hwork := (work_shed { s with importCap := importCap, exportCap := exportCap }).trans (work_scan none _)
  refine quiet_work hcapped (t := (capChange importCap exportCap s).1) hwork.same fun hrest d => ?_
  have hkept := ((capChange_spec hg.lists importCap exportCap).untouched d (hg.atRest_noPower (hrest d))).1
  exact (congrArg ChannelState.atRest hkept).trans (hrest d)

theorem quiet_setHallBudget {s : State} (hg : Good s) (hq : QuietOk s) (args : List Word) : QuietOk (setHallBudget args s).2 := by
  unfold setHallBudget
  cases within 0 Config.capBound (arg32 args 0) with
  | none => exact hq
  | some importCap =>
    cases within 0 Config.capBound (arg32 args 2) with
    | none => exact hq
    | some exportCap =>
      simp only [inRangeOr]
      exact quiet_capChange hg hq importCap exportCap

/-! ## Every command -/

theorem exec_keeps_quiet {i : Instr} {s t : State} (hg : Good s) (hq : QuietOk s) (h : exec i s = .next t) : QuietOk t := by
  unfold exec at h
  cases i with
  | powerOnReset period => cases h; exact (resting_powerOn period s).quiet
  | syncFound position bits => exact quiet_syncFound hq h
  | confirmSync rest sync => exact quiet_confirmSync hq h
  | missedSlot slot order => exact quiet_atTurn hg hq h (fun _ hgu hqu => quiet_missedTurn hgu hqu slot order)
  | damagedSlot slot => exact quiet_atTurn hg hq h (fun _ _ hqu => hqu)
  | slotForwarded slot => exact quiet_atTurn hg hq h (fun _ _ hqu => hqu)
  | sampleSlotTurn slot order =>
    exact quiet_atTurn hg hq h (fun u _ hqu => quiet_applySample (s := forward slot (goodTurn u)) hqu _ _ _ order)
  | requestConsumed slot =>
    exact quiet_atTurn hg hq h (fun u _ hqu => quiet_decideSlot (quiet_queueRequest (s := goodTurn u) hqu _) _)
  | slotStripped slot => exact quiet_atTurn hg hq h (fun u _ hqu => quiet_decideSlot (s := goodTurn u) hqu _)
  | emptySlotTurn slot => exact quiet_atTurn hg hq h (fun u _ hqu => quiet_decideSlot (s := goodTurn u) hqu _)
  | staleTimerExpiry c => cases h; exact quiet_staleExpiry hq c
  | contactorTimerExpiry c => cases h; exact quiet_contactorExpiry hq c
  | hallStopAsserted order =>
    simp only [execHallStopAsserted] at h
    split at h <;> cases h
    exact quiet_sampleHallStop hg hq true order
  | hallStopReleased =>
    simp only [execHallStopReleased] at h
    split at h <;> cases h
    exact quiet_sampleHallStop hg hq false []
  | hstopNSample asserted order => cases h; exact quiet_sampleHallStop hg hq asserted order
  | unknownRequest => exact quiet_serve hq h (fun _ => hq)
  | identify => exact quiet_serveWhole hq h (fun _ => hq)
  | readDeviceStatus => exact quiet_serveWhole hq h (fun _ => quiet_inRangeOr hq fun _ => hq)
  | setDeviceConfig => exact quiet_serveWhole hq h (fun _ => quiet_inRangeOr hq fun _ => quiet_inRangeOr hq fun _ => hq)
  | clearDeviceFlags => exact quiet_serveWhole hq h (fun _ => hq)
  | resetDevice => exact quiet_serveWhole hq h (fun _ => quiet_deviceReset s)
  | setHallBudget => exact quiet_serveWhole hq h (quiet_setHallBudget hg hq)
  | programCheckCompletion => exact quiet_programCheckCompletion hq h
  | writeChannelConfig => exact quiet_serveWhole hq h (quiet_writeChannelConfig hq)
  | readChannelConfig => exact quiet_serveWhole hq h (fun _ => quiet_inRangeOr hq fun _ => hq)
  | readChannel => exact quiet_serveWhole hq h (fun _ => quiet_inRangeOr hq fun _ => quiet_inRangeOr hq fun _ => hq)
  | start => exact quiet_serve hq h (quiet_startCheck hq)
  | hold => exact quiet_serveWhole hq h (fun _ => quiet_inRangeOr hq (quiet_holdRequest hq))
  | resume => exact quiet_serveWhole hq h (fun _ => quiet_inRangeOr hq (quiet_resumeRequest hq))
  | skipStep => exact quiet_serveWhole hq h (fun _ => quiet_inRangeOr hq (quiet_skipRequest hq))
  | stop => exact quiet_serveWhole hq h (fun _ => quiet_inRangeOr hq (quiet_stopRequest hq))
  | clearTrip => exact quiet_serveWhole hq h (fun _ => quiet_inRangeOr hq (quiet_clearTripRequest hq))
  | writeStepPart0 => exact quiet_serve hq h (quiet_writeStepHead hq)
  | writeStepPart1 => exact quiet_serve hq h (quiet_writeStepRest hq)
  | readStep => exact quiet_serveWhole hq h (fun _ => quiet_inRangeOr hq fun _ => quiet_inRangeOr hq fun _ => hq)
  | freeSteps => exact quiet_serveWhole hq h (fun _ => quiet_inRangeOr hq (quiet_freeSteps hq))
  | writeRoute => exact quiet_serveWhole hq h (fun _ => quiet_inRangeOr hq (quiet_putRouteRequest hq))
  | removeRoute =>
    exact quiet_serveWhole hq h (fun _ => quiet_inRangeOr hq fun _ => quiet_inRangeOr hq fun _ => quiet_removeRoute hq _ _)
  | readRoutes =>
    exact quiet_serveWhole hq h
      (fun _ => quiet_inRangeOr hq fun _ => quiet_inRangeOr hq fun _ => quiet_inRangeOr hq fun _ => hq)
  | writeLimits => exact quiet_serveWhole hq h (quiet_writeLimits hq)
  | readLimits => exact quiet_serveWhole hq h (fun _ => quiet_inRangeOr hq fun _ => hq)
  | readTrip => exact quiet_serveWhole hq h (fun _ => quiet_inRangeOr hq fun _ => hq)
  | readCounters => exact quiet_serveWhole hq h (fun _ => quiet_inRangeOr hq fun _ => quiet_inRangeOr hq fun _ => hq)
  | readHistory => exact quiet_serveWhole hq h (fun _ => quiet_inRangeOr hq fun _ => quiet_inRangeOr hq fun _ => hq)
  | clearCounters => exact quiet_serveWhole hq h (quiet_clearCounters hq)
  | clearCauses => exact quiet_serveWhole hq h (quiet_clearCauses hq)

/-- Settles O9: the front command's own row keeps the part quiet, an idle step changes nothing. -/
theorem stepKeepsQuiet : Obligations.StepKeepsQuiet := by
  intro s t hpower hq h
  unfold step at h
  split at h
  · cases h; exact hq
  · next c rest _ =>
    have hgood : Good { s with pending := rest } := good_of_powerOk { hpower with }
    have hquiet : QuietOk { s with pending := rest } := hq
    exact exec_keeps_quiet hgood hquiet h

end Sys2Proof.Proofs
end

section
/-! PROOF. The requests on limits and the trip record: WRITE_LIMITS, READ_LIMITS and READ_TRIP (R124 to R126, R142). -/

namespace Sys2Proof.Proofs

open Sys2Proof.Machine Sys2Proof.Safety Sys2Proof.Laws

/-! ## The entries of WRITE_LIMITS (R125) -/

section
variable (args : List Word) (id : Fin 9)

/-- The persistence word of an entry. -/
def limitPersistence : Nat := argNat args (2 + 2 * id.val)

/-- The threshold word of an entry, signed for the two temperatures. -/
def limitThreshold : Int :=
  if id = 4 ∨ id = 7 then argS16 args (1 + 2 * id.val) else (argNat args (1 + 2 * id.val) : Int)

/-- The least threshold of an entry (07 section 7.1). -/
def limitLow : Int := if id = 4 ∨ id = 7 then -400 else 0

/-- The greatest threshold of an entry (07 section 7.1). -/
def limitHigh : Int :=
  if id = 0 ∨ id = 1 then 60000 else if id = 2 ∨ id = 3 ∨ id = 6 then 65535 else if id = 4 ∨ id = 7 then 1500 else 30000

/-- The words of an entry are in range: it is absent, or its persistence and its threshold are in theirs. -/
def LimitFits : Prop := limitPersistence args id = 0 ∨
  (limitPersistence args id ≤ 8 ∧ limitLow id ≤ limitThreshold args id ∧ limitThreshold args id ≤ limitHigh id)

/-- The entry that words in range write. -/
def writtenLimit : Option LimitEntry := if limitPersistence args id = 0 then none
  else some { threshold := limitThreshold args id, persistence := limitPersistence args id }

theorem writtenLimit_eq_none : writtenLimit args id = none ↔ limitPersistence args id = 0 := by
  simp [writtenLimit]

theorem signedLimit_iff : signedLimit id = true ↔ id = 4 ∨ id = 7 := by revert id; decide

theorem thresholdInRange_iff (v : Int) : thresholdInRange id v = true ↔ limitLow id ≤ v ∧ v ≤ limitHigh id := by
  fin_cases id <;> exact decide_eq_true_iff

theorem readLimit_eq [Decidable (LimitFits args id)] :
    readLimit args id = if LimitFits args id then some (writtenLimit args id) else none := by
  have hthreshold : (if signedLimit id then argS16 args (1 + 2 * id.val) else (argNat args (1 + 2 * id.val) : Int)) =
      limitThreshold args id := by simp only [limitThreshold, signedLimit_iff]
  have hread : argIn 0 8 args (2 + 2 * id.val) =
      if limitPersistence args id ≤ 8 then some (limitPersistence args id) else none := argIn_zero args _ 8
  simp only [readLimit, hread, hthreshold, thresholdInRange_iff, guarded_bind]
  unfold LimitFits writtenLimit
  by_cases h0 : limitPersistence args id = 0
  · simp [h0]
  · by_cases h8 : limitPersistence args id ≤ 8 <;> simp [h0, h8]

end

section
variable {args : List Word}

/-- The nine entries are read whole. -/
theorem readLimits_eq (h : ∀ id, LimitFits args id) : readLimits args = some (Vector.ofFn (writtenLimit args)) := by
  classical
  have hread : ∀ id, readLimit args id = some (writtenLimit args id) := fun id => by rw [readLimit_eq, if_pos (h id)]
  simp [readLimits, hread]

theorem readLimits_none {id : Fin 9} (h : ¬LimitFits args id) : readLimits args = none := by
  classical
  have hread : readLimit args id = none := by rw [readLimit_eq, if_neg h]
  refine if_neg fun hall => ?_
  have hsome := List.all_eq_true.mp hall id (List.mem_finRange id)
  simp [hread] at hsome

end

/-! ## The mandatory entries (R125) -/

section
variable {limits : Vector (Option LimitEntry) 9}

/-- The first absent mandatory entry is found. -/
theorem missingLimit_first {id : Fin 9} (hid : id.val < 6) (h : limits.get id = none) (hbefore : ∀ j, j < id → limits.get j ≠ none) :
    missingLimit limits = some id := by
  refine List.find?_eq_some_iff_getElem.mpr ⟨by simp [hid, h], id.val, by simp, by simp, fun j hj => ?_⟩
  have hpresent := hbefore ⟨j, hj.trans id.isLt⟩ hj
  simp [Option.isSome_iff_ne_none.mpr hpresent]

theorem missingLimit_none (h : ∀ id : Fin 9, id.val < 6 → limits.get id ≠ none) : missingLimit limits = none :=
  List.find?_eq_none.mpr fun id _ => by simpa using h id

end

theorem channelRow_writeLimits : ChannelRow .writeLimits 0x30 (fun args c s => inRangeOr (readLimits args) s fun limits =>
    match missingLimit limits with
    | some id => ({ outcome := .incomplete, results := pack16 id.val }, s)
    | none => (Answer.done [], s.modChan c (loadLimits limits))) := fun _ => rfl

/-- Settles O51: the entries out of range, the first mandatory one that is absent, or all nine written. -/
theorem writeLimitsEffect : Obligations.WriteLimitsEffect := by
  intro s r rest ht hk persistence threshold low high fits
  have hwritten : ∀ id, (Vector.ofFn (writtenLimit r.args)).get id = writtenLimit r.args id := fun id => by simp
  have habsent : ∀ id, (Vector.ofFn (writtenLimit r.args)).get id = none ↔ persistence id = 0 := fun id => by
    rw [hwritten]; exact writtenLimit_eq_none r.args id
  refine ⟨fun hout => ?_, fun c hc hfits => ?_⟩
  · rcases Nat.lt_or_ge 7 (argNat r.args 0) with h7 | h7
    · exact channelRow_writeLimits.range ht hk h7
    · obtain ⟨id, hid⟩ := hout.resolve_left (Nat.not_lt.mpr h7)
      exact channelRow_writeLimits.refused ht hk (c := ⟨argNat r.args 0, by omega⟩) rfl
        (by rw [readLimits_none (id := id) hid]; rfl)
  · have hread := readLimits_eq (args := r.args) hfits
    refine ⟨fun id hid habs hbefore => ?_, fun hall => ⟨_, hwritten, ?_⟩⟩
    · have hmiss := missingLimit_first hid ((habsent id).mpr habs) fun j hj => mt (habsent j).mp (hbefore j hj)
      exact channelRow_writeLimits.reply ht hk hc (a := { outcome := .incomplete, results := pack16 id.val })
        (by simp only [hread, inRangeOr, hmiss]) rfl
    · have hmiss := missingLimit_none fun id hid => mt (habsent id).mp (hall id hid)
      exact channelRow_writeLimits.ok ht hk hc (by simp only [hread, inRangeOr, hmiss]; rfl) rfl

/-! ## READ_LIMITS (R126) -/

/-- In a list of pairs laid end to end, each pair stands at twice its place. -/
theorem getElem?_flatMap_pair {α β : Type} (a b : α → β) (xs : List α) (i : Nat) :
    (xs.flatMap fun x => [a x, b x])[2 * i]? = xs[i]?.map a ∧ (xs.flatMap fun x => [a x, b x])[2 * i + 1]? = xs[i]?.map b := by
  induction xs generalizing i with
  | nil => simp
  | cons x rest ih =>
    cases i with
    | zero => exact ⟨rfl, rfl⟩
    | succ n => exact ih n

/-- The two words of an entry as READ_LIMITS answers it. -/
def thresholdWord (e : Option LimitEntry) : Word := (e.map fun e => BitVec.ofInt 16 e.threshold).getD 0

def persistenceWord (e : Option LimitEntry) : Word := (e.map fun e => BitVec.ofNat 16 e.persistence).getD 0

theorem packLimit_eq (e : Option LimitEntry) : packLimit e = [thresholdWord e, persistenceWord e] := by cases e <;> rfl

/-- The words of READ_LIMITS (R126). -/
def limitWords (ch : ChannelState) : List Word :=
  (if ch.limitsLoaded then 1 else 0) :: ch.limits.toList.flatMap fun e => [thresholdWord e, persistenceWord e]

theorem limitWords_eq (ch : ChannelState) : packFlag ch.limitsLoaded ++ ch.limits.toList.flatMap packLimit = limitWords ch := by
  rw [funext packLimit_eq]; rfl

theorem limitWords_entry (ch : ChannelState) (id : Fin 9) :
    (limitWords ch)[1 + 2 * id.val]? = some (thresholdWord (ch.limits.get id)) ∧
      (limitWords ch)[2 + 2 * id.val]? = some (persistenceWord (ch.limits.get id)) := by
  obtain ⟨hthreshold, hpersistence⟩ := getElem?_flatMap_pair thresholdWord persistenceWord ch.limits.toList id.val
  have hentry : ch.limits.toList[id.val]? = some (ch.limits.get id) := by simp [Vector.get_eq_getElem]
  rw [hentry] at hthreshold hpersistence
  rw [show 1 + 2 * id.val = 2 * id.val + 1 by omega, show 2 + 2 * id.val = 2 * id.val + 1 + 1 by omega]
  exact ⟨hthreshold, hpersistence⟩

theorem channelRow_readLimits : ChannelRow .readLimits 0x31 (fun _ c s => (Answer.done (limitWords (s.chan c)), s)) := fun s => by
  simp only [← limitWords_eq]; rfl

/-- Settles O52: the flag, then each entry's pair of words; an unloaded set holds no entry. -/
theorem readLimitsResults : Obligations.ReadLimitsResults := by
  intro s r rest hranges ht hk
  refine ⟨channelRow_readLimits.range ht hk, fun c hc => ⟨limitWords (s.chan c), channelRow_readLimits.reply ht hk hc rfl rfl,
    by simp [limitWords, List.length_flatMap], rfl, fun id => ⟨fun e he => ?_, fun hnone => ?_⟩, fun hloaded => ?_⟩⟩
  · have hwords := limitWords_entry (s.chan c) id
    rw [he] at hwords
    exact hwords
  · have hwords := limitWords_entry (s.chan c) id
    rw [hnone] at hwords
    exact hwords
  · rw [limitWords, hloaded, (hranges c).unloaded hloaded]
    rfl

/-! ## READ_TRIP (R142) -/

theorem pack32_toNat (x : BitVec 32) : pack32 x.toNat = [x.extractLsb' 16 16, x.extractLsb' 0 16] := by
  have hhigh : BitVec.ofNat 16 (x.toNat / 65536) = x.extractLsb' 16 16 := by
    simp [BitVec.extractLsb', Nat.shiftRight_eq_div_pow]
  have hlow : BitVec.ofNat 16 x.toNat = x.extractLsb' 0 16 := by
    simp [BitVec.extractLsb']
  rw [pack32, hhigh, hlow]

/-- The words of an optional signed field of READ_TRIP: its presence, then its two halves. -/
def signedWords : Option Int → List Word
  | none => [0, 0, 0]
  | some v => [1, (BitVec.ofInt 32 v).extractLsb' 16 16, (BitVec.ofInt 32 v).extractLsb' 0 16]

theorem packOption_packS32 (v : Option Int) : packOption 2 packS32 v = signedWords v := by
  cases v with
  | none => rfl
  | some v => exact congrArg (List.cons 1) (pack32_toNat _)

/-- The words of an optional step index of READ_TRIP. -/
def indexWords : Option Nat → List Word
  | none => [0, 0]
  | some i => [1, BitVec.ofNat 16 i]

theorem packOption_pack16 (i : Option Nat) : packOption 1 pack16 i = indexWords i := by cases i <;> rfl

/-- The words of a present record (R142). -/
def tripWords (t : TripRecord) : List Word :=
  [1, BitVec.ofNat 16 t.cause.code, BitVec.ofNat 16 t.detail] ++ signedWords t.value ++ signedWords t.threshold ++
    indexWords t.stepIndex ++ [BitVec.ofNat 16 (t.cycleNumber / 65536), BitVec.ofNat 16 t.cycleNumber,
      t.timeMs.extractLsb' 16 16, t.timeMs.extractLsb' 0 16, BitVec.ofNat 16 t.stateAtTrip.code]

theorem packTrip_some (t : TripRecord) : packTrip (some t) = tripWords t := by
  simp only [packTrip, tripWords, packOption_packS32, packOption_pack16, pack32_toNat]
  simp [packFlag, pack16, pack32]

theorem channelRow_readTrip : ChannelRow .readTrip 0x32 (fun _ c s => (Answer.done (packTrip (s.chan c).tripRecord), s)) :=
  fun _ => rfl

/-- Settles O53: the record packed field by field. -/
theorem readTripResults : Obligations.ReadTripResults := by
  intro s r rest ht hk
  refine ⟨channelRow_readTrip.range ht hk, fun c hc => ⟨fun hnone => ?_, fun t hsome => ?_⟩⟩
  · rw [channelRow_readTrip.reply ht hk hc rfl rfl, hnone]
    rfl
  · rw [channelRow_readTrip.reply ht hk hc rfl rfl, hsome, packTrip_some]
    rfl

end Sys2Proof.Proofs
end

section
/-! PROOF. Every command keeps the net within the caps and the arbiter's lists in agreement with the channel states (R68, R145 to R149,
R191). -/

namespace Sys2Proof.Proofs

open Sys2Proof.Machine Sys2Proof.Safety Sys2Proof.Laws

/-! ## What the agreement looks at -/

/-- The parts of a state of which PowerOk speaks: caps, lists, channels and the walk in flight. The rest is as at power-on. -/
def powerView (s : State) : State :=
  { State.reset with
    importCap := s.importCap, exportCap := s.exportCap, grants := s.grants, waits := s.waits, channels := s.channels, walk := s.walk }

/-- PowerOk said of these parts alone, so that a command that touches none of them keeps it as it stands. -/
def Powered (s : State) : Prop := PowerOk (powerView s)

theorem powered_iff {s : State} : Powered s ↔ PowerOk s := ⟨fun h => { h with }, fun h => { h with }⟩

theorem Powered.good {s : State} (h : Powered s) : Good s := good_of_powerOk (powered_iff.mp h)

theorem Powered.walk_idle {s : State} (h : Powered s) : ∀ w ∈ s.walk, (s.chan w.channel).status = .idle := (powered_iff.mp h).walk

theorem powered_of_good {s : State} (h : Good s) (hw : ∀ w ∈ s.walk, (s.chan w.channel).status = .idle) : Powered s :=
  powered_iff.mpr (powerOk_of_good h hw)

/-- Empty lists agree with channels that are all IDLE, and their net is 0. -/
theorem powered_of_idle {s : State} (hg : s.grants = []) (hw : s.waits = []) (hidle : ∀ c, (s.chan c).status = .idle) : Powered s := by
  have hnone (d : Channel) : NoPower s d := by simp [NoPower, HoldsGrant, Waits, hg, hw]
  refine powered_of_good ⟨?_, by rw [inCaps_iff, net_eq, hg]; simp⟩ fun w _ => hidle w.channel
  exact {
    grantOnce := by rw [hg]; exact List.nodup_nil
    waitOnce := by rw [hw]; exact List.nodup_nil
    grantNot0 := by rw [hg]; nofun
    waitNot0 := by rw [hw]; nofun
    bands := by rw [hw]; exact .nil
    apart := fun d hh => absurd hh (hnone d).1
    granted := fun d _ hh => absurd hh (hnone d).1
    waiting := fun d _ => ⟨fun hh => absurd hh (hnone d).2, fun hh => by rw [hidle d] at hh; exact absurd hh (by simp [WaitStatus])⟩ }

/-- A channel without an entry may take any state in which it does not wait. -/
theorem good_modChan_free {s : State} (h : Good s) {c : Channel} (hn : NoPower s c) {f : ChannelState → ChannelState}
    (hf : ¬WaitStatus (f (s.chan c)).status) : Good (s.modChan c f) :=
  ⟨((h.lists.leave c).mod (.inr rfl) f).close hn (by rw [State.chan_modChan_self]; exact hf), h.caps⟩

section
variable {s t : State} (hp : Powered s)
include hp

/-- Events of channels keep the agreement, and the channel of a walk IDLE. -/
theorem powered_events (h : Events s t) : Powered t :=
  powered_of_good (h.good hp.good) fun w hw => h.idle hp.good w.channel (hp.walk_idle w (h.work.same.walk ▸ hw))

/-- An event at a channel that is not IDLE: the walk is another channel's. -/
theorem powered_atChannel {c : Channel} (h : AtChannel c s t) (hc : (s.chan c).status ≠ .idle) : Powered t :=
  powered_events hp (h.events fun hidle => absurd hidle hc)

/-- A change of the channels that leaves every channel's state. -/
theorem powered_statuses (hview : powerView t = { powerView s with channels := t.channels })
    (h : ∀ c, (t.chan c).status = (s.chan c).status) : Powered t := by
  have hgood : Good (powerView s) := good_of_powerOk hp
  have hchanged : Good { powerView s with channels := t.channels } := ⟨hgood.lists.same rfl rfl fun d _ => h d, hgood.caps⟩
  unfold Powered
  rw [hview]
  exact powerOk_of_good hchanged fun w hw => (h w.channel).trans (hp.walk_idle w hw)

theorem powered_modChan (c : Channel) {f : ChannelState → ChannelState} (hf : (f (s.chan c)).status = (s.chan c).status) :
    Powered (s.modChan c f) :=
  powered_statuses hp rfl fun d => by
    rw [State.chan_modChan]
    split
    · next hd => rw [hd]; exact hf
    · rfl

theorem powered_raiseDevice (cause : Cause) : Powered (raiseDevice cause s) := by
  obtain ⟨_, _, h⟩ := raiseDevice_eq cause s
  rw [h]; exact hp

end

/-! ## Timers and the hall stop (R95, R134 to R138) -/

section
variable {s : State} (hp : Powered s)
include hp

theorem powered_staleExpiry (c : Channel) : Powered (staleExpiry c s) := by
  unfold staleExpiry
  simp only
  split
  · exact hp
  · split
    · exact powered_events hp (events_trip c _ s)
    · exact hp

theorem powered_contactorExpiry (c : Channel) : Powered (contactorExpiry c s) := by
  unfold contactorExpiry
  simp only
  split
  · exact hp
  · split
    · split
      · exact powered_events hp (events_trip c _ s)
      · exact powered_events hp (events_trip c _ s)
      · exact hp
    · exact hp

theorem powered_sampleHallStop (asserted : Bool) (order : List Channel) : Powered (sampleHallStop asserted order s) := by
  have hsampled (stop : Bool) : Powered { sampled asserted s with hallStop := stop } := hp
  rcases sampleHallStop_cases asserted order s with h | h | h <;> rw [h]
  · exact hp
  · exact powered_events (powered_raiseDevice (hsampled true) .hallStopAsserted) (events_tripAll .hallStop order _)
  · exact powered_raiseDevice (hsampled false) .hallStopReleased

/-! ## The receiver and the slots (R3 to R15) -/

theorem powered_syncFound {t : State} {position : Fin 576} {bits : List Bool} (h : execSyncFound position bits s = .next t) :
    Powered t := by
  unfold execSyncFound at h
  split at h
  · cases h
  · split at h <;> cases h <;> exact hp

theorem powered_confirmSync {t : State} {rest : Vector RingWord 31} {sync : RingWord} (h : execConfirmSync rest sync s = .next t) :
    Powered t := by
  unfold execConfirmSync at h
  split at h
  · cases h
  · simp only at h
    split at h <;> cases h
    · have hlocked : Powered { s with
        receiver := { s.receiver with mode := .locked, missCount := 0, position := 18 }
        ringOut := .words (rest.toList ++ [sync]) } := hp
      exact powered_raiseDevice hlocked .linkLocked
    · exact hp

theorem powered_passSlot (slot : Slot) : Powered (passSlot slot s) := by
  have hpassed : Powered (afterPassing slot s) := hp
  rw [passSlot_eq]
  split
  · exact powered_raiseDevice hpassed .linkLocked
  · exact hpassed

theorem powered_missedTurn (slot : Slot) (order : List Channel) : Powered (missedTurn slot order s) := by
  rcases Nat.lt_or_ge s.receiver.missCount 3 with h | h
  · rw [missedTurn_counts slot order h]; exact hp
  · have hsearching : Powered (searching slot s) := hp
    rw [missedTurn_loses slot order h]
    exact powered_events (powered_raiseDevice hsearching .linkLost) (events_tripAll .linkLoss order _)

theorem powered_queueRequest (r : Request) : Powered (queueRequest r s) := by
  rw [queueRequest_frame]; exact hp

theorem powered_decideSlot (empty : Slot) : Powered (decideSlot empty s) :=
  powered_statuses hp (congrArg powerView (offered_decideSlot empty s)) (status_decideSlot empty s)

end

/-- A slot command keeps what the passing of a slot and the effect of its turn keep. -/
theorem atTurn_keeps {P : State → Prop} {event : SlotEvent} {slot : Slot} {effect : State → State} {s t : State} (hs : P s)
    (h : atTurn event slot effect s = .next t) (hpass : P s → P (passSlot slot s)) (heffect : ∀ u, P u → P (effect u)) : P t := by
  have hturn : ∀ u, P u → takeTurn event slot effect u = .next t → P t := fun u hu htaken => by
    obtain ⟨-, rfl⟩ := takeTurn_next htaken
    exact heffect u hu
  unfold atTurn at h
  split at h
  · exact hturn s hs h
  · simp only at h
    split at h
    · exact hturn _ (hpass hs) h
    · cases h; exact hpass hs

theorem powered_atTurn {event : SlotEvent} {slot : Slot} {effect : State → State} {s t : State} (hp : Powered s)
    (h : atTurn event slot effect s = .next t) (heffect : ∀ u, Powered u → Powered (effect u)) : Powered t :=
  atTurn_keeps hp h (fun hp => powered_passSlot hp slot) heffect

/-! ## Requests (R182) -/

/-- A request row keeps what the execution and the placing of its reply keep. -/
theorem serve_keeps {P : State → Prop} {mine : Request → Bool} {body : List Word → State → Option Answer × State} {s t : State}
    (hs : P s) (h : serve mine body s = .next t) (hreply : ∀ r a u, P u → P (finishRequest r a u))
    (hbody : ∀ args, P (body args s).2) : P t := by
  unfold serve at h
  split at h
  · cases h
  · next r _ _ =>
    have hdone := hbody r.args
    split at h
    · split at h
      · split at h
        · next heq => rw [heq] at hdone; cases h; exact hreply _ _ _ hdone
        · next heq => rw [heq] at hdone; cases h; exact hdone
      · cases h; exact hs
    · cases h

theorem inRangeOr_keeps {P : State → Prop} {α : Type} {field : Option α} {body : α → Answer × State} {s : State} (hs : P s)
    (hbody : ∀ a, P (body a).2) : P (inRangeOr field s body).2 := by
  unfold inRangeOr
  split
  · exact hs
  · exact hbody _

section
variable {s : State} (hp : Powered s)
include hp

theorem powered_finishRequest (r : Request) (a : Answer) : Powered (finishRequest r a s) := hp

theorem powered_serve {mine : Request → Bool} {body : List Word → State → Option Answer × State} {t : State}
    (h : serve mine body s = .next t) (hbody : ∀ args, Powered (body args s).2) : Powered t :=
  serve_keeps hp h (fun r a _ hu => powered_finishRequest hu r a) hbody

theorem powered_serveWhole {kind : Nat} {body : List Word → State → Answer × State} {t : State}
    (h : serveWhole kind body s = .next t) (hbody : ∀ args, Powered (body args s).2) : Powered t := powered_serve hp h hbody

theorem powered_inRangeOr {α : Type} {field : Option α} {body : α → Answer × State} (hbody : ∀ a, Powered (body a).2) :
    Powered (inRangeOr field s body).2 := inRangeOr_keeps hp hbody

/-! ## Channel requests (R67, R76, R81 to R87) -/

theorem powered_okWith : Powered (okWith s).2 := hp

theorem powered_writeChannelConfig (args : List Word) : Powered (writeChannelConfig args s).2 :=
  powered_inRangeOr hp fun c => powered_inRangeOr hp fun config => by
    split
    · exact powered_modChan hp c rfl
    · exact hp

/-- A walk begins at an IDLE channel only (R81). -/
theorem powered_startCheck (args : List Word) : Powered (startCheck args s).2 := by
  unfold startCheck
  split
  · next c mode _ _ =>
    split
    · exact hp
    · next hidle =>
      split
      · exact hp
      · have hgood : Good (beginWalk c mode s) := ⟨{ hp.good.lists with }, hp.good.caps⟩
        refine powered_of_good hgood fun w hw => ?_
        cases hw
        exact Decidable.not_not.mp hidle
  · exact hp

/-- The channel of a walk is IDLE and without an entry, so that its run may begin (R68, R82). -/
theorem powered_beginRun {c : Channel} (hc : (s.chan c).status = .idle) (hw : s.walk = none) (mode : StartMode) :
    Powered (beginRun c mode s) := by
  have hbegun : Powered (s.modChan c (beginContext s.msTime)) :=
    powered_of_good (good_modChan_free hp.good (hp.good.idle_noPower hc) (by simp [beginContext, WaitStatus])) fun w hmem => by
      rw [State.modChan_walk, hw] at hmem; cases hmem
  unfold beginRun
  match mode with
  | .fresh => exact powered_events (powered_modChan hbegun c rfl) (events_local (local_produceSetpoint c true _))
  | .continue => exact powered_events hbegun (events_local (local_produceSetpoint c true _))

theorem powered_completeStart {w : Walk} (hc : (s.chan w.channel).status = .idle) (hw : s.walk = none) :
    Powered (completeStart w s).2 := by
  unfold completeStart
  split
  · exact hp
  · split
    · exact hp
    · split
      · exact hp
      · exact powered_okWith (powered_beginRun hp hc hw w.mode)

theorem powered_programCheckCompletion {t : State} (h : execProgramCheckCompletion s = .next t) : Powered t := by
  unfold execProgramCheckCompletion at h
  split at h
  · cases h
  · next w hwalk =>
    have hidle : (s.chan w.channel).status = .idle := hp.walk_idle w hwalk
    have hended : Powered { s with walk := none } := powered_of_good ⟨{ hp.good.lists with }, hp.good.caps⟩ nofun
    split at h
    · cases h
    · cases h
      exact powered_finishRequest (powered_completeStart hended hidle rfl) _ _

theorem powered_holdRequest (c : Channel) : Powered (holdRequest c s).2 := by
  have hheld (h : (s.chan c).status ≠ .idle) : Powered (enterHolding c (settlePower c s)) :=
    powered_atChannel hp (atChannel_hold c s) h
  unfold holdRequest
  split
  · exact powered_modChan hp c rfl
  · next h => exact powered_okWith (hheld (by rw [h]; nofun))
  · next h => exact powered_okWith (hheld (by rw [h]; nofun))
  all_goals exact hp

/-- A held channel has no entry: it runs with request 0, or asks for its step's request (R84). -/
theorem powered_resumeHeld {c : Channel} (h : (s.chan c).status = .holding) : Powered (resumeHeld c s) := by
  obtain ⟨hruns, hasks⟩ := atChannel_begin (c := c) (s := s) (by rw [h]; simp [WaitStatus]) none
  have hidle : (s.chan c).status ≠ .idle := by rw [h]; nofun
  unfold resumeHeld
  split
  · next hzero => exact powered_atChannel hp (hruns hzero) hidle
  · next hrequest => exact powered_atChannel hp (hasks hrequest) hidle

theorem powered_resumeRequest (c : Channel) : Powered (resumeRequest c s).2 := by
  unfold resumeRequest
  split
  · exact hp
  · split
    · next h => exact powered_okWith (powered_resumeHeld hp h)
    · split
      · exact powered_modChan hp c rfl
      · exact hp
    all_goals exact hp

theorem powered_skipRequest (c : Channel) : Powered (skipRequest c s).2 := by
  unfold skipRequest
  split
  · exact powered_modChan hp c rfl
  · exact hp

theorem powered_stopRequest (c : Channel) : Powered (stopRequest c s).2 := by
  have hstopped (h : (s.chan c).status ≠ .idle) : Powered (stopRun c s) := powered_atChannel hp (atChannel_stopRun c s) h
  unfold stopRequest
  split
  · exact hp
  · exact hp
  · exact hp
  all_goals
    next h => exact powered_okWith (hstopped (by rw [h]; nofun))

/-- A TRIPPED channel has no entry to lose when it becomes IDLE (R87). -/
theorem powered_clearTripRequest (c : Channel) : Powered (clearTripRequest c s).2 := by
  unfold clearTripRequest
  split
  · exact hp
  · next hst =>
    have htripped : (s.chan c).status = .tripped := Decidable.not_not.mp hst
    split
    · have hno : NoPower s c := hp.good.atRest_noPower (by simp [ChannelState.atRest, htripped])
      refine powered_okWith (powered_of_good (good_modChan_free hp.good hno (by simp [WaitStatus])) fun w hw => ?_)
      rw [State.chan_modChan]
      split
      · rfl
      · exact hp.walk_idle w hw
    · exact hp

/-! ## Requests on the loaded tables, the counters and the causes (R28, R29, R59 to R64, R125, R173, R175) -/

theorem powered_writeStepHead (args : List Word) : Powered (writeStepHead args s).2 := by
  refine powered_inRangeOr hp fun head => ?_
  split
  · exact hp
  · unfold acceptHead
    split <;> exact hp

theorem powered_writeStepTail (index : Nat) (owner : Channel) (more : List Predicate) :
    Powered (writeStepTail index owner more s).2 := by
  unfold writeStepTail
  split
  · exact hp
  · split
    · exact hp
    · split
      · exact hp
      · split <;> exact hp

theorem powered_writeStepRest (args : List Word) : Powered (writeStepRest args s).2 :=
  powered_inRangeOr hp fun (index, owner, more) => powered_writeStepTail hp index owner more

theorem powered_freeSteps (c : Channel) : Powered (freeSteps c s).2 := by
  unfold freeSteps
  split <;> exact hp

theorem powered_putRouteRequest (r : Route) : Powered (putRouteRequest r s).2 := by
  unfold putRouteRequest
  split <;> exact hp

theorem powered_removeRoute (source index : Nat) : Powered (removeRoute source index s).2 := by
  unfold removeRoute
  split
  · exact hp
  · split <;> exact hp

theorem powered_writeLimits (args : List Word) : Powered (writeLimits args s).2 :=
  powered_inRangeOr hp fun c => powered_inRangeOr hp fun limits => by
    split
    · exact hp
    · exact powered_modChan hp c rfl

theorem powered_clearCounters (args : List Word) : Powered (clearCounters args s).2 :=
  powered_inRangeOr hp fun c => powered_inRangeOr hp fun selector => powered_modChan hp c (by unfold clearCountersOf; split <;> rfl)

theorem powered_clearCauses (args : List Word) : Powered (clearCauses args s).2 :=
  powered_inRangeOr hp fun target => powered_inRangeOr hp fun _ => powered_inRangeOr hp fun named => by
    cases target with
    | none => exact hp
    | some c => exact powered_modChan hp c rfl

/-! ## Device requests (R146, R191) -/

/-- A cap change leaves the net within the new caps, and reaches no IDLE channel (R145, R146). -/
theorem powered_capChange (importCap exportCap : Nat) : Powered (capChange importCap exportCap s).1 := by
  have hscanned := capChange_spec hp.good.lists importCap exportCap
  have hwalk : (capChange importCap exportCap s).1.walk = s.walk :=
    ((work_shed { s with importCap := importCap, exportCap := exportCap }).trans (work_scan none _)).same.walk
  refine powered_of_good ⟨hscanned.lists, hscanned.caps⟩ fun w hw => ?_
  have hidle := hp.walk_idle w (hwalk ▸ hw)
  exact (congrArg ChannelState.status (hscanned.untouched _ (hp.good.idle_noPower hidle)).1).trans hidle

theorem powered_setHallBudget (args : List Word) : Powered (setHallBudget args s).2 := by
  have hread (importField exportField : Option Nat) : Powered (inRangeOr importField s fun importCap =>
      inRangeOr exportField s fun exportCap =>
        let changed := capChange importCap exportCap s
        (Answer.done (packS32 changed.1.net ++ pack16 changed.2), changed.1)).2 :=
    powered_inRangeOr hp fun importCap => powered_inRangeOr hp fun exportCap => powered_capChange hp importCap exportCap
  exact hread _ _

end

/-- Device reset takes every channel to IDLE and empties the lists (R191, R193). -/
theorem powered_deviceReset (s : State) : Powered (deviceReset s).2 := by
  have hshared (u : State) (hu : ∀ c, (u.chan c).status = .idle) : Powered (resetShared u) := powered_of_idle rfl rfl hu
  exact hshared _ fun d => resetFold_idle _ (.inl (List.mem_finRange d))

/-! ## Every command -/

theorem exec_keeps_power {i : Instr} {s t : State} (hp : Powered s) (h : exec i s = .next t) : Powered t := by
  unfold exec at h
  cases i with
  | powerOnReset period => cases h; exact powered_of_idle rfl rfl fun c => congrArg ChannelState.status (State.chan_reset c)
  | syncFound position bits => exact powered_syncFound hp h
  | confirmSync rest sync => exact powered_confirmSync hp h
  | missedSlot slot order => exact powered_atTurn hp h (fun _ hu => powered_missedTurn hu slot order)
  | damagedSlot slot => exact powered_atTurn hp h (fun _ hu => hu)
  | slotForwarded slot => exact powered_atTurn hp h (fun _ hu => hu)
  | sampleSlotTurn slot order =>
    exact powered_atTurn hp h
      (fun u hu => powered_events (s := forward slot (goodTurn u)) hu (events_applySample _ _ _ order _))
  | requestConsumed slot =>
    exact powered_atTurn hp h (fun u hu => powered_decideSlot (powered_queueRequest (s := goodTurn u) hu _) _)
  | slotStripped slot => exact powered_atTurn hp h (fun u hu => powered_decideSlot (s := goodTurn u) hu _)
  | emptySlotTurn slot => exact powered_atTurn hp h (fun u hu => powered_decideSlot (s := goodTurn u) hu _)
  | staleTimerExpiry c => cases h; exact powered_staleExpiry hp c
  | contactorTimerExpiry c => cases h; exact powered_contactorExpiry hp c
  | hallStopAsserted order =>
    simp only [execHallStopAsserted] at h
    split at h <;> cases h
    exact powered_sampleHallStop hp true order
  | hallStopReleased =>
    simp only [execHallStopReleased] at h
    split at h <;> cases h
    exact powered_sampleHallStop hp false []
  | hstopNSample asserted order => cases h; exact powered_sampleHallStop hp asserted order
  | unknownRequest => exact powered_serve hp h (fun _ => hp)
  | identify => exact powered_serveWhole hp h (fun _ => hp)
  | readDeviceStatus => exact powered_serveWhole hp h (fun _ => powered_inRangeOr hp fun _ => hp)
  | setDeviceConfig =>
    exact powered_serveWhole hp h (fun _ => powered_inRangeOr hp fun _ => powered_inRangeOr hp fun _ => hp)
  | clearDeviceFlags => exact powered_serveWhole hp h (fun _ => hp)
  | resetDevice => exact powered_serveWhole hp h (fun _ => powered_deviceReset s)
  | setHallBudget => exact powered_serveWhole hp h (powered_setHallBudget hp)
  | programCheckCompletion => exact powered_programCheckCompletion hp h
  | writeChannelConfig => exact powered_serveWhole hp h (powered_writeChannelConfig hp)
  | readChannelConfig => exact powered_serveWhole hp h (fun _ => powered_inRangeOr hp fun _ => hp)
  | readChannel => exact powered_serveWhole hp h (fun _ => powered_inRangeOr hp fun _ => powered_inRangeOr hp fun _ => hp)
  | start => exact powered_serve hp h (powered_startCheck hp)
  | hold => exact powered_serveWhole hp h (fun _ => powered_inRangeOr hp (powered_holdRequest hp))
  | resume => exact powered_serveWhole hp h (fun _ => powered_inRangeOr hp (powered_resumeRequest hp))
  | skipStep => exact powered_serveWhole hp h (fun _ => powered_inRangeOr hp (powered_skipRequest hp))
  | stop => exact powered_serveWhole hp h (fun _ => powered_inRangeOr hp (powered_stopRequest hp))
  | clearTrip => exact powered_serveWhole hp h (fun _ => powered_inRangeOr hp (powered_clearTripRequest hp))
  | writeStepPart0 => exact powered_serve hp h (powered_writeStepHead hp)
  | writeStepPart1 => exact powered_serve hp h (powered_writeStepRest hp)
  | readStep => exact powered_serveWhole hp h (fun _ => powered_inRangeOr hp fun _ => powered_inRangeOr hp fun _ => hp)
  | freeSteps => exact powered_serveWhole hp h (fun _ => powered_inRangeOr hp (powered_freeSteps hp))
  | writeRoute => exact powered_serveWhole hp h (fun _ => powered_inRangeOr hp (powered_putRouteRequest hp))
  | removeRoute =>
    exact powered_serveWhole hp h
      (fun _ => powered_inRangeOr hp fun _ => powered_inRangeOr hp fun _ => powered_removeRoute hp _ _)
  | readRoutes =>
    exact powered_serveWhole hp h
      (fun _ => powered_inRangeOr hp fun _ => powered_inRangeOr hp fun _ => powered_inRangeOr hp fun _ => hp)
  | writeLimits => exact powered_serveWhole hp h (powered_writeLimits hp)
  | readLimits => exact powered_serveWhole hp h (fun _ => powered_inRangeOr hp fun _ => hp)
  | readTrip => exact powered_serveWhole hp h (fun _ => powered_inRangeOr hp fun _ => hp)
  | readCounters => exact powered_serveWhole hp h (fun _ => powered_inRangeOr hp fun _ => powered_inRangeOr hp fun _ => hp)
  | readHistory => exact powered_serveWhole hp h (fun _ => powered_inRangeOr hp fun _ => powered_inRangeOr hp fun _ => hp)
  | clearCounters => exact powered_serveWhole hp h (powered_clearCounters hp)
  | clearCauses => exact powered_serveWhole hp h (powered_clearCauses hp)

/-- Settles O8: the front command's own row keeps the agreement, an idle step changes nothing. -/
theorem stepKeepsPower : Obligations.StepKeepsPower := by
  intro s t hpower h
  unfold step at h
  split at h
  · cases h; exact hpower
  · next c rest _ =>
    have hp : Powered s := powered_iff.mpr hpower
    have htaken : Powered { s with pending := rest } := hp
    exact powered_iff.mp (exec_keeps_power htaken h)

end Sys2Proof.Proofs
end

section
/-! PROOF. The order in which grants are taken, shedding, and the grant that either takes away (R155, R156, R158, R161). -/

namespace Sys2Proof.Proofs

open Sys2Proof.Machine Sys2Proof.Safety Sys2Proof.Laws

/-! ## The taking order (R155, R158) -/

/-- A list collected key by key is the list, in another order. -/
theorem flatMap_filter_perm {α κ : Type} [DecidableEq κ] (f : α → κ) {keys : List κ} (hn : keys.Nodup) (xs : List α)
    (h : ∀ x ∈ xs, f x ∈ keys) : (keys.flatMap fun k => xs.filter fun x => f x == k).Perm xs := by
  induction keys generalizing xs with
  | nil => rw [List.eq_nil_iff_forall_not_mem.mpr fun x hx => List.not_mem_nil (h x hx)]; exact .nil
  | cons k rest ih =>
    obtain ⟨hk, hrest⟩ := List.nodup_cons.mp hn
    have hothers : (rest.flatMap fun j => xs.filter fun x => f x == j) =
        rest.flatMap fun j => (xs.filter fun x => !f x == k).filter fun x => f x == j :=
      List.flatMap_congr fun j hj => by
        rw [List.filter_filter]
        refine List.filter_congr fun x _ => ?_
        by_cases hx : f x = j
        · have hne : j ≠ k := fun e => hk (e ▸ hj)
          simp [hx, hne]
        · simp [hx]
    rw [List.flatMap_cons, hothers]
    refine ((ih hrest (xs.filter fun x => !f x == k) fun x hx => ?_).append_left _).trans (List.filter_append_perm _ xs)
    obtain ⟨hmem, hne⟩ := List.mem_filter.mp hx
    exact (List.mem_cons.mp (h x hmem)).resolve_left (by simpa using hne)

section
variable (s : State) (eligible : Grant → Bool)

/-- The taking order is an order of the eligible grants. -/
theorem takeOrder_perm : (takeOrder s eligible).Perm (s.grants.filter eligible) := by
  have hkeys : takeOrder s eligible = (List.finRange 4).flatMap fun p =>
      ((s.grants.filter eligible).filter fun g => s.priorityOf g.channel == p).reverse := by
    simp only [takeOrder, List.filter_filter, Bool.and_comm]
  rw [hkeys]
  exact (List.Perm.flatMap_left _ fun p _ => List.reverse_perm _).trans
    (flatMap_filter_perm (fun g : Grant => s.priorityOf g.channel) (List.nodup_finRange 4) _ fun _ _ => List.mem_finRange _)

/-- Lowest priority first, and within one priority the nearest to the tail first. -/
theorem takeOrder_pairwise : (takeOrder s eligible).Pairwise (TakenBefore s) := by
  have hband (p : Fin 4) {g : Grant} (h : g ∈ s.grants.filter fun g => eligible g && s.priorityOf g.channel == p) :
      s.priorityOf g.channel = p := by
    have hg := (List.mem_filter.mp h).2
    simp only [Bool.and_eq_true, beq_iff_eq] at hg
    exact hg.2
  refine List.pairwise_flatMap.mpr ⟨fun p _ => ?_, (List.pairwise_lt_finRange 4).imp fun {p q} hlt a ha b hb => .inl ?_⟩
  · refine List.pairwise_reverse.mpr (List.pairwise_iff_forall_sublist.mpr fun {a b} hab => .inr ⟨?_, hab.trans List.filter_sublist⟩)
    rw [hband p (hab.subset (by simp)), hband p (hab.subset (by simp))]
  · rw [hband p (List.mem_reverse.mp ha), hband q (List.mem_reverse.mp hb)]
    exact hlt

end

/-- The first of the taking order is eligible, and is taken before every other eligible grant. -/
theorem takeOrder_first {s : State} {eligible : Grant → Bool} {g : Grant} {rest : List Grant}
    (h : takeOrder s eligible = g :: rest) : g ∈ s.grants ∧ eligible g = true ∧
      ∀ k ∈ s.grants, eligible k = true → k = g ∨ TakenBefore s g k := by
  obtain ⟨hg, he⟩ := takeOrder_mem (h ▸ List.mem_cons_self : g ∈ takeOrder s eligible)
  have hpairs := takeOrder_pairwise s eligible
  rw [h] at hpairs
  refine ⟨hg, he, fun k hk hek => ?_⟩
  have hmem := mem_takeOrder hk hek
  rw [h] at hmem
  exact (List.mem_cons.mp hmem).imp_right (List.rel_of_pairwise_cons hpairs)

/-! ## A grant taken away (R155, R156, R161) -/

/-- The fields of DISPLACED: the watts taken and the net after it (R161). -/
def displacedFields (g : Grant) (detail : Nat) (s : State) : EventFields :=
  { stepIndex := (s.chan g.channel).currentStep, cycleNumber := some (s.chan g.channel).cycleCount, valueA := some g.watts,
    valueB := some (s.dropGrant g.channel).net, detail := detail }

/-- The state when a taken grant has left the list, its channel without a pending skip. -/
def grantLost (g : Grant) (s : State) : State :=
  (s.dropGrant g.channel).modChan g.channel (fun ch => { ch with skipPending := false })

/-- The state when the channel of a taken grant waits for it again. -/
def grantAwaited (g : Grant) (s : State) : State :=
  ((grantLost g s).joinWait g.channel g.watts).modChan g.channel (fun ch => { ch with status := .displaced })

section
variable {g : Grant} {s : State} (detail : Nat)

theorem takeGrant_held (h : (s.chan g.channel).holdPending = true) : takeGrant g detail s =
    enterHolding g.channel (raiseChannel g.channel .displaced (displacedFields g detail s) (grantLost g s)) := by
  simp only [takeGrant, h, if_true]
  rfl

theorem takeGrant_displaced (h : (s.chan g.channel).holdPending = false) : takeGrant g detail s =
    (raiseChannel g.channel .displaced (displacedFields g detail s) (grantAwaited g s)).modChan g.channel
      (placeSetpoint .off 0 true) := by
  have hoff := produceSetpoint_off (c := g.channel)
    (s := raiseChannel g.channel .displaced (displacedFields g detail s) (grantAwaited g s))
    (driveKind_eq_none (by simp [chan_raiseChannel, grantAwaited])) true
  rw [← hoff]
  simp only [takeGrant, h, Bool.false_eq_true, if_false]
  rfl

theorem grants_takeGrant (g : Grant) (s : State) :
    (takeGrant g detail s).grants = s.grants.filter (fun k => k.channel != g.channel) := by
  cases h : (s.chan g.channel).holdPending with
  | true => rw [takeGrant_held detail h, enterHolding_grants, grants_raiseChannel]; rfl
  | false => rw [takeGrant_displaced detail h, State.modChan_grants, grants_raiseChannel]; rfl

theorem takeGrant_others (g : Grant) (s : State) : OthersKept g.channel s (takeGrant g detail s) := fun d hd => by
  have hlost : (grantLost g s).chan d = s.chan d := State.chan_modChan_ne _ _ hd
  cases h : (s.chan g.channel).holdPending with
  | true => rw [takeGrant_held detail h, enterHolding_others _ _ hd, chan_raiseChannel_ne hd, hlost]
  | false =>
    rw [takeGrant_displaced detail h, State.chan_modChan_ne _ _ hd, chan_raiseChannel_ne hd, grantAwaited,
      State.chan_modChan_ne _ _ hd, State.chan_joinWait, hlost]

/-- DISPLACED is raised with the watts taken and the net after it (R100, R161). -/
theorem queued_takeGrant (g : Grant) (s : State) (h : (s.chan g.channel).config.reportLevel.val ≤ 2) :
    Queued (formEvent .displaced (some g.channel) (displacedFields g detail s) s) (takeGrant g detail s) := by
  have hraised (u : State) (hconfig : (u.chan g.channel).config = (s.chan g.channel).config) (hnow : u.msTime = s.msTime) :
      Queued (formEvent .displaced (some g.channel) (displacedFields g detail s) s)
        (raiseChannel g.channel .displaced (displacedFields g detail s) u) := by
    have hqueued := queued_raiseChannel (c := g.channel) (cause := .displaced) (s := u) (by rw [hconfig]; exact h)
      (displacedFields g detail s)
    rw [formEvent, hnow] at hqueued
    exact hqueued
  have hlost : (grantLost g s).chan g.channel = { s.chan g.channel with skipPending := false } := State.chan_modChan_self _ _ _
  cases hp : (s.chan g.channel).holdPending with
  | true =>
    rw [takeGrant_held detail hp]
    exact (hraised (grantLost g s) (by rw [hlost]) rfl).kept (eventsKept_enterHolding _ _)
  | false =>
    rw [takeGrant_displaced detail hp]
    refine (hraised (grantAwaited g s) ?_ rfl).kept (eventsKept_modChan _ _ _)
    rw [grantAwaited, State.chan_modChan_self, State.chan_joinWait, hlost]

/-- A channel whose grant was taken, in this state and with these cause flags: both pendings clear, and an urgent OFF/CLOSE setpoint
(R103, R156). -/
def frozenChannel (before : ChannelState) (status : Status) (flags : List Cause) : ChannelState :=
  { before with
    status := status, holdPending := false, skipPending := false, causes := flags
    outbox := some { setpoint := offSetpoint before .close, urgent := true }
    lastSetpoint := some (offSetpoint before .close)
    refreshCount := (before.refreshCount + 1) % 256 }

/-- With a hold pending the channel enters HOLDING and does not wait (R156). -/
theorem takeGrant_held_leaves (h : (s.chan g.channel).holdPending = true) : (takeGrant g detail s).waits = s.waits ∧
    (takeGrant g detail s).chan g.channel = frozenChannel (s.chan g.channel) .holding
      (withCause .holdTaken (withCause .displaced (s.chan g.channel).causes)) := by
  rw [takeGrant_held detail h]
  refine ⟨by rw [enterHolding_waits, waits_raiseChannel]; rfl, ?_⟩
  rw [enterHolding_chan, chan_raiseChannel, if_pos rfl, grantLost, State.chan_modChan_self]
  rfl

/-- Without one it enters DISPLACED and waits for the watts it lost (R156). -/
theorem takeGrant_displaced_leaves (h : (s.chan g.channel).holdPending = false) :
    (takeGrant g detail s).waits =
      insertWait { channel := g.channel, request := g.watts, priority := s.priorityOf g.channel } s.waits ∧
    (takeGrant g detail s).chan g.channel = frozenChannel (s.chan g.channel) .displaced
      (withCause .displaced (s.chan g.channel).causes) := by
  have hlost : (grantLost g s).chan g.channel = { s.chan g.channel with skipPending := false } := State.chan_modChan_self _ _ _
  rw [takeGrant_displaced detail h]
  refine ⟨?_, ?_⟩
  · rw [State.modChan_waits, waits_raiseChannel, grantAwaited, State.modChan_waits, waits_joinWait, State.priorityOf, hlost]
    rfl
  · rw [State.chan_modChan_self, chan_raiseChannel, if_pos rfl, grantAwaited, State.chan_modChan_self, State.chan_joinWait, hlost]
    simp only [placeSetpoint, putOutbox, frozenChannel, formSetpoint, offSetpoint, contactorCommand, Bool.true_or, if_true, h]

theorem displaced_mem_takeGrant (g : Grant) (s : State) : .displaced ∈ ((takeGrant g detail s).chan g.channel).causes := by
  cases h : (s.chan g.channel).holdPending with
  | true => rw [(takeGrant_held_leaves detail h).2]; exact mem_withCause_of_mem (mem_withCause _ _) _
  | false => rw [(takeGrant_displaced_leaves detail h).2]; exact mem_withCause _ _

end

/-- In a wait list by priority, an entry joins behind those of its priority or above (R148). -/
theorem insertWait_eq (e : WaitEntry) {ws : List WaitEntry} (h : ws.Pairwise (fun a b => b.priority ≤ a.priority)) :
    insertWait e ws = ws.filter (fun w => decide (e.priority ≤ w.priority)) ++
      e :: ws.filter (fun w => decide (w.priority < e.priority)) := by
  induction ws with
  | nil => rfl
  | cons w rest ih =>
    obtain ⟨hw, hrest⟩ := List.pairwise_cons.mp h
    simp only [insertWait]
    split
    · next hlt =>
      -- every later entry is below the new one too
      have hbelow : ∀ x ∈ w :: rest, x.priority < e.priority := fun x hx => by
        rcases List.mem_cons.mp hx with rfl | hx
        · exact hlt
        · exact lt_of_le_of_lt (hw x hx) hlt
      rw [List.filter_eq_nil_iff.mpr fun x hx => by simpa using hbelow x hx,
        List.filter_eq_self.mpr fun x hx => by simpa using hbelow x hx]
      rfl
    · next hge =>
      have hle : e.priority ≤ w.priority := not_lt.mp hge
      simp [hle, hge, ih hrest]

/-! ## Shedding (R155) -/

/-- The grants on the side of the caps on which the net is over. -/
def beyondCaps (s : State) (g : Grant) : Bool := if (s.importCap : Int) < s.net then decide (0 < g.watts) else decide (g.watts < 0)

theorem beyondCaps_iff {s : State} {g : Grant} :
    beyondCaps s g = true ↔ if (s.importCap : Int) < s.net then 0 < g.watts else g.watts < 0 := by
  unfold beyondCaps; split <;> simp

theorem shedAtMost_inCaps (fuel : Nat) {s : State} (h : s.inCaps s.net = true) : shedAtMost fuel s = s := by
  cases fuel with
  | zero => rfl
  | succ n => simp only [shedAtMost, h, if_true]

theorem shedAtMost_over (n : Nat) {s : State} {g : Grant} {rest : List Grant} (h : s.inCaps s.net = false)
    (hfirst : takeOrder s (beyondCaps s) = g :: rest) : shedAtMost (n + 1) s = shedAtMost n (takeGrant g 8 s) := by
  have hmatched : takeOrder s (fun g => if (s.importCap : Int) < s.net then decide (0 < g.watts) else decide (g.watts < 0)) =
      g :: rest := hfirst
  simp only [shedAtMost, h, Bool.false_eq_true, if_false, hmatched]

/-- A net outside the caps has a grant to take on the side that is over. -/
theorem beyondCaps_first {s : State} (h : s.inCaps s.net = false) : ∃ g rest, takeOrder s (beyondCaps s) = g :: rest :=
  List.exists_cons_of_ne_nil (shed_candidate (by rw [h]; nofun))

/-- A taking shortens the grant list. -/
theorem length_takeGrant {s : State} {g : Grant} (hg : g ∈ s.grants) (detail : Nat) :
    (takeGrant g detail s).grants.length < s.grants.length := by
  rw [grants_takeGrant]
  exact List.length_filter_lt_length_iff_exists.mpr ⟨g, hg, by simp⟩

/-- Shedding has ended once every grant could have been taken, whatever the fuel left. -/
theorem shedAtMost_enough {n m : Nat} {s : State} (hn : s.grants.length ≤ n) (hm : s.grants.length ≤ m) :
    shedAtMost n s = shedAtMost m s := by
  induction n generalizing m s with
  | zero =>
    have hempty : s.grants = [] := List.eq_nil_of_length_eq_zero (by omega)
    have hcaps : s.inCaps s.net = true := by rw [inCaps_iff, net_eq, hempty]; simp
    rw [shedAtMost_inCaps _ hcaps, shedAtMost_inCaps _ hcaps]
  | succ n ih =>
    cases hcaps : s.inCaps s.net with
    | true => rw [shedAtMost_inCaps _ hcaps, shedAtMost_inCaps _ hcaps]
    | false =>
      obtain ⟨g, rest, hfirst⟩ := beyondCaps_first hcaps
      have hlt := length_takeGrant (takeOrder_first hfirst).1 8
      cases m with
      | zero => omega
      | succ m =>
        rw [shedAtMost_over n hcaps hfirst, shedAtMost_over m hcaps hfirst]
        exact ih (by omega) (by omega)

/-- Caps that hold the net shed nothing (R146). -/
theorem shed_inCaps {s : State} (h : s.inCaps s.net = true) : shed s = s := shedAtMost_inCaps _ h

/-- Outside them, shedding takes the first grant of the side that is over, then sheds on (R155). -/
theorem shed_over {s : State} (h : s.inCaps s.net = false) : ∃ g ∈ s.grants, beyondCaps s g = true ∧
    (∀ k ∈ s.grants, beyondCaps s k = true → k = g ∨ TakenBefore s g k) ∧ shed s = shed (takeGrant g 8 s) := by
  obtain ⟨g, rest, hfirst⟩ := beyondCaps_first h
  obtain ⟨hg, hbeyond, hbefore⟩ := takeOrder_first hfirst
  have hlt := length_takeGrant hg 8
  refine ⟨g, hg, hbeyond, hbefore, ?_⟩
  calc shed s = shedAtMost (s.grants.length + 1) s := shedAtMost_enough (le_refl _) (Nat.le_succ _)
    _ = shedAtMost s.grants.length (takeGrant g 8 s) := shedAtMost_over _ h hfirst
    _ = shed (takeGrant g 8 s) := shedAtMost_enough hlt.le (le_refl _)

end Sys2Proof.Proofs
end

section
/-! PROOF. Grants, the scan and its displacements, and the arbiter's actions, each as SET_HALL_BUDGET and the channels begin them (R146,
R149 to R154, R157 to R161). -/

namespace Sys2Proof.Proofs

open Sys2Proof.Machine Sys2Proof.Safety Sys2Proof.Laws

/-! ## Granting (R160, R161) -/

theorem mem_causes_computeMagnitude (c : Channel) (kind : SampleKind) {s : State} {x : Cause} (h : x ∈ (s.chan c).causes) :
    x ∈ ((computeMagnitude c kind s).2.chan c).causes := by
  have hraise (cause : Cause) (f : EventFields) (u : State) (hu : x ∈ (u.chan c).causes) :
      x ∈ ((raiseChannel c cause f u).chan c).causes := by
    rw [chan_raiseChannel, if_pos rfl]; exact mem_withCause_of_mem hu cause
  unfold computeMagnitude
  simp only
  split
  · exact hraise _ _ _ h
  · simp only
    split
    · exact h
    · split
      · exact h
      · exact hraise _ _ _ (by rw [State.chan_modChan_self]; exact h)

/-- A production clears no cause flag. -/
theorem mem_causes_produceSetpoint (c : Channel) (urgent : Bool) {s : State} {x : Cause} (h : x ∈ (s.chan c).causes) :
    x ∈ ((produceSetpoint c urgent s).chan c).causes := by
  unfold produceSetpoint
  split
  · rw [State.chan_modChan_self]; exact h
  · rw [State.chan_modChan_self]; exact mem_causes_computeMagnitude c _ h

/-- The state when a waiting entry has become a grant and its channel runs, before GRANTED. -/
def entryGranted (w : WaitEntry) (s : State) : State :=
  State.modChan { s.dropWait w.channel with grants := s.grants ++ [({ channel := w.channel, watts := w.request } : Grant)] }
    w.channel (fun ch => { ch with status := .running })

/-- The fields of GRANTED: the grant and the net after it (R161). -/
def grantedFields (w : WaitEntry) (s : State) : EventFields :=
  { stepIndex := (s.chan w.channel).currentStep, cycleNumber := some (s.chan w.channel).cycleCount, valueA := some w.request,
    valueB := some (s.net + w.request), detail := 0 }

section
variable (w : WaitEntry) (s : State)

theorem chan_entryGranted : (entryGranted w s).chan w.channel = { s.chan w.channel with status := .running } :=
  State.chan_modChan_self _ _ _

theorem net_entryGranted : (entryGranted w s).net = s.net + w.request := by
  simp [entryGranted, net_eq]

theorem grantEntry_silent :
    grantEntry (some w.channel) w s = raiseChannel w.channel .granted (grantedFields w s) (entryGranted w s) := by
  have hfields : grantedFields w s = {
      stepIndex := ((entryGranted w s).chan w.channel).currentStep
      cycleNumber := some ((entryGranted w s).chan w.channel).cycleCount
      valueA := some w.request
      valueB := some (entryGranted w s).net } := by rw [chan_entryGranted, net_entryGranted]; rfl
  rw [hfields]
  exact if_pos rfl

variable {silent : Option Channel}

theorem grantEntry_aloud (h : silent ≠ some w.channel) :
    grantEntry silent w s = produceSetpoint w.channel false (grantEntry (some w.channel) w s) := by
  simp only [grantEntry, h, if_false, if_true]

/-- A grant is work at its channel once the entry has moved. -/
theorem local_grantEntry (silent : Option Channel) : LocalWork w.channel (entryGranted w s) (grantEntry silent w s) := by
  have hraised : LocalWork w.channel (entryGranted w s) (grantEntry (some w.channel) w s) := by
    rw [grantEntry_silent]; exact local_raiseChannel _ _ _ _
  by_cases h : silent = some w.channel
  · rw [h]; exact hraised
  · rw [grantEntry_aloud w s h]; exact hraised.trans (local_produceSetpoint _ _ _)

theorem grantEntry_others (silent : Option Channel) : OthersKept w.channel s (grantEntry silent w s) := fun d hd =>
  ((local_grantEntry w s silent).others d hd).trans (State.chan_modChan_ne _ _ hd)

theorem granted_mem_grantEntry (silent : Option Channel) : .granted ∈ ((grantEntry silent w s).chan w.channel).causes := by
  have hraised : .granted ∈ ((grantEntry (some w.channel) w s).chan w.channel).causes := by
    rw [grantEntry_silent, chan_raiseChannel, if_pos rfl]; exact mem_withCause _ _
  by_cases h : silent = some w.channel
  · rw [h]; exact hraised
  · rw [grantEntry_aloud w s h]
    exact mem_causes_produceSetpoint w.channel false hraised

theorem queued_grantEntry (silent : Option Channel) (h : (s.chan w.channel).config.reportLevel.val ≤ 2) :
    Queued (formEvent .granted (some w.channel) (grantedFields w s) s) (grantEntry silent w s) := by
  have hraised : Queued (formEvent .granted (some w.channel) (grantedFields w s) s) (grantEntry (some w.channel) w s) := by
    rw [grantEntry_silent]
    exact queued_raiseChannel (cause := .granted) (s := entryGranted w s) (by rw [chan_entryGranted]; exact h) (grantedFields w s)
  by_cases hsilent : silent = some w.channel
  · rw [hsilent]; exact hraised
  · rw [grantEntry_aloud w s hsilent]; exact hraised.kept (eventsKept_produceSetpoint _ _ _)

end

/-! ## An entry of a scan (R157, R158) -/

theorem blocked_iff {memo : ScanMemo} {w : WaitEntry} :
    blocked memo w = true ↔ ∃ f ∈ memo.failed, (f.1 = true ↔ 0 < w.request) ∧ w.priority ≤ f.2 := by
  simp only [blocked, List.any_eq_true, Bool.and_eq_true, beq_iff_eq, decide_eq_true_eq]
  refine exists_congr fun f => and_congr_right fun _ => and_congr_left fun _ => ?_
  cases f.1 <;> simp

/-- With this many of the candidates taken besides those already chosen, the request fits. -/
def TakingFits (s : State) (request : Int) (taken candidates : List Grant) (k : Nat) : Prop :=
  s.inCaps (s.net - ((taken ++ candidates.take k).map Grant.watts).sum + request) = true

section
variable {s : State} {request : Int} {taken candidates : List Grant}

theorem takingFits_succ {g : Grant} {k : Nat} :
    TakingFits s request taken (g :: candidates) (k + 1) ↔ TakingFits s request (taken ++ [g]) candidates k := by
  simp only [TakingFits, List.take_succ_cons, List.append_assoc, List.singleton_append]

theorem shortestTake_cons (g : Grant) : shortestTake s request taken (g :: candidates) =
    if s.inCaps (s.net - ((taken ++ [g]).map Grant.watts).sum + request) = true then some (taken ++ [g])
    else shortestTake s request (taken ++ [g]) candidates := rfl

/-- The first length at which the request fits is the one taken. -/
theorem shortestTake_some {k : Nat} (hk : 0 < k) (hle : k ≤ candidates.length) (hfits : TakingFits s request taken candidates k)
    (hfirst : ∀ j, 0 < j → j < k → ¬TakingFits s request taken candidates j) :
    shortestTake s request taken candidates = some (taken ++ candidates.take k) := by
  induction candidates generalizing taken k with
  | nil => exact absurd hle (Nat.not_le.mpr hk)
  | cons g rest ih =>
    obtain ⟨n, rfl⟩ := Nat.exists_eq_succ_of_ne_zero hk.ne'
    have hnext := takingFits_succ.mp hfits
    rw [shortestTake_cons]
    cases n with
    | zero =>
      have hone : s.inCaps (s.net - ((taken ++ [g]).map Grant.watts).sum + request) = true := by
        simpa [TakingFits] using hnext
      rw [if_pos hone]; rfl
    | succ n =>
      have hone : ¬s.inCaps (s.net - ((taken ++ [g]).map Grant.watts).sum + request) = true := hfirst 1 Nat.one_pos (by omega)
      rw [if_neg hone, ih n.succ_pos (by simpa using hle) hnext fun j hj hjn hfit =>
        hfirst (j + 1) j.succ_pos (by omega) (takingFits_succ.mpr hfit)]
      simp

theorem shortestTake_none (h : ∀ k, 0 < k → k ≤ candidates.length → ¬TakingFits s request taken candidates k) :
    shortestTake s request taken candidates = none := by
  induction candidates generalizing taken with
  | nil => rfl
  | cons g rest ih =>
    have hone : ¬s.inCaps (s.net - ((taken ++ [g]).map Grant.watts).sum + request) = true := h 1 Nat.one_pos (by simp)
    rw [shortestTake_cons, if_neg hone]
    exact ih fun k hk hle hfit => h (k + 1) k.succ_pos (by simpa using hle) (takingFits_succ.mpr hfit)

end

section
variable {silent : Option Channel} {w : WaitEntry} {memo : ScanMemo} {s : State}

theorem scanEntry_passed (h : w.channel ∈ memo.displaced ∨ blocked memo w = true) : scanEntry silent w memo s = (memo, s) := by
  unfold scanEntry
  by_cases hd : w.channel ∈ memo.displaced
  · rw [if_pos (List.contains_iff_mem.mpr hd)]
  · rw [if_neg (fun hc => hd (List.contains_iff_mem.mp hc)), if_pos (h.resolve_left hd)]

variable (hd : w.channel ∉ memo.displaced) (hb : ¬blocked memo w = true)
include hd hb

theorem scanEntry_fits (h : s.inCaps (s.net + w.request) = true) :
    scanEntry silent w memo s = ({ memo with granted := true }, grantEntry silent w s) := by
  unfold scanEntry
  rw [if_neg (fun hc => hd (List.contains_iff_mem.mp hc)), if_neg hb, if_pos h]

variable (h : s.inCaps (s.net + w.request) = false)
include h

theorem scanEntry_displaces {taken : List Grant} (ht : shortestTake s w.request [] (displaceable s w) = some taken) :
    scanEntry silent w memo s =
      ({ memo with granted := true, displaced := memo.displaced ++ taken.map Grant.channel },
        grantEntry silent w (taken.foldl (fun s g => takeGrant g w.channel.val s) s)) := by
  unfold scanEntry
  rw [if_neg (fun hc => hd (List.contains_iff_mem.mp hc)), if_neg hb, if_neg (by rw [h]; nofun), ht]

theorem scanEntry_fails (ht : shortestTake s w.request [] (displaceable s w) = none) :
    scanEntry silent w memo s = ({ memo with failed := (decide (0 < w.request), w.priority) :: memo.failed }, s) := by
  unfold scanEntry
  rw [if_neg (fun hc => hd (List.contains_iff_mem.mp hc)), if_neg hb, if_neg (by rw [h]; nofun), ht]

end

/-- The grants an entry may displace: same sign and strictly lower priority (R158). -/
theorem displaceable_perm (s : State) (w : WaitEntry) : (displaceable s w).Perm (s.grants.filter fun g =>
    decide (0 < g.watts ↔ 0 < w.request) && decide (s.priorityOf g.channel < w.priority)) := by
  have hsign (a b : Prop) [Decidable a] [Decidable b] : (decide a == decide b) = decide (a ↔ b) := by
    by_cases ha : a <;> by_cases hb : b <;> simp [ha, hb]
  refine (takeOrder_perm s _).trans (.of_eq (List.filter_congr fun g _ => ?_))
  rw [hsign]

/-! ## The scans (R159) -/

theorem scanWalk_eq_foldl (silent : Option Channel) (ws : List WaitEntry) (memo : ScanMemo) (s : State) :
    scanWalk silent ws memo s = ws.foldl (fun found w => scanEntry silent w found.1 found.2) (memo, s) := by
  induction ws generalizing memo s with
  | nil => rfl
  | cons w rest ih => exact ih _ _

/-! ## The actions (R149 to R154) -/

theorem grantOf_of_not_holds {s : State} {c : Channel} (h : ¬HoldsGrant s c) : s.grantOf c = 0 :=
  Decidable.not_not.mp fun hne => h (grantOf_ne_zero hne)

theorem settlePower_none {s : State} {c : Channel} (h : NoPower s c) : settlePower c s = s := by
  obtain ⟨hgrant, hwait⟩ := h
  have hwaiting : ¬s.waiting c = true := fun hw => hwait (waiting_iff.mp hw)
  rw [settlePower, if_neg (not_not.mpr (grantOf_of_not_holds hgrant)), if_neg hwaiting]

section
variable {s : State} (hp : PowerOk s) {c : Channel}
include hp

theorem grantOf_of_mem {watts : Int} (h : ({ channel := c, watts := watts } : Grant) ∈ s.grants) : s.grantOf c = watts := by
  obtain ⟨g, hg, hchannel, hgrant⟩ := grantOf_entry (c := c) (List.mem_map_of_mem h)
  rw [hgrant, List.inj_on_of_nodup_map hp.grantOnce hg h hchannel]

/-- The grant an action finds, when there is one or it is 0 (R151). -/
theorem grantOf_eq {old : Int} (h : ({ channel := c, watts := old } : Grant) ∈ s.grants ∨ (old = 0 ∧ ¬HoldsGrant s c)) :
    s.grantOf c = old := by
  rcases h with hmem | ⟨rfl, hnone⟩
  · exact grantOf_of_mem hp hmem
  · exact grantOf_of_not_holds hnone

/-- A release (R153). -/
theorem settlePower_holds {watts : Int} (h : ({ channel := c, watts := watts } : Grant) ∈ s.grants) :
    settlePower c s = scan none (shed (s.dropGrant c)) := by
  have hne : s.grantOf c ≠ 0 := by rw [grantOf_of_mem hp h]; exact hp.grantNot0 _ h
  exact if_pos hne

/-- A removal (R154). -/
theorem settlePower_waits (h : Waits s c) : settlePower c s = scan none (s.dropWait c) := by
  have hzero : s.grantOf c = 0 := grantOf_of_not_holds fun hg => (powerOk_lists hp).apart c hg h
  simp only [settlePower, hzero, ne_eq, not_true, if_false, waiting_iff.mpr h, if_true]

/-- In place, the net moves from the old grant to the new (R151). -/
theorem net_regrantInPlace (c : Channel) (new : Int) :
    ({ s with grants := regrantInPlace c (s.grantOf c) new s.grants } : State).net = s.net - s.grantOf c + new := by
  by_cases hholds : HoldsGrant s c
  · have hlists := powerOk_lists hp
    exact (regrantInPlace_spec (hlists.leave c) (hlists.apart c hholds) new).2.1
  · rw [grantOf_of_not_holds hholds, net_eq, net_eq]
    by_cases hnew : new = 0 <;> simp [regrantInPlace, hnew]

end

theorem regrantInPlace_eq (c : Channel) (old new : Int) (grants : List Grant) : regrantInPlace c old new grants =
    if old = 0 then (if new = 0 then grants else grants ++ [{ channel := c, watts := new }])
    else if new = 0 then grants.filter (fun g => g.channel != c)
    else grants.map (fun g => if g.channel = c then { channel := c, watts := new } else g) := by
  have hmap : grants.map (fun g => if g.channel = c then { g with watts := new } else g) =
      grants.map (fun g => if g.channel = c then { channel := c, watts := new } else g) :=
    List.map_congr_left fun g _ => by
      split
      · next h => rw [h]
      · rfl
  rw [regrantInPlace, hmap]

theorem regrantAction_fits {c : Channel} {new : Int} {s : State} (h : s.inCaps (s.net - s.grantOf c + new) = true) :
    regrantAction c new s =
      if ({ s with grants := regrantInPlace c (s.grantOf c) new s.grants } : State).net.natAbs < s.net.natAbs then
        scan (some c) { s with grants := regrantInPlace c (s.grantOf c) new s.grants }
      else { s with grants := regrantInPlace c (s.grantOf c) new s.grants } := if_pos h

theorem regrantAction_over {c : Channel} {new : Int} {s : State} (h : s.inCaps (s.net - s.grantOf c + new) = false) :
    regrantAction c new s = scan (some c) (if new = 0 then shed (s.dropGrant c)
      else ((shed (s.dropGrant c)).joinWait c new).modChan c (fun ch => { ch with status := .waitBudget })) :=
  if_neg (by rw [h]; nofun)

/-! ## SET_HALL_BUDGET (R146) -/

theorem packS32_eq (v : Int) : packS32 v = [(BitVec.ofInt 32 v).extractLsb' 16 16, (BitVec.ofInt 32 v).extractLsb' 0 16] :=
  pack32_toNat _

theorem within_eq_none {lo hi n : Nat} (h : hi < n) : within lo hi n = none := if_neg fun hle => Nat.not_le.mpr h hle.2

theorem setHallBudget_done {args : List Word} (s : State) (hi : arg32 args 0 ≤ Config.capBound) (hx : arg32 args 2 ≤ Config.capBound) :
    setHallBudget args s = (Answer.done (packS32 (capChange (arg32 args 0) (arg32 args 2) s).1.net ++
      pack16 (capChange (arg32 args 0) (arg32 args 2) s).2), (capChange (arg32 args 0) (arg32 args 2) s).1) := by
  rw [setHallBudget, within_eq_some (Nat.zero_le _) hi, within_eq_some (Nat.zero_le _) hx]
  rfl

theorem setHallBudget_range {args : List Word} (s : State) (h : Config.capBound < arg32 args 0 ∨ Config.capBound < arg32 args 2) :
    setHallBudget args s = (Answer.refuse .range, s) := by
  rw [setHallBudget]
  rcases Nat.lt_or_ge Config.capBound (arg32 args 0) with hi | hi
  · rw [within_eq_none hi]; rfl
  · rw [within_eq_some (Nat.zero_le _) hi, within_eq_none (h.resolve_left (Nat.not_lt.mpr hi))]; rfl

theorem exec_setHallBudget {s t : State} {r : Request} {rest : List Request} {a : Answer} (ht : Taken s r rest) (hk : r.kind = 0x06)
    (h : setHallBudget r.args s = (a, t)) (hq : t.requestQueue = s.requestQueue) :
    exec .setHallBudget s = .next (answered r rest a.outcome a.results t) := by
  show serveWhole 0x06 setHallBudget s = _
  exact serve_answered ht (beq_iff_eq.mpr hk) (by rw [h]) hq

/-- The grant list holds an entry a channel at most. -/
theorem length_grants_le {s : State} (hp : PowerOk s) : s.grants.length ≤ 8 := by
  have hcard := hp.grantOnce.length_le_card
  rwa [List.length_map, Fintype.card_fin] at hcard

/-- Settles O33: the request as a cap change, then shedding, the scan and the actions by their rules. -/
theorem setHallBudgetEffect : Obligations.SetHallBudgetEffect := by
  refine ⟨fun s r rest ht hk => ⟨fun hrange => ?_, fun hi hx => ?_⟩, fun s => ⟨shed_inCaps, fun h => ?_⟩,
    fun g detail s hp => ?_, fun silent w s => ?_, fun silent w memo s => ?_, fun silent s => ?_, fun c s hp => ?_⟩
  · -- a cap out of range
    exact exec_setHallBudget ht hk (setHallBudget_range s hrange) rfl
  · -- the caps taken
    intro capped u count
    have hwork : SameElsewhere capped u := ((work_shed capped).trans (work_scan none _)).same
    have hreply : exec .setHallBudget s = .next (answered r rest .ok (packS32 u.net ++ pack16 count) u) :=
      exec_setHallBudget ht hk (setHallBudget_done s hi hx) hwork.requestQueue
    rw [packS32_eq] at hreply
    refine ⟨hreply, fun hp => ?_⟩
    have hscanned : Scanned NoneOut s u := capChange_spec (powerOk_lists hp) _ _
    obtain ⟨hlow, hhigh⟩ := (inCaps_iff u u.net).mp hscanned.caps
    refine ⟨hwork.importCap, hwork.exportCap, hlow, hhigh, (Nat.sub_le _ _).trans (length_grants_le hp), fun hl hh => ?_,
      fun c hc => (hscanned.untouched c hc).1, hwork⟩
    have hkept : shed capped = capped := shed_inCaps ((inCaps_iff capped capped.net).mpr ⟨hl, hh⟩)
    show s.grants.length - (shed capped).grants.length = 0
    rw [hkept]
    exact Nat.sub_self _
  · -- what shedding takes
    obtain ⟨g, hg, hbeyond, hbefore, hshed⟩ := shed_over h
    exact ⟨g, hg, beyondCaps_iff.mp hbeyond, fun k hk hk' => hbefore k hk (beyondCaps_iff.mpr hk'), hshed⟩
  · -- a grant taken
    intro before t after left
    refine ⟨grants_takeGrant detail g s, takeGrant_others detail g s, (work_takeGrant g detail s).same,
      displaced_mem_takeGrant detail g s, fun hlevel => queued_takeGrant detail g s hlevel, fun hheld => ?_, fun hfree => ?_⟩
    · obtain ⟨hwaits, hafter⟩ := takeGrant_held_leaves (g := g) (s := s) detail hheld
      change after = _ at hafter
      rw [hafter]
      exact ⟨rfl, mem_withCause _ _, hwaits⟩
    · obtain ⟨hwaits, hafter⟩ := takeGrant_displaced_leaves (g := g) (s := s) detail hfree
      change after = _ at hafter
      rw [hafter]
      exact ⟨rfl, hwaits.trans (insertWait_eq _ hp.bands)⟩
  · -- a waiting entry granted
    have hlocal := local_grantEntry w s silent
    refine ⟨hlocal.waits, hlocal.grants, grantEntry_others w s silent, (work_grantEntry silent w s).same, ?_,
      granted_mem_grantEntry w s silent, fun hsilent => ?_, fun hlevel => queued_grantEntry w s silent hlevel,
      fun haloud => grantEntry_aloud w s haloud⟩
    · rw [hlocal.status, chan_entryGranted]
    · rw [hsilent] at hlocal ⊢
      refine ⟨?_, by rw [hlocal.waits, hlocal.grants]; exact grantEntry_silent w s⟩
      rw [grantEntry_silent, chan_raiseChannel, if_pos rfl, chan_entryGranted]
  · -- an entry of a scan
    intro t blocks
    refine ⟨fun h => scanEntry_passed (h.imp_right blocked_iff.mpr), fun hd hblocks => ?_⟩
    have hb : ¬blocked memo w = true := fun hb => hblocks (blocked_iff.mp hb)
    refine ⟨scanEntry_fits hd hb, fun hover => ⟨displaceable s w, displaceable_perm s w, takeOrder_pairwise s _,
      fun k hk hle hfits hfirst => ?_, fun hnone => ?_⟩⟩
    · exact scanEntry_displaces hd hb hover (shortestTake_some hk hle hfits hfirst)
    · exact scanEntry_fails hd hb hover (shortestTake_none hnone)
  · -- the scans
    intro walk
    refine ⟨rfl, rfl, fun n => ?_⟩
    have hwalk : walk s.waits = scanWalk silent s.waits { displaced := [], failed := [], granted := false } s :=
      (scanWalk_eq_foldl silent s.waits _ s).symm
    rw [hwalk]
    rfl
  · -- the actions
    refine ⟨fun _ _ => rfl, fun _ => settlePower_holds hp, settlePower_waits hp, settlePower_none, fun old new hold => ?_⟩
    obtain rfl := grantOf_eq hp hold
    rw [← regrantInPlace_eq]
    exact ⟨fun hfits => ⟨net_regrantInPlace hp c new, regrantAction_fits hfits⟩, regrantAction_over⟩

end Sys2Proof.Proofs
end

section
/-! PROOF. The queues at every command: what each row leaves of the event, request and reply queues and of the walk in flight, and that no
row ends in a fault (R68, R178, R179, R181, R182, R184). -/

namespace Sys2Proof.Proofs

open Sys2Proof.Machine Sys2Proof.Safety Sys2Proof.Laws

/-! ## The queues between commands and while a request is executed -/

/-- The event queue is within its capacity and in class order (R178). -/
def EventsFit (s : State) : Prop := s.eventQueue.length ≤ 32 ∧ EventsOrdered s.eventQueue

/-- QueuesOk said of the fields it speaks of, so that a command that touches none of them keeps it as it stands. -/
def Queueing (s : State) : Prop :=
  EventsFit s ∧ s.requestQueue.length ≤ 4 ∧ s.replyQueue.length ≤ 4 ∧
    (s.walk.isSome → s.requestQueue ≠ [] ∧ s.replyQueue.length < 4)

theorem queueing_iff {s : State} : Queueing s ↔ QueuesOk s :=
  ⟨fun ⟨⟨hevents, horder⟩, hrequests, hreplies, hwalk⟩ => ⟨hevents, horder, hrequests, hreplies, hwalk⟩,
    fun h => ⟨⟨h.events, h.order⟩, h.requests, h.replies, h.walk⟩⟩

/-- What holds in between while a request is executed: its reply still has room, and no walk is in flight (R182). -/
def Serving (s : State) : Prop :=
  EventsFit s ∧ s.requestQueue.length ≤ 4 ∧ s.replyQueue.length < 4 ∧ s.walk = none

/-- A command's outcome is no fault, and its state, if it has one, has its queues in order. -/
def Sound : Host.Outcome State Fault Refusal → Prop
  | .next t => Queueing t
  | .fault _ => False
  | .refused _ => True

theorem eventsFit_nil {s : State} (h : s.eventQueue = []) : EventsFit s := by
  unfold EventsFit
  rw [h]
  exact ⟨Nat.zero_le _, .nil⟩

theorem eventsFit_raiseDevice {s : State} (h : EventsFit s) (cause : Cause) : EventsFit (raiseDevice cause s) :=
  raiseDevice_queue cause h

/-- A queue that loses entries at its head keeps its order. -/
theorem eventsFit_suffix {s t : State} (h : EventsFit s) (hq : t.eventQueue <:+ s.eventQueue) : EventsFit t :=
  ⟨hq.length_le.trans h.1, h.2.sublist hq.sublist⟩

section
variable {s t : State} (hs : Serving s)
include hs

theorem Serving.queueing : Queueing s := by
  obtain ⟨hevents, hrequests, hroom, hwalk⟩ := hs
  exact ⟨hevents, hrequests, hroom.le, fun h => by rw [hwalk] at h; cases h⟩

/-- The reply takes the room kept for it, and the entry leaves the request queue (R181, R184). -/
theorem Serving.finish (r : Request) (a : Answer) : Queueing (finishRequest r a s) := by
  obtain ⟨hevents, hrequests, hroom, hwalk⟩ := hs
  refine ⟨hevents, ?_, ?_, fun h => ?_⟩
  · exact (s.requestQueue.length_tail.trans_le (Nat.sub_le _ _)).trans hrequests
  · simp only [finishRequest, produceReply, List.length_append, List.length_singleton]
    exact hroom
  · change s.walk.isSome = true at h
    rw [hwalk] at h; cases h

/-- Work of channels and of the arbiter moves events only. -/
theorem serving_work (hw : Work s t) : Serving t := by
  obtain ⟨hevents, hrequests⟩ := hs
  refine ⟨hw.events hevents, ?_⟩
  rw [hw.same.requestQueue, hw.same.replyQueue, hw.same.walk]
  exact hrequests

theorem serving_inRangeOr {α : Type} {field : Option α} {body : α → Answer × State} (hbody : ∀ a, Serving (body a).2) :
    Serving (inRangeOr field s body).2 := inRangeOr_keeps hs hbody

end

section
variable {s t : State} (hq : Queueing s)
include hq

/-- The engine takes a request only with room for its reply and no walk in flight (R182). -/
theorem Queueing.serving (h : s.engineReady = true) : Serving s := by
  obtain ⟨hevents, hrequests, -, -⟩ := hq
  simp only [State.engineReady, Config.replyCapacity, Bool.and_eq_true, Option.isNone_iff_eq_none] at h
  obtain ⟨hroom, hwalk⟩ := h
  exact ⟨hevents, hrequests, of_decide_eq_true hroom, hwalk⟩

theorem queueing_work (hw : Work s t) : Queueing t := by
  obtain ⟨hevents, hrequests⟩ := hq
  refine ⟨hw.events hevents, ?_⟩
  rw [hw.same.requestQueue, hw.same.replyQueue, hw.same.walk]
  exact hrequests

theorem queueing_raiseDevice (cause : Cause) : Queueing (raiseDevice cause s) := by
  obtain ⟨hevents, hrequests⟩ := hq
  refine ⟨eventsFit_raiseDevice hevents cause, ?_⟩
  obtain ⟨_, _, h⟩ := raiseDevice_eq cause s
  rw [h]; exact hrequests

/-! ## Pins and the receiver (R3 to R5, R95, R134 to R138) -/

theorem queueing_sampleHallStop (asserted : Bool) (order : List Channel) : Queueing (sampleHallStop asserted order s) := by
  have hsampled (stop : Bool) : Queueing { sampled asserted s with hallStop := stop } := hq
  rcases sampleHallStop_cases asserted order s with h | h | h <;> rw [h]
  · exact hq
  · exact queueing_work (queueing_raiseDevice (hsampled true) .hallStopAsserted) (events_tripAll .hallStop order _).work
  · exact queueing_raiseDevice (hsampled false) .hallStopReleased

theorem sound_syncFound (position : Fin 576) (bits : List Bool) : Sound (execSyncFound position bits s) := by
  unfold execSyncFound
  split
  · trivial
  · split
    · exact hq
    · exact hq
    · trivial

theorem sound_confirmSync (rest : Vector RingWord 31) (sync : RingWord) : Sound (execConfirmSync rest sync s) := by
  unfold execConfirmSync
  split
  · trivial
  · simp only
    split
    · have hlocked : Queueing { s with
        receiver := { s.receiver with mode := .locked, missCount := 0, position := 18 }
        ringOut := .words (rest.toList ++ [sync]) } := hq
      exact queueing_raiseDevice hlocked .linkLocked
    · exact hq

theorem queueing_passSlot (slot : Slot) : Queueing (passSlot slot s) := by
  have hpassed : Queueing (afterPassing slot s) := hq
  rw [passSlot_eq]
  split
  · exact queueing_raiseDevice hpassed .linkLocked
  · exact hpassed

theorem queueing_missedTurn (slot : Slot) (order : List Channel) : Queueing (missedTurn slot order s) := by
  rcases Nat.lt_or_ge s.receiver.missCount 3 with h | h
  · rw [missedTurn_counts slot order h]; exact hq
  · have hsearching : Queueing (searching slot s) := hq
    rw [missedTurn_loses slot order h]
    exact queueing_work (queueing_raiseDevice hsearching .linkLost) (events_tripAll .linkLoss order _).work

/-! ## The slots of the Request Engine and of the Output Arbiter (R10, R11, R16) -/

/-- A request joins a queue with room; a full queue drops it (R11). -/
theorem queueing_queueRequest (r : Request) : Queueing (queueRequest r s) := by
  rcases Nat.lt_or_ge s.requestQueue.length 4 with h | h
  · obtain ⟨hevents, -, hreplies, hwalk⟩ := hq
    rw [queueRequest_room h]
    refine ⟨hevents, ?_, hreplies, fun hw => ⟨List.concat_ne_nil _ _, (hwalk hw).2⟩⟩
    simp only [List.length_append, List.length_singleton]
    exact h
  · rw [queueRequest_full h]
    cases ho : s.requestOverrun with
    | true => rw [dropRequest_again ho]; exact hq
    | false =>
      have hflagged : Queueing { s with requestOverrun := true } := hq
      rw [dropRequest_first ho]
      exact queueing_raiseDevice hflagged .requestOverrun

/-- A decision takes at most the heads of the reply queue and of the event queue. -/
theorem queueing_taken (hframe : Offered s t) (hreplies : t.replyQueue <:+ s.replyQueue) (hevents : t.eventQueue <:+ s.eventQueue) :
    Queueing t := by
  obtain ⟨hfit, hrequests, hroom, hwalk⟩ := hq
  refine ⟨eventsFit_suffix hfit hevents, ?_, hreplies.length_le.trans hroom, fun hw => ?_⟩
  · rw [hframe]; exact hrequests
  · rw [hframe] at hw
    obtain ⟨hhead, hspace⟩ := hwalk hw
    exact ⟨by rw [hframe]; exact hhead, hreplies.length_le.trans_lt hspace⟩

end

theorem serveB_suffix (s : State) : (serveB s).replyQueue <:+ s.replyQueue ∧ (serveB s).eventQueue <:+ s.eventQueue := by
  unfold serveB
  split
  · next h => rw [h]; exact ⟨List.suffix_cons _ _, List.suffix_rfl⟩
  · split
    · next h => rw [h]; exact ⟨List.suffix_rfl, List.suffix_cons _ _⟩
    · exact ⟨List.suffix_rfl, List.suffix_rfl⟩

theorem sendSetpoint_queues (c : Channel) (s : State) :
    (sendSetpoint c s).replyQueue = s.replyQueue ∧ (sendSetpoint c s).eventQueue = s.eventQueue := by
  unfold sendSetpoint
  split <;> exact ⟨rfl, rfl⟩

theorem chooseItem_suffix (empty : Slot) (s : State) :
    (chooseItem empty s).replyQueue <:+ s.replyQueue ∧ (chooseItem empty s).eventQueue <:+ s.eventQueue := by
  rcases chooseItem_cases empty s with h | h | ⟨c, h | h⟩
  · rw [h]; exact ⟨List.suffix_rfl, List.suffix_rfl⟩
  · rw [h]; exact serveB_suffix s
  all_goals
    obtain ⟨hreplies, hevents⟩ := sendSetpoint_queues c s
    rw [h]
    exact ⟨hreplies ▸ List.suffix_rfl, hevents ▸ List.suffix_rfl⟩

theorem queueing_decideSlot {s : State} (hq : Queueing s) (empty : Slot) : Queueing (decideSlot empty s) := by
  by_cases h63 : s.nodeAddress = 63
  · rw [decideSlot, if_pos h63]; exact hq
  · have hclaimed : Queueing (claimantsOnly s) := hq
    obtain ⟨hreplies, hevents⟩ := chooseItem_suffix empty (claimantsOnly s)
    rw [decideSlot_eq empty h63]
    exact queueing_taken hclaimed (offered_chooseItem empty _) hreplies hevents

/-! ## A slot command and a request row (R4, R182) -/

theorem sound_atTurn {event : SlotEvent} {slot : Slot} {effect : State → State} {s : State} (hq : Queueing s)
    (heffect : ∀ u, Queueing u → Queueing (effect u)) : Sound (atTurn event slot effect s) := by
  have hturn (u : State) (hu : Queueing u) : Sound (takeTurn event slot effect u) := by
    unfold takeTurn
    split
    · exact heffect u hu
    · trivial
  unfold atTurn
  split
  · exact hturn s hq
  · simp only
    split
    · exact hturn _ (queueing_passSlot hq slot)
    · exact queueing_passSlot hq slot

/-- A request row: an execution that answers ends with its reply placed; one that does not answer leaves the queues in order itself. -/
theorem sound_serve {mine : Request → Bool} {body : List Word → State → Option Answer × State} {s : State} (hq : Queueing s)
    (hbody : ∀ args, Serving s → s.requestQueue ≠ [] →
      Serving (body args s).2 ∨ (body args s).1 = none ∧ Queueing (body args s).2) : Sound (serve mine body s) := by
  unfold serve
  split
  · trivial
  · next r rest hhead =>
    split
    · split
      · next hready =>
        have hdone := hbody r.args (hq.serving hready) (by rw [hhead]; exact List.cons_ne_nil _ _)
        split
        · next heq =>
          rw [heq] at hdone
          exact (hdone.resolve_right fun h => nomatch h.1).finish r _
        · next heq =>
          rw [heq] at hdone
          exact hdone.elim Serving.queueing And.right
      · exact hq
    · trivial

section
variable {s : State} (hq : Queueing s)
include hq

theorem sound_answering {mine : Request → Bool} {body : List Word → State → Option Answer × State}
    (hbody : Serving s → ∀ args, Serving (body args s).2) : Sound (serve mine body s) :=
  sound_serve hq fun args hs _ => .inl (hbody hs args)

theorem sound_serveWhole {kind : Nat} {body : List Word → State → Answer × State}
    (hbody : Serving s → ∀ args, Serving (body args s).2) : Sound (serveWhole kind body s) := sound_answering hq hbody

/-! ## START and its program check (R65, R67, R68, R81, R82) -/

/-- The walk begins with its START at the head of the request queue and room for its reply (R68). -/
theorem sound_start : Sound (execStart s) := by
  refine sound_serve hq fun args hs hhead => ?_
  have hbegun (c : Channel) (mode : StartMode) : Queueing (beginWalk c mode s) := by
    obtain ⟨hevents, hrequests, hroom, -⟩ := hs
    exact ⟨hevents, hrequests, hroom.le, fun _ => ⟨hhead, hroom⟩⟩
  unfold startCheck
  split
  · split
    · exact .inl hs
    · split
      · exact .inl hs
      · exact .inr ⟨rfl, hbegun _ _⟩
  · exact .inl hs

end

theorem serving_beginRun {s : State} (hs : Serving s) (c : Channel) (mode : StartMode) : Serving (beginRun c mode s) := by
  have hbegun : Serving (s.modChan c (beginContext s.msTime)) := hs
  match mode with
  | .fresh =>
    have hfresh : Serving ((s.modChan c (beginContext s.msTime)).modChan c freshCounters) := hs
    exact serving_work hfresh (local_produceSetpoint c true _).toWork
  | .continue => exact serving_work hbegun (local_produceSetpoint c true _).toWork

theorem serving_completeStart {s : State} (hs : Serving s) (w : Walk) : Serving (completeStart w s).2 := by
  unfold completeStart
  split
  · exact hs
  · split
    · exact hs
    · split
      · exact hs
      · exact serving_beginRun hs w.channel w.mode

/-- A walk in flight has its START in the queue, so that its completion does not fault (R68). -/
theorem sound_programCheckCompletion {s : State} (hq : Queueing s) : Sound (execProgramCheckCompletion s) := by
  unfold execProgramCheckCompletion
  split
  · trivial
  · next w hwalk =>
    obtain ⟨hevents, hrequests, -, hflight⟩ := hq
    obtain ⟨hhead, hroom⟩ := hflight (by rw [hwalk]; rfl)
    have hended : Serving { s with walk := none } := ⟨hevents, hrequests, hroom, rfl⟩
    split
    · next hempty => exact absurd hempty hhead
    · exact (serving_completeStart hended w).finish _ _

/-! ## Channel requests (R83 to R87) -/

section
variable {s : State} (hs : Serving s)
include hs

theorem serving_holdRequest (c : Channel) : Serving (holdRequest c s).2 := by
  unfold holdRequest
  split
  · exact hs
  · exact serving_work hs (atChannel_hold c s).work
  · exact serving_work hs (atChannel_hold c s).work
  all_goals exact hs

theorem serving_resumeRequest (c : Channel) : Serving (resumeRequest c s).2 := by
  unfold resumeRequest
  split
  · exact hs
  · split
    · exact serving_work hs (work_resumeHeld c s)
    · split <;> exact hs
    all_goals exact hs

theorem serving_skipRequest (c : Channel) : Serving (skipRequest c s).2 := by
  unfold skipRequest
  split <;> exact hs

theorem serving_stopRequest (c : Channel) : Serving (stopRequest c s).2 := by
  unfold stopRequest
  split
  · exact hs
  · exact hs
  · exact hs
  all_goals exact serving_work hs (atChannel_stopRun c s).work

theorem serving_clearTripRequest (c : Channel) : Serving (clearTripRequest c s).2 := by
  unfold clearTripRequest
  split
  · exact hs
  · split <;> exact hs

theorem serving_writeChannelConfig (args : List Word) : Serving (writeChannelConfig args s).2 :=
  serving_inRangeOr hs fun _ => serving_inRangeOr hs fun _ => by split <;> exact hs

/-! ## Requests on the loaded tables and the causes (R28, R29, R59 to R64, R125, R175) -/

theorem serving_writeStepHead (args : List Word) : Serving (writeStepHead args s).2 :=
  serving_inRangeOr hs fun head => by
    split
    · exact hs
    · unfold acceptHead
      split <;> exact hs

theorem serving_writeStepRest (args : List Word) : Serving (writeStepRest args s).2 :=
  serving_inRangeOr hs fun (index, owner, more) => by
    show Serving (writeStepTail index owner more s).2
    unfold writeStepTail
    split
    · exact hs
    · split
      · exact hs
      · split
        · exact hs
        · split <;> exact hs

theorem serving_freeSteps (c : Channel) : Serving (freeSteps c s).2 := by
  unfold freeSteps
  split <;> exact hs

theorem serving_putRouteRequest (r : Route) : Serving (putRouteRequest r s).2 := by
  unfold putRouteRequest
  split <;> exact hs

theorem serving_removeRoute (source index : Nat) : Serving (removeRoute source index s).2 := by
  unfold removeRoute
  split
  · exact hs
  · split <;> exact hs

theorem serving_writeLimits (args : List Word) : Serving (writeLimits args s).2 :=
  serving_inRangeOr hs fun _ => serving_inRangeOr hs fun _ => by split <;> exact hs

theorem serving_clearCauses (args : List Word) : Serving (clearCauses args s).2 :=
  serving_inRangeOr hs fun target => serving_inRangeOr hs fun _ => serving_inRangeOr hs fun named => by
    cases target <;> exact hs

/-! ## Device requests (R146, R191 to R193) -/

theorem serving_setHallBudget (args : List Word) : Serving (setHallBudget args s).2 := by
  have hread (importField exportField : Option Nat) : Serving (inRangeOr importField s fun importCap =>
      inRangeOr exportField s fun exportCap =>
        let changed := capChange importCap exportCap s
        (Answer.done (packS32 changed.1.net ++ pack16 changed.2), changed.1)).2 :=
    serving_inRangeOr hs fun importCap => serving_inRangeOr hs fun exportCap => by
      have hcapped : Serving { s with importCap := importCap, exportCap := exportCap } := hs
      exact serving_work hcapped ((work_shed _).trans (work_scan none _))
  exact hread _ _

end

/-- Device reset of one channel touches the shared blocks in the event queue at most. -/
theorem sameElsewhere_resetChannel (s : State) (c : Channel) : SameElsewhere s (resetChannel s c) := by
  have hmod (u : State) (f : ChannelState → ChannelState) : SameElsewhere u (u.modChan c f) := ⟨_, _, _, _, _, rfl⟩
  unfold resetChannel
  simp only
  split
  · exact hmod s _
  · exact ((hmod s _).trans (local_produceSetpoint c true _).same).trans (hmod _ _)

theorem sameElsewhere_resetFold (cs : List Channel) (s : State) : SameElsewhere s (cs.foldl resetChannel s) := by
  induction cs generalizing s with
  | nil => exact .refl s
  | cons c rest ih => exact (sameElsewhere_resetChannel s c).trans (ih _)

/-- Device reset empties the queues, its own request among them (R193). -/
theorem serving_resetShared {s : State} (hwalk : s.walk = none) : Serving (resetShared s) :=
  ⟨eventsFit_nil rfl, Nat.zero_le _, Nat.zero_lt_succ _, hwalk⟩

theorem serving_deviceReset {s : State} (hs : Serving s) : Serving (deviceReset s).2 := by
  obtain ⟨-, -, -, hwalk⟩ := hs
  exact serving_resetShared ((sameElsewhere_resetFold allChannels s).walk.trans hwalk)

/-! ## Every command -/

theorem exec_sound {s : State} (hq : Queueing s) (i : Instr) : Sound (exec i s) := by
  unfold exec
  cases i with
  | powerOnReset period => exact ⟨eventsFit_nil rfl, Nat.zero_le _, Nat.zero_le _, fun h => nomatch h⟩
  | syncFound position bits => exact sound_syncFound hq position bits
  | confirmSync rest sync => exact sound_confirmSync hq rest sync
  | missedSlot slot order => exact sound_atTurn hq fun _ hu => queueing_missedTurn hu slot order
  | damagedSlot slot => exact sound_atTurn hq fun _ hu => hu
  | slotForwarded slot => exact sound_atTurn hq fun _ hu => hu
  | sampleSlotTurn slot order =>
    exact sound_atTurn hq fun u hu =>
      queueing_work (s := forward slot (goodTurn u)) hu (events_applySample _ _ _ order _).work
  | requestConsumed slot =>
    exact sound_atTurn hq fun u hu => queueing_decideSlot (queueing_queueRequest (s := goodTurn u) hu _) _
  | slotStripped slot => exact sound_atTurn hq fun u hu => queueing_decideSlot (s := goodTurn u) hu _
  | emptySlotTurn slot => exact sound_atTurn hq fun u hu => queueing_decideSlot (s := goodTurn u) hu _
  | staleTimerExpiry c => exact queueing_work hq (atChannel_staleExpiry c s).work
  | contactorTimerExpiry c => exact queueing_work hq (atChannel_contactorExpiry c s).work
  | hallStopAsserted order =>
    simp only [execHallStopAsserted]
    split
    · exact queueing_sampleHallStop hq true order
    · trivial
  | hallStopReleased =>
    simp only [execHallStopReleased]
    split
    · exact queueing_sampleHallStop hq false []
    · trivial
  | hstopNSample asserted order => exact queueing_sampleHallStop hq asserted order
  | unknownRequest => exact sound_answering hq fun hs _ => hs
  | identify => exact sound_serveWhole hq fun hs _ => hs
  | readDeviceStatus => exact sound_serveWhole hq fun hs _ => serving_inRangeOr hs fun _ => hs
  | setDeviceConfig => exact sound_serveWhole hq fun hs _ => serving_inRangeOr hs fun _ => serving_inRangeOr hs fun _ => hs
  | clearDeviceFlags => exact sound_serveWhole hq fun hs _ => hs
  | resetDevice => exact sound_serveWhole hq fun hs _ => serving_deviceReset hs
  | setHallBudget => exact sound_serveWhole hq serving_setHallBudget
  | writeChannelConfig => exact sound_serveWhole hq serving_writeChannelConfig
  | readChannelConfig => exact sound_serveWhole hq fun hs _ => serving_inRangeOr hs fun _ => hs
  | readChannel => exact sound_serveWhole hq fun hs _ => serving_inRangeOr hs fun _ => serving_inRangeOr hs fun _ => hs
  | start => exact sound_start hq
  | programCheckCompletion => exact sound_programCheckCompletion hq
  | hold => exact sound_serveWhole hq fun hs _ => serving_inRangeOr hs (serving_holdRequest hs)
  | resume => exact sound_serveWhole hq fun hs _ => serving_inRangeOr hs (serving_resumeRequest hs)
  | skipStep => exact sound_serveWhole hq fun hs _ => serving_inRangeOr hs (serving_skipRequest hs)
  | stop => exact sound_serveWhole hq fun hs _ => serving_inRangeOr hs (serving_stopRequest hs)
  | clearTrip => exact sound_serveWhole hq fun hs _ => serving_inRangeOr hs (serving_clearTripRequest hs)
  | writeStepPart0 => exact sound_answering hq serving_writeStepHead
  | writeStepPart1 => exact sound_answering hq serving_writeStepRest
  | readStep => exact sound_serveWhole hq fun hs _ => serving_inRangeOr hs fun _ => serving_inRangeOr hs fun _ => hs
  | freeSteps => exact sound_serveWhole hq fun hs _ => serving_inRangeOr hs (serving_freeSteps hs)
  | writeRoute => exact sound_serveWhole hq fun hs _ => serving_inRangeOr hs (serving_putRouteRequest hs)
  | removeRoute =>
    exact sound_serveWhole hq fun hs _ =>
      serving_inRangeOr hs fun _ => serving_inRangeOr hs fun _ => serving_removeRoute hs _ _
  | readRoutes =>
    exact sound_serveWhole hq fun hs _ =>
      serving_inRangeOr hs fun _ => serving_inRangeOr hs fun _ => serving_inRangeOr hs fun _ => hs
  | writeLimits => exact sound_serveWhole hq serving_writeLimits
  | readLimits => exact sound_serveWhole hq fun hs _ => serving_inRangeOr hs fun _ => hs
  | readTrip => exact sound_serveWhole hq fun hs _ => serving_inRangeOr hs fun _ => hs
  | readCounters => exact sound_serveWhole hq fun hs _ => serving_inRangeOr hs fun _ => serving_inRangeOr hs fun _ => hs
  | readHistory => exact sound_serveWhole hq fun hs _ => serving_inRangeOr hs fun _ => serving_inRangeOr hs fun _ => hs
  | clearCounters => exact sound_serveWhole hq fun hs _ => serving_inRangeOr hs fun _ => serving_inRangeOr hs fun _ => hs
  | clearCauses => exact sound_serveWhole hq serving_clearCauses

theorem step_sound {s : State} (hq : Queueing s) : Sound (step s) := by
  unfold step
  split
  · exact hq
  · next c rest _ =>
    have htaken : Queueing { s with pending := rest } := hq
    exact exec_sound htaken c

/-- Settles O4: the front command's own row is sound in its queues, an idle step changes nothing. -/
theorem stepKeepsQueues : Obligations.StepKeepsQueues := by
  intro s hqueues
  have hsound : Sound (step s) := step_sound (queueing_iff.mpr hqueues)
  refine ⟨fun t h => ?_, fun f h => ?_⟩
  · rw [h] at hsound; exact queueing_iff.mp hsound
  · rw [h] at hsound; exact hsound

end Sys2Proof.Proofs
end

section
/-! PROOF. The lifetime counters at every command but CLEAR_COUNTERS and POWER_ON_RESET: none is below what it was (R164, R166, R192). -/

namespace Sys2Proof.Proofs

open Sys2Proof.Machine Sys2Proof.Safety Sys2Proof.Laws

/-! ## The counters since a state -/

/-- No lifetime counter of any channel is below what it was in the base state. -/
def LifetimesFrom (base s : State) : Prop := ∀ c, LifetimeLe (base.chan c).lifetime (s.chan c).lifetime

/-- A state on the way from the base state: the counters have not fallen, and the ranges hold under which further work keeps them so. -/
structure Counted (base s : State) : Prop where
  store     : StoreOk s
  channels  : ChannelsOk s
  lifetimes : LifetimesFrom base s

theorem LifetimesFrom.refl (s : State) : LifetimesFrom s s := fun _ => lifetimeLe_refl _

section
variable {base s t : State}

theorem lifetimes_congr (h : LifetimesFrom base s) (ht : ∀ c, (t.chan c).lifetime = (s.chan c).lifetime) : LifetimesFrom base t :=
  fun c => by rw [ht c]; exact h c

/-- A change of one channel that leaves its lifetime counters. -/
theorem lifetimes_modChan (h : LifetimesFrom base s) (c : Channel) {f : ChannelState → ChannelState}
    (hf : (f (s.chan c)).lifetime = (s.chan c).lifetime) : LifetimesFrom base (s.modChan c f) :=
  lifetimes_congr h fun d => by
    rw [State.chan_modChan]
    split
    · next hd => rw [hd]; exact hf
    · rfl

theorem lifetime_arbitrated {before after : ChannelState} (h : Arbitrated before after) : after.lifetime = before.lifetime := by
  obtain ⟨⟨_, _, _, _, _, _, _, _, _, rfl⟩, -⟩ := h
  rfl

/-- The arbiter's work counts nothing. -/
theorem lifetimes_arbiterWork (h : LifetimesFrom base s) (hw : ArbiterWork s t) : LifetimesFrom base t :=
  lifetimes_congr h fun c => lifetime_arbitrated (hw c)

section
variable (hc : Counted base s)
include hc

/-- A change outside the Step Store and the channels. -/
theorem Counted.congr (hsteps : t.steps = s.steps) (hstaged : t.staged = s.staged) (hchannels : t.channels = s.channels) :
    Counted base t := by
  have hchan (c : Channel) : t.chan c = s.chan c := by simp only [State.chan, hchannels]
  exact {
    store := hc.store.congr hsteps hstaged
    channels := fun c => by rw [hchan]; exact hc.channels c
    lifetimes := fun c => by rw [hchan]; exact hc.lifetimes c }

/-- Work of channels folds into the counters and never takes from them (R166). -/
theorem Counted.work (hw : Work s t) : Counted base t :=
  { store := hw.same.storeOk hc.store
    channels := hw.bounds hc.store hc.channels
    lifetimes := fun c => lifetimeLe_trans (hc.lifetimes c) (hw.counts hc.store hc.channels c) }

theorem Counted.raiseDevice (cause : Cause) : Counted base (raiseDevice cause s) := by
  obtain ⟨_, _, h⟩ := raiseDevice_eq cause s
  rw [h]; exact hc.congr rfl rfl rfl

/-! ## Pins, the receiver and the slots (R3 to R16, R95, R134 to R138) -/

theorem counted_sampleHallStop (asserted : Bool) (order : List Channel) : Counted base (sampleHallStop asserted order s) := by
  have hsampled (stop : Bool) : Counted base { sampled asserted s with hallStop := stop } := hc.congr rfl rfl rfl
  rcases sampleHallStop_cases asserted order s with h | h | h <;> rw [h]
  · exact hc.congr rfl rfl rfl
  · exact ((hsampled true).raiseDevice .hallStopAsserted).work (events_tripAll .hallStop order _).work
  · exact (hsampled false).raiseDevice .hallStopReleased

theorem counted_syncFound {position : Fin 576} {bits : List Bool} (h : execSyncFound position bits s = .next t) : Counted base t := by
  unfold execSyncFound at h
  split at h
  · cases h
  · split at h <;> cases h <;> exact hc.congr rfl rfl rfl

theorem counted_confirmSync {rest : Vector RingWord 31} {sync : RingWord} (h : execConfirmSync rest sync s = .next t) :
    Counted base t := by
  unfold execConfirmSync at h
  split at h
  · cases h
  · simp only at h
    split at h <;> cases h
    · have hlocked : Counted base { s with
        receiver := { s.receiver with mode := .locked, missCount := 0, position := 18 }
        ringOut := .words (rest.toList ++ [sync]) } := hc.congr rfl rfl rfl
      exact hlocked.raiseDevice .linkLocked
    · exact hc.congr rfl rfl rfl

theorem counted_passSlot (slot : Slot) : Counted base (passSlot slot s) := by
  have hpassed : Counted base (afterPassing slot s) := hc.congr rfl rfl rfl
  rw [passSlot_eq]
  split
  · exact hpassed.raiseDevice .linkLocked
  · exact hpassed

theorem counted_goodTurn (slot : Slot) : Counted base (forward slot (goodTurn s)) := hc.congr rfl rfl rfl

theorem counted_missedTurn (slot : Slot) (order : List Channel) : Counted base (missedTurn slot order s) := by
  rcases Nat.lt_or_ge s.receiver.missCount 3 with h | h
  · rw [missedTurn_counts slot order h]; exact hc.congr rfl rfl rfl
  · have hsearching : Counted base (searching slot s) := hc.congr rfl rfl rfl
    rw [missedTurn_loses slot order h]
    exact (hsearching.raiseDevice .linkLost).work (events_tripAll .linkLoss order _).work

theorem counted_queueRequest (r : Request) : Counted base (queueRequest r s) := by
  rw [queueRequest_frame]; exact hc.congr rfl rfl rfl

end

/-- A decision of the Output Arbiter empties an outbox at most (R16, R17). -/
theorem chan_decideSlot_unsent (empty : Slot) (s : State) (c : Channel) :
    (decideSlot empty s).chan c = s.chan c ∨ (decideSlot empty s).chan c = { s.chan c with outbox := none } := by
  by_cases h63 : s.nodeAddress = 63
  · rw [decideSlot, if_pos h63]; exact .inl rfl
  · have hclaims : (claimantsOnly s).chan c = s.chan c ∨ (claimantsOnly s).chan c = { s.chan c with outbox := none } := by
      rw [chan_claimantsOnly]
      unfold discardUnaddressed
      split
      · split
        · exact .inr rfl
        · exact .inl rfl
      · exact .inl rfl
    rcases chan_decideSlot empty h63 c with h | h <;> rw [h]
    · exact hclaims
    · rcases hclaims with h | h <;> rw [h] <;> exact .inr rfl

theorem counted_decideSlot (hc : Counted base s) (empty : Slot) : Counted base (decideSlot empty s) := by
  have hframe := offered_decideSlot empty s
  refine { store := ?_, channels := fun c => ?_, lifetimes := lifetimes_congr hc.lifetimes fun c => ?_ }
  · rw [hframe]; exact hc.store.congr rfl rfl
  · rcases chan_decideSlot_unsent empty s c with h | h <;> rw [h]
    · exact hc.channels c
    · exact { hc.channels c with outbox := nofun }
  · rcases chan_decideSlot_unsent empty s c with h | h <;> rw [h]

theorem counted_atTurn {event : SlotEvent} {slot : Slot} {effect : State → State} (hc : Counted base s)
    (h : atTurn event slot effect s = .next t) (heffect : ∀ u, Counted base u → Counted base (effect u)) : Counted base t :=
  atTurn_keeps hc h (fun hc => counted_passSlot hc slot) heffect

/-! ## Requests (R182) -/

section
variable (hl : LifetimesFrom base s)
include hl

/-- The placing of a reply counts nothing. -/
theorem lifetimes_serve {mine : Request → Bool} {body : List Word → State → Option Answer × State}
    (h : serve mine body s = .next t) (hbody : ∀ args, LifetimesFrom base (body args s).2) : LifetimesFrom base t :=
  serve_keeps hl h (fun _ _ _ hu => hu) hbody

theorem lifetimes_serveWhole {kind : Nat} {body : List Word → State → Answer × State}
    (h : serveWhole kind body s = .next t) (hbody : ∀ args, LifetimesFrom base (body args s).2) : LifetimesFrom base t :=
  lifetimes_serve hl h hbody

theorem lifetimes_inRangeOr {α : Type} {field : Option α} {body : α → Answer × State}
    (hbody : ∀ a, LifetimesFrom base (body a).2) : LifetimesFrom base (inRangeOr field s body).2 := inRangeOr_keeps hl hbody

/-! ## Requests that fold nothing -/

theorem lifetimes_writeChannelConfig (args : List Word) : LifetimesFrom base (writeChannelConfig args s).2 :=
  lifetimes_inRangeOr hl fun c => lifetimes_inRangeOr hl fun config => by
    split
    · exact lifetimes_modChan hl c rfl
    · exact hl

theorem lifetimes_startCheck (args : List Word) : LifetimesFrom base (startCheck args s).2 := by
  unfold startCheck
  split
  · split
    · exact hl
    · split <;> exact hl
  · exact hl

/-- FRESH clears the counters of the cycle, none of the lifetime (R82, R164). -/
theorem lifetimes_beginRun (c : Channel) (mode : StartMode) : LifetimesFrom base (beginRun c mode s) := by
  have hbegun : LifetimesFrom base (s.modChan c (beginContext s.msTime)) := lifetimes_modChan hl c rfl
  match mode with
  | .fresh => exact lifetimes_arbiterWork (lifetimes_modChan hbegun c rfl) (arbiterWork_produceSetpoint c true _)
  | .continue => exact lifetimes_arbiterWork hbegun (arbiterWork_produceSetpoint c true _)

theorem lifetimes_completeStart (w : Walk) : LifetimesFrom base (completeStart w s).2 := by
  unfold completeStart
  split
  · exact hl
  · split
    · exact hl
    · split
      · exact hl
      · exact lifetimes_beginRun hl w.channel w.mode

theorem lifetimes_programCheckCompletion (h : execProgramCheckCompletion s = .next t) : LifetimesFrom base t := by
  unfold execProgramCheckCompletion at h
  split at h
  · cases h
  · next w _ =>
    split at h
    · cases h
    · cases h
      have hended : LifetimesFrom base { s with walk := none } := hl
      exact lifetimes_completeStart hended w

theorem lifetimes_skipRequest (c : Channel) : LifetimesFrom base (skipRequest c s).2 := by
  unfold skipRequest
  split
  · exact lifetimes_modChan hl c rfl
  · exact hl

theorem lifetimes_clearTripRequest (c : Channel) : LifetimesFrom base (clearTripRequest c s).2 := by
  unfold clearTripRequest
  split
  · exact hl
  · split
    · exact lifetimes_modChan hl c rfl
    · exact hl

theorem lifetimes_writeStepHead (args : List Word) : LifetimesFrom base (writeStepHead args s).2 :=
  lifetimes_inRangeOr hl fun head => by
    split
    · exact hl
    · unfold acceptHead
      split <;> exact hl

theorem lifetimes_writeStepRest (args : List Word) : LifetimesFrom base (writeStepRest args s).2 :=
  lifetimes_inRangeOr hl fun (index, owner, more) => by
    show LifetimesFrom base (writeStepTail index owner more s).2
    unfold writeStepTail
    split
    · exact hl
    · split
      · exact hl
      · split
        · exact hl
        · split <;> exact hl

theorem lifetimes_freeSteps (c : Channel) : LifetimesFrom base (freeSteps c s).2 := by
  unfold freeSteps
  split <;> exact hl

theorem lifetimes_putRouteRequest (r : Route) : LifetimesFrom base (putRouteRequest r s).2 := by
  unfold putRouteRequest
  split <;> exact hl

theorem lifetimes_removeRoute (source index : Nat) : LifetimesFrom base (removeRoute source index s).2 := by
  unfold removeRoute
  split
  · exact hl
  · split <;> exact hl

theorem lifetimes_writeLimits (args : List Word) : LifetimesFrom base (writeLimits args s).2 :=
  lifetimes_inRangeOr hl fun c => lifetimes_inRangeOr hl fun limits => by
    split
    · exact hl
    · exact lifetimes_modChan hl c rfl

theorem lifetimes_clearCauses (args : List Word) : LifetimesFrom base (clearCauses args s).2 :=
  lifetimes_inRangeOr hl fun target => lifetimes_inRangeOr hl fun _ => lifetimes_inRangeOr hl fun named => by
    cases target with
    | none => exact hl
    | some c => exact lifetimes_modChan hl c rfl

theorem lifetimes_setHallBudget (args : List Word) : LifetimesFrom base (setHallBudget args s).2 := by
  have hread (importField exportField : Option Nat) : LifetimesFrom base (inRangeOr importField s fun importCap =>
      inRangeOr exportField s fun exportCap =>
        let changed := capChange importCap exportCap s
        (Answer.done (packS32 changed.1.net ++ pack16 changed.2), changed.1)).2 :=
    lifetimes_inRangeOr hl fun importCap => lifetimes_inRangeOr hl fun exportCap => by
      have hcapped : LifetimesFrom base { s with importCap := importCap, exportCap := exportCap } := hl
      exact lifetimes_arbiterWork hcapped ((arbiterWork_shed _).trans (arbiterWork_scan none _))
  exact hread _ _

end

/-! ## Requests that may fold: HOLD, RESUME and STOP (R83, R84, R86) -/

section
variable (hc : Counted base s)
include hc

theorem lifetimes_holdRequest (c : Channel) : LifetimesFrom base (holdRequest c s).2 := by
  have hheld : LifetimesFrom base (enterHolding c (settlePower c s)) := (hc.work (atChannel_hold c s).work).lifetimes
  unfold holdRequest
  split
  · exact lifetimes_modChan hc.lifetimes c rfl
  · exact hheld
  · exact hheld
  all_goals exact hc.lifetimes

theorem lifetimes_resumeRequest (c : Channel) : LifetimesFrom base (resumeRequest c s).2 := by
  unfold resumeRequest
  split
  · exact hc.lifetimes
  · split
    · exact (hc.work (work_resumeHeld c s)).lifetimes
    · split
      · exact lifetimes_modChan hc.lifetimes c rfl
      · exact hc.lifetimes
    all_goals exact hc.lifetimes

theorem lifetimes_stopRequest (c : Channel) : LifetimesFrom base (stopRequest c s).2 := by
  have hstopped : LifetimesFrom base (stopRun c s) := (hc.work (atChannel_stopRun c s).work).lifetimes
  unfold stopRequest
  split
  · exact hc.lifetimes
  · exact hc.lifetimes
  · exact hc.lifetimes
  all_goals exact hstopped

end

/-! ## RESET_DEVICE (R192) -/

/-- The fold of a device reset (R192). -/
theorem lifetime_resetFold {ch : ChannelState} (h : LifetimeOk ch.lifetime) :
    LifetimeOk (resetFold ch).lifetime ∧ LifetimeLe ch.lifetime (resetFold ch).lifetime := by
  unfold resetFold
  split
  · exact ⟨h, lifetimeLe_refl _⟩
  · exact ⟨lifetimeOk_fold _ _ _, lifetimeLe_fold _ _ h⟩

/-- Device reset of a channel keeps its counters, or folds a step that was current. -/
theorem resetChannel_lifetime (s : State) (c : Channel) : ((resetChannel s c).chan c).lifetime = (s.chan c).lifetime ∨
    ((resetChannel s c).chan c).lifetime = (resetFold (s.chan c)).lifetime := by
  unfold resetChannel
  simp only
  rw [State.chan_modChan_self]
  split
  · exact .inl rfl
  · refine .inr ((lifetime_arbitrated (arbiterWork_produceSetpoint c true _ c)).trans ?_)
    rw [State.chan_modChan_self]

/-- The counters within their widths, and none below what it was. -/
def Tallied (base s : State) : Prop :=
  ∀ c, LifetimeOk (s.chan c).lifetime ∧ LifetimeLe (base.chan c).lifetime (s.chan c).lifetime

theorem tallied_resetChannel (h : Tallied base s) (c : Channel) : Tallied base (resetChannel s c) := fun d => by
  by_cases hd : d = c
  · subst hd
    obtain ⟨hok, hle⟩ := h d
    obtain ⟨hfolded, hrisen⟩ := lifetime_resetFold hok
    rcases resetChannel_lifetime s d with hr | hr <;> rw [hr]
    · exact ⟨hok, hle⟩
    · exact ⟨hfolded, lifetimeLe_trans hle hrisen⟩
  · rw [resetChannel_others s hd]; exact h d

theorem tallied_resetFold (cs : List Channel) (h : Tallied base s) : Tallied base (cs.foldl resetChannel s) := by
  induction cs generalizing s with
  | nil => exact h
  | cons c rest ih => exact ih (tallied_resetChannel h c)

theorem lifetimes_resetShared (h : LifetimesFrom base s) : LifetimesFrom base (resetShared s) := h

theorem lifetimes_deviceReset (hc : Counted base s) : LifetimesFrom base (deviceReset s).2 := by
  have hbefore : Tallied base s := fun c => ⟨(hc.channels c).lifetime, hc.lifetimes c⟩
  exact lifetimes_resetShared fun c => (tallied_resetFold allChannels hbefore c).2

/-! ## Every command -/

theorem exec_keeps_lifetimes {i : Instr} (hc : Counted base s) (h : exec i s = .next t) (hclear : i ≠ .clearCounters)
    (hreset : ∀ period, i ≠ .powerOnReset period) : LifetimesFrom base t := by
  have hl := hc.lifetimes
  unfold exec at h
  cases i with
  | powerOnReset period => exact absurd rfl (hreset period)
  | syncFound position bits => exact (counted_syncFound hc h).lifetimes
  | confirmSync rest sync => exact (counted_confirmSync hc h).lifetimes
  | missedSlot slot order => exact (counted_atTurn hc h fun _ hu => counted_missedTurn hu slot order).lifetimes
  | damagedSlot slot => exact (counted_atTurn hc h fun _ hu => counted_goodTurn hu _).lifetimes
  | slotForwarded slot => exact (counted_atTurn hc h fun _ hu => counted_goodTurn hu slot).lifetimes
  | sampleSlotTurn slot order =>
    exact (counted_atTurn hc h fun _ hu => (counted_goodTurn hu slot).work (events_applySample _ _ _ order _).work).lifetimes
  | requestConsumed slot =>
    exact (counted_atTurn hc h fun u hu =>
      counted_decideSlot (counted_queueRequest (s := goodTurn u) (hu.congr rfl rfl rfl) _) _).lifetimes
  | slotStripped slot =>
    exact (counted_atTurn hc h fun u hu => counted_decideSlot (s := goodTurn u) (hu.congr rfl rfl rfl) _).lifetimes
  | emptySlotTurn slot =>
    exact (counted_atTurn hc h fun u hu => counted_decideSlot (s := goodTurn u) (hu.congr rfl rfl rfl) _).lifetimes
  | staleTimerExpiry c => cases h; exact (hc.work (atChannel_staleExpiry c s).work).lifetimes
  | contactorTimerExpiry c => cases h; exact (hc.work (atChannel_contactorExpiry c s).work).lifetimes
  | hallStopAsserted order =>
    simp only [execHallStopAsserted] at h
    split at h <;> cases h
    exact (counted_sampleHallStop hc true order).lifetimes
  | hallStopReleased =>
    simp only [execHallStopReleased] at h
    split at h <;> cases h
    exact (counted_sampleHallStop hc false []).lifetimes
  | hstopNSample asserted order => cases h; exact (counted_sampleHallStop hc asserted order).lifetimes
  | unknownRequest => exact lifetimes_serve hl h (fun _ => hl)
  | identify => exact lifetimes_serveWhole hl h (fun _ => hl)
  | readDeviceStatus => exact lifetimes_serveWhole hl h (fun _ => lifetimes_inRangeOr hl fun _ => hl)
  | setDeviceConfig =>
    exact lifetimes_serveWhole hl h (fun _ => lifetimes_inRangeOr hl fun _ => lifetimes_inRangeOr hl fun _ => hl)
  | clearDeviceFlags => exact lifetimes_serveWhole hl h (fun _ => hl)
  | resetDevice => exact lifetimes_serveWhole hl h (fun _ => lifetimes_deviceReset hc)
  | setHallBudget => exact lifetimes_serveWhole hl h (lifetimes_setHallBudget hl)
  | writeChannelConfig => exact lifetimes_serveWhole hl h (lifetimes_writeChannelConfig hl)
  | readChannelConfig => exact lifetimes_serveWhole hl h (fun _ => lifetimes_inRangeOr hl fun _ => hl)
  | readChannel =>
    exact lifetimes_serveWhole hl h (fun _ => lifetimes_inRangeOr hl fun _ => lifetimes_inRangeOr hl fun _ => hl)
  | start => exact lifetimes_serve hl h (lifetimes_startCheck hl)
  | programCheckCompletion => exact lifetimes_programCheckCompletion hl h
  | hold => exact lifetimes_serveWhole hl h (fun _ => lifetimes_inRangeOr hl (lifetimes_holdRequest hc))
  | resume => exact lifetimes_serveWhole hl h (fun _ => lifetimes_inRangeOr hl (lifetimes_resumeRequest hc))
  | skipStep => exact lifetimes_serveWhole hl h (fun _ => lifetimes_inRangeOr hl (lifetimes_skipRequest hl))
  | stop => exact lifetimes_serveWhole hl h (fun _ => lifetimes_inRangeOr hl (lifetimes_stopRequest hc))
  | clearTrip => exact lifetimes_serveWhole hl h (fun _ => lifetimes_inRangeOr hl (lifetimes_clearTripRequest hl))
  | writeStepPart0 => exact lifetimes_serve hl h (lifetimes_writeStepHead hl)
  | writeStepPart1 => exact lifetimes_serve hl h (lifetimes_writeStepRest hl)
  | readStep =>
    exact lifetimes_serveWhole hl h (fun _ => lifetimes_inRangeOr hl fun _ => lifetimes_inRangeOr hl fun _ => hl)
  | freeSteps => exact lifetimes_serveWhole hl h (fun _ => lifetimes_inRangeOr hl (lifetimes_freeSteps hl))
  | writeRoute => exact lifetimes_serveWhole hl h (fun _ => lifetimes_inRangeOr hl (lifetimes_putRouteRequest hl))
  | removeRoute =>
    exact lifetimes_serveWhole hl h
      (fun _ => lifetimes_inRangeOr hl fun _ => lifetimes_inRangeOr hl fun _ => lifetimes_removeRoute hl _ _)
  | readRoutes =>
    exact lifetimes_serveWhole hl h
      (fun _ => lifetimes_inRangeOr hl fun _ => lifetimes_inRangeOr hl fun _ => lifetimes_inRangeOr hl fun _ => hl)
  | writeLimits => exact lifetimes_serveWhole hl h (lifetimes_writeLimits hl)
  | readLimits => exact lifetimes_serveWhole hl h (fun _ => lifetimes_inRangeOr hl fun _ => hl)
  | readTrip => exact lifetimes_serveWhole hl h (fun _ => lifetimes_inRangeOr hl fun _ => hl)
  | readCounters =>
    exact lifetimes_serveWhole hl h (fun _ => lifetimes_inRangeOr hl fun _ => lifetimes_inRangeOr hl fun _ => hl)
  | readHistory =>
    exact lifetimes_serveWhole hl h (fun _ => lifetimes_inRangeOr hl fun _ => lifetimes_inRangeOr hl fun _ => hl)
  | clearCounters => exact absurd rfl hclear
  | clearCauses => exact lifetimes_serveWhole hl h (lifetimes_clearCauses hl)

end

/-- Settles O11: the front command's own row lets no counter fall. -/
theorem lifetimeCountersNeverFall : Obligations.LifetimeCountersNeverFall := by
  intro c rest s t hfront hclear hreset hstore hchannels hstep
  have hbase : Counted s { s with pending := rest } :=
    Counted.congr { store := hstore, channels := hchannels, lifetimes := .refl s } rfl rfl rfl
  rw [step, hfront] at hstep
  exact exec_keeps_lifetimes hbase hstep hclear hreset

end Sys2Proof.Proofs
end

section
/-! PROOF. Raising a cause and offering its event: the flag, the report level, the place in the queue by class, and a full queue (R174,
R176 to R179). -/

namespace Sys2Proof.Proofs

open Sys2Proof.Machine Sys2Proof.Safety Sys2Proof.Laws

/-! ## Cause flags (R174) -/

theorem mem_allCauses (x : Cause) : x ∈ allCauses := by cases x <;> decide

theorem mem_withCause_iff {x cause : Cause} {flags : List Cause} : x ∈ withCause cause flags ↔ x = cause ∨ x ∈ flags := by
  simp [withCause, mem_allCauses]

/-- A channel cause: its flag, then the offer at or above the report level. -/
theorem raiseChannel_eq (c : Channel) (cause : Cause) (f : EventFields) (s : State) : raiseChannel c cause f s =
    if (s.chan c).config.reportLevel.val ≤ cause.cls then
      offerEvent (formEvent cause (some c) f s) (s.modChan c (fun ch => { ch with causes := withCause cause ch.causes }))
    else s.modChan c (fun ch => { ch with causes := withCause cause ch.causes }) := by
  unfold raiseChannel
  simp only [State.chan_modChan_self]
  rfl

/-- A device cause: its flag, then the offer at or above the device report level. -/
theorem raiseDevice_offers (cause : Cause) (s : State) : raiseDevice cause s =
    if s.deviceReportLevel.val ≤ cause.cls then
      offerEvent (formEvent cause none {} s) { s with deviceCauses := withCause cause s.deviceCauses }
    else { s with deviceCauses := withCause cause s.deviceCauses } := rfl

theorem deviceCauses_raiseDevice (cause : Cause) (s : State) : (raiseDevice cause s).deviceCauses = withCause cause s.deviceCauses := by
  obtain ⟨_, _, h⟩ := raiseDevice_eq cause s
  rw [h]

/-- The class of a cause by its code (R176). -/
theorem cls_eq_of_code (cause : Cause) : cause.cls =
    if cause.code ≤ 0x0B ∨ cause.code = 0x10 ∨ cause.code = 0x11 then 3
    else if 0x20 ≤ cause.code ∧ cause.code ≤ 0x22 then 2
    else if cause.code = 0x12 ∨ cause.code = 0x13 ∨ (0x28 ≤ cause.code ∧ cause.code ≤ 0x2A) then 1 else 0 := by
  cases cause <;> decide

/-! ## The event's place (R178) -/

/-- In a queue in class order the first entry of lower class has only lower ones behind it, so that the place before it is the one behind
every entry of the event's class or above. -/
theorem insertEvent_eq (e : Event) {q : List Event} (h : EventsOrdered q) : insertEvent e q =
    q.filter (fun d => decide (e.cls ≤ d.cls)) ++ e :: q.filter (fun d => decide (d.cls < e.cls)) := by
  induction q with
  | nil => rfl
  | cons d rest ih =>
    obtain ⟨hd, hrest⟩ := List.pairwise_cons.mp h
    rw [insertEvent]
    split
    · next hlt =>
      have hlower : ∀ x ∈ d :: rest, x.cls < e.cls := by
        simp only [List.mem_cons, forall_eq_or_imp]
        exact ⟨hlt, fun x hx => (hd x hx).trans_lt hlt⟩
      rw [List.filter_eq_self.mpr fun x hx => decide_eq_true (hlower x hx),
        List.filter_eq_nil_iff.mpr fun x hx => by rw [decide_eq_true_eq]; exact Nat.not_le.mpr (hlower x hx), List.nil_append]
    · next hge =>
      have hle : e.cls ≤ d.cls := Nat.not_lt.mp hge
      simp only [ih hrest, List.filter_cons, hle, hge, decide_true, decide_false, if_true, Bool.false_eq_true, if_false,
        List.cons_append]

/-! ## The offer (R178, R179) -/

section
variable {e last : Event} {s : State} {kept : List Event}

theorem offerEvent_roomy (h : s.eventQueue.length < 32) :
    offerEvent e s = { s with eventQueue := insertEvent e s.eventQueue } := if_pos h

variable (hq : s.eventQueue = kept ++ [last]) (hfull : kept.length = 31)
include hq hfull

/-- A full queue's decision rests on its last entry. -/
theorem offerEvent_full : offerEvent e s =
    if last.cls < e.cls then { s with eventQueue := insertEvent e kept, eventOverflow := true }
    else { s with eventOverflow := true } := by
  have hlength : ¬s.eventQueue.length < Config.eventCapacity := by
    rw [hq, List.length_append, hfull]; exact Nat.lt_irrefl 32
  rw [offerEvent, if_neg hlength, hq, List.getLast?_concat, List.dropLast_concat]

end

/-- Settles O58: the raise of a channel cause and of a device cause, the classes, and the offer to a queue with room and to a full one. -/
theorem eventQueuePolicy : Obligations.EventQueuePolicy := by
  refine ⟨?_, ?_, cls_eq_of_code, ?_⟩
  · -- a channel cause
    intro c cause f s t flagged
    have hcauses : (t.chan c).causes = withCause cause (s.chan c).causes := by
      show ((raiseChannel c cause f s).chan c).causes = _
      rw [chan_raiseChannel, if_pos rfl]
    have hflagged : flagged = s.modChan c (fun ch => { ch with causes := withCause cause ch.causes }) := modChan_congr (by rw [hcauses])
    refine ⟨fun x => by rw [hcauses, mem_withCause_iff], ?_⟩
    rw [hflagged]
    exact raiseChannel_eq c cause f s
  · -- a device cause
    intro cause s t flagged
    have hcauses : t.deviceCauses = withCause cause s.deviceCauses := deviceCauses_raiseDevice cause s
    have hflagged : flagged = { s with deviceCauses := withCause cause s.deviceCauses } := by
      show { s with deviceCauses := t.deviceCauses } = _
      rw [hcauses]
    refine ⟨fun x => by rw [hcauses, mem_withCause_iff], ?_⟩
    rw [hflagged]
    exact raiseDevice_offers cause s
  · -- the queue
    intro e s hordered placed
    refine ⟨fun hroom => ?_, fun kept last hq hfull => ⟨fun hlower => ?_, fun hnot => ?_⟩⟩
    · rw [offerEvent_roomy hroom, insertEvent_eq e hordered]
    · have hkept : EventsOrdered kept := List.Pairwise.sublist (List.sublist_append_left kept [last]) (hq ▸ hordered)
      rw [offerEvent_full hq hfull, if_pos hlower, insertEvent_eq e hkept]
    · rw [offerEvent_full hq hfull, if_neg (Nat.not_lt.mpr hnot)]

end Sys2Proof.Proofs
end

section
/-! PROOF. The requests that clear: CLEAR_COUNTERS (R164, R173) and CLEAR_CAUSES (R175). -/

namespace Sys2Proof.Proofs

open Sys2Proof.Machine Sys2Proof.Safety Sys2Proof.Laws

/-! ## CLEAR_COUNTERS (R164, R173) -/

theorem channelRow_clearCounters : ChannelRow .clearCounters 0x3A (fun args c s => inRangeOr (argIn 0 2 args 1) s fun selector =>
    okWith (s.modChan c (clearCountersOf selector))) := fun _ => rfl

/-- What an accepted CLEAR_COUNTERS does to its channel. -/
theorem exec_clearCounters {s : State} {r : Request} {rest : List Request} {c : Channel} {selector : Nat} (ht : Taken s r rest)
    (hk : r.kind = 0x3A) (hc : argNat r.args 0 = c.val) (hsel : argNat r.args 1 = selector) (hle : selector ≤ 2) :
    exec .clearCounters s = .next (answered r rest .ok [] (s.modChan c (clearCountersOf selector))) :=
  channelRow_clearCounters.ok ht hk hc (by simp only [argIn_zero, hsel, hle, if_true, inRangeOr]) rfl

theorem exec_clearCounters_range {s : State} {r : Request} {rest : List Request} (ht : Taken s r rest) (hk : r.kind = 0x3A)
    (h : 7 < argNat r.args 0 ∨ 2 < argNat r.args 1) : exec .clearCounters s = .next (answered r rest .range [] s) := by
  rcases Nat.lt_or_ge 7 (argNat r.args 0) with habove | hchannel
  · exact channelRow_clearCounters.range ht hk habove
  · have hsel : ¬argNat r.args 1 ≤ 2 := Nat.not_le.mpr (h.resolve_left (Nat.not_lt.mpr hchannel))
    have hc : argNat r.args 0 = (⟨argNat r.args 0, Nat.lt_succ_of_le hchannel⟩ : Channel).val := rfl
    exact channelRow_clearCounters.refused ht hk hc (by simp only [argIn_zero, hsel, if_false, inRangeOr]; rfl)

/-! ## The operands of CLEAR_CAUSES: its target and the causes named (R175) -/

/-- Ascending code order, in which flags are listed. -/
def ByCode (flags : List Cause) : Prop := flags.Pairwise (fun x y => x.code < y.code)

theorem byCode_allCauses : ByCode allCauses := by unfold ByCode; decide

theorem cause_ofCode_eq_some {n : Nat} {cause : Cause} : Cause.ofCode n = some cause ↔ cause.code = n := by
  constructor
  · intro h
    have hfound : (cause.code == n) = true := List.find?_some (p := fun c : Cause => c.code == n) h
    exact beq_iff_eq.mp hfound
  · rintro rfl
    cases cause <;> rfl

section
variable (args : List Word) (device : Bool)

/-- The word at a position is the code of a cause of the target. -/
def NamesCause (i : Nat) : Prop := ∃ cause : Cause, cause.code = argNat args i ∧ cause.ofDevice = device

variable {args device}

/-- Codes that are all causes of the target are read as those causes. -/
theorem readCauses_some {n k : Nat} (h : ∀ i, i < n → NamesCause args device (k + i)) : ∃ named,
    readCauses args device n k = some named ∧ ∀ x : Cause, x ∈ named ↔ ∃ i, i < n ∧ argNat args (k + i) = x.code := by
  induction n generalizing k with
  | zero => exact ⟨[], rfl, fun x => by simp⟩
  | succ n ih =>
    obtain ⟨cause, hcode, hdevice⟩ := h 0 n.succ_pos
    obtain ⟨named, hread, hmem⟩ := ih (k := k + 1) fun i hi => by
      rw [Nat.add_right_comm, Nat.add_assoc]; exact h (i + 1) (Nat.succ_lt_succ hi)
    refine ⟨cause :: named, ?_, fun x => ?_⟩
    · rw [Nat.add_zero, ← cause_ofCode_eq_some] at hcode
      simp only [readCauses, hcode, hdevice, if_true, hread, Option.map_some]
    · have hfirst : x = cause ↔ argNat args (k + 0) = x.code := by
        rw [← hcode, ← cause_ofCode_eq_some, cause_ofCode_eq_some.mpr rfl, Option.some.injEq, eq_comm]
      rw [List.mem_cons, hmem, hfirst]
      constructor
      · rintro (h0 | ⟨i, hi, hx⟩)
        · exact ⟨0, n.succ_pos, h0⟩
        · exact ⟨i + 1, Nat.succ_lt_succ hi, by rw [← hx, Nat.add_right_comm, Nat.add_assoc]⟩
      · rintro ⟨i, hi, hx⟩
        cases i with
        | zero => exact .inl hx
        | succ i => exact .inr ⟨i, Nat.lt_of_succ_lt_succ hi, by rw [← hx, Nat.add_right_comm, Nat.add_assoc]⟩

/-- One code that is no cause of the target refuses them all. -/
theorem readCauses_none {n k i : Nat} (hi : i < n) (h : ¬NamesCause args device (k + i)) : readCauses args device n k = none := by
  induction n generalizing k i with
  | zero => exact absurd hi i.not_lt_zero
  | succ n ih =>
    rw [readCauses]
    split
    · rfl
    · next cause hcode =>
      split
      · next hdevice =>
        cases i with
        | zero => exact absurd ⟨cause, cause_ofCode_eq_some.mp hcode, hdevice⟩ h
        | succ i =>
          rw [ih (k := k + 1) (Nat.lt_of_succ_lt_succ hi) (by rw [Nat.add_right_comm, Nat.add_assoc]; exact h), Option.map_none]
      · rfl

theorem readTarget_device (h : argNat args 0 = 8) : readTarget args = some none := if_pos h

theorem readTarget_channel {c : Channel} (h : argNat args 0 = c.val) : readTarget args = some (some c) := by
  have hne : argNat args 0 ≠ 8 := by omega
  rw [readTarget, if_neg hne, argChannel_eq h, Option.map_some]

theorem readTarget_none (h : 8 < argNat args 0) : readTarget args = none := by
  have hne : argNat args 0 ≠ 8 := by omega
  rw [readTarget, if_neg hne, argChannel_above (by omega), Option.map_none]

/-- The codes are read for the device exactly when the target is the device. -/
theorem readTarget_isNone {target : Option Channel} (h : readTarget args = some target) :
    target.isNone = (argNat args 0 == 8) := by
  unfold readTarget at h
  split at h
  · next h8 => cases h; simp [h8]
  · next h8 =>
    obtain ⟨c, -, rfl⟩ := Option.map_eq_some_iff.mp h
    simp [h8]

end

/-! ## The flags cleared and listed (R175) -/

section
variable {named flags : List Cause} {x : Cause}

theorem mem_withoutCauses : x ∈ withoutCauses named flags ↔ x ∈ flags ∧ x ∉ named := by simp [withoutCauses]

theorem mem_namedAndSet : x ∈ namedAndSet named flags ↔ x ∈ flags ∧ x ∈ named := by
  simp [namedAndSet, mem_allCauses, and_comm]

theorem byCode_namedAndSet (named flags : List Cause) : ByCode (namedAndSet named flags) := byCode_allCauses.filter _

theorem packList_codes (cleared : List Cause) : packList pack16 (cleared.map Cause.code) =
    BitVec.ofNat 16 cleared.length :: cleared.map (fun x => BitVec.ofNat 16 x.code) := by
  simp only [packList, pack16, List.length_map, List.flatMap_map, List.singleton_append,
    ← List.map_eq_flatMap]

end

/-! ## CLEAR_CAUSES (R175) -/

section
variable {s : State} {r : Request} {rest : List Request} (ht : Taken s r rest) (hk : r.kind = 0x3B)
include ht hk

theorem exec_clearCauses_of {a : Answer} {t : State} (hb : clearCauses r.args s = (a, t)) (hq : t.requestQueue = s.requestQueue) :
    exec .clearCauses s = .next (answered r rest a.outcome a.results t) := by
  show serveWhole 0x3B clearCauses s = _
  exact serve_answered ht (beq_iff_eq.mpr hk) (by rw [hb]) hq

/-- Operands in range: the named flags of the target are cleared, and those that were set are listed. -/
theorem exec_clearCauses {target : Option Channel} {named : List Cause} (htarget : readTarget r.args = some target)
    (hcount : argNat r.args 1 ≤ 22) (hnamed : readCauses r.args (argNat r.args 0 == 8) (argNat r.args 1) 2 = some named) :
    exec .clearCauses s = .next (answered r rest .ok
      (BitVec.ofNat 16 (namedAndSet named (causeFlags target s)).length ::
        (namedAndSet named (causeFlags target s)).map (fun x => BitVec.ofNat 16 x.code)) (clearNamed target named s).2) := by
  have hbody : clearCauses r.args s = clearNamed target named s := by
    simp only [clearCauses, htarget, argIn_zero, hcount, if_true, inRangeOr, readTarget_isNone htarget, hnamed]
  rw [← packList_codes]
  exact exec_clearCauses_of ht hk hbody (by cases target <;> rfl)

/-- Operands out of range: the target, the count, or a code that is no cause of the target. -/
theorem exec_clearCauses_range (h : 8 < argNat r.args 0 ∨ 22 < argNat r.args 1 ∨
    ∃ i, i < argNat r.args 1 ∧ ¬NamesCause r.args (argNat r.args 0 == 8) (2 + i)) :
    exec .clearCauses s = .next (answered r rest .range [] s) := by
  have hbody : clearCauses r.args s = (Answer.refuse .range, s) := by
    unfold clearCauses
    cases htarget : readTarget r.args with
    | none => rfl
    | some target =>
      by_cases hcount : argNat r.args 1 ≤ 22
      · have hnone : readCauses r.args (argNat r.args 0 == 8) (argNat r.args 1) 2 = none := by
          rcases h with h | h | ⟨i, hi, hnot⟩
          · rw [readTarget_none h] at htarget; cases htarget
          · exact absurd hcount (Nat.not_le.mpr h)
          · exact readCauses_none hi hnot
        simp only [argIn_zero, hcount, if_true, inRangeOr, readTarget_isNone htarget, hnone]
      · simp only [argIn_zero, hcount, if_false, inRangeOr]
  exact exec_clearCauses_of ht hk hbody rfl

end

/-- Settles O55: CLEAR_COUNTERS by its selector; CLEAR_CAUSES by its operands and its target. -/
theorem clearingRequests : Obligations.ClearingRequests := by
  intro s r rest ht
  refine ⟨fun hk => ⟨exec_clearCounters_range ht hk, fun c hc => ⟨fun h0 => ?_, fun h1 => ?_, fun h2 => ?_⟩⟩, fun hk => ?_⟩
  · exact exec_clearCounters ht hk hc h0 (by decide)
  · exact exec_clearCounters ht hk hc h1 (by decide)
  · exact exec_clearCounters ht hk hc h2 (by decide)
  · intro count fits named
    refine ⟨exec_clearCauses_range ht hk, fun hcount hfits => ?_⟩
    obtain ⟨causes, hread, hmem⟩ := readCauses_some hfits
    have hnamed (x : Cause) : x ∈ causes ↔ named x := hmem x
    refine ⟨fun hdevice => ?_, fun c hc => ?_⟩
    · refine ⟨_, _, exec_clearCauses ht hk (readTarget_device hdevice) hcount hread, fun x => ?_, fun x => ?_,
        byCode_namedAndSet _ _⟩
      · rw [mem_withoutCauses, hnamed]
      · rw [mem_namedAndSet, hnamed]; rfl
    · refine ⟨withoutCauses causes (s.chan c).causes, _, exec_clearCauses ht hk (readTarget_channel hc) hcount hread,
        fun x => ?_, fun x => ?_, byCode_namedAndSet _ _⟩
      · rw [mem_withoutCauses, hnamed]
      · rw [mem_namedAndSet, hnamed]; rfl

end Sys2Proof.Proofs
end

section
/-! PROOF. The requests on the device (R183, R187, R188, R190 to R193): UNKNOWN_REQUEST, IDENTIFY, SET_DEVICE_CONFIG, CLEAR_DEVICE_FLAGS
and RESET_DEVICE. -/

namespace Sys2Proof.Proofs

open Sys2Proof.Machine Sys2Proof.Safety Sys2Proof.Laws

/-! ## A whole request (R182, R184) -/

theorem engineReady_of_taken {s : State} {r : Request} {rest : List Request} (ht : Taken s r rest) : s.engineReady = true := by
  obtain ⟨-, hroom, hwalk⟩ := ht
  simp [State.engineReady, Config.replyCapacity, hroom, hwalk]

section
variable {s t : State} {r : Request} {rest : List Request} {kind : Nat} {body : List Word → State → Answer × State} {a : Answer}
variable (ht : Taken s r rest) (hk : r.kind = kind)
include ht hk

theorem serveWhole_taken : serveWhole kind body s = .next (finishRequest r (body r.args s).1 (body r.args s).2) := by
  have hready := engineReady_of_taken ht
  obtain ⟨hhead, -⟩ := ht
  simp only [serveWhole, serve, hhead, hk, beq_self_eq_true, hready, if_true]

theorem serveWhole_answered (hb : body r.args s = (a, t)) (hq : t.requestQueue = s.requestQueue) :
    serveWhole kind body s = .next (answered r rest a.outcome a.results t) :=
  serve_answered ht (beq_iff_eq.mpr hk) (by rw [hb]) hq

end

/-! ## UNKNOWN_REQUEST (R183) -/

/-- Settles O29: a kind outside the table is the row's own. -/
theorem unknownRequestIsAnswered : Obligations.UnknownRequestIsAnswered := by
  intro s r rest ht hk
  have hmine : (!knownKinds.contains r.kind) = true := by
    rw [Bool.not_eq_true', List.contains_eq_mem, decide_eq_false_iff_not]
    exact hk
  show serve _ (fun _ s => (some (Answer.refuse .unknownRequest), s)) s = _
  exact serve_answered (a := Answer.refuse .unknownRequest) ht hmine rfl rfl

/-! ## IDENTIFY (R188), and the node address that consumes no request (R13) -/

theorem slotEvent_ne_consumed {s : State} (h63 : s.nodeAddress = 63) (slot : Slot) : slotEvent s slot ≠ .consumed := by
  have hout : s.takesPart = false := by simp [State.takesPart, h63]
  unfold slotEvent
  rw [hout]
  split
  · nofun
  · split
    · nofun
    · split <;> nofun

theorem passSlot_kept (slot : Slot) (s : State) :
    (passSlot slot s).nodeAddress = s.nodeAddress ∧ (passSlot slot s).requestQueue = s.requestQueue := by
  rw [passSlot_eq]
  split
  · obtain ⟨_, _, h⟩ := raiseDevice_eq .linkLocked (afterPassing slot s)
    rw [h]; exact ⟨rfl, rfl⟩
  · exact ⟨rfl, rfl⟩

/-- Everything a slot command can do: its row's effect in the state it finds or passes to, or no more than pass. -/
theorem atTurn_next {event : SlotEvent} {slot : Slot} {effect : State → State} {s t : State}
    (h : atTurn event slot effect s = .next t) :
    (∃ u, (u = s ∨ u = passSlot slot s) ∧ slotEvent u slot = event ∧ t = effect u) ∨ t = passSlot slot s := by
  unfold atTurn at h
  split at h
  · exact .inl ⟨s, .inl rfl, takeTurn_next h⟩
  · simp only at h
    split at h
    · exact .inl ⟨_, .inr rfl, takeTurn_next h⟩
    · cases h; exact .inr rfl

/-- Settles O30: the thirteen results; a part with address 63 never finds a slot's turn to be a request's. -/
theorem identifyAnswersIdentity : Obligations.IdentifyAnswersIdentity := by
  refine ⟨fun s r rest ht hk => ?_, fun slot s t h63 hexec => ?_⟩
  · exact serveWhole_answered (body := fun _ s => (Answer.done (identity s), s)) ht hk rfl rfl
  · obtain ⟨haddress, hqueue⟩ := passSlot_kept slot s
    rcases atTurn_next hexec with ⟨u, rfl | rfl, hevent, -⟩ | rfl
    · exact absurd hevent (slotEvent_ne_consumed h63 slot)
    · exact absurd hevent (slotEvent_ne_consumed (haddress.trans h63) slot)
    · exact hqueue

/-! ## SET_DEVICE_CONFIG, CLEAR_DEVICE_FLAGS (R187, R190) -/

theorem setDeviceConfig_done {args : List Word} {level : Fin 4} (hd : argNat args 0 ≤ 62) (hl : argNat args 1 = level.val)
    (s : State) : setDeviceConfig args s =
      (Answer.done [], { s with eventDestination := argNat args 0, deviceReportLevel := level }) := by
  have hfour : argFour args 1 = some level := by simp [argFour, hl]
  simp only [setDeviceConfig, argIn_zero, hd, if_true, hfour, inRangeOr]

theorem setDeviceConfig_range {args : List Word} (h : 62 < argNat args 0 ∨ 3 < argNat args 1) (s : State) :
    setDeviceConfig args s = (Answer.refuse .range, s) := by
  by_cases hd : argNat args 0 ≤ 62
  · have hl : ¬argNat args 1 ≤ 3 := by omega
    simp only [setDeviceConfig, argIn_zero, hd, if_true, argFour_eq, hl, if_false, inRangeOr]
  · simp only [setDeviceConfig, argIn_zero, hd, if_false, inRangeOr]

/-- Settles O31: the two fields in range or not; the flags listed, then cleared. -/
theorem deviceSettingRequests : Obligations.DeviceSettingRequests := by
  intro s r rest ht
  refine ⟨fun hk => ⟨fun level hd hl => ?_, fun hrange => ?_⟩, fun hk => ?_⟩
  · exact serveWhole_answered ht hk (setDeviceConfig_done hd hl s) rfl
  · exact serveWhole_answered ht hk (setDeviceConfig_range hrange s) rfl
  · exact serveWhole_answered (body := fun _ s => clearDeviceFlags s) ht hk rfl rfl

/-! ## RESET_DEVICE: a channel (R192) -/

/-- A channel that device reset takes to IDLE: its step folded, its run ended (R79, R192). -/
def resetRun (ch : ChannelState) : ChannelState :=
  { resetFold ch with currentStep := none, status := .idle, runOutcome := .reset }

/-- A channel after device reset, as a function of the channel alone. -/
def resetOf (ch : ChannelState) : ChannelState :=
  clearWork (if ch.status = .idle then ch else placeSetpoint .off 0 true (resetRun ch))

theorem resetChannel_chan (s : State) (c : Channel) : (resetChannel s c).chan c = resetOf (s.chan c) := by
  unfold resetChannel resetOf
  simp only
  rw [State.chan_modChan_self]
  split
  · rfl
  · have hoff : driveKind (s.modChan c resetRun) c = none :=
      driveKind_eq_none (by rw [State.chan_modChan_self]; exact fun h => nomatch h)
    show clearWork ((produceSetpoint c true (s.modChan c resetRun)).chan c) = _
    rw [produceSetpoint_off hoff, State.chan_modChan_self, State.chan_modChan_self]

theorem chan_foldl_resetChannel_of_notMem {cs : List Channel} {c : Channel} (h : c ∉ cs) (s : State) :
    (cs.foldl resetChannel s).chan c = s.chan c := by
  induction cs generalizing s with
  | nil => rfl
  | cons d rest ih =>
    obtain ⟨hne, hrest⟩ := List.ne_and_not_mem_of_not_mem_cons h
    exact (ih hrest _).trans (resetChannel_others s hne)

/-- Each channel of a list without repetition is reset once. -/
theorem chan_foldl_resetChannel {cs : List Channel} (hnodup : cs.Nodup) {c : Channel} (h : c ∈ cs) (s : State) :
    (cs.foldl resetChannel s).chan c = resetOf (s.chan c) := by
  induction cs generalizing s with
  | nil => exact absurd h List.not_mem_nil
  | cons d rest ih =>
    obtain ⟨hd, hrest⟩ := List.nodup_cons.mp hnodup
    by_cases hcd : c = d
    · subst hcd
      exact (chan_foldl_resetChannel_of_notMem hd _).trans (resetChannel_chan s c)
    · have hmem : c ∈ rest := (List.mem_cons.mp h).resolve_left hcd
      exact (ih hrest hmem _).trans (by rw [resetChannel_others s hcd])

theorem chan_resetAll (s : State) (c : Channel) : (allChannels.foldl resetChannel s).chan c = resetOf (s.chan c) :=
  chan_foldl_resetChannel (List.nodup_finRange 8) (List.mem_finRange c) s

theorem point_forgetPoints (ch : ChannelState) (p : PointNumber) :
    (forgetPoints ch).point p = { value := (ch.point p).value, age := 255, updated := false } := by
  simp [forgetPoints, ChannelState.point]

theorem resetFold_noStep {ch : ChannelState} (h : ch.currentStep = none) : resetFold ch = ch := by
  rw [resetFold, h]

theorem resetFold_currentStep {ch : ChannelState} (h : ch.currentStep ≠ none) :
    resetFold ch = foldCounters (reportedCharge ch) (reportedEnergy ch) ch.timeCoarse ch := by
  obtain ⟨i, hi⟩ := Option.ne_none_iff_exists'.mp h
  rw [resetFold, hi]

/-- The fold of a device reset: the counters of a step that was current, nothing else (R192). -/
theorem resetFold_eq (ch : ChannelState) : ∃ lifetime cycle, resetFold ch = { ch with lifetime := lifetime, cycle := cycle } ∧
    (ch.currentStep = none → lifetime = ch.lifetime ∧ cycle = ch.cycle) ∧
    (ch.currentStep ≠ none →
      lifetime = foldLifetime (reportedCharge ch) (reportedEnergy ch) ch.lifetime ∧
      cycle = foldCycle (reportedCharge ch) (reportedEnergy ch) ch.timeCoarse ch.cycle) := by
  by_cases hstep : ch.currentStep = none
  · exact ⟨ch.lifetime, ch.cycle, resetFold_noStep hstep, fun _ => ⟨rfl, rfl⟩, fun h => absurd hstep h⟩
  · exact ⟨_, _, resetFold_currentStep hstep, fun h => absurd h hstep, fun _ => ⟨rfl, rfl⟩⟩

/-- What device reset clears and keeps of a channel, given how its run and its setpoint end (R32, R79, R192). -/
theorem deviceResetChannel_clearWork {before : ChannelState} {outcome : RunOutcome} {entry : Option OutboxEntry}
    {last : Option Setpoint} {refresh : Nat} {step : Option Nat} {lifetime : Lifetime} {cycle : CycleTotals}
    (hstate : outcome = if before.status = .idle then before.runOutcome else .reset)
    (houtbox : entry = if before.status = .idle then before.outbox
      else some { setpoint := offSetpoint before .open, urgent := true })
    (hlast : last = if before.status = .idle then before.lastSetpoint else some (offSetpoint before .open))
    (hrefresh : refresh = if before.status = .idle then before.refreshCount else (before.refreshCount + 1) % 256)
    (hkept : before.status = .idle ∨ before.currentStep = none → lifetime = before.lifetime ∧ cycle = before.cycle)
    (hfolded : before.status ≠ .idle → before.currentStep ≠ none →
      lifetime = foldLifetime (reportedCharge before) (reportedEnergy before) before.lifetime ∧
      cycle = foldCycle (reportedCharge before) (reportedEnergy before) before.timeCoarse before.cycle) :
    DeviceResetChannel before (clearWork { before with
      status := .idle, runOutcome := outcome, outbox := entry, lastSetpoint := last, refreshCount := refresh, currentStep := step
      lifetime := lifetime, cycle := cycle }) where
  state := ⟨rfl, hstate⟩
  outbox := houtbox
  last := ⟨hlast, hrefresh⟩
  pendings := ⟨rfl, rfl, rfl, rfl, rfl⟩
  step := ⟨rfl, rfl, rfl⟩
  marks := ⟨rfl, rfl, rfl, rfl⟩
  timers := ⟨rfl, rfl⟩
  totals := ⟨rfl, rfl, rfl, rfl, rfl⟩
  fold := ⟨hkept, hfolded⟩
  cycles := ⟨rfl, rfl, rfl, rfl⟩
  points := ⟨point_forgetPoints before, rfl, rfl⟩
  monitor := ⟨rfl, rfl, rfl, rfl⟩
  tables := ⟨rfl, rfl⟩

theorem deviceResetChannel_resetOf (ch : ChannelState) : DeviceResetChannel ch (resetOf ch) := by
  by_cases h : ch.status = .idle
  · have hsame : resetOf ch = clearWork { ch with status := .idle } := by rw [resetOf, if_pos h, ← h]
    rw [hsame]
    exact deviceResetChannel_clearWork (if_pos h).symm (if_pos h).symm (if_pos h).symm (if_pos h).symm (fun _ => ⟨rfl, rfl⟩)
      (fun hne => absurd h hne)
  · obtain ⟨lifetime, cycle, hfold, hkept, hfolded⟩ := resetFold_eq ch
    rw [resetOf, if_neg h, resetRun, hfold]
    exact deviceResetChannel_clearWork (if_neg h).symm (if_neg h).symm (if_neg h).symm (if_neg h).symm
      (fun hnone => hkept (hnone.resolve_left h)) (fun _ => hfolded)

/-! ## RESET_DEVICE: the shared blocks and the reply (R191, R193) -/

/-- Device reset as its channels, each reset, under the shared blocks. -/
theorem deviceReset_eq (s : State) : ∃ channels, (deviceReset s).2 = resetShared { s with channels := channels } ∧
    ∀ c, DeviceResetChannel (s.chan c) (channels.get c) := by
  have hchan (c : Channel) : DeviceResetChannel (s.chan c) ((allChannels.foldl resetChannel s).chan c) := by
    rw [chan_resetAll]
    exact deviceResetChannel_resetOf (s.chan c)
  obtain ⟨channels, _, _, _, _, hsame⟩ := sameElsewhere_resetFold allChannels s
  rw [deviceReset, hsame]
  rw [hsame] at hchan
  exact ⟨channels, rfl, hchan⟩

theorem anyTripped_of_idle {s : State} (h : ∀ c, (s.chan c).status = .idle) : s.anyTripped = false := by
  rw [State.anyTripped, List.any_eq_false]
  intro ch hmem
  obtain ⟨i, hi, rfl⟩ := Vector.mem_iff_getElem.mp (Vector.mem_toList_iff.mp hmem)
  have hidle : s.channels[i].status = .idle := h ⟨i, hi⟩
  rw [hidle]
  decide

theorem runningChannels_eq (s : State) :
    runningChannels s = (List.finRange 8).filter (fun c => decide ((s.chan c).status ≠ .idle)) :=
  List.filter_congr fun c _ => by rw [decide_not, ← beq_eq_decide]; rfl

theorem packList_channels (cs : List Channel) : packList (fun c : Channel => pack16 c.val) cs =
    BitVec.ofNat 16 cs.length :: cs.map (fun c => BitVec.ofNat 16 c.val) := by
  simp only [packList, pack16, List.singleton_append, ← List.map_eq_flatMap]

/-- Settles O32: each channel reset once, the shared blocks cleared, and the reply placed in an empty queue with the flags so left. -/
theorem resetDeviceEffect : Obligations.ResetDeviceEffect := by
  intro s r rest ht hk
  have hexec : exec .resetDevice s = .next (finishRequest r (deviceReset s).1 (deviceReset s).2) :=
    serveWhole_taken (body := fun _ s => deviceReset s) ht hk
  obtain ⟨-, -, hwalk⟩ := ht
  obtain ⟨channels, hreset, hchannels⟩ := deviceReset_eq s
  have huntripped : State.anyTripped (resetShared { s with channels := channels }) = false :=
    anyTripped_of_idle fun c => (hchannels c).state.1
  rw [hreset] at hexec
  refine ⟨_, hexec, hchannels, rfl, rfl, rfl, rfl, rfl, rfl, rfl, rfl, rfl, rfl, rfl, rfl, rfl, rfl, rfl, rfl, rfl, rfl, rfl, rfl,
    rfl, hwalk, rfl, rfl, ?_⟩
  have hreply : (deviceReset s).1 = Answer.done (packList (fun c : Channel => pack16 c.val) (runningChannels s)) := rfl
  rw [hreply, packList_channels, runningChannels_eq, finishRequest, produceReply, State.deviceFlags, huntripped]
  rfl

end Sys2Proof.Proofs
end

section
/-! PROOF. Refused requests (R182 to R184): what a request row leaves when it refuses, when its START begins a walk, and when it waits. -/

namespace Sys2Proof.Proofs

open Sys2Proof.Machine Sys2Proof.Safety Sys2Proof.Laws

/-! ## The two outcomes of an execution -/

/-- An execution either answers OK or leaves the state as it was. -/
def OkOrUnchanged (s : State) (done : Answer × State) : Prop := done.1.outcome = .ok ∨ done.2 = s

theorem OkOrUnchanged.inRange {s : State} {α : Type} {field : Option α} {body : α → Answer × State}
    (hbody : ∀ a, OkOrUnchanged s (body a)) : OkOrUnchanged s (inRangeOr field s body) := by
  cases field with
  | none => exact .inr rfl
  | some a => exact hbody a

section
variable (s : State)

/-! ## Channel requests (R76, R83 to R87) -/

theorem okOrUnchanged_writeChannelConfig (args : List Word) : OkOrUnchanged s (writeChannelConfig args s) :=
  .inRange fun _ => .inRange fun _ => by
    split
    · exact .inl rfl
    · exact .inr rfl

theorem okOrUnchanged_holdRequest (c : Channel) : OkOrUnchanged s (holdRequest c s) := by
  unfold holdRequest
  split
  · exact .inl rfl
  · exact .inl rfl
  · exact .inl rfl
  all_goals exact .inr rfl

theorem okOrUnchanged_resumeRequest (c : Channel) : OkOrUnchanged s (resumeRequest c s) := by
  unfold resumeRequest
  split
  · exact .inr rfl
  · split
    · exact .inl rfl
    · split
      · exact .inl rfl
      · exact .inr rfl
    all_goals exact .inr rfl

theorem okOrUnchanged_skipRequest (c : Channel) : OkOrUnchanged s (skipRequest c s) := by
  unfold skipRequest
  split
  · exact .inl rfl
  · exact .inr rfl

theorem okOrUnchanged_stopRequest (c : Channel) : OkOrUnchanged s (stopRequest c s) := by
  unfold stopRequest
  split
  · exact .inl rfl
  · exact .inl rfl
  · exact .inr rfl
  all_goals exact .inl rfl

theorem okOrUnchanged_clearTripRequest (c : Channel) : OkOrUnchanged s (clearTripRequest c s) := by
  unfold clearTripRequest
  split
  · exact .inr rfl
  · split
    · exact .inl rfl
    · exact .inr rfl

/-! ## Requests on the loaded tables (R28, R29, R59 to R64, R125) -/

theorem okOrUnchanged_writeStepHead (args : List Word) : OkOrUnchanged s (writeStepHead args s) :=
  .inRange fun head => by
    split
    · exact .inr rfl
    · unfold acceptHead
      split <;> exact .inl rfl

theorem okOrUnchanged_writeStepRest (args : List Word) : OkOrUnchanged s (writeStepRest args s) :=
  .inRange fun (index, owner, more) => by
    show OkOrUnchanged s (writeStepTail index owner more s)
    unfold writeStepTail
    split
    · exact .inr rfl
    · split
      · exact .inr rfl
      · split
        · exact .inr rfl
        · split
          · exact .inr rfl
          · exact .inl rfl

theorem okOrUnchanged_freeSteps (c : Channel) : OkOrUnchanged s (freeSteps c s) := by
  unfold freeSteps
  split
  · exact .inl rfl
  · exact .inr rfl

theorem okOrUnchanged_putRouteRequest (r : Route) : OkOrUnchanged s (putRouteRequest r s) := by
  unfold putRouteRequest
  split
  · exact .inr rfl
  · exact .inl rfl

theorem okOrUnchanged_removeRoute (source index : Nat) : OkOrUnchanged s (removeRoute source index s) := by
  unfold removeRoute
  split
  · exact .inr rfl
  · split
    · exact .inl rfl
    · exact .inr rfl

theorem okOrUnchanged_writeLimits (args : List Word) : OkOrUnchanged s (writeLimits args s) :=
  .inRange fun _ => .inRange fun _ => by
    split
    · exact .inr rfl
    · exact .inl rfl

end

/-! ## START (R81) -/

theorem startCheck_some {args : List Word} {s t : State} {a : Answer} (h : startCheck args s = (some a, t)) : t = s := by
  unfold startCheck at h
  split at h
  · split at h
    · cases h; rfl
    · split at h <;> cases h
      rfl
  · cases h; rfl

theorem startCheck_none {args : List Word} {s t : State} (h : startCheck args s = (none, t)) : t.replyQueue = s.replyQueue := by
  unfold startCheck at h
  split at h
  · split at h
    · cases h
    · split at h <;> cases h
      rfl
  · cases h

/-! ## The request rows -/

/-- The row takes the head of the request queue when it is its own; its execution leaves the state as it was when it answers another
outcome than OK, and the replies as they were when it gives no answer yet (R182 to R184). -/
structure RequestRow (row : State → Host.Outcome State Fault Refusal) (mine : Request → Bool)
    (body : List Word → State → Option Answer × State) : Prop where
  row_eq  : row = serve mine body
  answers : ∀ {args s a t}, body args s = (some a, t) → OkOrUnchanged s (a, t)
  begins  : ∀ {args s t}, body args s = (none, t) → t.replyQueue = s.replyQueue

/-- The row is a request row, of some kind and execution. -/
def IsRequestRow (row : State → Host.Outcome State Fault Refusal) : Prop := ∃ mine body, RequestRow row mine body

/-- A row whose execution always answers. -/
theorem isRequestRow_answering {mine : Request → Bool} {body : List Word → State → Answer × State}
    (hbody : ∀ args s, OkOrUnchanged s (body args s)) :
    IsRequestRow (serve mine fun args s => (some (body args s).1, (body args s).2)) :=
  ⟨mine, _, { row_eq := rfl, answers := fun h => by cases h; exact hbody _ _, begins := nofun }⟩

theorem isRequestRow_whole {kind : Nat} {body : List Word → State → Answer × State}
    (hbody : ∀ args s, OkOrUnchanged s (body args s)) : IsRequestRow (serveWhole kind body) := isRequestRow_answering hbody

theorem isRequestRow_start : IsRequestRow execStart :=
  ⟨fun r => r.kind == 0x13, startCheck,
    { row_eq := rfl, answers := fun h => .inr (startCheck_some h), begins := startCheck_none }⟩

theorem isRequestRow_of_mem {row : Instr} (h : row ∈ requestRows) : IsRequestRow (exec row) := by
  unfold exec
  cases row with
  | unknownRequest => exact isRequestRow_answering (body := fun _ s => refuseWith .unknownRequest s) fun _ _ => .inr rfl
  | identify => exact isRequestRow_whole fun _ _ => .inl rfl
  | readDeviceStatus => exact isRequestRow_whole fun _ _ => .inRange fun _ => .inl rfl
  | setDeviceConfig => exact isRequestRow_whole fun _ _ => .inRange fun _ => .inRange fun _ => .inl rfl
  | clearDeviceFlags => exact isRequestRow_whole fun _ _ => .inl rfl
  | resetDevice => exact isRequestRow_whole fun _ _ => .inl rfl
  | setHallBudget => exact isRequestRow_whole fun _ _ => .inRange fun _ => .inRange fun _ => .inl rfl
  | writeChannelConfig => exact isRequestRow_whole fun args s => okOrUnchanged_writeChannelConfig s args
  | readChannelConfig => exact isRequestRow_whole fun _ _ => .inRange fun _ => .inl rfl
  | readChannel => exact isRequestRow_whole fun _ _ => .inRange fun _ => .inRange fun _ => .inl rfl
  | start => exact isRequestRow_start
  | hold => exact isRequestRow_whole fun _ s => .inRange (okOrUnchanged_holdRequest s)
  | resume => exact isRequestRow_whole fun _ s => .inRange (okOrUnchanged_resumeRequest s)
  | skipStep => exact isRequestRow_whole fun _ s => .inRange (okOrUnchanged_skipRequest s)
  | stop => exact isRequestRow_whole fun _ s => .inRange (okOrUnchanged_stopRequest s)
  | clearTrip => exact isRequestRow_whole fun _ s => .inRange (okOrUnchanged_clearTripRequest s)
  | writeStepPart0 => exact isRequestRow_answering fun args s => okOrUnchanged_writeStepHead s args
  | writeStepPart1 => exact isRequestRow_answering fun args s => okOrUnchanged_writeStepRest s args
  | readStep => exact isRequestRow_whole fun _ _ => .inRange fun _ => .inRange fun _ => .inl rfl
  | freeSteps => exact isRequestRow_whole fun _ s => .inRange (okOrUnchanged_freeSteps s)
  | writeRoute => exact isRequestRow_whole fun _ s => .inRange (okOrUnchanged_putRouteRequest s)
  | removeRoute => exact isRequestRow_whole fun _ s => .inRange fun _ => .inRange fun _ => okOrUnchanged_removeRoute s _ _
  | readRoutes => exact isRequestRow_whole fun _ _ => .inRange fun _ => .inRange fun _ => .inRange fun _ => .inl rfl
  | writeLimits => exact isRequestRow_whole fun args s => okOrUnchanged_writeLimits s args
  | readLimits => exact isRequestRow_whole fun _ _ => .inRange fun _ => .inl rfl
  | readTrip => exact isRequestRow_whole fun _ _ => .inRange fun _ => .inl rfl
  | readCounters => exact isRequestRow_whole fun _ _ => .inRange fun _ => .inRange fun _ => .inl rfl
  | readHistory => exact isRequestRow_whole fun _ _ => .inRange fun _ => .inRange fun _ => .inl rfl
  | clearCounters => exact isRequestRow_whole fun _ _ => .inRange fun _ => .inRange fun _ => .inl rfl
  | clearCauses => exact isRequestRow_whole fun _ _ => .inRange fun _ => .inRange fun _ => .inRange fun _ => .inl rfl
  | _ => simp [requestRows] at h

/-! ## A request's turn (R182, R184) -/

section
variable {s t : State} {r : Request} {rest : List Request} {mine : Request → Bool}
variable {body : List Word → State → Option Answer × State}

/-- Everything a row can do with a request taken: place its reply, or begin what answers later. -/
theorem serve_next (ht : Taken s r rest) (h : serve mine body s = .next t) :
    (∃ a u, body r.args s = (some a, u) ∧ t = finishRequest r a u) ∨ body r.args s = (none, t) := by
  have hready := engineReady_of_taken ht
  obtain ⟨hhead, -⟩ := ht
  simp only [serve, hhead, hready, if_true] at h
  split at h
  · split at h
    · next a u hb => cases h; exact .inl ⟨a, u, hb, rfl⟩
    · next hb => cases h; exact .inr hb
  · cases h

/-- While the engine is not ready the head waits, unchanged. -/
theorem serve_waits (hhead : s.requestQueue = r :: rest) (h : 4 ≤ s.replyQueue.length ∨ s.walk.isSome = true) :
    serve mine body s = .next s ∨ serve mine body s = .refused .notAtHead := by
  have hready : ¬s.engineReady = true := by
    rw [State.engineReady, Bool.and_eq_true, decide_eq_true_eq]
    rintro ⟨hroom, hnone⟩
    rcases h with hfull | hsome
    · exact absurd hfull (Nat.not_le.mpr hroom)
    · rw [Option.isNone_iff_eq_none.mp hnone] at hsome; cases hsome
  simp only [serve, hhead, hready]
  split
  · exact .inl rfl
  · exact .inr rfl

end

/-- Settles O12: a reply other than OK was placed by an execution that left the state as it was; a row that may not take its request
waits. -/
theorem refusedRequestChangesNothing : Obligations.RefusedRequestChangesNothing := by
  refine ⟨fun c hc s t r rest reply ht hexec hreply hcode => ?_, fun c hc s r rest hhead hbusy => ?_⟩
  · obtain ⟨mine, body, hrow⟩ := isRequestRow_of_mem hc
    rw [hrow.row_eq] at hexec
    have hnext := serve_next ht hexec
    obtain ⟨hhead, -⟩ := ht
    rcases hnext with ⟨a, u, hb, rfl⟩ | hb
    · obtain ⟨-, hplaced⟩ := List.append_inj' hreply rfl
      cases hplaced
      rcases hrow.answers hb with hok | rfl
      · exact absurd hok hcode
      · exact ⟨rfl, finishRequest_eq a hhead⟩
    · have hkept := hrow.begins hb
      rw [hkept] at hreply
      exact absurd hreply (by simp)
  · obtain ⟨mine, body, hrow⟩ := isRequestRow_of_mem hc
    rw [hrow.row_eq]
    exact serve_waits hhead hbusy

end Sys2Proof.Proofs
end

section
/-! PROOF. The part at power-on: every field's value after POWER_ON_RESET (R1, R195), and the state after reset meets the invariants that
every step keeps. -/

namespace Sys2Proof.Proofs

open Sys2Proof.Machine Sys2Proof.Safety Sys2Proof.Laws

/-! ## A channel at power-on -/

@[simp] theorem point_initial (p : PointNumber) : ChannelState.initial.point p = Point.initial := Vector.get_replicate 228 Point.initial p

@[simp] theorem limits_initial (id : Fin 9) : ChannelState.initial.limits.get id = none := Vector.get_replicate 9 none id

@[simp] theorem limitCounters_initial (id : Fin 9) : ChannelState.initial.limitCounters.get id = 0 := Vector.get_replicate 9 0 id

@[simp] theorem persistence_initial (k : Fin 4) : ChannelState.initial.persistence.get k = 0 := Vector.get_replicate 4 0 k

theorem powerOnChannel_initial : PowerOnChannel .initial where
  converter := ⟨rfl, rfl⟩
  pack := ⟨rfl, rfl, rfl⟩
  policy := ⟨rfl, rfl, rfl, rfl⟩
  times := ⟨rfl, rfl, rfl, rfl, rfl⟩
  points := point_initial
  stamp := ⟨rfl, rfl⟩
  context := ⟨rfl, rfl, rfl, rfl, rfl, rfl, rfl⟩
  step := ⟨rfl, rfl, rfl, rfl, rfl⟩
  totals := ⟨rfl, rfl, rfl, rfl⟩
  marks := ⟨rfl, rfl, rfl, rfl⟩
  timers := ⟨rfl, rfl⟩
  setpoints := ⟨rfl, rfl, rfl⟩
  limits := ⟨rfl, rfl, rfl⟩
  trip := rfl
  lifetime := ⟨rfl, rfl, rfl, rfl, rfl, rfl, rfl, rfl⟩
  cycle := ⟨rfl, rfl, rfl, rfl, rfl⟩
  causes := rfl

/-- The power-on configuration is within its ranges (05 section 5.1). -/
theorem configOk_initial : ConfigOk .initial where
  currentMaximum := by decide
  maxInterval := by decide
  maxPointAge := by decide
  confirmCount := by decide

/-- Counters and accumulators are 0, lists empty, and no limit set is loaded. -/
theorem channelOk_initial : ChannelOk .initial where
  config := configOk_initial
  counts := by decide
  charge := by decide
  energy := by decide
  fine := Nat.zero_le _
  coarse := Nat.zero_le _
  magnitude := Nat.zero_le _
  outbox := nofun
  refresh := Nat.zero_le _
  stack := ⟨Nat.zero_le _, List.nodup_nil, nofun⟩
  lifetime := ⟨Nat.zero_le _, Nat.zero_le _, Nat.zero_le _, Nat.zero_le _⟩
  cycle := ⟨Nat.zero_le _, Nat.zero_le _, Nat.zero_le _, Nat.zero_le _, Nat.zero_le _⟩
  cycleCount := Nat.zero_le _
  history := Nat.zero_le _
  ages p := by rw [point_initial]; decide
  unloaded _ := rfl

/-- There is no limit entry and no predicate, every persistence counter is 0, and no timer runs. -/
theorem monitorOk_initial : MonitorOk .initial where
  times := by decide
  entries id e h := by rw [limits_initial] at h; cases h
  counters id := ⟨by simp, fun _ => limitCounters_initial id, fun e h => by rw [limits_initial] at h; cases h⟩
  list := nofun
  judged k := ⟨by simp, fun h => absurd rfl h⟩
  timers := ⟨nofun, nofun⟩

/-! ## POWER_ON_RESET (R1, R195) -/

theorem reset_idle (c : Channel) : (State.reset.chan c).status = .idle := congrArg ChannelState.status (State.chan_reset c)

/-- The values at power-on are the same whatever the straps read, the ring carries or the surroundings have waiting. -/
theorem powerOnValues_reset (pending : List Instr) (straps : NodeAddress) (ringOut : RingOutput) :
    PowerOnValues { State.reset with pending := pending, nodeAddress := straps, ringOut := ringOut } where
  receiver := ⟨rfl, rfl, rfl⟩
  output := ⟨rfl, rfl⟩
  routes := rfl
  channels c := (State.chan_reset c).symm ▸ powerOnChannel_initial
  records i := (State.record_reset i).symm ▸ ⟨rfl, rfl⟩
  staged := rfl
  hallStop := ⟨rfl, rfl⟩
  time := rfl
  arbiter := ⟨rfl, rfl, rfl, rfl⟩
  queues := ⟨rfl, rfl, rfl, rfl⟩
  device := ⟨rfl, rfl, rfl, rfl, rfl⟩

/-- The state in which POWER_ON_RESET leaves the part. -/
theorem exec_powerOnReset (period : ResetPeriod) (s : State) : exec (.powerOnReset period) s =
    .next { State.reset with pending := s.pending, nodeAddress := period.straps, ringOut := .bits period.bits } := rfl

/-- Settles O2: the state after reset and the end of POWER_ON_RESET differ in what waits, the straps and the bits repeated, and no channel
is TRIPPED. -/
theorem powerOnResetGivesPowerOnValues : Obligations.PowerOnResetGivesPowerOnValues :=
  ⟨powerOnValues_reset [] 0 .silent, fun period s =>
    ⟨_, exec_powerOnReset period s, powerOnValues_reset s.pending period.straps (.bits period.bits), rfl, rfl,
      anyTripped_of_idle reset_idle, rfl⟩⟩

/-! ## The invariants at reset -/

theorem queuesOk_reset : QueuesOk State.reset :=
  queueing_iff.mp ⟨eventsFit_nil rfl, Nat.zero_le _, Nat.zero_le _, nofun⟩

theorem routesOk_nil : RoutesOk [] where
  count := Nat.zero_le _
  order := .nil
  targets := .nil
  keys := nofun

theorem channelsOk_reset : ChannelsOk State.reset := fun c => (State.chan_reset c).symm ▸ channelOk_initial

theorem monitorsOk_reset : MonitorsOk State.reset := fun c => (State.chan_reset c).symm ▸ monitorOk_initial

theorem powerOk_reset : PowerOk State.reset := powered_iff.mp (powered_of_idle rfl rfl reset_idle)

theorem quietOk_reset : QuietOk State.reset := Resting.quiet fun c => by rw [State.chan_reset]; rfl

/-- Settles O3: each invariant at the reset values, the channels' and the monitors' from one channel at power-on. -/
theorem resetMeetsInvariants : Obligations.ResetMeetsInvariants :=
  ⟨queuesOk_reset, routesOk_nil, StoreOk.allFree rfl rfl, channelsOk_reset, monitorsOk_reset, powerOk_reset, quietOk_reset⟩

end Sys2Proof.Proofs
end
